-- ==== Sys2Proof/Word.lean ====
section
/-! DEFINITION. Words, fields and the plain containers of the model: bit vectors of the widths that the
manual names, a sparse map kept in one canonical form, and list access by index. -/
namespace Sys2Proof

/-- One byte, the smallest addressable unit (R4). -/
abbrev W8 := BitVec 8
/-- A 16-bit word: a lane mask, an ASID, a token tag. -/
abbrev W16 := BitVec 16
/-- A 32-bit word: an instruction slot, a lane register, a token element. -/
abbrev W32 := BitVec 32
/-- A 64-bit word: a uniform register, an address, the widest port value. -/
abbrev W64 := BitVec 64

/-- Bits `[lo + n - 1 : lo]` of a natural number, as a natural number. -/
def bitsOf (x lo n : Nat) : Nat := x / 2 ^ lo % 2 ^ n

/-- The bit of a lane mask that belongs to lane `l`. -/
def laneBit (m : W16) (l : Nat) : Bool := m.getLsbD l

/-- A lane mask with exactly the lanes for which `f` holds. -/
def maskOf (f : Nat → Bool) : W16 :=
  BitVec.ofNat 16 ((List.range 16).foldl (fun acc l => if f l then acc + 2 ^ l else acc) 0)

/-- The lanes of a mask, lowest first. -/
def lanesOf (m : W16) : List Nat := (List.range 16).filter (laneBit m)

/-- The number of lanes of a mask. -/
def maskCount (m : W16) : Nat := (lanesOf m).length

/-- A sparse map from numbers to plain data: pairs with keys strictly rising. -/
abbrev PMap (α : Type) := List (Nat × α)

/-- The entry under a key, if the map lists it. -/
def PMap.get? {α : Type} : PMap α → Nat → Option α
  | [], _ => none
  | (k, v) :: rest, n => if k = n then some v else PMap.get? rest n

/-- The entry under a key, or `d` where the map lists none. -/
def PMap.getD {α : Type} (m : PMap α) (n : Nat) (d : α) : α := (PMap.get? m n).getD d

/-- The map with the key's entry set, keeping the keys in rising order. -/
def PMap.insert {α : Type} : PMap α → Nat → α → PMap α
  | [], n, v => [(n, v)]
  | (k, x) :: rest, n, v =>
    if n < k then (n, v) :: (k, x) :: rest
    else if n = k then (n, v) :: rest
    else (k, x) :: PMap.insert rest n v

/-- The map without the key, however often it is listed. -/
def PMap.erase {α : Type} : PMap α → Nat → PMap α
  | [], _ => []
  | (k, x) :: rest, n => if k = n then PMap.erase rest n else (k, x) :: PMap.erase rest n

/-- The map with the key set to `v`, where the value `d` is the one an unlisted key holds: writing `d` removes
the entry, so that equal maps are equal lists. -/
def PMap.set {α : Type} [DecidableEq α] (m : PMap α) (d : α) (n : Nat) (v : α) : PMap α :=
  if v = d then PMap.erase m n else PMap.insert m n v

/-- Keys strictly rising, each above the bound, and no entry equal to the unlisted value. -/
def PMap.wfAbove {α : Type} [DecidableEq α] (d : α) : Option Nat → PMap α → Bool
  | _, [] => true
  | lo, (k, v) :: rest =>
    (match lo with | none => true | some b => decide (b < k)) && decide (v ≠ d) && PMap.wfAbove d (some k) rest

/-- The canonical form of a map whose unlisted keys hold `d`. -/
def PMap.wf {α : Type} [DecidableEq α] (d : α) (m : PMap α) : Bool := PMap.wfAbove d none m

/-- The list with the element at the index replaced by its image; the same list where the index is out of range. -/
def modifyAt {α : Type} (l : List α) (i : Nat) (f : α → α) : List α :=
  match l, i with
  | [], _ => []
  | x :: rest, 0 => f x :: rest
  | x :: rest, n + 1 => x :: modifyAt rest n f

/-- The index of the first element that satisfies the test. -/
def findIdx? {α : Type} (p : α → Bool) : List α → Option Nat
  | [] => none
  | x :: rest => if p x then some 0 else (findIdx? p rest).map (· + 1)

end Sys2Proof
end

