-- ==== Sys2Proof/Syntax.lean ====
section
/-! DEFINITION. The instruction set as one inductive type: the operand and modifier types of the encodings,
and one constructor for each row of the opcode table (device events, block instructions, fabric operators). -/
namespace Sys2Proof

/-- The guard of an instruction (R36). -/
inductive Guard where
  | always | when | unless
  deriving DecidableEq, Repr

/-- An operand port of a consumer (R35). -/
inductive Port where
  | a | b | c | p | w
  deriving DecidableEq, Repr

/-- The consumer that a target field names: a slot and one of its ports (R35). -/
structure Dest where
  slot : BitVec 6
  port : Port
  deriving DecidableEq, Repr

/-- A register named by the RG layout, with its access form (R44, R46). -/
inductive RegRef where
  /-- v(n): 32 bits per lane, or with `.b64` the pair v(n+1):v(n). -/
  | lane (n : BitVec 8) (b64 : Bool)
  /-- g(n): 64 bits, uniform. -/
  | uniform (n : BitVec 6)
  /-- p(n): one bit per lane, or with `.mask` the whole register. -/
  | mask (n : BitVec 3) (whole : Bool)
  /-- ek(n): the kind of the token of eyelet v(248+n), read only. -/
  | kind (n : BitVec 3)
  deriving DecidableEq, Repr

/-- The control registers of R415. -/
inductive CtlReg where
  | laneid | groupid | teamid | clusterid | coreid | dieid | teamh
  | ibud | tbud | cont | prio | waitswap | tapest | tapeseg | asid | tenant
  | fltinfo | fltaddr | epc | ssca | sscb | hsel | hent0 | hent1
  deriving DecidableEq, Repr

/-- The type selected by `movi` long (R54). -/
inductive MovType where
  | b32 | n64 | i64
  deriving DecidableEq, Repr

/-- Operand width (R77). -/
inductive Width where
  | b32 | b64
  deriving DecidableEq, Repr

/-- Signed and unsigned integer types (R77). -/
inductive IntType where
  | i32 | n32 | i64 | n64
  deriving DecidableEq, Repr

/-- The bitwise operations of 0x05E and 0x05F (R77). -/
inductive BitOp where
  | and | or | xor | andn | orn | xnor | not
  deriving DecidableEq, Repr

/-- Integer comparison conditions (R77). -/
inductive Cond where
  | eq | ne | lt | le | gt | ge
  deriving DecidableEq, Repr

/-- Floating comparison conditions (R77). -/
inductive FCond where
  | eq | ne | lt | le | gt | ge | un | ord
  deriving DecidableEq, Repr

/-- The scale of `lea` (R77). -/
inductive Scale where
  | x1 | x2 | x4 | x8 | x16
  deriving DecidableEq, Repr

/-- Rounding modes that an instruction can name (R77). -/
inductive Rounding where
  | rne | rz | rup | rdn
  deriving DecidableEq, Repr

/-- The source type of `ext` (R77). -/
inductive ExtSource where
  | i8 | n8 | i16 | n16
  deriving DecidableEq, Repr

/-- The source lane of `xlane` (R77). -/
inductive LaneForm where
  | lo | hi | flip | at
  deriving DecidableEq, Repr

/-- The forms of `vote` (R77). -/
inductive VoteForm where
  | some | every | mask | same
  deriving DecidableEq, Repr

/-- The element type of `gscan` and `gred` maximum and minimum (R77). -/
inductive RedType where
  | i32 | n32 | f32
  deriving DecidableEq, Repr

/-- The operation of the bitwise `gred` (R77). -/
inductive RedBit where
  | and | or | xor
  deriving DecidableEq, Repr

/-- The operation of `pand`, `por`, `pxor`, `pandn` (R77). -/
inductive MaskOp where
  | and | or | xor | andn
  deriving DecidableEq, Repr

/-- The relation of `lmask` (R77). -/
inductive LaneRel where
  | lt | le | gt | ge | eq
  deriving DecidableEq, Repr

/-- The width and extension of a load (R77). -/
inductive LoadWidth where
  | n8 | i8 | n16 | i16 | b32 | b64
  deriving DecidableEq, Repr

/-- The width of a store (R77). -/
inductive StoreWidth where
  | b8 | b16 | b32 | b64
  deriving DecidableEq, Repr

/-- Scopes of the ordering rules (R78). -/
inductive Scope where
  | group | team | cluster | die | device | system
  deriving DecidableEq, Repr

/-- The order field of an atomic (R78). -/
inductive Order where
  | rlx | acq | rel | acqrel
  deriving DecidableEq, Repr

/-- The space field of an atomic (R78). -/
inductive Space where
  | shared | spad
  deriving DecidableEq, Repr

/-- The extension word of the atomics less its width bit (R78). -/
structure AtomKind where
  scope : Scope
  order : Order
  space : Space
  deriving DecidableEq, Repr

/-- The two formats of `atom.fadd` with one element per lane; the width bit of R78 must match. -/
inductive FaddType where
  | f32 | f64
  deriving DecidableEq, Repr

/-- The two packed formats of `atom.fadd`. -/
inductive FaddPair where
  | f16x2 | bf16x2
  deriving DecidableEq, Repr

/-- The extension word of `mma` (R79): the depth is chunk times 2 to the power n. -/
structure MmaKind where
  n : BitVec 3
  va : Bool
  vb : Bool
  deriving DecidableEq, Repr

/-- A source of an operator word (R279). -/
inductive Src where
  | none | k0 | k1 | k2 | i0 | i1 | i2 | i3
  deriving DecidableEq, Repr

/-- The fields of an operator word beside its opcode, modifier and aux fields (R279). -/
structure OpWord where
  a : Src
  b : Src
  c : Src
  p : Src
  sense : Bool
  o0 : Bool
  o1 : Bool
  tagsel : Bool
  tbase : BitVec 5
  tsize : BitVec 6
  deriving DecidableEq, Repr

/-- The scope of `welt` (R306). -/
inductive WeltScope where
  | stack | device
  deriving DecidableEq, Repr

/-- The scope of the fabric `fence` (R306). -/
inductive FabScope where
  | region | stack | device
  deriving DecidableEq, Repr

/-- The window of `win`: each field holds the manual's number less one (R312). -/
structure WinKind where
  k : BitVec 3
  s : BitVec 2
  d : BitVec 2
  n : BitVec 6
  deriving DecidableEq, Repr

/-- The kind of a token (R24). Reserved kinds are never produced. -/
inductive TokKind where
  | data | endOfTile | endOfStream | endOfStreamError | config | reconfig | faultStall
  deriving DecidableEq, Repr

/-- A token of 576 bits (R23), `Machine.tokenBits`. Of the check field, which follows from the other bits, it holds what a receiver
finds: `damaged` tells an uncorrectable error or a CRC mismatch (R25). -/
structure Token where
  data : List W32
  valid : W16
  kind : TokKind
  ctx : BitVec 2
  chan : BitVec 8
  tag : W16
  damaged : Bool := false
  deriving DecidableEq, Repr


/-- A stream of elements that bank units serve: a team's copy, or an AG node of a residency (R324). -/
inductive Streamer where
  | copy (team seq : Nat)
  | node (stack slot index : Nat)
  deriving DecidableEq, Repr

/-- A setting of the platform (R404): the ASID table base (R405), a core's swap area (R352), a Seam binding (R428), the
ASID of a host function (R426), or the queue windows of a virtual function (R425). -/
inductive PlatformSetting where
  | asidTable (base : Nat)
  | swapArea (core base : Nat)
  | seamBinding (port index : Nat) (sender : W16) (here : Option W16)
  | hostFunction (function : Nat) (asid : W16)
  | virtualWindows (function base count : Nat)
  deriving DecidableEq, Repr

/-- A host access through CXL.mem (R426). -/
inductive HostAccess where
  | read (bytes : Nat)
  | write (data : List W8)
  deriving DecidableEq, Repr

/-- A host's access to a register without behaviour of its own (R5): a write of 64 bits, or a read of a number of bytes. -/
inductive RegisterAccess where
  | write (v : W64)
  | read (bytes : Nat)
  deriving DecidableEq, Repr

/-- A remote enqueue of a Seam peer (R428): the sender's ASID, the virtual address of the queue window and the token. -/
structure RemoteEnqueue where
  sender : W16
  va : W64
  tok : Token
  deriving DecidableEq, Repr

/-- The instruction set and the device events: one constructor for each row of the opcode table, those with operands first.
An instruction carries its modifiers and immediates; its targets and guard belong to the node of the block that holds
it, since a Twill element runs the same operation without them. A device event carries what it is about. -/
inductive Instr where
  /-- R52. Reads a register, mask or eyelet token and sends it to its target. -/
  | rd (r : RegRef)
  /-- R53. Writes its value to a register at commit, or pushes a token to a bound eyelet. -/
  | wr (r : RegRef)
  /-- R54. Delivers a sign-extended 12-bit immediate as a uniform value. -/
  | moviShort (imm : BitVec 12)
  /-- R54. Delivers the extension word as a 32-bit or extended 64-bit uniform value. -/
  | moviLong (ty : MovType) (imm : W32)
  /-- R55. Places the extension word above the low 32 bits of operand a. -/
  | movh (imm : W32)
  /-- R56. Branches non-null lanes to H plus an offset; the same encoding serves br.pack. -/
  | br (e : BitVec 2) (off : BitVec 19)
  /-- R57. Branches each lane to the address in its operand. -/
  | bri (e : BitVec 2)
  /-- R58. Branches to a label and pushes a call entry. -/
  | call (e : BitVec 2) (off : BitVec 19)
  /-- R70. Calls the uniform address in operand a. -/
  | callInd (e : BitVec 2)
  /-- R59. Returns lanes to the top call entry's address, popping it once all its lanes have returned. -/
  | ret (e : BitVec 2)
  /-- R60. Marks non-null lanes exited. -/
  | exit (e : BitVec 2)
  /-- R61. Sets g62 and yields the team through its yield queue and continuation block. -/
  | yield (e : BitVec 2)
  /-- R361. Names the join address for the split of its block's commit. -/
  | jset (off : BitVec 19)
  /-- R416. Reads a control register at block start. -/
  | srr (cr : CtlReg)
  /-- R417. Writes a control register at commit. -/
  | srw (cr : CtlReg)
  /-- R419. Enters supervisor mode after the block commits. -/
  | trap (imm : BitVec 12)
  /-- R70. Delivers H plus 16 times the extension word. -/
  | adr (off : W32)
  /-- R70. Makes the commit wait imm12 cycles after block start. -/
  | spin (imm : BitVec 12)
  /-- R108. Left shift without count reduction. -/
  | shl (w : Width)
  /-- R108. Logical or arithmetic right shift. -/
  | shr (ty : IntType)
  /-- R109. 32-bit and, or, xor, andn, orn, xnor or not, as the modifier selects. -/
  | bitwiseB32 (op : BitOp)
  /-- R109. 64-bit and, or, xor, andn, orn, xnor or not, as the modifier selects. -/
  | bitwiseB64 (op : BitOp)
  /-- R110. Signed 32-bit comparison giving 1 or 0. -/
  | cmpI32 (cc : Cond)
  /-- R110. Unsigned 32-bit comparison. -/
  | cmpN32 (cc : Cond)
  /-- R110. Signed 64-bit comparison. -/
  | cmpI64 (cc : Cond)
  /-- R110. Unsigned 64-bit comparison. -/
  | cmpN64 (cc : Cond)
  /-- R111. Integer minimum. -/
  | min (ty : IntType)
  /-- R111. Integer maximum. -/
  | max (ty : IntType)
  /-- R112. Signed absolute value, optionally saturating. -/
  | abs (sat : Bool) (w : Width)
  /-- R113. Population count. -/
  | popc (w : Width)
  /-- R113. Leading zero count. -/
  | clz (w : Width)
  /-- R113. Bit reversal. -/
  | brev (w : Width)
  /-- R114. Bit-field extract with sign or zero extension. -/
  | bfe (ty : IntType)
  /-- R115. Bit-field insert. -/
  | bfi (w : Width)
  /-- R116. Selects a or b by bit 0 of c. -/
  | sel (w : Width)
  /-- R118. Base plus scaled signed index, unchecked. -/
  | leaShort (sc : Scale)
  /-- R118. Base plus scaled index plus a 32-bit offset from the extension word. -/
  | leaLong (sc : Scale) (off : W32)
  /-- R124. binary64 add, rounded once. -/
  | faddF64 (rm : Rounding)
  /-- R124. binary32 add. -/
  | faddF32 (rm : Rounding)
  /-- R124. binary16 add. -/
  | faddF16 (rm : Rounding)
  /-- R124. bfloat16 add, rne only. -/
  | faddBf16 (rm : Rounding)
  /-- R124. Packed binary16 add. -/
  | faddF16x2 (rm : Rounding)
  /-- R124. Packed bfloat16 add, rne only. -/
  | faddBf16x2 (rm : Rounding)
  /-- R124. binary64 subtract. -/
  | fsubF64 (rm : Rounding)
  /-- R124. binary32 subtract. -/
  | fsubF32 (rm : Rounding)
  /-- R124. binary16 subtract. -/
  | fsubF16 (rm : Rounding)
  /-- R124. bfloat16 subtract. -/
  | fsubBf16 (rm : Rounding)
  /-- R124. Packed binary16 subtract. -/
  | fsubF16x2 (rm : Rounding)
  /-- R124. Packed bfloat16 subtract. -/
  | fsubBf16x2 (rm : Rounding)
  /-- R124. binary64 multiply. -/
  | fmulF64 (rm : Rounding)
  /-- R124. binary32 multiply. -/
  | fmulF32 (rm : Rounding)
  /-- R124. binary16 multiply. -/
  | fmulF16 (rm : Rounding)
  /-- R124. bfloat16 multiply. -/
  | fmulBf16 (rm : Rounding)
  /-- R124. Packed binary16 multiply. -/
  | fmulF16x2 (rm : Rounding)
  /-- R124. Packed bfloat16 multiply. -/
  | fmulBf16x2 (rm : Rounding)
  /-- R124. binary64 fused multiply-add. -/
  | fmaF64 (rm : Rounding)
  /-- R124. binary32 fused multiply-add. -/
  | fmaF32 (rm : Rounding)
  /-- R124. binary16 fused multiply-add. -/
  | fmaF16 (rm : Rounding)
  /-- R124. bfloat16 fused multiply-add. -/
  | fmaBf16 (rm : Rounding)
  /-- R124. Packed binary16 fused multiply-add. -/
  | fmaF16x2 (rm : Rounding)
  /-- R124. Packed bfloat16 fused multiply-add. -/
  | fmaBf16x2 (rm : Rounding)
  /-- R126. binary64 comparison. -/
  | fcmpF64 (cc : FCond)
  /-- R126. binary32 comparison. -/
  | fcmpF32 (cc : FCond)
  /-- R126. binary16 comparison. -/
  | fcmpF16 (cc : FCond)
  /-- R126. bfloat16 comparison. -/
  | fcmpBf16 (cc : FCond)
  /-- R129. Narrowing f64 to f32. -/
  | cvtF32F64 (rm : Rounding) (sat : Bool)
  /-- R129. Narrowing f32 to f16. -/
  | cvtF16F32 (rm : Rounding) (sat : Bool)
  /-- R129. Narrowing f32 to bf16, rne only. -/
  | cvtBf16F32 (rm : Rounding) (sat : Bool)
  /-- R129. Narrowing f32 to e4m3. -/
  | cvtE4m3F32 (rm : Rounding) (sat : Bool)
  /-- R129. Narrowing f32 to e5m2. -/
  | cvtE5m2F32 (rm : Rounding) (sat : Bool)
  /-- R129. Narrowing f32 to e2m1. -/
  | cvtE2m1F32 (rm : Rounding) (sat : Bool)
  /-- R130. Stochastic rounding f32 to e4m3. -/
  | cvtSrE4m3F32 (sat : Bool)
  /-- R130. Stochastic rounding f32 to e5m2. -/
  | cvtSrE5m2F32 (sat : Bool)
  /-- R130. Stochastic rounding f32 to e2m1. -/
  | cvtSrE2m1F32 (sat : Bool)
  /-- R131. Two f32 values to packed f16. -/
  | cvtF16x2F32 (rm : Rounding) (sat : Bool)
  /-- R131. Two f32 values to packed bf16. -/
  | cvtBf16x2F32 (rm : Rounding) (sat : Bool)
  /-- R133. Signed 32-bit integer to f32. -/
  | cvtF32I32 (rm : Rounding)
  /-- R133. Unsigned 32-bit integer to f32. -/
  | cvtF32N32 (rm : Rounding)
  /-- R133. Signed 64-bit integer to f64. -/
  | cvtF64I64 (rm : Rounding)
  /-- R133. Unsigned 64-bit integer to f64. -/
  | cvtF64N64 (rm : Rounding)
  /-- R134. f32 to clamped signed 32-bit integer. -/
  | cvtI32F32 (rm : Rounding)
  /-- R134. f32 to clamped unsigned 32-bit integer. -/
  | cvtN32F32 (rm : Rounding)
  /-- R134. f64 to clamped signed 64-bit integer. -/
  | cvtI64F64 (rm : Rounding)
  /-- R134. f64 to clamped unsigned 64-bit integer. -/
  | cvtN64F64 (rm : Rounding)
  /-- R135. Widening integer extension of 8 or 16 bits. -/
  | ext (src : ExtSource) (w : Width)
  /-- R136. Rounds a 32.32 fixed-point value to i32. -/
  | nar (rm : Rounding) (sat : Bool)
  /-- R132. Power-of-two scale of an f32 magnitude. -/
  | cvtE8m0F32 (rm : Rounding)
  /-- R132. E8M0 scale to exact f32. -/
  | cvtF32E8m0 (rm : Rounding)
  /-- R141. Correctly rounded f64 reciprocal. -/
  | rcpF64 (rm : Rounding)
  /-- R141. Correctly rounded f64 square root. -/
  | sqrtF64 (rm : Rounding)
  /-- R137. Rounds to an integral f32. -/
  | frndF32 (rm : Rounding)
  /-- R138. Scales by 2^n with one rounding. -/
  | ldexpF32 (rm : Rounding)
  /-- R146. Shifts, rotates, flips or indexes 32-bit values across lanes. -/
  | xlaneB32 (form : LaneForm) (rot : Bool)
  /-- R146. Shifts, rotates, flips or indexes 64-bit values across lanes. -/
  | xlaneB64 (form : LaneForm) (rot : Bool)
  /-- R148. Some, every, mask or same vote over contributing lanes. -/
  | vote (form : VoteForm)
  /-- R150. Exact integer inclusive prefix sum. -/
  | gscanAdd (sat : Bool) (n : Bool)
  /-- R150. Prefix maximum. -/
  | gscanMax (ty : RedType)
  /-- R150. Prefix minimum. -/
  | gscanMin (ty : RedType)
  /-- R150. Exact integer group sum. -/
  | gredAdd (sat : Bool) (n : Bool)
  /-- R150. Group maximum. -/
  | gredMax (ty : RedType)
  /-- R150. Group minimum. -/
  | gredMin (ty : RedType)
  /-- R150. Group and, or or xor. -/
  | gredBitwise (op : RedBit)
  /-- R148. And, or, xor or and-not of 16-bit masks. -/
  | pand (op : MaskOp)
  /-- R148. Lane masks by relation to the lane index. -/
  | lmask (rel : LaneRel)
  /-- R234. Loads from shared memory at fire. -/
  | lds (w : LoadWidth)
  /-- R234. Stores to shared memory at commit. -/
  | sts (w : StoreWidth)
  /-- R234. Loads from scratchpad at fire. -/
  | ldx (w : LoadWidth)
  /-- R234. Stores to scratchpad at commit. -/
  | stx (w : StoreWidth)
  /-- R234. Loads from the spill stack at fire. -/
  | ldk (w : LoadWidth)
  /-- R234. Stores to the spill stack at commit. -/
  | stk (w : StoreWidth)
  /-- R236. Atomic wrapping add returning the old value. -/
  | atomAdd (k : AtomKind) (wide : Bool)
  /-- R236. Atomic and. -/
  | atomAnd (k : AtomKind) (wide : Bool)
  /-- R236. Atomic or. -/
  | atomOr (k : AtomKind) (wide : Bool)
  /-- R236. Atomic xor. -/
  | atomXor (k : AtomKind) (wide : Bool)
  /-- R236. Atomic signed minimum. -/
  | atomMinI (k : AtomKind) (wide : Bool)
  /-- R236. Atomic signed maximum. -/
  | atomMaxI (k : AtomKind) (wide : Bool)
  /-- R236. Atomic unsigned minimum. -/
  | atomMinN (k : AtomKind) (wide : Bool)
  /-- R236. Atomic unsigned maximum. -/
  | atomMaxN (k : AtomKind) (wide : Bool)
  /-- R236. Atomic exchange. -/
  | atomExch (k : AtomKind) (wide : Bool)
  /-- R236. Atomic compare-and-swap. -/
  | atomCas (k : AtomKind) (wide : Bool)
  /-- R236. Atomic ring increment. -/
  | atomInc (k : AtomKind) (wide : Bool)
  /-- R236. Atomic ring decrement. -/
  | atomDec (k : AtomKind) (wide : Bool)
  /-- R236. Atomic f32 or f64 add with rne. -/
  | atomFadd (ty : FaddType) (k : AtomKind)
  /-- R236. Atomic packed f16x2 or bf16x2 add. -/
  | atomFaddX2 (ty : FaddPair) (k : AtomKind)
  /-- R236. Atomic floating maximum. -/
  | atomFmax (k : AtomKind) (wide : Bool)
  /-- R236. Atomic floating minimum. -/
  | atomFmin (k : AtomKind) (wide : Bool)
  /-- R75. Relaxed atomic f32 add with no result. -/
  | redFaddF32 (sc : Scope) (sp : Space)
  /-- R235. Load with acquire at the encoded scope. -/
  | ldAcq (sc : Scope) (sp : Space) (wide : Bool)
  /-- R235. Store with release at the encoded scope. -/
  | stRel (sc : Scope) (sp : Space) (wide : Bool)
  /-- R239. Orders each lane's accesses at the encoded scope at commit. -/
  | fence (sc : Scope)
  /-- R255. Enqueues a copy between two access records at commit. -/
  | cpy (strict : Bool)
  /-- R260. Enqueues a layout-record copy of an image window into shared memory. -/
  | cpyLr (strict : Bool)
  /-- R262. Binds an eyelet to a channel at commit. -/
  | bind (e : BitVec 3)
  /-- R262. Removes an eyelet binding at commit. -/
  | unbind (e : BitVec 3)
  /-- R164. Enqueues a load of a matrix buffer or scale strip. -/
  | mld (strict : Bool)
  /-- R164. Enqueues a store of an accumulator tile. -/
  | mst (strict : Bool)
  /-- R159. Enqueues an f16 or bf16 matrix multiply-accumulate. -/
  | mmaF16 (k : MmaKind)
  /-- R159. Enqueues an e4m3 or e5m2 matrix multiply-accumulate. -/
  | mmaF8 (k : MmaKind)
  /-- R159. Enqueues a scaled e2m1 matrix multiply-accumulate. -/
  | mmaE2m1 (n : BitVec 3)
  /-- R160. Enqueues an i8 matrix multiply-accumulate into i32. -/
  | mmaI8 (n : BitVec 3)
  /-- R307. Routes a token's elements to o0 or o1 by a decision. -/
  | steer (drop : Bool)
  /-- R308. Merges two inputs by lane or selects one whole. -/
  | merge (sel : Bool)
  /-- R312. Emits sliding-window rows from delay lines. -/
  | win (k : WinKind)
  /-- R314. Tree sum within and across tokens. -/
  | tredSum (elt : Bool)
  /-- R314. Tree maximum within and across tokens. -/
  | tredMax (elt : Bool)
  /-- R314. Tree sexp combine within and across tokens. -/
  | tredSexp (elt : Bool)
  /-- R315. Passes tokens once covered accesses are performed at stack or device scope. -/
  | welt (sc : WeltScope)
  /-- R315. Holds a token until its ancestor accesses are performed at the scope. -/
  | twillFence (sc : FabScope)
  /-- R316. Holds a trigger until an mbar word's phase changes. -/
  | mbarvWait (ph : W8)
  /-- R318. Emits the index sequence of a row counter. -/
  | iter (c : BitVec 3)
  /-- R449. A die's matrix engines finish calibration, 0x197 and 0x198 become assigned on that die, and event 0x02 is posted. -/
  | matrixCalibrated (die : Nat)
  /-- R452. Every 1,024 cycles, and at each clock step, capture units of sources 4 and 5 take a current or temperature sample. -/
  | monitorSample (die : Nat)
  /-- R428. After 2^32 flits the agreed Seam keys are replaced. -/
  | seamRekey (port : Nat)
  /-- R228. A remote enqueue from a Seam peer is applied once the sender's earlier remote writes on the port are performed and translated, and is held at the link while the queue is full. -/
  | seamRemoteEnqueue (port : Nat) (request : Option RemoteEnqueue)
  /-- R261. A token arrives in a core channel's receive buffer after its check bits are verified, making a handler runnable or filling a frame slot. -/
  | tokenArrival (index : Nat)
  /-- R267. A bound queue delivers its head entry to the receiving channel when the channel has a free slot. -/
  | queueDelivery (q : Nat)
  /-- R438. A fault record, yield record or continuation token held at the queue engine is enqueued once its queue is enabled and has room. -/
  | queueEngineTokenRelease (q : Nat)
  /-- R347. When the placement unit is idle and a candidate exists, the core chooses one by priority or age and launches, resumes or blocks it. -/
  | selectorDecision (core : Nat)
  /-- R352. For a blocked candidate the core takes victims of lower priority, lets started blocks commit or abandons waiting ones, and saves their contexts to the swap area. -/
  | preEmption (core : Nat)
  /-- R353. A candidate blocked for 1,048,576 cycles becomes overdue and may take victims of every priority. -/
  | overdue (core : Nat)
  /-- R355. When a team's wait count reaches WAITSWAP, the team is swapped out as a pre-emption victim in that cycle. -/
  | longWaitSwap (team : Nat)
  /-- R356. The core re-tests a swapped team's wait conditions on barrier completion, NOTIFY, token arrival, or at least every 4,096 cycles, and makes it ready if satisfied. -/
  | swapRetest (team : Nat)
  /-- R392. When the last group ends, queues and sequencer drain, a recording tape closes, a keep-0 retire is performed and the team's resources are released. -/
  | teamRetirement (team : Nat)
  /-- R367. Once every live group of the team has committed the pack block, the threads are repacked by target into physical groups. -/
  | pack (team : Nat)
  /-- R369. Once every packed group has committed its rejoin block, each thread returns to its home group and column and resumes. -/
  | rejoinReturn (team : Nat)
  /-- R409. A translation miss walks the ASID entry and page tables and completes with a mapping or a fault. -/
  | translationWalk (asid : W16) (va : W64)
  /-- R256. The copy engine starts the team's next queued copy once the previous one has issued its last access. -/
  | copyStart (team : Nat)
  /-- R223. A copy completes when its stores are performed at device scope, its loads returned and its SRAM writes have their moments. -/
  | copyComplete (team : Nat) (seq : Nat)
  /-- R263. A load stream sends its next token into the destination channel once a slot is reserved. -/
  | loadStreamToken (team : Nat) (stream : Nat)
  /-- R263. A store stream takes a token from its channel and writes its valid positions, ending a tile or the stream on control tokens. -/
  | storeStreamToken (team : Nat) (stream : Nat)
  /-- R156. The engine starts a team's next transfer or compute command once its buffer, order and array waits are met. -/
  | matrixCommandStart (team : Nat) (seq : Nat)
  /-- R159. An mma completes after 32 x 2^n cycles, writes its tile once and sets its buffers empty. -/
  | mmaComplete (team : Nat)
  /-- R164. A data or scale mld finishes filling its buffer from the record and sets the full bit for data. -/
  | mldComplete (team : Nat)
  /-- R164. An mst finishes writing the tile's elements to the record's destination. -/
  | mstComplete (team : Nat)
  /-- R170. A PAIR_REQ flit arrives from the neighbour 16 cycles after it is sent, and the core computes the pairing cycle S. -/
  | pairReq (team : Nat)
  /-- R170. At cycle S both engines become paired and both pairing commands complete, or a paired mma starts. -/
  | pairFormed (team : Nat)
  /-- R170. When the partner's request has not arrived 65,536 cycles after the own request, MATRIX_PAIR is raised as a command fault. -/
  | pairTimeout (team : Nat)
  /-- R169. A controller receiving an enable token runs its iterations, sending enables to children or emitting its leaf command. -/
  | sequencerEnableToken (team : Nat) (controller : Nat)
  /-- R169. A controller whose iterations are complete sends done to its parent, and the root's done makes the sequencer idle and arrives on the done word. -/
  | sequencerDone (team : Nat) (controller : Nat)
  /-- R283. When a region is freed or a residency arrives, the scheduler places the head residency on the lowest candidate and starts its load. -/
  | residencyPlacement (stack : Nat)
  /-- R290. A residency's loaders stop at tile boundaries, tokens drain, completed tiles commit, state is saved and the slots are freed. -/
  | drainAndSwitch (stack : Nat) (slot : Nat)
  /-- R285. The loader finishes loading an image into its context slots at one word per cycle, or stops at a row boundary on pre-emption. -/
  | configLoadComplete (stack : Nat) (slot : Nat)
  /-- R291. An AG loader that has ended its record sends a reconfiguration token once the next list entry is released and any standby load is complete. -/
  | reconfigurationTokenSend (stack : Nat) (slot : Nat) (node : Nat)
  /-- R291. An element passes the reconfiguration token once it heads every input, sends it on and frees its old context. -/
  | reconfigurationTokenPass (stack : Nat) (slot : Nat) (elem : Nat)
  /-- R291. The next image's AG nodes start issuing once every element and storer has taken the token and the load is complete. -/
  | reconfigurationStart (stack : Nat) (slot : Nat)
  /-- R276. An enabled element context fires, consuming its head tokens, computing and reserving slots at its receivers. -/
  | elementDataFiring (stack : Nat) (slot : Nat) (elem : Nat)
  /-- R304. An element whose named inputs hold control tokens consumes them and sends one control token on its circuits. -/
  | elementControlFiring (stack : Nat) (slot : Nat) (elem : Nat)
  /-- R305. A fault-stall token at a named input is consumed at once and sent on every driven circuit without charge. -/
  | faultStallPass (stack : Nat) (slot : Nat) (elem : Nat)
  /-- R254. An AG loader issues the next token of its record, after deducting a new tile's traffic from tbud. -/
  | agLoaderIssue (stack : Nat) (slot : Nat) (node : Nat)
  /-- R269. A loader takes a request token and sends the requested elements as a reply to the named consumer. -/
  | agLoaderRequest (stack : Nat) (slot : Nat) (node : Nat)
  /-- R254. An AG storer takes a token and holds its stores for the current tile. -/
  | agStorerToken (stack : Nat) (slot : Nat) (node : Nat)
  /-- R221. A storer's tile ends, its stores take their moments and its traffic is deducted, and it sends end-of-tile. -/
  | agTileEnd (stack : Nat) (slot : Nat) (node : Nat)
  /-- R391. When a residency's firing budget reaches 0, drain-and-switch begins and the residency is suspended with a yield record. -/
  | fbudExhausted (stack : Nat) (slot : Nat)
  /-- R292. Once every storer has taken end-of-stream and every circuit is empty, the slots are freed and the done word is arrived on. -/
  | residencyEnd (stack : Nat) (slot : Nat)
  /-- R324. An element leaving its bank passes the bank unit, which applies the record's fused operator. -/
  | bankUnitElement (who : Streamer)
  /-- R325. After a mac stream's last tile, each pseudo-channel's tree combines the 16 banks' ACC positions into bank 0. -/
  | macCombine (who : Streamer)
  /-- R328. A waiting all-bank request is granted when a place under the ceiling frees. -/
  | allBankGrant (stack : Nat)
  /-- R328. A granted pseudo-channel becomes active 128 cycles after the grant. -/
  | allBankActive (stack : Nat) (pc : Nat)
  /-- R328. All-bank mode ends once the beats in flight have passed, and the freed place goes to the earliest waiting request. -/
  | allBankExit (stack : Nat) (pc : Nat)
  /-- R423. When nothing of a dying ASID remains, its entry becomes free and killmb is arrived on. -/
  | asidTeardownEnd (asid : W16)
  /-- R277. A result token sent on a circuit reaches its receivers' buffers after the operator latency plus one cycle per route step, and its R25 check is made there. -/
  | circuitTokenArrival (stack : Nat) (slot : Nat) (index : Nat)
  /-- R296. A link port node passes a token between an external circuit and a core channel or a queue, enqueueing for an outgoing circuit and dequeueing for an incoming one. -/
  | linkPortNodeTransfer (stack : Nat) (slot : Nat) (circuit : Nat)
  /-- R51. Fires with no effect. -/
  | nop
  /-- R70. Delivers each lane's index. -/
  | lid
  /-- R70. Delivers the group's mask at block start. -/
  | amask
  /-- R369. Records exit targets for the return of an open packing. -/
  | rejoin
  /-- R419. Leaves supervisor mode and fetches EPC with the entry mask. -/
  | eret
  /-- R70. Delivers the die's cycle count. -/
  | clk
  /-- R105. Wrapping 32-bit add. -/
  | addB32
  /-- R105. Wrapping 64-bit add. -/
  | addB64
  /-- R105. Signed 32-bit saturating add. -/
  | addSatI32
  /-- R105. Unsigned 32-bit saturating add. -/
  | addSatN32
  /-- R105. Signed 64-bit saturating add. -/
  | addSatI64
  /-- R105. Unsigned 64-bit saturating add. -/
  | addSatN64
  /-- R105. Wrapping 32-bit subtract. -/
  | subB32
  /-- R105. Wrapping 64-bit subtract. -/
  | subB64
  /-- R105. Signed 32-bit saturating subtract. -/
  | subSatI32
  /-- R105. Unsigned 32-bit saturating subtract. -/
  | subSatN32
  /-- R105. Signed 64-bit saturating subtract. -/
  | subSatI64
  /-- R105. Unsigned 64-bit saturating subtract. -/
  | subSatN64
  /-- R106. Low 32 bits of the product. -/
  | mulB32
  /-- R106. Low 64 bits of the product. -/
  | mulB64
  /-- R106. High 32 bits of the signed product. -/
  | mulhiI32
  /-- R106. High 32 bits of the unsigned product. -/
  | mulhiN32
  /-- R106. High 64 bits of the signed product. -/
  | mulhiI64
  /-- R106. High 64 bits of the unsigned product. -/
  | mulhiN64
  /-- R106. Low 32 bits of a times b plus c. -/
  | madB32
  /-- R106. Low 64 bits of a times b plus c. -/
  | madB64
  /-- R107. Signed 32-bit division. -/
  | divI32
  /-- R107. Unsigned 32-bit division. -/
  | divN32
  /-- R107. Signed 64-bit division. -/
  | divI64
  /-- R107. Unsigned 64-bit division. -/
  | divN64
  /-- R107. Signed 32-bit remainder. -/
  | remI32
  /-- R107. Unsigned 32-bit remainder. -/
  | remN32
  /-- R107. Signed 64-bit remainder. -/
  | remI64
  /-- R107. Unsigned 64-bit remainder. -/
  | remN64
  /-- R117. Byte or nibble selection and extension. -/
  | bsel
  /-- R125. binary64 minimum. -/
  | fminF64
  /-- R125. binary32 minimum. -/
  | fminF32
  /-- R125. binary16 minimum. -/
  | fminF16
  /-- R125. bfloat16 minimum. -/
  | fminBf16
  /-- R125. Packed binary16 minimum. -/
  | fminF16x2
  /-- R125. Packed bfloat16 minimum. -/
  | fminBf16x2
  /-- R125. binary64 maximum. -/
  | fmaxF64
  /-- R125. binary32 maximum. -/
  | fmaxF32
  /-- R125. binary16 maximum. -/
  | fmaxF16
  /-- R125. bfloat16 maximum. -/
  | fmaxBf16
  /-- R125. Packed binary16 maximum. -/
  | fmaxF16x2
  /-- R125. Packed bfloat16 maximum. -/
  | fmaxBf16x2
  /-- R127. binary64 classification. -/
  | fclassF64
  /-- R127. binary32 classification. -/
  | fclassF32
  /-- R127. binary16 classification. -/
  | fclassF16
  /-- R127. bfloat16 classification. -/
  | fclassBf16
  /-- R128. Exact widening f32 to f64. -/
  | cvtF64F32
  /-- R128. Exact widening f16 to f32. -/
  | cvtF32F16
  /-- R128. Exact widening bf16 to f32. -/
  | cvtF32Bf16
  /-- R128. Exact widening e4m3 to f32. -/
  | cvtF32E4m3
  /-- R128. Exact widening e5m2 to f32. -/
  | cvtF32E5m2
  /-- R128. Exact widening e2m1 to f32. -/
  | cvtF32E2m1
  /-- R139. Truncated reciprocal. -/
  | rcpF32
  /-- R139. Truncated reciprocal square root. -/
  | rsqF32
  /-- R139. Truncated square root. -/
  | sqrtF32
  /-- R139. trunc2 of 2^a. -/
  | exp2F32
  /-- R139. trunc2 of log2 a. -/
  | log2F32
  /-- R139. Truncated sin(pi a). -/
  | sinpiF32
  /-- R139. Truncated cos(pi a). -/
  | cospiF32
  /-- R146. Reads 32-bit values from lanes named by a selector. -/
  | permB32
  /-- R146. Reads 64-bit values from lanes named by a selector. -/
  | permB64
  /-- R148. Mask of lanes with an equal 32-bit value. -/
  | matchB32
  /-- R148. Mask of lanes with an equal 64-bit value. -/
  | matchB64
  /-- R149. f32 prefix sum by the fixed tree. -/
  | gscanAddF32
  /-- R149. f32 group sum by the fixed tree. -/
  | gredAddF32
  /-- R149. f64 group sum by the fixed tree. -/
  | gredAddF64
  /-- R149. f64 prefix sum by the fixed tree. -/
  | gscanAddF64
  /-- R148. Counts bits of a 16-bit mask. -/
  | mpopc
  /-- R148. Index of the lowest set bit of a mask. -/
  | mffs
  /-- R146. Broadcasts one lane's value as a uniform. -/
  | bcast
  /-- R150. Group sexp combine of (m, s) pairs. -/
  | gredSexp
  /-- R217. Device fence that also waits for the group's copies, in one total order. -/
  | fenceSc
  /-- R243. Arrives on a hardware barrier entry at commit, allocating it if needed. -/
  | barArrive
  /-- R243. Holds the group's next block until its pending arrival is satisfied. -/
  | barWait
  /-- R243. Arrives and waits in one instruction. -/
  | barSync
  /-- R243. Barrier sync with an exact reduction written to a uniform register. -/
  | barRed
  /-- R243. Frees a barrier entry and satisfies its pending arrivals. -/
  | barInval
  /-- R245. Release store initialising an mbar word. -/
  | mbarInit
  /-- R245. Release read-modify-write arrival on an mbar word. -/
  | mbarArrive
  /-- R245. Polls an mbar word with acquire until its phase differs. -/
  | mbarWait
  /-- R245. One acquire read of an mbar word. -/
  | mbarTest
  /-- R245. Release store of zero to an mbar word. -/
  | mbarInval
  /-- R246. Stores to the shared memory of named cluster members at commit. -/
  | mcast
  /-- R258. Closes the open copy batch and returns its number. -/
  | cpyBatch
  /-- R258. Waits until every copy of batches up to a is complete. -/
  | cpyWait
  /-- R263. Starts a load or store stream in a stream slot. -/
  | sbind
  /-- R264. Returns a stream slot's status. -/
  | sstat
  /-- R268. Enqueues one token to a queue at commit. -/
  | enqInstr
  /-- R268. Reserves the head entry at fire and removes it at commit. -/
  | deqInstr
  /-- R268. Writes a queue's NOTIFY or an AG notify register at commit. -/
  | notifyInstr
  /-- R268. Waits until a queue is non-empty or notified. -/
  | qwait
  /-- R268. Reads a queue's DEPTH. -/
  | qdepth
  /-- R270. Bit-plane encodes one token. -/
  | bpenc
  /-- R270. Bit-plane decodes one token. -/
  | bpdec
  /-- R165. Enqueues a command zeroing a tile. -/
  | mzero
  /-- R170. Enqueues a pairing with the east neighbour. -/
  | mpairEast
  /-- R170. Enqueues a pairing with the west neighbour. -/
  | mpairWest
  /-- R170. Dissolves the pairing at once. -/
  | mpairDissolve
  /-- R168. Reads a sequencer image and makes a new matrix claim at commit. -/
  | seqCfg
  /-- R169. Sends one enable token to the root controller. -/
  | seqGo
  /-- R172. Returns and optionally clears matrix status. -/
  | mchk
  /-- R201. Starts recording a new tape. -/
  | tapeOpen
  /-- R202. Appends the trailer and closes a recording or reversing tape. -/
  | tapeClose
  /-- R203. Appends a value record at commit. -/
  | tapeRec
  /-- R204. Starts reversing a closed tape. -/
  | tapeRev
  /-- R205. Reads the next value record back from the chain's cursor. -/
  | tapePop
  /-- R205. Reads the next branch record back. -/
  | tapeBrpop
  /-- R206. Raises the tape quota. -/
  | tapeSeg
  /-- R207. Returns the tape status. -/
  | tapeStat
  /-- R165. Waits for earlier tile commands and reads 16 tile elements. -/
  | mrd
  /-- R165. Enqueues a write of 16 tile elements. -/
  | mwr
  /-- R309. Holds a loop-carried token and sends initial tokens at load and each tile. -/
  | carry
  /-- R310. Repeats an invariant token for each trigger. -/
  | inv
  /-- R311. Packs valid elements into dense tokens with indices. -/
  | join
  /-- R313. Intersects two sparse fibres and emits position pairs. -/
  | isect
  /-- R316. Arrives on an mbar word for each data firing after earlier tiles' stores. -/
  | mbarvArrive
  /-- R316. Arrives on an mbar word at each end-of-tile. -/
  | mbarvEot
  /-- R317. Consumes tokens and sends nothing. -/
  | sink
  /-- R293. Reserves a residency id and queues the residency on a stack at commit. -/
  | cfgLaunch
  /-- R296. Binds an external circuit of a residency image. -/
  | cfgBind
  /-- R297. Returns a residency's status word. -/
  | cfgSignalStatus
  /-- R297. Makes a held residency placeable. -/
  | cfgSignalRelease
  /-- R297. Releases the hold bit of the next image list entry. -/
  | cfgSignalStep
  /-- R297. Ends the residency after its current image. -/
  | cfgSignalStop
  /-- R297. Changes a residency's priority. -/
  | cfgSignalPriority
  /-- R298. Drains and switches a residency of any ASID. -/
  | cfgEvictDrain
  /-- R298. Ends a residency with its error bit set, discarding unfinished tiles. -/
  | cfgEvictKill
  /-- R382. Enqueues one task token per non-null lane as one enqueue. -/
  | spawn
  /-- R384. Takes the newest queue entry and adds a task token's grants. -/
  | stealInstr
  /-- R385. Release-sets a join record's count and clears its returns. -/
  | jcntInit
  /-- R386. Records the team's retire, performed on the join record at team retirement. -/
  | retireKeep0
  /-- R386. Decrements the join record at commit, enqueueing the continuation at the last count. -/
  | retireKeep1
  /-- R387. Sets the continuation block register. -/
  | cont
  /-- R388. Returns IBUD and TBUD. -/
  | budGet
  /-- R383. Deducts the grants of the block's spawned children. -/
  | budGive
  /-- R389. Adds budget to a team or residency, making a yielded one ready. -/
  | budAdd
  /-- R423. Marks an ASID dying and starts its teardown. -/
  | asidKill
  /-- R422. Removes every cached entry of an ASID. -/
  | tlbinvAsid
  /-- R422. Removes cached entries of an ASID covering a VA. -/
  | tlbinvVa
  /-- R422. Removes the cached ASID entry. -/
  | tlbinvAsidEntry
  /-- R422. Removes every cached entry of every ASID. -/
  | tlbinvAll
  /-- R424. Clears and starts a capture unit. -/
  | monCfgConfigure
  /-- R424. Freezes a capture unit. -/
  | monCfgStop
  /-- R424. Writes a capture unit's histogram to scratchpad. -/
  | monCfgDump
  /-- R420. Binds a key slot to a tenant with fresh keys in every cipher. -/
  | keyset
  /-- R421. Zeroes a key slot in every cipher and drops it. -/
  | keydrop
  /-- R429. At reset the root of trust checks the firmware signature and version, then starts the management controller and the dies, or serves only the mailbox if the check fails. -/
  | powerOnReset
  /-- R429. The host loads a signed firmware image through the mailbox, which is checked like the image at reset. -/
  | firmwareLoad (image : List W8)
  /-- R451. A signed reload after a thermal trip or failed image resets every die, frees every key slot except slot 0, which gets a fresh key, and restarts bring-up. -/
  | firmwareReload (image : List W8)
  /-- R449. Bring-up finishes training one stack and goes on to the next, home stacks of die 0 first. -/
  | stackTrained
  /-- R450. When every die, stack, array and calibration is up, the part posts event 0x03. -/
  | fullServiceReady
  /-- R450. A host mailbox request to move to full service stops die 0 from making decisions. -/
  | fullServiceRequest
  /-- R450. Once die 0 holds no team and no copy in flight, the full map and the 1.4 GHz clock take effect, all dies take work, and event 0x04 is posted. -/
  | fullServiceMove
  /-- R28. Every 10 us the management controller samples temperatures and core-rail current. -/
  | mcSample
  /-- R28. A junction reaching 115 C stops the arithmetic clock at once, ends every team and residency fatally, and posts event 0x11. -/
  | thermalTrip
  /-- R430. A mailbox request with a nonce and a tenant returns a signed attestation report. -/
  | attestationRequest (nonce : BitVec 384) (tenant : W16)
  /-- R451. The host sets through the mailbox the host-memory ring to which the management controller posts events. -/
  | eventRingSetup (base : W64) (records : Nat)
  /-- R404. The platform sets the ASID table base, swap areas, Seam bindings or host function ASIDs through the mailbox. -/
  | platformSet (setting : PlatformSetting)
  /-- R343. The platform writes a handler entry through the mailbox, checked as HENT0 is, and a failed check completes the request with a refused status. -/
  | mailboxHandlerEntryWrite (core : Nat) (index : Nat) (w0 : W64) (w1 : W64)
  /-- R265. A 64-byte write to a queue's ENQ register enqueues a data token, or is discarded and sets STATUS.lost when the queue is full or not enabled. -/
  | enq (f : Option Nat) (q : Nat) (data : List W32)
  /-- R265. A 64-byte read of DEQ pops the head entry and returns its data, or returns zero and sets STATUS.empty read. -/
  | deq (f : Option Nat) (q : Nat)
  /-- R265. A 64-byte read of STEAL pops the tail entry and returns its data, or returns zero and sets STATUS.empty read. -/
  | steal (f : Option Nat) (q : Nat)
  /-- R265. A write to a queue's NOTIFY stores 64 bits and wakes the queue's waiters. -/
  | notify (f : Option Nat) (q : Nat) (v : W64)
  /-- R266. A write to a queue's CONFIG discards every entry and reservation and configures the queue, unless a reserved field or a misplaced storage makes it ignored. -/
  | config (f : Option Nat) (q : Nat) (words : List W64)
  /-- R5. A write to a register without behaviour of its own updates its RW and W1C fields as its access column gives. A read of a
  register of the window is the other access that this constructor takes (DESIGN CHOICE, log entry 119). -/
  | registerWrite (f : Option Nat) (q : Nat) (offset : Nat) (access : RegisterAccess)
  /-- R343. A write to HENT0 checks the entry formed with HSEL and HENT1, then writes both words of the entry as one change, or raises BAD_HANDLE. -/
  | hent0Write (v : W64)
  /-- R442. A notify-register write with cmd 0x1 and the matching seq makes the stalled AG node walk again and continue from the faulting element. -/
  | resume (stack : Nat) (node : Nat) (seq : W32)
  /-- R442. A notify-register write with cmd 0x2 and the matching seq ends the residency as cfg.evict mode 1 does, with a fatal record. -/
  | abort (stack : Nat) (node : Nat) (seq : W32)
  /-- R426. A host CXL.mem request is translated under the function's ASID and performed, or completes with poison on a fault. -/
  | cxlMemRequest (function : Nat) (offset : W64) (request : HostAccess)
  /-- R428. At link bring-up the two parts attest each other, agree keys by ECDH over P-384 and start enciphering every flit. -/
  | seamLinkBringup (port : Nat)
  /-- R428. A remote copy from a Seam peer is translated under the bound local ASID and performed, or refused when the sender ASID has no binding. -/
  | seamRemoteCopy (port : Nat) (sender : W16) (va : W64) (bytes : List W8)
  /-- R32. A group fetches a block and checks translation, alignment, decode, entry path and budget in order, starting it or faulting. -/
  | blockFetch
  /-- R39. Once every instruction has fired without a fault, the block performs its commit-time effects in slot order, indivisibly. -/
  | blockCommit
  /-- R330. A store to a bank control row re-owns and clears the unit's registers when its key differs from the owner, then writes its bytes. -/
  | controlRowStore
  /-- R328. A store setting ABM.request to 1 asks for all-bank mode, granted in moment order below the stack's ceiling or left waiting. -/
  | abmRequest
  /-- R328. A store of 0 to ABM ends all-bank mode or withdraws a waiting request. -/
  | abmLeave
  deriving DecidableEq, Repr

/-- An instruction as it stands in a block: its operation with the two targets and the guard of its slot. A target
field of port 000 names no consumer (R35). -/
structure Node where
  instr : Instr
  t0 : Option Dest
  t1 : Option Dest
  guard : Guard
  deriving DecidableEq, Repr

/-- What the fields beside the opcode hold (R34, R83): which of the two targets and the guard a layout has. -/
inductive Layout where
  /-- T2 with a result: both targets and a guard. -/
  | result
  /-- T2 or I12 without a result: a guard alone. -/
  | noResult
  /-- I12 with a result: t0 and a guard. -/
  | immResult
  /-- RG of `rd`: t0 alone. -/
  | regRead
  /-- RG of `wr`: neither targets nor a guard. -/
  | regWrite
  /-- BX: a guard alone, below the offset. -/
  | branch
  deriving DecidableEq, Repr

end Sys2Proof
end

