-- ==== Sys2Proof/Machine/IntOps.lean ====
section
/-! DEFINITION. The integer and address arithmetic of class 1 on 64-bit containers (R98, R101 to R119): each function
gives the result that one lane delivers for the operands of that lane. -/
namespace Sys2Proof.Machine

/-- The number of bits of a width. -/
def widthBits : Width → Nat
  | .b32 => 32 | .b64 => 64

/-- The number of bits of an integer type. -/
def intBits : IntType → Nat
  | .i32 | .n32 => 32
  | .i64 | .n64 => 64

/-- Whether an integer type is signed. -/
def intSigned : IntType → Bool
  | .i32 | .i64 => true
  | .n32 | .n64 => false

/-- ux(x): the low w bits of a container, read as unsigned (R102). -/
def ux (w : Nat) (x : W64) : Nat := x.toNat % 2 ^ w

/-- The two's complement value of a w-bit pattern. -/
def signed (w n : Nat) : Int := if n < 2 ^ (w - 1) then n else (n : Int) - 2 ^ w

/-- sx(x): the low w bits of a container, read as two's complement (R102). -/
def sx (w : Nat) (x : W64) : Int := signed w (ux w x)

/-- r(x): the operand read in the type (R106, R107, R110). -/
def readAs (t : IntType) (x : W64) : Int :=
  if intSigned t then sx (intBits t) x else (ux (intBits t) x : Int)

/-- The w-bit pattern of a value modulo 2^w, zero-extended to the container (R102). -/
def wrapTo (w : Nat) (v : Int) : W64 := BitVec.ofNat 64 (v % 2 ^ w).toNat

/-- The least value of an integer type (R89). -/
def intMin (t : IntType) : Int := if intSigned t then -(2 ^ (intBits t - 1) : Int) else 0

/-- The greatest value of an integer type (R89). -/
def intMax (t : IntType) : Int :=
  if intSigned t then 2 ^ (intBits t - 1) - 1 else 2 ^ intBits t - 1

/-- `sat`: the value clamped to the range of the type (R7). -/
def clampTo (t : IntType) (v : Int) : Int :=
  if v < intMin t then intMin t else if v > intMax t then intMax t else v

/-- `add` without `.sat` (R105). -/
def addWrap (w : Width) (a b : W64) : W64 := wrapTo (widthBits w) (ux (widthBits w) a + ux (widthBits w) b : Nat)

/-- `add.sat` (R105). -/
def addSat (t : IntType) (a b : W64) : W64 := wrapTo (intBits t) (clampTo t (readAs t a + readAs t b))

/-- `sub` without `.sat` (R105). -/
def subWrap (w : Width) (a b : W64) : W64 :=
  wrapTo (widthBits w) ((ux (widthBits w) a : Int) - (ux (widthBits w) b : Int))

/-- `sub.sat` (R105). -/
def subSat (t : IntType) (a b : W64) : W64 := wrapTo (intBits t) (clampTo t (readAs t a - readAs t b))

/-- `mul`: the low w bits of the product (R106). -/
def mulLow (w : Width) (a b : W64) : W64 := wrapTo (widthBits w) (ux (widthBits w) a * ux (widthBits w) b : Nat)

/-- `mulhi`: the high w bits of the signed or unsigned product (R106). -/
def mulHigh (t : IntType) (a b : W64) : W64 :=
  wrapTo (intBits t) ((readAs t a * readAs t b) / 2 ^ intBits t)

/-- `mad`: the low w bits of a × b + c (R106). -/
def madLow (w : Width) (a b c : W64) : W64 :=
  wrapTo (widthBits w) (ux (widthBits w) a * ux (widthBits w) b + ux (widthBits w) c : Nat)

/-- Whether a signed quotient is the minimum divided by −1 (R98, R107). -/
def divOverflows (t : IntType) (x y : Int) : Bool := intSigned t && x = intMin t && y = -1

/-- `div`: truncating quotient; all ones for divisor 0; the minimum for minimum / −1 (R107). -/
def divQuot (t : IntType) (a b : W64) : W64 :=
  let x := readAs t a
  let y := readAs t b
  if y = 0 then wrapTo (intBits t) (-1)
  else if divOverflows t x y then wrapTo (intBits t) x
  else wrapTo (intBits t) (x.tdiv y)

/-- `rem`: remainder with the dividend's sign; the dividend for divisor 0; 0 for minimum / −1 (R107). -/
def divRem (t : IntType) (a b : W64) : W64 :=
  let x := readAs t a
  let y := readAs t b
  if y = 0 then wrapTo (intBits t) x
  else if divOverflows t x y then 0
  else wrapTo (intBits t) (x.tmod y)

/-- `shl`: the count is not reduced; a count of w or more gives 0 (R108). -/
def shiftLeft (w : Width) (a b : W64) : W64 :=
  let k := ux 32 b
  if widthBits w ≤ k then 0 else wrapTo (widthBits w) (ux (widthBits w) a * 2 ^ k : Nat)

/-- `shr`: logical for unsigned types, arithmetic for signed types, the count not reduced (R108). -/
def shiftRight (t : IntType) (a b : W64) : W64 :=
  let k := ux 32 b
  if intSigned t then wrapTo (intBits t) (sx (intBits t) a / 2 ^ min k (intBits t - 1))
  else if intBits t ≤ k then 0
  else wrapTo (intBits t) (ux (intBits t) a / 2 ^ k : Nat)

/-- The bitwise operations on the low w bits (R109). -/
def bitwise (op : BitOp) (w : Width) (a b : W64) : W64 :=
  let m : W64 := match w with | .b32 => 0xFFFFFFFF | .b64 => BitVec.allOnes 64
  match op with
  | .and => (a &&& b) &&& m
  | .or => (a ||| b) &&& m
  | .xor => (a ^^^ b) &&& m
  | .andn => (a &&& ~~~ b) &&& m
  | .orn => (a ||| ~~~ b) &&& m
  | .xnor => (~~~ (a ^^^ b)) &&& m
  | .not => (~~~ a) &&& m

/-- `min`: a when r(a) ≤ r(b), else b (R111). -/
def intMinOf (t : IntType) (a b : W64) : W64 :=
  wrapTo (intBits t) (if readAs t a ≤ readAs t b then readAs t a else readAs t b)

/-- `max`: a when r(a) ≥ r(b), else b (R111). -/
def intMaxOf (t : IntType) (a b : W64) : W64 :=
  wrapTo (intBits t) (if readAs t b ≤ readAs t a then readAs t a else readAs t b)

/-- The signed type of a width. -/
def signedOf : Width → IntType
  | .b32 => .i32 | .b64 => .i64

/-- `abs`, with or without `.sat` (R112). -/
def absOf (sat : Bool) (w : Width) (a : W64) : W64 :=
  let v : Int := (sx (widthBits w) a).natAbs
  wrapTo (widthBits w) (if sat then clampTo (signedOf w) v else v)

/-- The number of 1 bits among the low `n` bits of a number. -/
def onesBelow : Nat → Nat → Nat
  | 0, _ => 0
  | n + 1, x => x % 2 + onesBelow n (x / 2)

/-- `popc` (R113). -/
def popCount (w : Width) (a : W64) : W64 := BitVec.ofNat 64 (onesBelow (widthBits w) (ux (widthBits w) a))

/-- The number of bits of a number: 0 for 0, else one more than the place of its highest 1 bit. -/
def bitLength (n : Nat) : Nat := if n = 0 then 0 else Nat.log2 n + 1

/-- `clz`: the 0 bits above the highest 1 bit, w for 0 (R113). -/
def leadingZeros (w : Width) (a : W64) : W64 :=
  BitVec.ofNat 64 (widthBits w - bitLength (ux (widthBits w) a))

/-- The low `n` bits of `x` in reverse order, put above the bits gathered so far. -/
def reverseBits : Nat → Nat → Nat → Nat
  | 0, _, acc => acc
  | n + 1, x, acc => reverseBits n (x / 2) (acc * 2 + x % 2)

/-- `brev` (R113). -/
def bitReverse (w : Width) (a : W64) : W64 :=
  BitVec.ofNat 64 (reverseBits (widthBits w) (ux (widthBits w) a) 0)

/-- `bfe`: len bits of a from pos up, extended by the type; bits beyond the word read as the sign or 0 (R114). -/
def fieldExtract (t : IntType) (a b : W64) : W64 :=
  let pos := bitsOf b.toNat 0 8
  let len := min (bitsOf b.toNat 8 8) (intBits t)
  let f : Int := (readAs t a / 2 ^ pos) % 2 ^ len
  let v := if intSigned t && 0 < len && 2 ^ (len - 1) ≤ f then f - 2 ^ len else f
  wrapTo (intBits t) v

/-- `bfi`: the low bits of a put into b at pos, as far as they lie in the word (R115). -/
def fieldInsert (w : Width) (a b c : W64) : W64 :=
  let pos := bitsOf c.toNat 0 8
  let n := min (bitsOf c.toNat 8 8) (widthBits w - pos)
  let base := ux (widthBits w) b
  let old := bitsOf base pos n
  BitVec.ofNat 64 (base - old * 2 ^ pos + bitsOf a.toNat 0 n * 2 ^ pos)

/-- `sel`: a when bit 0 of c is 1, else b (R116). -/
def selectOf (w : Width) (a b c : W64) : W64 :=
  wrapTo (widthBits w) (if c.getLsbD 0 then ux (widthBits w) a else ux (widthBits w) b : Nat)

/-- One byte of `bsel` (R117): the byte below, the selector and the mode give byte i. -/
def bselByte (src aw : Nat) (nibble : Bool) (i s below : Nat) : Nat :=
  if nibble then
    let y := bitsOf aw (4 * (s % 8)) 4
    if s < 8 && 8 ≤ y then y + 0xF0 else y
  else if s ≤ 7 then bitsOf src (8 * s) 8
  else if s = 8 then (if 0 < i && 128 ≤ below then 0xFF else 0)
  else if s ≤ 11 then 0
  else 0xFF

/-- `bsel.b32`: bytes formed in ascending order (R117). -/
def byteSelect (a b c : W64) : W64 :=
  let aw := ux 32 a
  let src := ux 32 b * 2 ^ 32 + aw
  let nib := c.getLsbD 16
  let sel := fun i => bitsOf c.toNat (4 * i) 4
  let b0 := bselByte src aw nib 0 (sel 0) 0
  let b1 := bselByte src aw nib 1 (sel 1) b0
  let b2 := bselByte src aw nib 2 (sel 2) b1
  let b3 := bselByte src aw nib 3 (sel 3) b2
  BitVec.ofNat 64 (b0 + b1 * 2 ^ 8 + b2 * 2 ^ 16 + b3 * 2 ^ 24)

/-- The factor of a scale code (R118). -/
def scaleOf : Scale → Int
  | .x1 => 1 | .x2 => 2 | .x4 => 4 | .x8 => 8 | .x16 => 16

/-- `lea`: base plus scaled index plus offset, modulo 2^w; w is 64 in a core block and 32 in an element (R118). -/
def leaOf (w : Nat) (sc : Scale) (off : W32) (a b : W64) : W64 :=
  wrapTo w ((ux w a : Int) + sx 32 b * scaleOf sc + off.toInt)

/-- `ext`: the low 8 or 16 bits, sign- or zero-extended (R135). -/
def extendOf (s : ExtSource) (w : Width) (a : W64) : W64 :=
  match s with
  | .i8 => wrapTo (widthBits w) (signed 8 (ux 8 a))
  | .n8 => BitVec.ofNat 64 (ux 8 a)
  | .i16 => wrapTo (widthBits w) (signed 16 (ux 16 a))
  | .n16 => BitVec.ofNat 64 (ux 16 a)

/-- x / 2^k rounded to an integer by a mode; ties to even under rne (R134, R136). -/
def roundShift (rm : Rounding) (x : Int) (k : Nat) : Int :=
  let q := x / 2 ^ k
  let r := x % 2 ^ k
  match rm with
  | .rdn => q
  | .rup => if r = 0 then q else q + 1
  | .rz => if r ≠ 0 && x < 0 then q + 1 else q
  | .rne =>
    if 2 * r < 2 ^ k then q
    else if 2 * r > 2 ^ k then q + 1
    else if q % 2 = 0 then q else q + 1

/-- `nar.i32.i64`: a fixed-point value with 32 fraction bits rounded to an integer (R136). -/
def narrowOf (rm : Rounding) (sat : Bool) (a : W64) : W64 :=
  let q := roundShift rm (sx 64 a) 32
  wrapTo 32 (if sat then clampTo .i32 q else q)

end Sys2Proof.Machine
end

