-- ==== Sys2Proof/Machine/Flags.lean ====
section
/-! DEFINITION. Conditions and predicates. The part has no status flags (R84): a comparison delivers 1 or 0, a guard
reads bit 0 of its p value, and mask operations work on 16-bit lane masks. -/
namespace Sys2Proof.Machine

/-- The truth value of a comparison as a 32-bit result (R110). -/
def flagWord (b : Bool) : W64 := if b then 1 else 0

/-- Whether a condition holds of two integers (R110). -/
def condHolds (c : Cond) (x y : Int) : Bool :=
  match c with
  | .eq => decide (x = y)
  | .ne => decide (x ≠ y)
  | .lt => decide (x < y)
  | .le => decide (x ≤ y)
  | .gt => decide (y < x)
  | .ge => decide (y ≤ x)

/-- `cmp` (R110). -/
def compareOf (t : IntType) (c : Cond) (a b : W64) : W64 := flagWord (condHolds c (readAs t a) (readAs t b))

/-- The guard of a lane from its p value (R36): bit 0 is 1 for `when` and 0 for `unless`; a null p value makes it
false. -/
def guardHolds (g : Guard) (p : Option W64) : Bool :=
  match g with
  | .always => true
  | .when => match p with | some v => v.getLsbD 0 | none => false
  | .unless => match p with | some v => !v.getLsbD 0 | none => false

/-- `pand`, `por`, `pxor`, `pandn` on bits [15:0] (R148). -/
def maskOpOf (op : MaskOp) (a b : W64) : W64 :=
  let m : W64 := 0xFFFF
  match op with
  | .and => (a &&& b) &&& m
  | .or => (a ||| b) &&& m
  | .xor => (a ^^^ b) &&& m
  | .andn => (a &&& ~~~ b) &&& m

/-- `mpopc`: the number of 1 bits in bits [15:0] (R148). -/
def maskPopOf (a : W64) : W64 := BitVec.ofNat 64 (onesBelow 16 (ux 16 a))

/-- The place of the lowest 1 bit among the next `n` bits, counted from `i`; `i + n` where there is none. -/
def lowestOne : Nat → Nat → Nat → Nat
  | 0, _, i => i
  | n + 1, x, i => if x % 2 = 1 then i else lowestOne n (x / 2) (i + 1)

/-- `mffs`: the index of the lowest 1 bit of bits [15:0], or 16 (R148). -/
def maskFirstOf (a : W64) : W64 := BitVec.ofNat 64 (lowestOne 16 (ux 16 a) 0)

/-- The lanes that stand in the relation to lane l, as a mask (R148). -/
def laneMaskOf (r : LaneRel) (l : Nat) : W64 :=
  (maskOf fun j =>
    match r with
    | .lt => decide (j < l)
    | .le => decide (j ≤ l)
    | .gt => decide (l < j)
    | .ge => decide (l ≤ j)
    | .eq => decide (j = l)).setWidth 64

end Sys2Proof.Machine
end

