-- ==== Sys2Proof/Machine/FloatFmt.lean ====
section
/-! DEFINITION. Floating-point formats, their values, and rounding of an exact value to an encoding
(R85 to R94). Every finite value is a dyadic number m × 2^e with a sign. -/
namespace Sys2Proof.Machine

/-- How a format uses its top exponent (R87): infinities and NaNs, E4M3's single NaN, or no special values. -/
inductive TopExp where
  | ieee | e4m3 | e2m1
  deriving DecidableEq, Repr

/-- A floating-point format with a sign (R85, R86). -/
structure Fmt where
  /-- Width in bits. -/
  w : Nat
  /-- Fraction bits. -/
  f : Nat
  /-- Exponent bias. -/
  bias : Nat
  top : TopExp
  deriving DecidableEq, Repr

/-- binary64. -/
def fmtF64 : Fmt := ⟨64, 52, 1023, .ieee⟩
/-- binary32. -/
def fmtF32 : Fmt := ⟨32, 23, 127, .ieee⟩
/-- binary16. -/
def fmtF16 : Fmt := ⟨16, 10, 15, .ieee⟩
/-- bfloat16. -/
def fmtBf16 : Fmt := ⟨16, 7, 127, .ieee⟩
/-- OCP E5M2. -/
def fmtE5m2 : Fmt := ⟨8, 2, 15, .ieee⟩
/-- OCP E4M3. -/
def fmtE4m3 : Fmt := ⟨8, 3, 7, .e4m3⟩
/-- OCP MX e2m1. -/
def fmtE2m1 : Fmt := ⟨4, 1, 1, .e2m1⟩

/-- The encoding of the largest finite magnitude (R86). -/
def Fmt.maxEnc (t : Fmt) : Nat :=
  match t.top with
  | .ieee => 2 ^ (t.w - 1) - 2 ^ t.f - 1
  | .e4m3 => 2 ^ (t.w - 1) - 2
  | .e2m1 => 2 ^ (t.w - 1) - 1

/-- The encoding of +infinity in a format that has it. -/
def Fmt.infEnc (t : Fmt) : Nat := 2 ^ (t.w - 1) - 2 ^ t.f

/-- The canonical NaN (R86); for e2m1 the encoding that stands in its place. -/
def Fmt.nanEnc (t : Fmt) : Nat :=
  match t.top with
  | .ieee => t.infEnc + 2 ^ (t.f - 1)
  | .e4m3 => 2 ^ (t.w - 1) - 1
  | .e2m1 => 2 ^ (t.w - 1) - 1

/-- The sign bit put on a magnitude encoding. -/
def Fmt.withSign (t : Fmt) (neg : Bool) (mag : Nat) : Nat := if neg then mag + 2 ^ (t.w - 1) else mag

/-- The value of an encoding (R87). -/
inductive FVal where
  | nan
  | inf (neg : Bool)
  /-- m × 2^e, negated when `neg`; m = 0 is the zero of that sign. -/
  | fin (neg : Bool) (m : Nat) (e : Int)
  deriving DecidableEq, Repr

/-- The value that an encoding has in a format; bits above the format's width are ignored (R87, R90). -/
def Fmt.value (t : Fmt) (x : Nat) : FVal :=
  let neg := x / 2 ^ (t.w - 1) % 2 = 1
  let mag := x % 2 ^ (t.w - 1)
  let e := mag / 2 ^ t.f
  let fr := mag % 2 ^ t.f
  if t.top = .ieee && t.infEnc ≤ mag then (if fr = 0 then .inf neg else .nan)
  else if t.top = .e4m3 && mag = t.nanEnc then .nan
  else if e = 0 then .fin neg fr (1 - (t.bias : Int) - t.f)
  else .fin neg (2 ^ t.f + fr) ((e : Int) - t.bias - t.f)

/-- Whether an encoding is a NaN. -/
def Fmt.isNan (t : Fmt) (x : Nat) : Bool :=
  match t.value x with | .nan => true | _ => false

/-- The result of an overflow (R92). -/
def Fmt.overflow (t : Fmt) (rm : Rounding) (sat neg : Bool) : Nat :=
  let max := t.withSign neg t.maxEnc
  let inf := match t.top with
    | .ieee => t.withSign neg t.infEnc
    | .e4m3 => t.nanEnc
    | .e2m1 => max
  if sat then max
  else match rm with
    | .rne => inf
    | .rz => max
    | .rup => if neg then max else inf
    | .rdn => if neg then inf else max

/-- The result for an infinite input of a conversion (R92, R129). -/
def Fmt.fromInf (t : Fmt) (sat neg : Bool) : Nat :=
  match t.top with
  | .e2m1 => t.withSign neg t.maxEnc
  | .e4m3 => if sat then t.withSign neg t.maxEnc else t.nanEnc
  | .ieee => if sat then t.withSign neg t.maxEnc else t.withSign neg t.infEnc

/-- n / 2^k rounded to an integer for a magnitude of the sign (R91). -/
def roundMag (rm : Rounding) (neg : Bool) (n k : Nat) : Nat :=
  let q := n / 2 ^ k
  let r := n % 2 ^ k
  let up := match rm with
    | .rz => false
    | .rup => !neg && r != 0
    | .rdn => neg && r != 0
    | .rne => decide (2 ^ k < 2 * r) || (decide (2 * r = 2 ^ k) && r != 0 && q % 2 == 1)
  if up then q + 1 else q

/-- The exponent of the unit in which a nonzero magnitude m × 2^e is rounded: its last fraction place, or the
subnormal unit (R91, R93). -/
def Fmt.quantum (t : Fmt) (m : Nat) (e : Int) : Int :=
  max (e + (bitLength m : Int) - 1 - t.f) (1 - (t.bias : Int) - t.f)

/-- The magnitude encoding of the value n × 2^q, where q is the quantum of the rounded value. It exceeds `maxEnc`
exactly when the value exceeds the largest finite magnitude. -/
def Fmt.encMag (t : Fmt) (n : Nat) (q : Int) : Nat :=
  (q + t.f + t.bias - 1).toNat * 2 ^ t.f + n

/-- `round_to(m, x, t)` of the exact value ±m × 2^e, with overflow by R92 and `.sat` if given (R91 to R94): a zero keeps
the sign. -/
def Fmt.round (t : Fmt) (rm : Rounding) (sat neg : Bool) (m : Nat) (e : Int) : Nat :=
  if m = 0 then t.withSign neg 0
  else
    let q := t.quantum m e
    let n := if q ≤ e then m * 2 ^ (e - q).toNat else roundMag rm neg m (q - e).toNat
    let mag := t.encMag n q
    if t.maxEnc < mag then t.overflow rm sat neg else t.withSign neg mag

/-- The value of a finite number in units of 2^e0, for e0 no greater than its exponent. -/
def scaledInt (neg : Bool) (m : Nat) (e e0 : Int) : Int :=
  let v : Int := m * 2 ^ (e - e0).toNat
  if neg then -v else v

/-- The exact sum of two finite numbers, rounded; an exact zero of operands with opposite signs is +0, or −0 under rdn
(R94). -/
def Fmt.addFin (t : Fmt) (rm : Rounding) (n1 : Bool) (m1 : Nat) (e1 : Int) (n2 : Bool) (m2 : Nat) (e2 : Int) : Nat :=
  let e0 := min e1 e2
  let s := scaledInt n1 m1 e1 e0 + scaledInt n2 m2 e2 e0
  if s = 0 then t.withSign (if n1 = n2 then n1 else rm = .rdn) 0
  else t.round rm false (s < 0) s.natAbs e0

/-- The sign of a value; a NaN counts as positive. -/
def FVal.neg : FVal → Bool
  | .nan => false
  | .inf n => n
  | .fin n _ _ => n

/-- The value with its sign changed. -/
def FVal.negate : FVal → FVal
  | .nan => .nan
  | .inf n => .inf !n
  | .fin n m e => .fin (!n) m e

/-- The sum of two values rounded to a format, with NaN for NaN inputs and for ∞ − ∞ (R123, R124). -/
def Fmt.addVal (t : Fmt) (rm : Rounding) (x y : FVal) : Nat :=
  match x, y with
  | .nan, _ => t.nanEnc
  | _, .nan => t.nanEnc
  | .inf n1, .inf n2 => if n1 = n2 then t.withSign n1 t.infEnc else t.nanEnc
  | .inf n, .fin .. => t.withSign n t.infEnc
  | .fin .., .inf n => t.withSign n t.infEnc
  | .fin n1 m1 e1, .fin n2 m2 e2 => t.addFin rm n1 m1 e1 n2 m2 e2

/-- The exact product of two values: NaN for NaN inputs and for 0 × ∞ (R124). -/
def mulVal (x y : FVal) : FVal :=
  match x, y with
  | .nan, _ => .nan
  | _, .nan => .nan
  | .inf n1, .inf n2 => .inf (n1 != n2)
  | .inf n1, .fin n2 m _ => if m = 0 then .nan else .inf (n1 != n2)
  | .fin n1 m _, .inf n2 => if m = 0 then .nan else .inf (n1 != n2)
  | .fin n1 m1 e1, .fin n2 m2 e2 => .fin (n1 != n2) (m1 * m2) (e1 + e2)

/-- A value rounded to a format. -/
def Fmt.ofVal (t : Fmt) (rm : Rounding) (sat : Bool) (x : FVal) : Nat :=
  match x with
  | .nan => t.nanEnc
  | .inf n => t.fromInf sat n
  | .fin n m e => t.round rm sat n m e

/-- Whether x < y as numbers, −0 equal to +0; false when either is NaN (R126). -/
def ltVal (x y : FVal) : Bool :=
  match x, y with
  | .nan, _ => false
  | _, .nan => false
  | .inf n1, .inf n2 => n1 && !n2
  | .inf n, .fin .. => n
  | .fin .., .inf n => !n
  | .fin n1 m1 e1, .fin n2 m2 e2 =>
    let e0 := min e1 e2
    decide (scaledInt n1 m1 e1 e0 < scaledInt n2 m2 e2 e0)

/-- Whether x = y as numbers, −0 equal to +0; false when either is NaN (R126). -/
def eqVal (x y : FVal) : Bool :=
  match x, y with
  | .nan, _ => false
  | _, .nan => false
  | x, y => !ltVal x y && !ltVal y x

/-- Whether x is below y with −0 below +0 (R125), for values that are not NaN. -/
def belowVal (x y : FVal) : Bool := ltVal x y || (eqVal x y && x.neg && !y.neg)

end Sys2Proof.Machine
end

