-- ==== Sys2Proof/Machine/FloatOps.lean ====
section
/-! DEFINITION. The floating-point and conversion operations of classes 2 and 3 on 64-bit containers
(R120 to R138), and the stochastic rounding of R95 and R96. -/
namespace Sys2Proof.Machine

/-- The element type of a class-2 operation: one scalar, or two elements packed in a container (R90, R124). -/
structure FType where
  fmt : Fmt
  packed : Bool
  deriving DecidableEq, Repr

/-- .f64 -/
def tyF64 : FType := ⟨fmtF64, false⟩
/-- .f32 -/
def tyF32 : FType := ⟨fmtF32, false⟩
/-- .f16 -/
def tyF16 : FType := ⟨fmtF16, false⟩
/-- .bf16 -/
def tyBf16 : FType := ⟨fmtBf16, false⟩
/-- .f16x2 -/
def tyF16x2 : FType := ⟨fmtF16, true⟩
/-- .bf16x2 -/
def tyBf16x2 : FType := ⟨fmtBf16, true⟩

/-- Element e of a container: the low bits, or the packed halves (R90). -/
def FType.elem (t : FType) (x : W64) (e : Nat) : Nat := bitsOf x.toNat (t.fmt.w * e) t.fmt.w

/-- A container with an element function applied to each element; unused bits are zero (R90). -/
def FType.map (t : FType) (g : Nat → Nat) : W64 :=
  if t.packed then BitVec.ofNat 64 (g 0 + g 1 * 2 ^ t.fmt.w) else BitVec.ofNat 64 (g 0)

/-- The value of element e. -/
def FType.val (t : FType) (x : W64) (e : Nat) : FVal := t.fmt.value (t.elem x e)

/-- `fadd` (R124). -/
def faddOf (t : FType) (rm : Rounding) (a b : W64) : W64 :=
  t.map fun e => t.fmt.addVal rm (t.val a e) (t.val b e)

/-- `fsub` (R124): a − b is a + (−b), with the same exact value and the same zero signs. -/
def fsubOf (t : FType) (rm : Rounding) (a b : W64) : W64 :=
  t.map fun e => t.fmt.addVal rm (t.val a e) (t.val b e).negate

/-- `fmul` (R124). -/
def fmulOf (t : FType) (rm : Rounding) (a b : W64) : W64 :=
  t.map fun e => t.fmt.ofVal rm false (mulVal (t.val a e) (t.val b e))

/-- `fma` (R124): the product is exact and only the final sum is rounded. -/
def fmaOf (t : FType) (rm : Rounding) (a b c : W64) : W64 :=
  t.map fun e => t.fmt.addVal rm (mulVal (t.val a e) (t.val b e)) (t.val c e)

/-- One element of `fmin` or `fmax` (R125): a result taken from an operand keeps its encoding. -/
def minMaxElem (t : Fmt) (isMin : Bool) (x y : Nat) : Nat :=
  match t.isNan x, t.isNan y with
  | true, true => t.nanEnc
  | true, false => y
  | false, true => x
  | false, false =>
    let vx := t.value x
    let vy := t.value y
    if isMin then (if belowVal vy vx then y else x) else (if belowVal vx vy then y else x)

/-- `fmin` (R125). -/
def fminOf (t : FType) (a b : W64) : W64 := t.map fun e => minMaxElem t.fmt true (t.elem a e) (t.elem b e)

/-- `fmax` (R125). -/
def fmaxOf (t : FType) (a b : W64) : W64 := t.map fun e => minMaxElem t.fmt false (t.elem a e) (t.elem b e)

/-- Whether a floating condition holds (R126). -/
def fcondHolds (c : FCond) (x y : FVal) : Bool :=
  let un := x == .nan || y == .nan
  match c with
  | .eq => !un && eqVal x y
  | .ne => un || !eqVal x y
  | .lt => !un && ltVal x y
  | .le => !un && !ltVal y x
  | .gt => !un && ltVal y x
  | .ge => !un && !ltVal x y
  | .un => un
  | .ord => !un

/-- `fcmp` (R126). -/
def fcompareOf (t : FType) (c : FCond) (a b : W64) : W64 := flagWord (fcondHolds c (t.val a 0) (t.val b 0))

/-- The number of the class bit of an encoding (R127). -/
def classBit (t : Fmt) (x : Nat) : Nat :=
  let neg := x / 2 ^ (t.w - 1) % 2 = 1
  match t.value x with
  | .nan => if neg then 9 else 8
  | .inf n => if n then 0 else 7
  | .fin n m _ =>
    if m = 0 then (if n then 3 else 4)
    else if m < 2 ^ t.f then (if n then 2 else 5)
    else (if n then 1 else 6)

/-- `fclass` (R127). -/
def fclassOf (t : FType) (a : W64) : W64 := BitVec.ofNat 64 (2 ^ classBit t.fmt (t.elem a 0))

/-- A conversion between floating formats (R128, R129): rounded once, NaN to the canonical NaN. -/
def convertOf (src dst : Fmt) (rm : Rounding) (sat : Bool) (a : W64) : W64 :=
  BitVec.ofNat 64 (dst.ofVal rm sat (src.value (bitsOf a.toNat 0 src.w)))

/-- `cvt.f16x2.f32` and `cvt.bf16x2.f32` (R131): two independent conversions of the halves of a. -/
def convertPairOf (dst : Fmt) (rm : Rounding) (sat : Bool) (a : W64) : W64 :=
  let g := fun e => dst.ofVal rm sat (fmtF32.value (bitsOf a.toNat (32 * e) 32))
  BitVec.ofNat 64 (g 0 + g 1 * 2 ^ dst.w)

/-- The power of two that `cvt.e8m0.f32` chooses for the magnitude m × 2^e with m > 0 (R132). -/
def e8m0Exponent (rm : Rounding) (m : Nat) (e : Int) : Int :=
  let l := bitLength m
  let k := e + l - 1
  let p := 2 ^ (l - 1)
  if m = p then k
  else match rm with
    | .rz | .rdn => k
    | .rup => k + 1
    | .rne => if 2 * m < 3 * p then k else if 3 * p < 2 * m then k + 1 else if k % 2 = 0 then k else k + 1

/-- `cvt.e8m0.f32` (R132). -/
def toE8m0Of (rm : Rounding) (a : W64) : W64 :=
  match fmtF32.value (ux 32 a) with
  | .nan => 0xFF
  | .inf _ => 0xFE
  | .fin _ m e =>
    if m = 0 then 0
    else BitVec.ofNat 64 (min 0xFE (max 0 (e8m0Exponent rm m e + 127)).toNat)

/-- The value of an E8M0 scale (R88). -/
def e8m0Value (x : Nat) : FVal :=
  if x % 256 = 0xFF then .nan else .fin false 1 ((x % 256 : Nat) - 127 : Int)

/-- `cvt.f32.e8m0` (R132): exact, and the mode has no effect. -/
def fromE8m0Of (a : W64) : W64 := BitVec.ofNat 64 (fmtF32.ofVal .rne false (e8m0Value (ux 8 a)))

/-- A conversion from an integer to a floating format (R133). -/
def fromIntOf (t : IntType) (dst : Fmt) (rm : Rounding) (a : W64) : W64 :=
  let v := readAs t a
  BitVec.ofNat 64 (dst.round rm false (v < 0) v.natAbs 0)

/-- ±m × 2^e rounded to an integer by a mode (R134). -/
def roundInt (rm : Rounding) (neg : Bool) (m : Nat) (e : Int) : Int :=
  let n : Nat := if 0 ≤ e then m * 2 ^ e.toNat else roundMag rm neg m (min (-e).toNat (bitLength m + 2))
  if neg then -(n : Int) else n

/-- A conversion from a floating format to an integer type (R134): rounded, then clamped; NaN gives 0. -/
def toIntOf (src : Fmt) (t : IntType) (rm : Rounding) (a : W64) : W64 :=
  match src.value (bitsOf a.toNat 0 src.w) with
  | .nan => 0
  | .inf n => wrapTo (intBits t) (if n then intMin t else intMax t)
  | .fin n m e => wrapTo (intBits t) (clampTo t (roundInt rm n m e))

/-- `frnd.f32` (R137): the integer that a rounds to, with the sign of a. -/
def roundIntegralOf (rm : Rounding) (a : W64) : W64 :=
  match fmtF32.value (ux 32 a) with
  | .nan => BitVec.ofNat 64 fmtF32.nanEnc
  | .inf _ => wrapTo 32 (ux 32 a : Nat)
  | .fin n m e =>
    if 0 ≤ e then wrapTo 32 (ux 32 a : Nat)
    else BitVec.ofNat 64 (fmtF32.round .rne false n (roundInt rm n m e).natAbs 0)

/-- `ldexp.f32` (R138). The exponent is bounded first: beyond 400 either way every nonzero result overflows or lies
below the smallest subnormal, and the rounded result does not change. -/
def ldexpOf (rm : Rounding) (a b : W64) : W64 :=
  let n := max (-400) (min 400 (sx 32 b))
  match fmtF32.value (ux 32 a) with
  | .nan => BitVec.ofNat 64 fmtF32.nanEnc
  | .inf _ => wrapTo 32 (ux 32 a : Nat)
  | .fin s m e => BitVec.ofNat 64 (fmtF32.round rm false s m (e + n))

/-- One step of the generator (R95). -/
def genStep (s : W32) : W32 :=
  let s1 := s ^^^ (s <<< 13)
  let s2 := s1 ^^^ (s1 >>> 17)
  s2 ^^^ (s2 <<< 5)

/-- k steps of the generator (R96). -/
def genSteps : Nat → W32 → W32
  | 0, s => s
  | n + 1, s => genSteps n (genStep s)

/-- A generator state that is not zero (R96, R97). -/
def genSeed (x : Nat) : W32 :=
  let s := BitVec.ofNat 32 x
  if s = 0 then 0x6D2B79F5 else s

/-- `cvt.sr` of an f32 value with the generator value u (R95): the neighbours lo and hi are the multiples of the quantum
around |x|, and hi is taken when u is below the scaled distance. -/
def stochasticOf (dst : Fmt) (sat : Bool) (u : W32) (a : W64) : W64 :=
  match fmtF32.value (ux 32 a) with
  | .nan => BitVec.ofNat 64 dst.nanEnc
  | .inf n => BitVec.ofNat 64 (dst.overflow .rne sat n)
  | .fin n m e =>
    if m = 0 then BitVec.ofNat 64 (dst.withSign n 0)
    else
      let q := dst.quantum m e
      if q ≤ e then
        let mag := dst.encMag (m * 2 ^ (e - q).toNat) q
        BitVec.ofNat 64 (if dst.maxEnc < mag then dst.overflow .rne sat n else dst.withSign n mag)
      else
        let k := (q - e).toNat
        let lo := m / 2 ^ k
        let r := m % 2 ^ k
        let loMag := dst.encMag lo q
        if dst.maxEnc < loMag || (dst.maxEnc = loMag && r != 0) then BitVec.ofNat 64 (dst.overflow .rne sat n)
        else
          let f := 2 ^ 32 * r / 2 ^ k
          BitVec.ofNat 64 (dst.withSign n (if u.toNat < f then dst.encMag (lo + 1) q else loMag))

end Sys2Proof.Machine
end

