-- ==== Sys2Proof/Machine/Sfu.lean ====
section
/-! DEFINITION. The special functions (R139 to R141) and the exp2 of the sexp combine (R180). An algebraic
value is formed with its remainder kept as a sticky bit; a transcendental value is enclosed between two fixed-point
bounds of rising precision until both truncate to one encoding. -/
namespace Sys2Proof.Machine

/-- The largest r with r × r ≤ n, by `k` binary places from the top. -/
def isqrtFrom : Nat → Nat → Nat → Nat
  | 0, _, r => r
  | k + 1, n, r =>
    let c := r + 2 ^ k
    if c * c ≤ n then isqrtFrom k n c else isqrtFrom k n r

/-- The integer square root. -/
def isqrt (n : Nat) : Nat := isqrtFrom (bitLength n / 2 + 1) n 0

/-- A magnitude with a remainder folded in as one more place: exact where the remainder is zero, else strictly between
q and q + 1. -/
def stickyMag (q : Nat) (inexact : Bool) (e : Int) : Nat × Int :=
  (2 * q + (if inexact then 1 else 0), e - 1)

/-- 1 / (m × 2^e) with at least `p` quotient bits. -/
def recipMag (p m : Nat) (e : Int) : Nat × Int :=
  let k := bitLength m + p
  stickyMag (2 ^ k / m) (2 ^ k % m != 0) (-e - k)

/-- √(m × 2^e) with at least `p` root bits. -/
def sqrtMag (p m : Nat) (e : Int) : Nat × Int :=
  let k : Nat := 2 * p + (if (e - 2 * p) % 2 = 0 then 0 else 1)
  let n := m * 2 ^ k
  let r := isqrt n
  stickyMag r (r * r != n) ((e - k) / 2)

/-- 1 / √(m × 2^e) with at least `p` bits. -/
def rsqrtMag (p m : Nat) (e : Int) : Nat × Int :=
  let k0 := bitLength m + 2 * p
  let k : Nat := if (e + k0) % 2 = 0 then k0 else k0 + 1
  let q := 2 ^ k / m
  let r := isqrt q
  stickyMag r (r * r * m != 2 ^ k) (-(e + k) / 2)

/-- trunc1 of ±m × 2^e (R139): truncation, with the infinity at 2^128 and above. -/
def trunc1 (neg : Bool) (m : Nat) (e : Int) : Nat :=
  let x := fmtF32.round .rz false false m e
  let big := m != 0 && decide (128 ≤ e + (bitLength m : Int) - 1)
  fmtF32.withSign neg (if big then fmtF32.infEnc else x)

/-- trunc2 of ±m × 2^e (R139): an f32 value is returned as it is; any other value is truncated to an even fraction. -/
def trunc2 (neg : Bool) (m : Nat) (e : Int) : Nat :=
  let x := trunc1 false m e
  let exact := match fmtF32.value x with
    | .fin _ m' e' => decide (m' * 2 ^ (e' - min e e').toNat = m * 2 ^ (e - min e e').toNat)
    | _ => true
  fmtF32.withSign neg (if exact then x else x - x % 2)

/-- `rcp.f32` (R139, R140). -/
def rcpOf (a : W64) : W64 :=
  BitVec.ofNat 64 <| match fmtF32.value (ux 32 a) with
    | .nan => fmtF32.nanEnc
    | .inf n => fmtF32.withSign n 0
    | .fin n m e => if m = 0 then fmtF32.withSign n fmtF32.infEnc
      else let (q, k) := recipMag 30 m e; trunc1 n q k

/-- `rsq.f32` (R139, R140). -/
def rsqOf (a : W64) : W64 :=
  BitVec.ofNat 64 <| match fmtF32.value (ux 32 a) with
    | .nan => fmtF32.nanEnc
    | .inf n => if n then fmtF32.nanEnc else 0
    | .fin n m e =>
      if m = 0 then fmtF32.withSign n fmtF32.infEnc
      else if n then fmtF32.nanEnc
      else let (q, k) := rsqrtMag 30 m e; trunc1 false q k

/-- `sqrt.f32` (R139, R140). -/
def sqrtOf (a : W64) : W64 :=
  BitVec.ofNat 64 <| match fmtF32.value (ux 32 a) with
    | .nan => fmtF32.nanEnc
    | .inf n => if n then fmtF32.nanEnc else fmtF32.infEnc
    | .fin n m e =>
      if m = 0 then fmtF32.withSign n 0
      else if n then fmtF32.nanEnc
      else let (q, k) := sqrtMag 30 m e; trunc1 false q k

/-- `rcp.f64` (R141): correctly rounded. -/
def rcp64Of (rm : Rounding) (a : W64) : W64 :=
  BitVec.ofNat 64 <| match fmtF64.value a.toNat with
    | .nan => fmtF64.nanEnc
    | .inf n => fmtF64.withSign n 0
    | .fin n m e => if m = 0 then fmtF64.withSign n fmtF64.infEnc
      else let (q, k) := recipMag 60 m e; fmtF64.round rm false n q k

/-- `sqrt.f64` (R141): correctly rounded. -/
def sqrt64Of (rm : Rounding) (a : W64) : W64 :=
  BitVec.ofNat 64 <| match fmtF64.value a.toNat with
    | .nan => fmtF64.nanEnc
    | .inf n => if n then fmtF64.nanEnc else fmtF64.infEnc
    | .fin n m e =>
      if m = 0 then fmtF64.withSign n 0
      else if n then fmtF64.nanEnc
      else let (q, k) := sqrtMag 60 m e; fmtF64.round rm false false q k

/-! ### Enclosures of transcendental values, in units of 2^−p -/

/-- Two bounds of a nonnegative number in fixed point. -/
structure Bounds where
  lo : Nat
  hi : Nat
  deriving DecidableEq, Repr

/-- n / d rounded up. -/
def ceilDiv (n d : Nat) : Nat := (n + d - 1) / d

/-- The sum of the next `n` terms of the series of 1 / (k × b^k) with steps of `s` in k, in units of 2^−p, each term
rounded down; `pw` is b^k. -/
def seriesTerms (p b s : Nat) : Nat → Nat → Nat → Nat → Nat
  | 0, _, _, acc => acc
  | n + 1, k, pw, acc => seriesTerms p b s n (k + s) (pw * b ^ s) (acc + 2 ^ p / (k * pw))

/-- ln 2 as the sum of 1 / (k × 2^k). -/
def ln2Bounds (p : Nat) : Bounds :=
  let s := seriesTerms p 2 1 (p + 2) 1 2 0
  ⟨s, s + p + 4⟩

/-- The terms of arctan(1/b) with even and with odd index, each rounded down. -/
def atanParts (p b n : Nat) : Nat × Nat :=
  (seriesTerms p b 4 n 1 b 0, seriesTerms p b 4 n 3 (b ^ 3) 0)

/-- π by Machin's formula, 16 arctan(1/5) − 4 arctan(1/239). -/
def piBounds (p : Nat) : Bounds :=
  let n := p / 8 + 4
  let (a, b) := atanParts p 5 n
  let (c, d) := atanParts p 239 n
  ⟨16 * a - 16 * (b + n + 1) - 4 * (c + n + 1) + 4 * d, 16 * (a + n + 1) - 16 * b - 4 * c + 4 * (d + n + 1)⟩

/-- The next `n` terms x^k / k! of the exponential series in units of 2^−p, added by the residue of k modulo 4. `up`
rounds every product up. -/
def expTerms (p x : Nat) (up : Bool) : Nat → Nat → Nat → (Nat × Nat × Nat × Nat) → (Nat × Nat × Nat × Nat)
  | 0, _, _, acc => acc
  | n + 1, k, t, (s0, s1, s2, s3) =>
    let acc := match k % 4 with
      | 0 => (s0 + t, s1, s2, s3)
      | 1 => (s0, s1 + t, s2, s3)
      | 2 => (s0, s1, s2 + t, s3)
      | _ => (s0, s1, s2, s3 + t)
    let d := (k + 1) * 2 ^ p
    expTerms p x up n (k + 1) (if up then ceilDiv (t * x) d else t * x / d) acc

/-- The residue sums of the exponential series of a number below 2, bounded below and above; the terms left out add less
than one unit to any sum. -/
def expSums (p : Nat) (x : Bounds) : (Nat × Nat × Nat × Nat) × (Nat × Nat × Nat × Nat) :=
  let n := p / 2 + 30
  let z := (0, 0, 0, 0)
  (expTerms p x.lo false n 0 (2 ^ p) z, expTerms p x.hi true n 0 (2 ^ p) z)

/-- e^x for x below 2. -/
def expBounds (p : Nat) (x : Bounds) : Bounds :=
  let ((a0, a1, a2, a3), (b0, b1, b2, b3)) := expSums p x
  ⟨a0 + a1 + a2 + a3, b0 + b1 + b2 + b3 + 1⟩

/-- sin x for 0 ≤ x < 2. -/
def sinBounds (p : Nat) (x : Bounds) : Bounds :=
  let ((_, a1, _, a3), (_, b1, _, b3)) := expSums p x
  ⟨a1 - (b3 + 1), b1 + 1 - a3⟩

/-- cos x for 0 ≤ x < 2, bounded above by 1 less the part that is certain. -/
def cosBounds (p : Nat) (x : Bounds) : Bounds :=
  let ((a0, _, a2, _), (b0, _, b2, _)) := expSums p x
  ⟨a0 - (b2 + 1), b0 + 1 - a2⟩

/-- The odd terms z^(2k+1) / (2k+1) in units of 2^−p. -/
def atanhTerms (p z2 : Nat) (up : Bool) : Nat → Nat → Nat → Nat → Nat
  | 0, _, _, acc => acc
  | n + 1, k, t, acc =>
    if up then atanhTerms p z2 up n (k + 2) (ceilDiv (t * z2) (2 ^ p)) (acc + ceilDiv t k)
    else atanhTerms p z2 up n (k + 2) (t * z2 / 2 ^ p) (acc + t / k)

/-- ln(m / 2^l) for 2^l ≤ m < 2^(l+1), as 2 artanh((m − 2^l) / (m + 2^l)). -/
def lnBounds (p m l : Nat) : Bounds :=
  let num := (m - 2 ^ l) * 2 ^ p
  let den := m + 2 ^ l
  let zlo := num / den
  let zhi := ceilDiv num den
  let n := p / 3 + 4
  ⟨2 * atanhTerms p (zlo * zlo / 2 ^ p) false n 1 zlo 0,
   2 * (atanhTerms p (ceilDiv (zhi * zhi) (2 ^ p)) true n 1 zhi 0 + 1)⟩

/-- The precisions tried in turn. -/
def precisions : List Nat := [64, 128, 256, 448]

/-- The encoding on which a truncation of both bounds agrees, at the first precision where it does; at the last
precision, that of the lower bound. -/
def settle (trunc : Nat → Int → Nat) (f : Nat → Bounds) (e : Int) : List Nat → Nat
  | [] => 0
  | [p] => trunc (f p).lo (e - p)
  | p :: rest =>
    let b := f p
    let x := trunc b.lo (e - p)
    if x = trunc b.hi (e - p) then x else settle trunc f e rest

/-- 2^f for the fraction f = r / 2^k with 0 < r < 2^k. -/
def exp2Bounds (r k p : Nat) : Bounds :=
  let l := ln2Bounds p
  expBounds p ⟨l.lo * r / 2 ^ k, ceilDiv (l.hi * r) (2 ^ k)⟩

/-- `exp2.f32` (R139, R140). -/
def exp2Of (a : W64) : W64 :=
  BitVec.ofNat 64 <| match fmtF32.value (ux 32 a) with
    | .nan => fmtF32.nanEnc
    | .inf n => if n then 0 else fmtF32.infEnc
    | .fin neg m e =>
      let x := scaledInt neg m e (min e 0)
      let k := (-(min e 0)).toNat
      let n := x / 2 ^ k
      let r := (x % 2 ^ k).toNat
      if 128 ≤ n then fmtF32.infEnc
      else if n < -149 then 0
      else if r = 0 then trunc2 false 1 n
      else settle (trunc2 false) (exp2Bounds r k) n precisions

/-- |log₂(m × 2^e)| where m is not a power of two; the integer part is `k` and the fraction's logarithm is added to it or
taken from its magnitude. -/
def log2Bounds (m l : Nat) (k : Int) (p : Nat) : Bounds :=
  let b := lnBounds p m l
  let d := ln2Bounds p
  let flo := b.lo * 2 ^ p / d.hi
  let fhi := ceilDiv (b.hi * 2 ^ p) d.lo
  if 0 ≤ k then ⟨k.toNat * 2 ^ p + flo, k.toNat * 2 ^ p + fhi⟩
  else ⟨(-k).toNat * 2 ^ p - fhi, (-k).toNat * 2 ^ p - flo⟩

/-- `log2.f32` (R139, R140). -/
def log2Of (a : W64) : W64 :=
  BitVec.ofNat 64 <| match fmtF32.value (ux 32 a) with
    | .nan => fmtF32.nanEnc
    | .inf n => if n then fmtF32.nanEnc else fmtF32.infEnc
    | .fin n m e =>
      if m = 0 then fmtF32.withSign true fmtF32.infEnc
      else if n then fmtF32.nanEnc
      else
        let l := bitLength m - 1
        let k := e + l
        if m = 2 ^ l then trunc2 (k < 0) k.natAbs 0
        else settle (trunc2 (k < 0)) (log2Bounds m l k) 0 precisions

/-- sin(π × r / 2^k) for 0 < r < 2^(k−1). -/
def sinpiBounds (r k p : Nat) : Bounds :=
  let b := piBounds p
  sinBounds p ⟨b.lo * r / 2 ^ k, ceilDiv (b.hi * r) (2 ^ k)⟩

/-- cos(π × r / 2^k) for 0 < r < 2^(k−1). -/
def cospiBounds (r k p : Nat) : Bounds :=
  let b := piBounds p
  cosBounds p ⟨b.lo * r / 2 ^ k, ceilDiv (b.hi * r) (2 ^ k)⟩

/-- sin(π × x / 2^k) for 0 ≤ x < 2^(k+1) with k ≥ 1: the half turn gives the sign, and the quarter turn the function of
the rest. -/
def sinTurn (zeroNeg : Bool) (x k : Nat) : Nat :=
  let half := 2 ^ k
  let neg := decide (half ≤ x)
  let y := x % half
  let quarter := 2 ^ (k - 1)
  if y = 0 then fmtF32.withSign zeroNeg 0
  else if y = quarter then trunc1 neg 1 0
  else if y < quarter then settle (trunc1 neg) (sinpiBounds y k) 0 precisions
  else settle (trunc1 neg) (cospiBounds (y - quarter) k) 0 precisions

/-- The argument of `sinpi` and `cospi` reduced modulo 2, in units of 2^−k with k ≥ 1. -/
def turnOf (neg : Bool) (m : Nat) (e : Int) : Nat × Nat :=
  let k := (-(min e (-1))).toNat
  let x := scaledInt neg m e (min e (-1))
  ((x % 2 ^ (k + 1)).toNat, k)

/-- `sinpi.f32` (R139, R140). -/
def sinpiOf (a : W64) : W64 :=
  BitVec.ofNat 64 <| match fmtF32.value (ux 32 a) with
    | .nan | .inf _ => fmtF32.nanEnc
    | .fin n m e => let (x, k) := turnOf n m e; sinTurn n x k

/-- `cospi.f32` (R139, R140): the sine a quarter turn on; its zeros are +0. -/
def cospiOf (a : W64) : W64 :=
  BitVec.ofNat 64 <| match fmtF32.value (ux 32 a) with
    | .nan | .inf _ => fmtF32.nanEnc
    | .fin n m e => let (x, k) := turnOf n m e; sinTurn false ((x + 2 ^ (k - 1)) % 2 ^ (k + 1)) k

/-! ### The sexp combine -/

/-- The loop of R180 from k down to 1. -/
def exp2Loop (y : Nat) : Nat → Nat → Nat
  | 0, t => t
  | k + 1, t => exp2Loop y k (2 ^ 32 + (y * t / 2 ^ 32) / (k + 1))

/-- `exp2ref` of an f32 encoding with a value of at most 0 (R180). -/
def exp2ref (d : Nat) : Nat :=
  match fmtF32.value d with
  | .nan => fmtF32.nanEnc
  | .inf _ => 0
  | .fin neg m e =>
    if m = 0 then 0x3F800000
    else
      let q := if 0 ≤ e + 24 then scaledInt neg m (e + 24) 0 else scaledInt neg m 0 0 / 2 ^ (-(e + 24)).toNat
      if scaledInt neg m e (min e 0) < -150 * 2 ^ (-(min e 0)).toNat then 0
      else
        let n := q / 2 ^ 24
        let r := (q % 2 ^ 24).toNat
        let y := r * 0xB17217F7 / 2 ^ 24
        fmtF32.round .rne false false (exp2Loop y 9 (2 ^ 32)) (n - 32)

/-- The sexp combine of two pairs, m in [31:0] and s in [63:32] (R179). -/
def sexpOf (a b : W64) : W64 :=
  let m1 := bitsOf a.toNat 0 32
  let s1 := bitsOf a.toNat 32 32
  let m2 := bitsOf b.toNat 0 32
  let s2 := bitsOf b.toNat 32 32
  let t := fmtF32
  let pack := fun (m s : Nat) => BitVec.ofNat 64 (m + s * 2 ^ 32)
  if t.isNan m1 || t.isNan s1 || t.isNan m2 || t.isNan s2 then pack t.nanEnc t.nanEnc
  else if eqVal (t.value m1) (t.value m2) then pack m1 (t.addVal .rne (t.value s1) (t.value s2))
  else
    let first := ltVal (t.value m2) (t.value m1)
    let (mh, sh) := if first then (m1, s1) else (m2, s2)
    let (ml, sl) := if first then (m2, s2) else (m1, s1)
    let d := t.addVal .rne (t.value ml) (t.value mh).negate
    let e := exp2ref d
    if e = 0 then pack mh sh
    else pack mh (t.addVal .rne (mulVal (t.value sl) (t.value e)) (t.value sh))

/-- The identity of the sexp combine, (−∞, +0) (R150). -/
def sexpIdentity : W64 := 0x00000000FF800000

end Sys2Proof.Machine
end

