-- ==== Sys2Proof/Machine/LaneOps.lean ====
section
/-! DEFINITION. Lane and group operations on the lanes of one value (R143 to R151): the tree of every reduction and
scan, the choice of a source lane, votes and matches. Core blocks and Twill elements share these functions. -/
namespace Sys2Proof.Machine

/-- The 16 lanes of a value; a null lane carries nothing. -/
abbrev Lanes := List (Option W64)

/-- The content of lane l. -/
def laneAt (v : Lanes) (l : Nat) : Option W64 := (v[l]?).join

/-- One level of the tree: neighbours combined with the lower lanes on the left (R149). -/
def pairUp {α : Type} (op : α → α → α) : List α → List α
  | x :: y :: rest => op x y :: pairUp op rest
  | l => l

/-- The levels of the tree above its leaves: level k holds the nodes N(j, k) (R149). -/
def treeLevels {α : Type} (op : α → α → α) : Nat → List α → List (List α)
  | 0, l => [l]
  | n + 1, l => l :: treeLevels op n (pairUp op l)

/-- The root of the tree over 2^n leaves, `d` for no leaf (R149). -/
def treeRoot {α : Type} (op : α → α → α) (d : α) : Nat → List α → α
  | 0, l => l.headD d
  | n + 1, l => treeRoot op d n (pairUp op l)

/-- The node N(j, k) of the levels of a tree. -/
def treeNode {α : Type} (levels : List (List α)) (d : α) (j k : Nat) : α := (levels.getD k []).getD j d

/-- The inclusive prefix over n leaves, taken in the largest blocks from the left (R149): `k` counts down from 4. -/
def scanFrom {α : Type} (op : α → α → α) (levels : List (List α)) (d : α) (n : Nat) : Nat → Nat → Option α → α
  | 0, base, acc =>
    let here := treeNode levels d base 0
    if n % 2 = 1 then (match acc with | none => here | some x => op x here) else acc.getD d
  | k + 1, base, acc =>
    if n / 2 ^ (k + 1) % 2 = 1 then
      let here := treeNode levels d (base / 2 ^ (k + 1)) (k + 1)
      let acc' := match acc with | none => here | some x => op x here
      scanFrom op levels d n k (base + 2 ^ (k + 1)) (some acc')
    else scanFrom op levels d n k base acc

/-- The inclusive prefix of lane l (R149). -/
def scanAt {α : Type} (op : α → α → α) (d : α) (leaves : List α) (l : Nat) : α :=
  scanFrom op (treeLevels op 4 leaves) d (l + 1) 4 0 none

/-- A reduction's operator on the values of its leaves, its identity, and what the root delivers (R150). -/
structure Reduction (α : Type) where
  op : α → α → α
  unit : α
  leaf : W64 → α
  out : α → W64

/-- The leaves of a reduction: a lane that does not contribute enters as the identity (R149). -/
def Reduction.leaves {α : Type} (r : Reduction α) (v : Lanes) : List α :=
  (List.range 16).map fun l => match laneAt v l with | some x => r.leaf x | none => r.unit

/-- `gred`: the reduction of all contributing lanes (R149). -/
def Reduction.total {α : Type} (r : Reduction α) (v : Lanes) : W64 :=
  r.out (treeRoot r.op r.unit 4 (r.leaves v))

/-- `gscan`: the inclusive prefix up to lane l (R149). -/
def Reduction.prefixTo {α : Type} (r : Reduction α) (v : Lanes) (l : Nat) : W64 :=
  r.out (scanAt r.op r.unit (r.leaves v) l)

/-- The integer type of a 32-bit add: .n32 or .i32 (R150). -/
def addType (n : Bool) : IntType := if n then .n32 else .i32

/-- The exact integer sum, wrapped or clamped once at the root (R150). -/
def redAddInt (sat n : Bool) : Reduction Int :=
  ⟨(· + ·), 0, readAs (addType n), fun s => wrapTo 32 (if sat then clampTo (addType n) s else s)⟩

/-- The floating sum with one rounding at each node; the identity is −0 (R150). -/
def redAddFloat (t : FType) : Reduction W64 :=
  ⟨faddOf t .rne, BitVec.ofNat 64 (2 ^ (t.fmt.w - 1)), fun x => t.map fun e => t.elem x e, id⟩

/-- The maximum of a type (R150). -/
def redMax : RedType → Reduction W64
  | .i32 => ⟨intMaxOf .i32, 0x80000000, fun x => wrapTo 32 (ux 32 x : Nat), id⟩
  | .n32 => ⟨intMaxOf .n32, 0, fun x => wrapTo 32 (ux 32 x : Nat), id⟩
  | .f32 => ⟨fmaxOf tyF32, 0x7FC00000, fun x => wrapTo 32 (ux 32 x : Nat), id⟩

/-- The minimum of a type (R150). -/
def redMin : RedType → Reduction W64
  | .i32 => ⟨intMinOf .i32, 0x7FFFFFFF, fun x => wrapTo 32 (ux 32 x : Nat), id⟩
  | .n32 => ⟨intMinOf .n32, 0xFFFFFFFF, fun x => wrapTo 32 (ux 32 x : Nat), id⟩
  | .f32 => ⟨fminOf tyF32, 0x7FC00000, fun x => wrapTo 32 (ux 32 x : Nat), id⟩

/-- The bitwise reductions over 32 bits (R150). -/
def redBitwise : RedBit → Reduction W64
  | .and => ⟨bitwise .and .b32, 0xFFFFFFFF, fun x => wrapTo 32 (ux 32 x : Nat), id⟩
  | .or => ⟨bitwise .or .b32, 0, fun x => wrapTo 32 (ux 32 x : Nat), id⟩
  | .xor => ⟨bitwise .xor .b32, 0, fun x => wrapTo 32 (ux 32 x : Nat), id⟩

/-- The sexp combine over pairs (R150, R179). -/
def redSexp : Reduction W64 := ⟨sexpOf, sexpIdentity, id, id⟩

/-- What a lane may read of the others (R145): which lane positions hold no live thread, and the register content that a
direct `rd` of the lane file gives for a lane that is null in the value. -/
structure LaneView where
  dead : W16
  content : Lanes
  deriving DecidableEq, Repr

/-- src(s) (R145): the source lane's value; the register's content where the lane is live and null; the fill
otherwise. -/
def sourceOf (view : LaneView) (v : Lanes) (fill : W64) (s : Int) : W64 :=
  if s < 0 || 15 < s then fill
  else
    let l := s.toNat
    if laneBit view.dead l then fill
    else match laneAt v l with
      | some x => x
      | none => (laneAt view.content l).getD fill

/-- The source lane of `xlane` (R146). -/
def xlaneSource (form : LaneForm) (rot : Bool) (l : Nat) (b : W64) : Int :=
  let k := ux 32 b
  match form with
  | .lo => if rot then ((l : Int) - k) % 16 else (l : Int) - k
  | .hi => if rot then ((l : Int) + k) % 16 else (l : Int) + k
  | .flip => (Nat.xor l k : Nat)
  | .at => k

/-- The source lane of `perm`: nibble l of the selector (R146). -/
def permSource (sel : W64) (l : Nat) : Int := bitsOf sel.toNat (4 * l) 4

/-- The mask of the contributing lanes whose bit 0 is 1 (R148). -/
def voteMask (v : Lanes) : W16 :=
  maskOf fun l => match laneAt v l with | some x => x.getLsbD 0 | none => false

/-- The contributing lanes (R148). -/
def presentMask (v : Lanes) : W16 := maskOf fun l => (laneAt v l).isSome

/-- The votes over the contributing lanes (R148). -/
def voteOf (form : VoteForm) (v : Lanes) : W64 :=
  match form with
  | .some => flagWord (voteMask v != 0)
  | .every => flagWord (voteMask v == presentMask v)
  | .mask => (voteMask v).setWidth 64
  | .same =>
    let xs := (v.filterMap id).map (ux 32)
    flagWord (match xs with | [] => true | x :: rest => rest.all (· == x))

/-- `match`: the contributing lanes that hold lane l's value over the width (R148). -/
def matchOf (w : Width) (v : Lanes) (x : W64) : W64 :=
  (maskOf fun j => match laneAt v j with
    | some y => ux (widthBits w) y == ux (widthBits w) x
    | none => false).setWidth 64

end Sys2Proof.Machine
end

