-- ==== Sys2Proof/Config.lean ====
section
/-! DEFINITION. What the manual leaves open, as constants without a body: nothing can be proved of their
values, so a claim holds whatever they are. -/
namespace Sys2Proof.Config

/-- The byte that a read of an HBM or second-tier location returns when no store has written it since power-on: key
generation and physical address (R209, R412). DESIGN CHOICE, log entry 1. -/
opaque powerOnByte : Nat → Nat → W8

/-- A byte of the decipherment of a data unit under keys or at an address other than those of its encipherment: generation and address of
the encipherment, generation and address of the reading, the unit's bytes as enciphered, and the byte's place in the unit (R412, R450).
DESIGN CHOICE, log entry 12. -/
opaque decipher : Nat → Nat → Nat → Nat → List W8 → Nat → W8

/-- The cycles that pass beyond one in the given step: the manual bounds most durations and fixes few (R3, R210). DESIGN CHOICE, log entry 8. -/
opaque extraCycles : Nat → Nat

/-- The bytes that a save of a context in the given step writes to a save or swap area, by offset: the manual gives their number and
not their layout (R290, R352). DESIGN CHOICE, log entry 14. -/
opaque savedByte : Nat → Nat → W8

/-- The offset in a team's context, taken modulo its size, at which the given step writes a barrier entry that is spilled (R447). DESIGN
CHOICE, log entry 14. -/
opaque spillPlace : Nat → Nat

/-- The choice among the agents that may act in the given step; it is taken modulo their number. DESIGN CHOICE, log entry 4. -/
opaque choice : Nat → Nat

/-- Whether the root of trust accepts the signature of a firmware image (R429). DESIGN CHOICE, log entry 15. -/
opaque imageSigned : List W8 → Bool

/-- The security version of a firmware image (R429). DESIGN CHOICE, log entry 15. -/
opaque imageVersion : List W8 → W32

/-- The security version held in fuses (R429). DESIGN CHOICE, log entry 15. -/
opaque fusedVersion : W32

/-- The r and s of an ECDSA signature over P-384 with the module's identity key (R430). DESIGN CHOICE, log entry 15. -/
opaque attestationSignature : BitVec 384 → BitVec 768

/-- The bytes, 64-byte units, that the device behind a second-tier port reports as its capacity (R212). DESIGN CHOICE, log entry 16. -/
opaque secondTierBytes : Nat → Nat

/-- The error status that a token or location with an uncorrectable error carries in a record (R436, R446). DESIGN CHOICE, log entry 11. -/
opaque errorStatus : Nat → W64

/-- The firmware image that the part holds at reset (R429). DESIGN CHOICE, log entry 15. -/
opaque storedImage : List W8

/-- Whether the training, in the given step, of a stack passes (R449, R450). DESIGN CHOICE, log entry 16. -/
opaque trainingPasses : Nat → Nat → Bool

/-- The flits of a Seam link that a message with so many bytes takes (R428). DESIGN CHOICE, log entry 17. -/
opaque seamFlits : Nat → Nat

/-- The management controller's own cycles between two samples, 10 µs of its clock (R28). DESIGN CHOICE, log entry 16. -/
opaque samplePeriod : Nat

/-- The hottest junction of a die in the given step, in units of 0.25 °C (R28, R452). DESIGN CHOICE, log entry 16. -/
opaque junction : Nat → Nat → Nat

/-- The core-rail current that a die draws in the given step, in A (R26, R28, R452). DESIGN CHOICE, log entry 16. -/
opaque railCurrent : Nat → Nat → Nat

/-- What a link does to a token: nothing, an error of one bit, or one that its receiver cannot correct (R25). -/
inductive LinkError where
  | none
  | single
  | beyond
  deriving DecidableEq, Repr, Inhabited

/-- What a link does to the token that arrives in the given step (R25). DESIGN CHOICE, log entry 13. -/
opaque linkError : Nat → LinkError

/-- What a link does to the token of a configuration word, by its number, in the given step (R25, R285). DESIGN CHOICE, log entry 13. -/
opaque configError : Nat → Nat → LinkError

/-- The SEC-DED code over the bits [557:0] of a token (R25). DESIGN CHOICE, log entry 13. -/
opaque secDed : BitVec 558 → BitVec 11

/-- The CRC over the bits [557:528] of a token (R25). DESIGN CHOICE, log entry 13. -/
opaque tokenCrc : BitVec 30 → BitVec 7

/-- The chunk whose checksums mismatch in the given step, if one does (R162). DESIGN CHOICE, log entry 13. -/
opaque checksumMismatch : Nat → Option Nat

/-- The bytes of a node B, by buffer and offset, that the east half of a pair reads in the given step after the west team has ended: the
manual gives none (R171, R439). DESIGN CHOICE, log entry 138. -/
opaque lostByte : Nat → Nat → W8

/-- The element of a tile that is stored first in the given step, the others following in turn: writes of one transfer to one
byte are unordered (R223, R272). DESIGN CHOICE, log entry 10. -/
opaque writeOrder : Nat → Nat

/-- The virtual address whose walk may complete in the given step (R409). DESIGN CHOICE, log entry 18. -/
opaque walkAddress : Nat → W64

/-- The single-bit soft errors that the codes of a die's memories correct in the given step: the die is the remainder by 8 (R446).
DESIGN CHOICE, log entry 11. -/
opaque softErrors : Nat → Nat

/-- The location that comes to hold an uncorrectable error in the given step, as an index into what the model can name: none in
most steps (R446). DESIGN CHOICE, log entry 11. -/
opaque errorAt : Nat → Option Nat

end Sys2Proof.Config
end

