-- ==== Sys2Proof/WellFormed.lean ====
section
/-! DEFINITION. The conditions on an instruction's operands that its encoding demands and the operand types do not
already state. -/
namespace Sys2Proof

/-- A lane pair names an even register below the eyelets (R46). -/
def RegRef.wf : RegRef → Bool
  | .lane n true => n.getLsbD 0 = false && decide (n.toNat < 248)
  | _ => true

/-- An eyelet kind is read only (R46). -/
def RegRef.writable : RegRef → Bool
  | .kind _ => false
  | _ => true

/-- The registers that some privilege level may write (R415). CONT counts as one: its write gives PRIV. -/
def CtlReg.writable : CtlReg → Bool
  | .ibud | .tbud | .cont | .prio | .waitswap | .tapest | .fltinfo | .fltaddr | .epc | .ssca | .sscb | .hsel | .hent0
  | .hent1 => true
  | _ => false

/-- A target of an atomic names a write port alone (R237). -/
def toWritePort : Option Dest → Bool
  | none => true
  | some d => d.port = .w

/-- The packed and single bf16 forms, and the conversions to bf16, accept rounding code 00 only (R77, R129, R131). -/
def rneOnly (r : Rounding) : Bool := r = .rne

/-- The conditions that R46, R70, R77, R129, R131, R306 and R415 put on an instruction's own fields. -/
def WellFormed (i : Instr) : Bool :=
  match i with
  | .rd r => r.wf
  | .wr r => r.wf && r.writable
  | .srw cr => cr.writable
  | .spin imm => decide (imm ≠ 0)
  | .faddBf16 r | .fsubBf16 r | .fmulBf16 r | .fmaBf16 r => rneOnly r
  | .faddBf16x2 r | .fsubBf16x2 r | .fmulBf16x2 r | .fmaBf16x2 r => rneOnly r
  | .cvtBf16F32 r _ | .cvtBf16x2F32 r _ => rneOnly r
  | .xlaneB32 form rot | .xlaneB64 form rot => !rot || form = .lo || form = .hi
  | .iter c => decide (c ≠ 7)
  | _ => true

/-- Whether an instruction is an atomic whose result is its old value (R236). -/
def Instr.isAtomic (i : Instr) : Bool :=
  match i with
  | .atomAdd _ _ | .atomAnd _ _ | .atomOr _ _ | .atomXor _ _ | .atomMinI _ _ | .atomMaxI _ _ | .atomMinN _ _
  | .atomMaxN _ _ | .atomExch _ _ | .atomCas _ _ | .atomInc _ _ | .atomDec _ _ | .atomFmax _ _ | .atomFmin _ _
  | .atomFadd _ _ | .atomFaddX2 _ _ => true
  | _ => false

/-- The condition that R237 puts on a node's targets: those of an atomic name write ports alone. -/
def Node.wf (n : Node) : Bool := !n.instr.isAtomic || (toWritePort n.t0 && toWritePort n.t1)

end Sys2Proof
end

