-- ==== Sys2Proof/Decode.lean ====
section
/-! DEFINITION. The decoder, total on any bytes, and the encoder: instruction words by the formats of R34 with the
modifiers of R77 to R79, and the operator words of a configuration by R279 and R306. -/
namespace Sys2Proof

/-- Why a word is not an instruction (R34, R82): the opcode is not assigned to block code, or a reserved field or code
is named. Both are answers of the decoder; the fetch of a block raises the fault of the same name. -/
inductive DecodeError where
  | illegalOpcode
  | blockForm
  deriving DecidableEq, Repr

/-- BLOCK_FORM unless the condition holds. -/
def reserved (ok : Bool) : Except DecodeError Unit :=
  if ok then .ok () else .error .blockForm

/-- The five fields that every layout of R34 is cut from: opcode [31:23], guard [22:21], modifier [20:18],
t1 [17:9] and t0 [8:0]. -/
structure Fields where
  op : BitVec 9
  g : BitVec 2
  m : BitVec 3
  t1 : BitVec 9
  t0 : BitVec 9
  deriving DecidableEq, Repr

/-- The fields of a word (R34). -/
def Fields.ofWord (w : W32) : Fields :=
  ⟨w.extractLsb' 23 9, w.extractLsb' 21 2, w.extractLsb' 18 3, w.extractLsb' 9 9, w.extractLsb' 0 9⟩

/-- The word of the fields (R34). -/
def Fields.toWord (x : Fields) : W32 := x.op ++ x.g ++ x.m ++ x.t1 ++ x.t0

/-- The guard field (R36); 11 is reserved. -/
def Guard.ofBits (b : BitVec 2) : Except DecodeError Guard :=
  match b.toNat with
  | 0 => .ok .always
  | 1 => .ok .when
  | 2 => .ok .unless
  | _ => .error .blockForm

/-- The code of a guard (R36). -/
def Guard.toBits : Guard → BitVec 2
  | .always => 0 | .when => 1 | .unless => 2

/-- The port code of R35 as an optional port: 000 is none, 110 and 111 are reserved. -/
def portOf (b : BitVec 3) : Except DecodeError (Option Port) :=
  match b.toNat with
  | 0 => .ok none
  | 1 => .ok (some .a)
  | 2 => .ok (some .b)
  | 3 => .ok (some .c)
  | 4 => .ok (some .p)
  | 5 => .ok (some .w)
  | _ => .error .blockForm

/-- The code of a port (R35). -/
def Port.toBits : Port → BitVec 3
  | .a => 1 | .b => 2 | .c => 3 | .p => 4 | .w => 5

/-- A target field: port [8:6] and slot [5:0] (R35). -/
def targetOf (b : BitVec 9) : Except DecodeError (Option Dest) := do
  match ← portOf (b.extractLsb' 6 3) with
  | none => reserved (b.extractLsb' 0 6 = 0#6); pure none
  | some q => pure (some ⟨b.extractLsb' 0 6, q⟩)

/-- The field of a target (R35). -/
def targetBits : Option Dest → BitVec 9
  | none => 0
  | some d => d.port.toBits ++ d.slot

/-- The fields of an opcode and a modifier. -/
def Fields.ofMod (op : BitVec 9) (m : BitVec 3) : Fields := ⟨op, 0, m, 0, 0⟩

/-- The fields of an opcode and a 12-bit immediate, which stands in [20:9] (R34). -/
def Fields.ofImm (op : BitVec 9) (imm : BitVec 12) : Fields :=
  ⟨op, 0, imm.extractLsb' 9 3, imm.extractLsb' 0 9, 0⟩

/-- The BX fields (R34): the exit number in [20:19] and the offset in [18:0]. -/
def Fields.ofBranch (op : BitVec 9) (e : BitVec 2) (off : BitVec 19) : Fields :=
  ⟨op, 0, e ++ off.extractLsb' 18 1, off.extractLsb' 9 9, off.extractLsb' 0 9⟩

/-- The register of the RG layout (R44, R46, R47): file [14:12], extra [11:9], register [22:15]. -/
def RegRef.ofFields (x : Fields) : Except DecodeError RegRef :=
  let n : BitVec 8 := x.g ++ x.m ++ x.t1.extractLsb' 6 3
  let file := (x.t1.extractLsb' 3 3).toNat
  let extra := (x.t1.extractLsb' 0 3).toNat
  match file with
  | 0 =>
    if extra = 0 then .ok (.lane n false)
    else if extra = 1 then .ok (.lane n true)
    else .error .blockForm
  | 1 => do reserved (extra = 0 ∧ n.toNat < 64); pure (.uniform (n.extractLsb' 0 6))
  | 2 =>
    if n.toNat < 8 then
      if extra = 0 then .ok (.mask (n.extractLsb' 0 3) false)
      else if extra = 1 then .ok (.mask (n.extractLsb' 0 3) true)
      else .error .blockForm
    else .error .blockForm
  | 3 => do reserved (extra = 0 ∧ n.toNat < 8); pure (.kind (n.extractLsb' 0 3))
  | _ => .error .blockForm

/-- The register number, file code and extra code of a register reference (R44, R46). -/
def RegRef.codes : RegRef → BitVec 8 × BitVec 3 × BitVec 3
  | .lane n b64 => (n, 0, if b64 then 1 else 0)
  | .uniform n => (n.setWidth 8, 1, 0)
  | .mask n whole => (n.setWidth 8, 2, if whole then 1 else 0)
  | .kind n => (n.setWidth 8, 3, 0)

/-- The RG fields (R34). -/
def RegRef.toFields (op : BitVec 9) (r : RegRef) : Fields :=
  let (n, file, extra) := r.codes
  ⟨op, n.extractLsb' 6 2, n.extractLsb' 3 3, n.extractLsb' 0 3 ++ file ++ extra, 0⟩

/-- The control register of a number (R415). -/
def CtlReg.ofBits (b : BitVec 12) : Except DecodeError CtlReg :=
  match b.toNat with
  | 0x000 => .ok .laneid
  | 0x001 => .ok .groupid
  | 0x002 => .ok .teamid
  | 0x003 => .ok .clusterid
  | 0x004 => .ok .coreid
  | 0x005 => .ok .dieid
  | 0x006 => .ok .teamh
  | 0x010 => .ok .ibud
  | 0x011 => .ok .tbud
  | 0x012 => .ok .cont
  | 0x018 => .ok .prio
  | 0x019 => .ok .waitswap
  | 0x020 => .ok .tapest
  | 0x021 => .ok .tapeseg
  | 0x030 => .ok .asid
  | 0x031 => .ok .tenant
  | 0x040 => .ok .fltinfo
  | 0x041 => .ok .fltaddr
  | 0x042 => .ok .epc
  | 0x043 => .ok .ssca
  | 0x044 => .ok .sscb
  | 0x050 => .ok .hsel
  | 0x051 => .ok .hent0
  | 0x052 => .ok .hent1
  | _ => .error .blockForm

/-- The number of a control register (R415). -/
def CtlReg.toBits : CtlReg → BitVec 12
  | .laneid => 0x000 | .groupid => 0x001 | .teamid => 0x002 | .clusterid => 0x003 | .coreid => 0x004
  | .dieid => 0x005 | .teamh => 0x006 | .ibud => 0x010 | .tbud => 0x011 | .cont => 0x012 | .prio => 0x018
  | .waitswap => 0x019 | .tapest => 0x020 | .tapeseg => 0x021 | .asid => 0x030 | .tenant => 0x031
  | .fltinfo => 0x040 | .fltaddr => 0x041 | .epc => 0x042 | .ssca => 0x043 | .sscb => 0x044
  | .hsel => 0x050 | .hent0 => 0x051 | .hent1 => 0x052

/-- The type field of `movi` long (R54). -/
def MovType.ofBits (b : BitVec 3) : Except DecodeError MovType :=
  match b.toNat with
  | 0 => .ok .b32 | 1 => .ok .n64 | 2 => .ok .i64 | _ => .error .blockForm
/-- The code of a `movi` type (R54). -/
def MovType.toBits : MovType → BitVec 3
  | .b32 => 0 | .n64 => 1 | .i64 => 2

/-- The width bit (R77). -/
def Width.ofBit : Bool → Width
  | false => .b32 | true => .b64
/-- The code of a width (R77). -/
def Width.toBit : Width → Bool
  | .b32 => false | .b64 => true

/-- The integer type field (R77). -/
def IntType.ofBits (b : BitVec 2) : Except DecodeError IntType :=
  match b.toNat with
  | 0 => .ok .i32 | 1 => .ok .n32 | 2 => .ok .i64 | _ => .ok .n64
/-- The code of an integer type (R77). -/
def IntType.toBits : IntType → BitVec 2
  | .i32 => 0 | .n32 => 1 | .i64 => 2 | .n64 => 3

/-- The bitwise operation field (R77). -/
def BitOp.ofBits (b : BitVec 3) : Except DecodeError BitOp :=
  match b.toNat with
  | 0 => .ok .and | 1 => .ok .or | 2 => .ok .xor | 3 => .ok .andn | 4 => .ok .orn | 5 => .ok .xnor | 6 => .ok .not
  | _ => .error .blockForm
/-- The code of a bitwise operation (R77). -/
def BitOp.toBits : BitOp → BitVec 3
  | .and => 0 | .or => 1 | .xor => 2 | .andn => 3 | .orn => 4 | .xnor => 5 | .not => 6

/-- The condition field of `cmp` (R77). -/
def Cond.ofBits (b : BitVec 3) : Except DecodeError Cond :=
  match b.toNat with
  | 0 => .ok .eq | 1 => .ok .ne | 2 => .ok .lt | 3 => .ok .le | 4 => .ok .gt | 5 => .ok .ge
  | _ => .error .blockForm
/-- The code of a condition (R77). -/
def Cond.toBits : Cond → BitVec 3
  | .eq => 0 | .ne => 1 | .lt => 2 | .le => 3 | .gt => 4 | .ge => 5

/-- The condition field of `fcmp` (R77). -/
def FCond.ofBits (b : BitVec 3) : Except DecodeError FCond :=
  match b.toNat with
  | 0 => .ok .eq | 1 => .ok .ne | 2 => .ok .lt | 3 => .ok .le | 4 => .ok .gt | 5 => .ok .ge | 6 => .ok .un
  | _ => .ok .ord
/-- The code of a floating condition (R77). -/
def FCond.toBits : FCond → BitVec 3
  | .eq => 0 | .ne => 1 | .lt => 2 | .le => 3 | .gt => 4 | .ge => 5 | .un => 6 | .ord => 7

/-- The scale field of `lea` (R77). -/
def Scale.ofBits (b : BitVec 3) : Except DecodeError Scale :=
  match b.toNat with
  | 0 => .ok .x1 | 1 => .ok .x2 | 2 => .ok .x4 | 3 => .ok .x8 | 4 => .ok .x16 | _ => .error .blockForm
/-- The code of a scale (R77). -/
def Scale.toBits : Scale → BitVec 3
  | .x1 => 0 | .x2 => 1 | .x4 => 2 | .x8 => 3 | .x16 => 4

/-- The rounding field (R77). -/
def Rounding.ofBits (b : BitVec 2) : Except DecodeError Rounding :=
  match b.toNat with
  | 0 => .ok .rne | 1 => .ok .rz | 2 => .ok .rup | _ => .ok .rdn
/-- The code of a rounding mode (R77). -/
def Rounding.toBits : Rounding → BitVec 2
  | .rne => 0 | .rz => 1 | .rup => 2 | .rdn => 3

/-- The source field of `ext` (R77). -/
def ExtSource.ofBits (b : BitVec 2) : Except DecodeError ExtSource :=
  match b.toNat with
  | 0 => .ok .i8 | 1 => .ok .n8 | 2 => .ok .i16 | _ => .ok .n16
/-- The code of an `ext` source (R77). -/
def ExtSource.toBits : ExtSource → BitVec 2
  | .i8 => 0 | .n8 => 1 | .i16 => 2 | .n16 => 3

/-- The form field of `xlane` (R77). -/
def LaneForm.ofBits (b : BitVec 2) : Except DecodeError LaneForm :=
  match b.toNat with
  | 0 => .ok .lo | 1 => .ok .hi | 2 => .ok .flip | _ => .ok .at
/-- The code of an `xlane` form (R77). -/
def LaneForm.toBits : LaneForm → BitVec 2
  | .lo => 0 | .hi => 1 | .flip => 2 | .at => 3

/-- The form field of `vote` (R77). -/
def VoteForm.ofBits (b : BitVec 2) : Except DecodeError VoteForm :=
  match b.toNat with
  | 0 => .ok .some | 1 => .ok .every | 2 => .ok .mask | _ => .ok .same
/-- The code of a `vote` form (R77). -/
def VoteForm.toBits : VoteForm → BitVec 2
  | .some => 0 | .every => 1 | .mask => 2 | .same => 3

/-- The type field of the reductions' maximum and minimum (R77); 11 is reserved. -/
def RedType.ofBits (b : BitVec 2) : Except DecodeError RedType :=
  match b.toNat with
  | 0 => .ok .i32 | 1 => .ok .n32 | 2 => .ok .f32 | _ => .error .blockForm
/-- The code of a reduction type (R77). -/
def RedType.toBits : RedType → BitVec 2
  | .i32 => 0 | .n32 => 1 | .f32 => 2

/-- The operation field of the bitwise reduction (R77); 11 is reserved. -/
def RedBit.ofBits (b : BitVec 2) : Except DecodeError RedBit :=
  match b.toNat with
  | 0 => .ok .and | 1 => .ok .or | 2 => .ok .xor | _ => .error .blockForm
/-- The code of a bitwise reduction (R77). -/
def RedBit.toBits : RedBit → BitVec 2
  | .and => 0 | .or => 1 | .xor => 2

/-- The operation field of the mask operations (R77). -/
def MaskOp.ofBits (b : BitVec 2) : Except DecodeError MaskOp :=
  match b.toNat with
  | 0 => .ok .and | 1 => .ok .or | 2 => .ok .xor | _ => .ok .andn
/-- The code of a mask operation (R77). -/
def MaskOp.toBits : MaskOp → BitVec 2
  | .and => 0 | .or => 1 | .xor => 2 | .andn => 3

/-- The relation field of `lmask` (R77). -/
def LaneRel.ofBits (b : BitVec 3) : Except DecodeError LaneRel :=
  match b.toNat with
  | 0 => .ok .lt | 1 => .ok .le | 2 => .ok .gt | 3 => .ok .ge | 4 => .ok .eq | _ => .error .blockForm
/-- The code of a relation (R77). -/
def LaneRel.toBits : LaneRel → BitVec 3
  | .lt => 0 | .le => 1 | .gt => 2 | .ge => 3 | .eq => 4

/-- The width field of a load (R77). -/
def LoadWidth.ofBits (b : BitVec 3) : Except DecodeError LoadWidth :=
  match b.toNat with
  | 0 => .ok .n8 | 1 => .ok .i8 | 2 => .ok .n16 | 3 => .ok .i16 | 4 => .ok .b32 | 5 => .ok .b64
  | _ => .error .blockForm
/-- The code of a load width (R77). -/
def LoadWidth.toBits : LoadWidth → BitVec 3
  | .n8 => 0 | .i8 => 1 | .n16 => 2 | .i16 => 3 | .b32 => 4 | .b64 => 5

/-- The width field of a store (R77). -/
def StoreWidth.ofBits (b : BitVec 2) : Except DecodeError StoreWidth :=
  match b.toNat with
  | 0 => .ok .b8 | 1 => .ok .b16 | 2 => .ok .b32 | _ => .ok .b64
/-- The code of a store width (R77). -/
def StoreWidth.toBits : StoreWidth → BitVec 2
  | .b8 => 0 | .b16 => 1 | .b32 => 2 | .b64 => 3

/-- The scope field (R78); 110 and 111 are reserved. -/
def Scope.ofBits (b : BitVec 3) : Except DecodeError Scope :=
  match b.toNat with
  | 0 => .ok .group | 1 => .ok .team | 2 => .ok .cluster | 3 => .ok .die | 4 => .ok .device | 5 => .ok .system
  | _ => .error .blockForm
/-- The code of a scope (R78). -/
def Scope.toBits : Scope → BitVec 3
  | .group => 0 | .team => 1 | .cluster => 2 | .die => 3 | .device => 4 | .system => 5

/-- The order field (R78). -/
def Order.ofBits (b : BitVec 2) : Order :=
  match b.toNat with
  | 0 => .rlx | 1 => .acq | 2 => .rel | _ => .acqrel
/-- The code of an order (R78). -/
def Order.toBits : Order → BitVec 2
  | .rlx => 0 | .acq => 1 | .rel => 2 | .acqrel => 3

/-- The extension word of the atomics, `ld.acq` and `st.rel` (R78), with its width bit. -/
def atomOfExt (x : W32) : Except DecodeError (AtomKind × Bool) := do
  reserved (x.extractLsb' 7 25 = 0#25)
  let sc ← Scope.ofBits (x.extractLsb' 0 3)
  pure (⟨sc, Order.ofBits (x.extractLsb' 3 2), if x.getLsbD 5 then .spad else .shared⟩, x.getLsbD 6)

/-- The extension word of an atomic (R78). -/
def atomExt (k : AtomKind) (wide : Bool) : W32 :=
  0#25 ++ BitVec.ofBool wide ++ BitVec.ofBool (k.space = .spad) ++ k.order.toBits ++ k.scope.toBits

/-- The extension word of `mma` (R79). -/
def MmaKind.ofExt (x : W32) : Except DecodeError MmaKind := do
  reserved (x.extractLsb' 5 27 = 0#27)
  pure ⟨x.extractLsb' 0 3, x.getLsbD 3, x.getLsbD 4⟩

/-- The extension word of an `mma` (R79). -/
def MmaKind.toExt (k : MmaKind) : W32 := 0#27 ++ BitVec.ofBool k.vb ++ BitVec.ofBool k.va ++ k.n

/-- The operation of an assigned opcode of class 0 (R67 to R79), or BLOCK_FORM where a reserved modifier, register or
extension-word code is named. -/
def decodeClass0 (x : Fields) (ext : W32) : Except DecodeError Instr :=
  match x.op.toNat with
  | 0x000 => do reserved (x.m = 0#3); pure .nop
  | 0x001 => do let r ← RegRef.ofFields x; pure (.rd r)
  | 0x002 => do let r ← RegRef.ofFields x; pure (.wr r)
  | 0x003 => do let imm := x.m ++ x.t1; pure (.moviShort imm)
  | 0x004 => do let ty ← MovType.ofBits x.m; let imm := ext; pure (.moviLong ty imm)
  | 0x005 => do reserved (x.m = 0#3); let imm := ext; pure (.movh imm)
  | 0x006 => do reserved (x.m = 0#3); pure .lid
  | 0x007 => do reserved (x.m = 0#3); pure .amask
  | 0x008 => do let e := x.m.extractLsb' 1 2; let off := x.m.extractLsb' 0 1 ++ x.t1 ++ x.t0; pure (.br e off)
  | 0x009 => do reserved (x.m.getLsbD 2 = false); let e := x.m.extractLsb' 0 2; pure (.bri e)
  | 0x00A => do let e := x.m.extractLsb' 1 2; let off := x.m.extractLsb' 0 1 ++ x.t1 ++ x.t0; pure (.call e off)
  | 0x00B => do reserved (x.m.getLsbD 2 = false); let e := x.m.extractLsb' 0 2; pure (.callInd e)
  | 0x00C => do reserved (x.m.getLsbD 2 = false); let e := x.m.extractLsb' 0 2; pure (.ret e)
  | 0x00D => do reserved (x.m.getLsbD 2 = false); let e := x.m.extractLsb' 0 2; pure (.exit e)
  | 0x00E => do reserved (x.m.getLsbD 2 = false); let e := x.m.extractLsb' 0 2; pure (.yield e)
  | 0x010 => do reserved (x.m = 0#3); pure .rejoin
  | 0x011 => do reserved (x.m.extractLsb' 1 2 = 0#2); let off := x.m.extractLsb' 0 1 ++ x.t1 ++ x.t0; pure (.jset off)
  | 0x012 => do let cr ← CtlReg.ofBits (x.m ++ x.t1); pure (.srr cr)
  | 0x013 => do let cr ← CtlReg.ofBits (x.m ++ x.t1); pure (.srw cr)
  | 0x014 => do let imm := x.m ++ x.t1; pure (.trap imm)
  | 0x015 => do reserved (x.m = 0#3); pure .eret
  | 0x016 => do reserved (x.m = 0#3); let off := ext; pure (.adr off)
  | 0x017 => do reserved (x.m = 0#3); pure .clk
  | 0x018 => do let imm := x.m ++ x.t1; pure (.spin imm)
  | _ => .error .illegalOpcode

/-- The operation of an assigned opcode of class 1 (R67 to R79), or BLOCK_FORM where a reserved modifier, register or
extension-word code is named. -/
def decodeClass1 (x : Fields) (ext : W32) : Except DecodeError Instr :=
  match x.op.toNat with
  | 0x040 => do reserved (x.m = 0#3); pure .addB32
  | 0x041 => do reserved (x.m = 0#3); pure .addB64
  | 0x042 => do reserved (x.m = 0#3); pure .addSatI32
  | 0x043 => do reserved (x.m = 0#3); pure .addSatN32
  | 0x044 => do reserved (x.m = 0#3); pure .addSatI64
  | 0x045 => do reserved (x.m = 0#3); pure .addSatN64
  | 0x046 => do reserved (x.m = 0#3); pure .subB32
  | 0x047 => do reserved (x.m = 0#3); pure .subB64
  | 0x048 => do reserved (x.m = 0#3); pure .subSatI32
  | 0x049 => do reserved (x.m = 0#3); pure .subSatN32
  | 0x04A => do reserved (x.m = 0#3); pure .subSatI64
  | 0x04B => do reserved (x.m = 0#3); pure .subSatN64
  | 0x04C => do reserved (x.m = 0#3); pure .mulB32
  | 0x04D => do reserved (x.m = 0#3); pure .mulB64
  | 0x04E => do reserved (x.m = 0#3); pure .mulhiI32
  | 0x04F => do reserved (x.m = 0#3); pure .mulhiN32
  | 0x050 => do reserved (x.m = 0#3); pure .mulhiI64
  | 0x051 => do reserved (x.m = 0#3); pure .mulhiN64
  | 0x052 => do reserved (x.m = 0#3); pure .madB32
  | 0x053 => do reserved (x.m = 0#3); pure .madB64
  | 0x054 => do reserved (x.m = 0#3); pure .divI32
  | 0x055 => do reserved (x.m = 0#3); pure .divN32
  | 0x056 => do reserved (x.m = 0#3); pure .divI64
  | 0x057 => do reserved (x.m = 0#3); pure .divN64
  | 0x058 => do reserved (x.m = 0#3); pure .remI32
  | 0x059 => do reserved (x.m = 0#3); pure .remN32
  | 0x05A => do reserved (x.m = 0#3); pure .remI64
  | 0x05B => do reserved (x.m = 0#3); pure .remN64
  | 0x05C => do reserved (x.m.extractLsb' 1 2 = 0#2); let w := Width.ofBit (x.m.getLsbD 0); pure (.shl w)
  | 0x05D => do reserved (x.m.getLsbD 2 = false); let ty ← IntType.ofBits (x.m.extractLsb' 0 2); pure (.shr ty)
  | 0x05E => do let op ← BitOp.ofBits x.m; pure (.bitwiseB32 op)
  | 0x05F => do let op ← BitOp.ofBits x.m; pure (.bitwiseB64 op)
  | 0x060 => do let cc ← Cond.ofBits x.m; pure (.cmpI32 cc)
  | 0x061 => do let cc ← Cond.ofBits x.m; pure (.cmpN32 cc)
  | 0x062 => do let cc ← Cond.ofBits x.m; pure (.cmpI64 cc)
  | 0x063 => do let cc ← Cond.ofBits x.m; pure (.cmpN64 cc)
  | 0x064 => do reserved (x.m.getLsbD 2 = false); let ty ← IntType.ofBits (x.m.extractLsb' 0 2); pure (.min ty)
  | 0x065 => do reserved (x.m.getLsbD 2 = false); let ty ← IntType.ofBits (x.m.extractLsb' 0 2); pure (.max ty)
  | 0x066 => do reserved (x.m.getLsbD 2 = false); let w := Width.ofBit (x.m.getLsbD 0); let sat := x.m.getLsbD 1; pure (.abs sat w)
  | 0x067 => do reserved (x.m.extractLsb' 1 2 = 0#2); let w := Width.ofBit (x.m.getLsbD 0); pure (.popc w)
  | 0x068 => do reserved (x.m.extractLsb' 1 2 = 0#2); let w := Width.ofBit (x.m.getLsbD 0); pure (.clz w)
  | 0x069 => do reserved (x.m.extractLsb' 1 2 = 0#2); let w := Width.ofBit (x.m.getLsbD 0); pure (.brev w)
  | 0x06A => do reserved (x.m.getLsbD 2 = false); let ty ← IntType.ofBits (x.m.extractLsb' 0 2); pure (.bfe ty)
  | 0x06B => do reserved (x.m.extractLsb' 1 2 = 0#2); let w := Width.ofBit (x.m.getLsbD 0); pure (.bfi w)
  | 0x06C => do reserved (x.m.extractLsb' 1 2 = 0#2); let w := Width.ofBit (x.m.getLsbD 0); pure (.sel w)
  | 0x06D => do reserved (x.m = 0#3); pure .bsel
  | 0x06E => do let sc ← Scale.ofBits x.m; pure (.leaShort sc)
  | 0x06F => do let sc ← Scale.ofBits x.m; let off := ext; pure (.leaLong sc off)
  | _ => .error .illegalOpcode

/-- The operation of an assigned opcode of class 2 (R67 to R79), or BLOCK_FORM where a reserved modifier, register or
extension-word code is named. -/
def decodeClass2 (x : Fields) : Except DecodeError Instr :=
  match x.op.toNat with
  | 0x080 => do reserved (x.m.getLsbD 2 = false); let rm ← Rounding.ofBits (x.m.extractLsb' 0 2); pure (.faddF64 rm)
  | 0x081 => do reserved (x.m.getLsbD 2 = false); let rm ← Rounding.ofBits (x.m.extractLsb' 0 2); pure (.faddF32 rm)
  | 0x082 => do reserved (x.m.getLsbD 2 = false); let rm ← Rounding.ofBits (x.m.extractLsb' 0 2); pure (.faddF16 rm)
  | 0x083 => do reserved (x.m.getLsbD 2 = false); let rm ← Rounding.ofBits (x.m.extractLsb' 0 2); pure (.faddBf16 rm)
  | 0x084 => do reserved (x.m.getLsbD 2 = false); let rm ← Rounding.ofBits (x.m.extractLsb' 0 2); pure (.faddF16x2 rm)
  | 0x085 => do reserved (x.m.getLsbD 2 = false); let rm ← Rounding.ofBits (x.m.extractLsb' 0 2); pure (.faddBf16x2 rm)
  | 0x086 => do reserved (x.m.getLsbD 2 = false); let rm ← Rounding.ofBits (x.m.extractLsb' 0 2); pure (.fsubF64 rm)
  | 0x087 => do reserved (x.m.getLsbD 2 = false); let rm ← Rounding.ofBits (x.m.extractLsb' 0 2); pure (.fsubF32 rm)
  | 0x088 => do reserved (x.m.getLsbD 2 = false); let rm ← Rounding.ofBits (x.m.extractLsb' 0 2); pure (.fsubF16 rm)
  | 0x089 => do reserved (x.m.getLsbD 2 = false); let rm ← Rounding.ofBits (x.m.extractLsb' 0 2); pure (.fsubBf16 rm)
  | 0x08A => do reserved (x.m.getLsbD 2 = false); let rm ← Rounding.ofBits (x.m.extractLsb' 0 2); pure (.fsubF16x2 rm)
  | 0x08B => do reserved (x.m.getLsbD 2 = false); let rm ← Rounding.ofBits (x.m.extractLsb' 0 2); pure (.fsubBf16x2 rm)
  | 0x08C => do reserved (x.m.getLsbD 2 = false); let rm ← Rounding.ofBits (x.m.extractLsb' 0 2); pure (.fmulF64 rm)
  | 0x08D => do reserved (x.m.getLsbD 2 = false); let rm ← Rounding.ofBits (x.m.extractLsb' 0 2); pure (.fmulF32 rm)
  | 0x08E => do reserved (x.m.getLsbD 2 = false); let rm ← Rounding.ofBits (x.m.extractLsb' 0 2); pure (.fmulF16 rm)
  | 0x08F => do reserved (x.m.getLsbD 2 = false); let rm ← Rounding.ofBits (x.m.extractLsb' 0 2); pure (.fmulBf16 rm)
  | 0x090 => do reserved (x.m.getLsbD 2 = false); let rm ← Rounding.ofBits (x.m.extractLsb' 0 2); pure (.fmulF16x2 rm)
  | 0x091 => do reserved (x.m.getLsbD 2 = false); let rm ← Rounding.ofBits (x.m.extractLsb' 0 2); pure (.fmulBf16x2 rm)
  | 0x092 => do reserved (x.m.getLsbD 2 = false); let rm ← Rounding.ofBits (x.m.extractLsb' 0 2); pure (.fmaF64 rm)
  | 0x093 => do reserved (x.m.getLsbD 2 = false); let rm ← Rounding.ofBits (x.m.extractLsb' 0 2); pure (.fmaF32 rm)
  | 0x094 => do reserved (x.m.getLsbD 2 = false); let rm ← Rounding.ofBits (x.m.extractLsb' 0 2); pure (.fmaF16 rm)
  | 0x095 => do reserved (x.m.getLsbD 2 = false); let rm ← Rounding.ofBits (x.m.extractLsb' 0 2); pure (.fmaBf16 rm)
  | 0x096 => do reserved (x.m.getLsbD 2 = false); let rm ← Rounding.ofBits (x.m.extractLsb' 0 2); pure (.fmaF16x2 rm)
  | 0x097 => do reserved (x.m.getLsbD 2 = false); let rm ← Rounding.ofBits (x.m.extractLsb' 0 2); pure (.fmaBf16x2 rm)
  | 0x098 => do reserved (x.m = 0#3); pure .fminF64
  | 0x099 => do reserved (x.m = 0#3); pure .fminF32
  | 0x09A => do reserved (x.m = 0#3); pure .fminF16
  | 0x09B => do reserved (x.m = 0#3); pure .fminBf16
  | 0x09C => do reserved (x.m = 0#3); pure .fminF16x2
  | 0x09D => do reserved (x.m = 0#3); pure .fminBf16x2
  | 0x09E => do reserved (x.m = 0#3); pure .fmaxF64
  | 0x09F => do reserved (x.m = 0#3); pure .fmaxF32
  | 0x0A0 => do reserved (x.m = 0#3); pure .fmaxF16
  | 0x0A1 => do reserved (x.m = 0#3); pure .fmaxBf16
  | 0x0A2 => do reserved (x.m = 0#3); pure .fmaxF16x2
  | 0x0A3 => do reserved (x.m = 0#3); pure .fmaxBf16x2
  | 0x0A4 => do let cc ← FCond.ofBits x.m; pure (.fcmpF64 cc)
  | 0x0A5 => do let cc ← FCond.ofBits x.m; pure (.fcmpF32 cc)
  | 0x0A6 => do let cc ← FCond.ofBits x.m; pure (.fcmpF16 cc)
  | 0x0A7 => do let cc ← FCond.ofBits x.m; pure (.fcmpBf16 cc)
  | 0x0A8 => do reserved (x.m = 0#3); pure .fclassF64
  | 0x0A9 => do reserved (x.m = 0#3); pure .fclassF32
  | 0x0AA => do reserved (x.m = 0#3); pure .fclassF16
  | 0x0AB => do reserved (x.m = 0#3); pure .fclassBf16
  | _ => .error .illegalOpcode

/-- The operation of an assigned opcode of class 3 (R67 to R79), or BLOCK_FORM where a reserved modifier, register or
extension-word code is named. -/
def decodeClass3 (x : Fields) : Except DecodeError Instr :=
  match x.op.toNat with
  | 0x0C0 => do reserved (x.m = 0#3); pure .cvtF64F32
  | 0x0C1 => do reserved (x.m = 0#3); pure .cvtF32F16
  | 0x0C2 => do reserved (x.m = 0#3); pure .cvtF32Bf16
  | 0x0C3 => do reserved (x.m = 0#3); pure .cvtF32E4m3
  | 0x0C4 => do reserved (x.m = 0#3); pure .cvtF32E5m2
  | 0x0C5 => do reserved (x.m = 0#3); pure .cvtF32E2m1
  | 0x0C6 => do let rm ← Rounding.ofBits (x.m.extractLsb' 0 2); let sat := x.m.getLsbD 2; pure (.cvtF32F64 rm sat)
  | 0x0C7 => do let rm ← Rounding.ofBits (x.m.extractLsb' 0 2); let sat := x.m.getLsbD 2; pure (.cvtF16F32 rm sat)
  | 0x0C8 => do let rm ← Rounding.ofBits (x.m.extractLsb' 0 2); let sat := x.m.getLsbD 2; pure (.cvtBf16F32 rm sat)
  | 0x0C9 => do let rm ← Rounding.ofBits (x.m.extractLsb' 0 2); let sat := x.m.getLsbD 2; pure (.cvtE4m3F32 rm sat)
  | 0x0CA => do let rm ← Rounding.ofBits (x.m.extractLsb' 0 2); let sat := x.m.getLsbD 2; pure (.cvtE5m2F32 rm sat)
  | 0x0CB => do let rm ← Rounding.ofBits (x.m.extractLsb' 0 2); let sat := x.m.getLsbD 2; pure (.cvtE2m1F32 rm sat)
  | 0x0CC => do reserved (x.m.extractLsb' 0 2 = 0#2); let sat := x.m.getLsbD 2; pure (.cvtSrE4m3F32 sat)
  | 0x0CD => do reserved (x.m.extractLsb' 0 2 = 0#2); let sat := x.m.getLsbD 2; pure (.cvtSrE5m2F32 sat)
  | 0x0CE => do reserved (x.m.extractLsb' 0 2 = 0#2); let sat := x.m.getLsbD 2; pure (.cvtSrE2m1F32 sat)
  | 0x0CF => do let rm ← Rounding.ofBits (x.m.extractLsb' 0 2); let sat := x.m.getLsbD 2; pure (.cvtF16x2F32 rm sat)
  | 0x0D0 => do let rm ← Rounding.ofBits (x.m.extractLsb' 0 2); let sat := x.m.getLsbD 2; pure (.cvtBf16x2F32 rm sat)
  | 0x0D1 => do reserved (x.m.getLsbD 2 = false); let rm ← Rounding.ofBits (x.m.extractLsb' 0 2); pure (.cvtF32I32 rm)
  | 0x0D2 => do reserved (x.m.getLsbD 2 = false); let rm ← Rounding.ofBits (x.m.extractLsb' 0 2); pure (.cvtF32N32 rm)
  | 0x0D3 => do reserved (x.m.getLsbD 2 = false); let rm ← Rounding.ofBits (x.m.extractLsb' 0 2); pure (.cvtF64I64 rm)
  | 0x0D4 => do reserved (x.m.getLsbD 2 = false); let rm ← Rounding.ofBits (x.m.extractLsb' 0 2); pure (.cvtF64N64 rm)
  | 0x0D5 => do reserved (x.m.getLsbD 2 = false); let rm ← Rounding.ofBits (x.m.extractLsb' 0 2); pure (.cvtI32F32 rm)
  | 0x0D6 => do reserved (x.m.getLsbD 2 = false); let rm ← Rounding.ofBits (x.m.extractLsb' 0 2); pure (.cvtN32F32 rm)
  | 0x0D7 => do reserved (x.m.getLsbD 2 = false); let rm ← Rounding.ofBits (x.m.extractLsb' 0 2); pure (.cvtI64F64 rm)
  | 0x0D8 => do reserved (x.m.getLsbD 2 = false); let rm ← Rounding.ofBits (x.m.extractLsb' 0 2); pure (.cvtN64F64 rm)
  | 0x0D9 => do let src ← ExtSource.ofBits (x.m.extractLsb' 0 2); let w := Width.ofBit (x.m.getLsbD 2); pure (.ext src w)
  | 0x0DA => do let rm ← Rounding.ofBits (x.m.extractLsb' 0 2); let sat := x.m.getLsbD 2; pure (.nar rm sat)
  | 0x0DB => do reserved (x.m.getLsbD 2 = false); let rm ← Rounding.ofBits (x.m.extractLsb' 0 2); pure (.cvtE8m0F32 rm)
  | 0x0DC => do reserved (x.m.getLsbD 2 = false); let rm ← Rounding.ofBits (x.m.extractLsb' 0 2); pure (.cvtF32E8m0 rm)
  | 0x0DD => do reserved (x.m = 0#3); pure .rcpF32
  | 0x0DE => do reserved (x.m = 0#3); pure .rsqF32
  | 0x0DF => do reserved (x.m = 0#3); pure .sqrtF32
  | 0x0E0 => do reserved (x.m = 0#3); pure .exp2F32
  | 0x0E1 => do reserved (x.m = 0#3); pure .log2F32
  | 0x0E2 => do reserved (x.m = 0#3); pure .sinpiF32
  | 0x0E3 => do reserved (x.m = 0#3); pure .cospiF32
  | 0x0E4 => do reserved (x.m.getLsbD 2 = false); let rm ← Rounding.ofBits (x.m.extractLsb' 0 2); pure (.rcpF64 rm)
  | 0x0E5 => do reserved (x.m.getLsbD 2 = false); let rm ← Rounding.ofBits (x.m.extractLsb' 0 2); pure (.sqrtF64 rm)
  | 0x0E6 => do reserved (x.m.getLsbD 2 = false); let rm ← Rounding.ofBits (x.m.extractLsb' 0 2); pure (.frndF32 rm)
  | 0x0E7 => do reserved (x.m.getLsbD 2 = false); let rm ← Rounding.ofBits (x.m.extractLsb' 0 2); pure (.ldexpF32 rm)
  | _ => .error .illegalOpcode

/-- The operation of an assigned opcode of class 4 (R67 to R79), or BLOCK_FORM where a reserved modifier, register or
extension-word code is named. -/
def decodeClass4 (x : Fields) : Except DecodeError Instr :=
  match x.op.toNat with
  | 0x100 => do reserved (x.m = 0#3); pure .permB32
  | 0x101 => do reserved (x.m = 0#3); pure .permB64
  | 0x102 => do let form ← LaneForm.ofBits (x.m.extractLsb' 0 2); let rot := x.m.getLsbD 2; pure (.xlaneB32 form rot)
  | 0x103 => do let form ← LaneForm.ofBits (x.m.extractLsb' 0 2); let rot := x.m.getLsbD 2; pure (.xlaneB64 form rot)
  | 0x104 => do reserved (x.m.getLsbD 2 = false); let form ← VoteForm.ofBits (x.m.extractLsb' 0 2); pure (.vote form)
  | 0x105 => do reserved (x.m = 0#3); pure .matchB32
  | 0x106 => do reserved (x.m = 0#3); pure .matchB64
  | 0x107 => do reserved (x.m.getLsbD 2 = false); let sat := x.m.getLsbD 0; let n := x.m.getLsbD 1; pure (.gscanAdd sat n)
  | 0x108 => do reserved (x.m = 0#3); pure .gscanAddF32
  | 0x109 => do reserved (x.m.getLsbD 2 = false); let ty ← RedType.ofBits (x.m.extractLsb' 0 2); pure (.gscanMax ty)
  | 0x10A => do reserved (x.m.getLsbD 2 = false); let ty ← RedType.ofBits (x.m.extractLsb' 0 2); pure (.gscanMin ty)
  | 0x10B => do reserved (x.m.getLsbD 2 = false); let sat := x.m.getLsbD 0; let n := x.m.getLsbD 1; pure (.gredAdd sat n)
  | 0x10C => do reserved (x.m = 0#3); pure .gredAddF32
  | 0x10D => do reserved (x.m = 0#3); pure .gredAddF64
  | 0x10E => do reserved (x.m.getLsbD 2 = false); let ty ← RedType.ofBits (x.m.extractLsb' 0 2); pure (.gredMax ty)
  | 0x10F => do reserved (x.m.getLsbD 2 = false); let ty ← RedType.ofBits (x.m.extractLsb' 0 2); pure (.gredMin ty)
  | 0x110 => do reserved (x.m.getLsbD 2 = false); let op ← RedBit.ofBits (x.m.extractLsb' 0 2); pure (.gredBitwise op)
  | 0x111 => do reserved (x.m = 0#3); pure .gscanAddF64
  | 0x112 => do reserved (x.m.getLsbD 2 = false); let op ← MaskOp.ofBits (x.m.extractLsb' 0 2); pure (.pand op)
  | 0x113 => do reserved (x.m = 0#3); pure .mpopc
  | 0x114 => do reserved (x.m = 0#3); pure .mffs
  | 0x115 => do reserved (x.m = 0#3); pure .bcast
  | 0x116 => do reserved (x.m = 0#3); pure .gredSexp
  | 0x117 => do let rel ← LaneRel.ofBits x.m; pure (.lmask rel)
  | _ => .error .illegalOpcode

/-- The operation of an assigned opcode of class 5 (R67 to R79), or BLOCK_FORM where a reserved modifier, register or
extension-word code is named. -/
def decodeClass5 (x : Fields) (ext : W32) : Except DecodeError Instr :=
  match x.op.toNat with
  | 0x140 => do let w ← LoadWidth.ofBits x.m; pure (.lds w)
  | 0x141 => do reserved (x.m.getLsbD 2 = false); let w ← StoreWidth.ofBits (x.m.extractLsb' 0 2); pure (.sts w)
  | 0x142 => do let w ← LoadWidth.ofBits x.m; pure (.ldx w)
  | 0x143 => do reserved (x.m.getLsbD 2 = false); let w ← StoreWidth.ofBits (x.m.extractLsb' 0 2); pure (.stx w)
  | 0x144 => do let w ← LoadWidth.ofBits x.m; pure (.ldk w)
  | 0x145 => do reserved (x.m.getLsbD 2 = false); let w ← StoreWidth.ofBits (x.m.extractLsb' 0 2); pure (.stk w)
  | 0x146 => do reserved (x.m = 0#3); let (k, wide) ← atomOfExt ext; pure (.atomAdd k wide)
  | 0x147 => do reserved (x.m = 0#3); let (k, wide) ← atomOfExt ext; pure (.atomAnd k wide)
  | 0x148 => do reserved (x.m = 0#3); let (k, wide) ← atomOfExt ext; pure (.atomOr k wide)
  | 0x149 => do reserved (x.m = 0#3); let (k, wide) ← atomOfExt ext; pure (.atomXor k wide)
  | 0x14A => do reserved (x.m = 0#3); let (k, wide) ← atomOfExt ext; pure (.atomMinI k wide)
  | 0x14B => do reserved (x.m = 0#3); let (k, wide) ← atomOfExt ext; pure (.atomMaxI k wide)
  | 0x14C => do reserved (x.m = 0#3); let (k, wide) ← atomOfExt ext; pure (.atomMinN k wide)
  | 0x14D => do reserved (x.m = 0#3); let (k, wide) ← atomOfExt ext; pure (.atomMaxN k wide)
  | 0x14E => do reserved (x.m = 0#3); let (k, wide) ← atomOfExt ext; pure (.atomExch k wide)
  | 0x14F => do reserved (x.m = 0#3); let (k, wide) ← atomOfExt ext; pure (.atomCas k wide)
  | 0x150 => do reserved (x.m = 0#3); let (k, wide) ← atomOfExt ext; pure (.atomInc k wide)
  | 0x151 => do reserved (x.m = 0#3); let (k, wide) ← atomOfExt ext; pure (.atomDec k wide)
  | 0x152 => do reserved (x.m = 0#3); let (k, wide) ← atomOfExt ext; reserved (wide = false); pure (.atomFadd .f32 k)
  | 0x153 => do reserved (x.m = 0#3); let (k, wide) ← atomOfExt ext; reserved (wide = true); pure (.atomFadd .f64 k)
  | 0x155 => do reserved (x.m = 0#3); let (k, wide) ← atomOfExt ext; pure (.atomFmax k wide)
  | 0x156 => do reserved (x.m = 0#3); let (k, wide) ← atomOfExt ext; pure (.atomFmin k wide)
  | 0x157 => do let sc ← Scope.ofBits x.m; pure (.fence sc)
  | 0x158 => do reserved (x.m = 0#3); pure .barArrive
  | 0x159 => do reserved (x.m = 0#3); pure .barWait
  | 0x15A => do reserved (x.m = 0#3); pure .barSync
  | 0x15B => do reserved (x.m = 0#3); pure .mbarInit
  | 0x15C => do reserved (x.m = 0#3); pure .mbarArrive
  | 0x15D => do reserved (x.m = 0#3); pure .mbarWait
  | 0x15E => do reserved (x.m = 0#3); pure .mbarTest
  | 0x15F => do reserved (x.m = 0#3); pure .mcast
  | 0x160 => do reserved (x.m = 0#3); let (k, wide) ← atomOfExt ext; reserved (k.order = .acq); let sc := k.scope; let sp := k.space; pure (.ldAcq sc sp wide)
  | 0x161 => do reserved (x.m = 0#3); let (k, wide) ← atomOfExt ext; reserved (k.order = .rel); let sc := k.scope; let sp := k.space; pure (.stRel sc sp wide)
  | 0x162 => do reserved (x.m = 0#3); pure .barRed
  | 0x163 => do reserved (x.m = 0#3); pure .mbarInval
  | 0x164 => do reserved (x.m = 0#3); pure .fenceSc
  | 0x165 => do reserved (x.m = 0#3); let (k, wide) ← atomOfExt ext; reserved (wide = false); pure (.atomFaddX2 .f16x2 k)
  | 0x166 => do reserved (x.m = 0#3); let (k, wide) ← atomOfExt ext; reserved (wide = false); pure (.atomFaddX2 .bf16x2 k)
  | 0x167 => do reserved (x.m = 0#3); let (k, wide) ← atomOfExt ext; reserved (k.order = .rlx); reserved (wide = false); let sc := k.scope; let sp := k.space; pure (.redFaddF32 sc sp)
  | 0x168 => do reserved (x.m = 0#3); pure .barInval
  | _ => .error .illegalOpcode

/-- The operation of an assigned opcode of class 6 (R67 to R79), or BLOCK_FORM where a reserved modifier, register or
extension-word code is named. -/
def decodeClass6 (x : Fields) (ext : W32) : Except DecodeError Instr :=
  match x.op.toNat with
  | 0x180 => do reserved (x.m.extractLsb' 1 2 = 0#2); let strict := x.m.getLsbD 0; pure (.cpy strict)
  | 0x181 => do reserved (x.m = 0#3); pure .cpyBatch
  | 0x182 => do reserved (x.m = 0#3); pure .cpyWait
  | 0x183 => do reserved (x.m.extractLsb' 1 2 = 0#2); let strict := x.m.getLsbD 0; pure (.cpyLr strict)
  | 0x184 => do reserved (x.m = 0#3); pure .sbind
  | 0x185 => do let e := x.m; pure (.bind e)
  | 0x186 => do let e := x.m; pure (.unbind e)
  | 0x187 => do reserved (x.m = 0#3); pure .sstat
  | 0x188 => do reserved (x.m = 0#3); pure .enqInstr
  | 0x189 => do reserved (x.m = 0#3); pure .deqInstr
  | 0x18A => do reserved (x.m = 0#3); pure .notifyInstr
  | 0x18B => do reserved (x.m = 0#3); pure .qwait
  | 0x18C => do reserved (x.m = 0#3); pure .qdepth
  | 0x18D => do reserved (x.m = 0#3); pure .bpenc
  | 0x18E => do reserved (x.m = 0#3); pure .bpdec
  | 0x18F => do reserved (x.m.extractLsb' 1 2 = 0#2); let strict := x.m.getLsbD 0; pure (.mld strict)
  | 0x190 => do reserved (x.m.extractLsb' 1 2 = 0#2); let strict := x.m.getLsbD 0; pure (.mst strict)
  | 0x191 => do reserved (x.m = 0#3); let k ← MmaKind.ofExt ext; pure (.mmaF16 k)
  | 0x192 => do reserved (x.m = 0#3); pure .mzero
  | 0x193 => do reserved (x.m = 0#3); pure .mpairEast
  | 0x194 => do reserved (x.m = 0#3); pure .seqCfg
  | 0x195 => do reserved (x.m = 0#3); pure .seqGo
  | 0x196 => do reserved (x.m = 0#3); pure .mchk
  | 0x197 => do reserved (x.m = 0#3); let k ← MmaKind.ofExt ext; pure (.mmaF8 k)
  | 0x198 => do reserved (x.m = 0#3); let k ← MmaKind.ofExt ext; reserved (k.va = false); reserved (k.vb = false); let n := k.n; pure (.mmaE2m1 n)
  | 0x199 => do reserved (x.m = 0#3); let k ← MmaKind.ofExt ext; reserved (k.va = false); reserved (k.vb = false); let n := k.n; pure (.mmaI8 n)
  | 0x19A => do reserved (x.m = 0#3); pure .tapeOpen
  | 0x19B => do reserved (x.m = 0#3); pure .tapeClose
  | 0x19C => do reserved (x.m = 0#3); pure .tapeRec
  | 0x19D => do reserved (x.m = 0#3); pure .tapeRev
  | 0x19E => do reserved (x.m = 0#3); pure .tapePop
  | 0x19F => do reserved (x.m = 0#3); pure .tapeBrpop
  | 0x1A0 => do reserved (x.m = 0#3); pure .tapeSeg
  | 0x1A1 => do reserved (x.m = 0#3); pure .tapeStat
  | 0x1A2 => do reserved (x.m = 0#3); pure .mrd
  | 0x1A3 => do reserved (x.m = 0#3); pure .mwr
  | _ => .error .illegalOpcode

/-- The operation of an assigned opcode of class 7 (R67 to R79), or BLOCK_FORM where a reserved modifier, register or
extension-word code is named. -/
def decodeClass7 (x : Fields) : Except DecodeError Instr :=
  match x.op.toNat with
  | 0x1CF => do reserved (x.m = 0#3); pure .cfgLaunch
  | 0x1D0 => do reserved (x.m = 0#3); pure .cfgBind
  | 0x1D1 => do reserved (x.m = 0#3); pure .cfgSignalStatus
  | 0x1D2 => do reserved (x.m = 0#3); pure .cfgEvictDrain
  | 0x1D3 => do reserved (x.m = 0#3); pure .spawn
  | 0x1D4 => do reserved (x.m = 0#3); pure .stealInstr
  | 0x1D5 => do reserved (x.m = 0#3); pure .jcntInit
  | 0x1D6 => do reserved (x.m = 0#3); pure .retireKeep0
  | 0x1D7 => do reserved (x.m = 0#3); pure .cont
  | 0x1D8 => do reserved (x.m = 0#3); pure .budGet
  | 0x1D9 => do reserved (x.m = 0#3); pure .budGive
  | 0x1DA => do reserved (x.m = 0#3); pure .budAdd
  | 0x1DB => do reserved (x.m = 0#3); pure .asidKill
  | 0x1DC => do reserved (x.m = 0#3); pure .tlbinvAsid
  | 0x1DD => do reserved (x.m = 0#3); pure .monCfgConfigure
  | 0x1DE => do reserved (x.m = 0#3); pure .keyset
  | 0x1DF => do reserved (x.m = 0#3); pure .keydrop
  | _ => .error .illegalOpcode

/-- Whether an opcode is marked X, so that the next slot holds its extension word (R69 to R76). -/
def isExtended (op : Nat) : Bool :=
  op = 0x004 || op = 0x005 || op = 0x016 || op = 0x06F || (0x146 ≤ op && op ≤ 0x153) || op = 0x155 || op = 0x156
    || op = 0x160 || op = 0x161 || (0x165 ≤ op && op ≤ 0x167) || op = 0x191 || (0x197 ≤ op && op ≤ 0x199)

/-- Whether an opcode is assigned and may stand in a block: neither a value of R81's list nor an F value. -/
def isBlockOpcode (op : Nat) : Bool :=
  (op ≤ 0x00E) || (0x010 ≤ op && op ≤ 0x018) || (0x040 ≤ op && op ≤ 0x06F) || (0x080 ≤ op && op ≤ 0x0AB)
    || (0x0C0 ≤ op && op ≤ 0x0E7) || (0x100 ≤ op && op ≤ 0x117) || (0x140 ≤ op && op ≤ 0x153)
    || (0x155 ≤ op && op ≤ 0x168) || (0x180 ≤ op && op ≤ 0x1A3) || (0x1CF ≤ op && op ≤ 0x1DF)

/-- Whether an opcode is an F value: an operator of Twill elements only (R76). -/
def isFabricOpcode (op : Nat) : Bool := 0x1C0 ≤ op && op ≤ 0x1CE

/-- Whether the Priv column gives the opcode to supervisor privilege alone (R68). -/
def isSupOpcode (op : Nat) : Bool :=
  op = 0x015 || op = 0x1A0 || op = 0x1D2 || (0x1DB ≤ op && op ≤ 0x1DF)

/-- Decode of an opcode by its class, bits [8:6] (R67). -/
def decodeClass (x : Fields) (ext : W32) : Except DecodeError Instr :=
  match x.op.toNat / 64 with
  | 0 => decodeClass0 x ext
  | 1 => decodeClass1 x ext
  | 2 => decodeClass2 x
  | 3 => decodeClass3 x
  | 4 => decodeClass4 x
  | 5 => decodeClass5 x ext
  | 6 => decodeClass6 x ext
  | _ => decodeClass7 x

/-- The layout of an opcode's word beside its modifier (R34, R69 to R76, R83). -/
def layoutOf (op : Nat) : Layout :=
  if op = 0x001 then .regRead
  else if op = 0x002 then .regWrite
  else if op = 0x003 || op = 0x012 then .immResult
  else if op = 0x008 || op = 0x00A || op = 0x011 then .branch
  else if op = 0x000 || (0x008 ≤ op && op ≤ 0x015) || op = 0x018 then .noResult
  else if op = 0x141 || op = 0x143 || op = 0x145 || (0x157 ≤ op && op ≤ 0x15D) || op = 0x15F then .noResult
  else if (0x161 ≤ op && op ≤ 0x164) || op = 0x167 || op = 0x168 then .noResult
  else if op = 0x180 || (0x182 ≤ op && op ≤ 0x186) || op = 0x188 || op = 0x18A || op = 0x18B then .noResult
  else if (0x18F ≤ op && op ≤ 0x195) || (0x197 ≤ op && op ≤ 0x19D) || op = 0x1A0 || op = 0x1A3 then .noResult
  else if op = 0x1D0 || op = 0x1D2 || op = 0x1D3 || (0x1D5 ≤ op && op ≤ 0x1D7) || (0x1D9 ≤ op && op ≤ 0x1DF) then
    .noResult
  else .result

/-- The targets and the guard of a word, as its layout has them; the fields that the layout lacks are reserved (R83). -/
def decodeEdges (x : Fields) : Layout → Except DecodeError (Option Dest × Option Dest × Guard)
  | .result => do
    let g ← Guard.ofBits x.g
    let t0 ← targetOf x.t0
    let t1 ← targetOf x.t1
    pure (t0, t1, g)
  | .noResult => do
    let g ← Guard.ofBits x.g
    reserved (x.t0 = 0#9)
    pure (none, none, g)
  | .immResult => do
    let g ← Guard.ofBits x.g
    let t0 ← targetOf x.t0
    pure (t0, none, g)
  | .regRead => do
    let t0 ← targetOf x.t0
    pure (t0, none, .always)
  | .regWrite => do
    reserved (x.t0 = 0#9)
    pure (none, none, .always)
  | .branch => do
    let g ← Guard.ofBits x.g
    pure (none, none, g)

/-- Whether an opcode of a layout without a result holds an immediate in [20:9], so that t1 is no field of its own. -/
def isImmediate (op : Nat) : Bool := op = 0x003 || (0x012 ≤ op && op ≤ 0x014) || op = 0x018

/-- Decode of a slot, with the word of the next slot where there is one (R34, R81): an unassigned opcode and an F value
are ILLEGAL_OPCODE; an X instruction in the last slot, a reserved field or code, and fields that break `WellFormed` or
`Node.wf` are BLOCK_FORM. -/
def decodeSlot (w : W32) (next : Option W32) : Except DecodeError Node :=
  let x := Fields.ofWord w
  let op := x.op.toNat
  if isBlockOpcode op then
    if isExtended op && next.isNone then .error .blockForm
    else do
      let i ← decodeClass x (next.getD 0)
      let (t0, t1, g) ← decodeEdges x (layoutOf op)
      reserved (layoutOf op ≠ .noResult || isImmediate op || x.t1 = 0#9)
      let n : Node := ⟨i, t0, t1, g⟩
      reserved (WellFormed i && n.wf)
      pure n
  else .error .illegalOpcode

/-- The little-endian word at the head of a byte list, with the rest (R4). -/
def takeWord : List W8 → Option (W32 × List W8)
  | b0 :: b1 :: b2 :: b3 :: rest => some (b3 ++ b2 ++ b1 ++ b0, rest)
  | _ => none

/-- Decode of the instruction at the head of a byte list, with the bytes after it: one word, or two for an X opcode.
A list too short for the word is BLOCK_FORM. -/
def decodeBytes (bs : List W8) : Except DecodeError (Node × List W8) :=
  match takeWord bs with
  | none => .error .blockForm
  | some (w, rest) =>
    if isExtended (Fields.ofWord w).op.toNat then
      match takeWord rest with
      | none => .error .blockForm
      | some (x, rest') => (decodeSlot w (some x)).map (fun i => (i, rest'))
    else (decodeSlot w none).map (fun i => (i, rest))

/-- The bytes of a word, lowest first (R4). -/
def wordBytes (w : W32) : List W8 :=
  [w.extractLsb' 0 8, w.extractLsb' 8 8, w.extractLsb' 16 8, w.extractLsb' 24 8]

/-- The fields that an instruction's operation fixes in its word, and its extension word (R34, R77 to R79). A device
event and a fabric operator have no words in block code. -/
def Instr.fields? (i : Instr) : Option (Fields × Option W32) :=
  match i with
  | .nop => some (Fields.ofMod 0x000 0, none)
  | .rd r => some (RegRef.toFields 0x001 r, none)
  | .wr r => some (RegRef.toFields 0x002 r, none)
  | .moviShort imm => some (Fields.ofImm 0x003 imm, none)
  | .moviLong ty imm => some (Fields.ofMod 0x004 ty.toBits, some imm)
  | .movh imm => some (Fields.ofMod 0x005 0, some imm)
  | .lid => some (Fields.ofMod 0x006 0, none)
  | .amask => some (Fields.ofMod 0x007 0, none)
  | .br e off => some (Fields.ofBranch 0x008 e off, none)
  | .bri e => some (Fields.ofMod 0x009 (0#1 ++ e), none)
  | .call e off => some (Fields.ofBranch 0x00A e off, none)
  | .callInd e => some (Fields.ofMod 0x00B (0#1 ++ e), none)
  | .ret e => some (Fields.ofMod 0x00C (0#1 ++ e), none)
  | .exit e => some (Fields.ofMod 0x00D (0#1 ++ e), none)
  | .yield e => some (Fields.ofMod 0x00E (0#1 ++ e), none)
  | .rejoin => some (Fields.ofMod 0x010 0, none)
  | .jset off => some (Fields.ofBranch 0x011 0 off, none)
  | .srr cr => some (Fields.ofImm 0x012 cr.toBits, none)
  | .srw cr => some (Fields.ofImm 0x013 cr.toBits, none)
  | .trap imm => some (Fields.ofImm 0x014 imm, none)
  | .eret => some (Fields.ofMod 0x015 0, none)
  | .adr off => some (Fields.ofMod 0x016 0, some off)
  | .clk => some (Fields.ofMod 0x017 0, none)
  | .spin imm => some (Fields.ofImm 0x018 imm, none)
  | .addB32 => some (Fields.ofMod 0x040 0, none)
  | .addB64 => some (Fields.ofMod 0x041 0, none)
  | .addSatI32 => some (Fields.ofMod 0x042 0, none)
  | .addSatN32 => some (Fields.ofMod 0x043 0, none)
  | .addSatI64 => some (Fields.ofMod 0x044 0, none)
  | .addSatN64 => some (Fields.ofMod 0x045 0, none)
  | .subB32 => some (Fields.ofMod 0x046 0, none)
  | .subB64 => some (Fields.ofMod 0x047 0, none)
  | .subSatI32 => some (Fields.ofMod 0x048 0, none)
  | .subSatN32 => some (Fields.ofMod 0x049 0, none)
  | .subSatI64 => some (Fields.ofMod 0x04A 0, none)
  | .subSatN64 => some (Fields.ofMod 0x04B 0, none)
  | .mulB32 => some (Fields.ofMod 0x04C 0, none)
  | .mulB64 => some (Fields.ofMod 0x04D 0, none)
  | .mulhiI32 => some (Fields.ofMod 0x04E 0, none)
  | .mulhiN32 => some (Fields.ofMod 0x04F 0, none)
  | .mulhiI64 => some (Fields.ofMod 0x050 0, none)
  | .mulhiN64 => some (Fields.ofMod 0x051 0, none)
  | .madB32 => some (Fields.ofMod 0x052 0, none)
  | .madB64 => some (Fields.ofMod 0x053 0, none)
  | .divI32 => some (Fields.ofMod 0x054 0, none)
  | .divN32 => some (Fields.ofMod 0x055 0, none)
  | .divI64 => some (Fields.ofMod 0x056 0, none)
  | .divN64 => some (Fields.ofMod 0x057 0, none)
  | .remI32 => some (Fields.ofMod 0x058 0, none)
  | .remN32 => some (Fields.ofMod 0x059 0, none)
  | .remI64 => some (Fields.ofMod 0x05A 0, none)
  | .remN64 => some (Fields.ofMod 0x05B 0, none)
  | .shl w => some (Fields.ofMod 0x05C (0#2 ++ BitVec.ofBool w.toBit), none)
  | .shr ty => some (Fields.ofMod 0x05D (0#1 ++ ty.toBits), none)
  | .bitwiseB32 op => some (Fields.ofMod 0x05E op.toBits, none)
  | .bitwiseB64 op => some (Fields.ofMod 0x05F op.toBits, none)
  | .cmpI32 cc => some (Fields.ofMod 0x060 cc.toBits, none)
  | .cmpN32 cc => some (Fields.ofMod 0x061 cc.toBits, none)
  | .cmpI64 cc => some (Fields.ofMod 0x062 cc.toBits, none)
  | .cmpN64 cc => some (Fields.ofMod 0x063 cc.toBits, none)
  | .min ty => some (Fields.ofMod 0x064 (0#1 ++ ty.toBits), none)
  | .max ty => some (Fields.ofMod 0x065 (0#1 ++ ty.toBits), none)
  | .abs sat w => some (Fields.ofMod 0x066 (0#1 ++ BitVec.ofBool sat ++ BitVec.ofBool w.toBit), none)
  | .popc w => some (Fields.ofMod 0x067 (0#2 ++ BitVec.ofBool w.toBit), none)
  | .clz w => some (Fields.ofMod 0x068 (0#2 ++ BitVec.ofBool w.toBit), none)
  | .brev w => some (Fields.ofMod 0x069 (0#2 ++ BitVec.ofBool w.toBit), none)
  | .bfe ty => some (Fields.ofMod 0x06A (0#1 ++ ty.toBits), none)
  | .bfi w => some (Fields.ofMod 0x06B (0#2 ++ BitVec.ofBool w.toBit), none)
  | .sel w => some (Fields.ofMod 0x06C (0#2 ++ BitVec.ofBool w.toBit), none)
  | .bsel => some (Fields.ofMod 0x06D 0, none)
  | .leaShort sc => some (Fields.ofMod 0x06E sc.toBits, none)
  | .leaLong sc off => some (Fields.ofMod 0x06F sc.toBits, some off)
  | .faddF64 rm => some (Fields.ofMod 0x080 (0#1 ++ rm.toBits), none)
  | .faddF32 rm => some (Fields.ofMod 0x081 (0#1 ++ rm.toBits), none)
  | .faddF16 rm => some (Fields.ofMod 0x082 (0#1 ++ rm.toBits), none)
  | .faddBf16 rm => some (Fields.ofMod 0x083 (0#1 ++ rm.toBits), none)
  | .faddF16x2 rm => some (Fields.ofMod 0x084 (0#1 ++ rm.toBits), none)
  | .faddBf16x2 rm => some (Fields.ofMod 0x085 (0#1 ++ rm.toBits), none)
  | .fsubF64 rm => some (Fields.ofMod 0x086 (0#1 ++ rm.toBits), none)
  | .fsubF32 rm => some (Fields.ofMod 0x087 (0#1 ++ rm.toBits), none)
  | .fsubF16 rm => some (Fields.ofMod 0x088 (0#1 ++ rm.toBits), none)
  | .fsubBf16 rm => some (Fields.ofMod 0x089 (0#1 ++ rm.toBits), none)
  | .fsubF16x2 rm => some (Fields.ofMod 0x08A (0#1 ++ rm.toBits), none)
  | .fsubBf16x2 rm => some (Fields.ofMod 0x08B (0#1 ++ rm.toBits), none)
  | .fmulF64 rm => some (Fields.ofMod 0x08C (0#1 ++ rm.toBits), none)
  | .fmulF32 rm => some (Fields.ofMod 0x08D (0#1 ++ rm.toBits), none)
  | .fmulF16 rm => some (Fields.ofMod 0x08E (0#1 ++ rm.toBits), none)
  | .fmulBf16 rm => some (Fields.ofMod 0x08F (0#1 ++ rm.toBits), none)
  | .fmulF16x2 rm => some (Fields.ofMod 0x090 (0#1 ++ rm.toBits), none)
  | .fmulBf16x2 rm => some (Fields.ofMod 0x091 (0#1 ++ rm.toBits), none)
  | .fmaF64 rm => some (Fields.ofMod 0x092 (0#1 ++ rm.toBits), none)
  | .fmaF32 rm => some (Fields.ofMod 0x093 (0#1 ++ rm.toBits), none)
  | .fmaF16 rm => some (Fields.ofMod 0x094 (0#1 ++ rm.toBits), none)
  | .fmaBf16 rm => some (Fields.ofMod 0x095 (0#1 ++ rm.toBits), none)
  | .fmaF16x2 rm => some (Fields.ofMod 0x096 (0#1 ++ rm.toBits), none)
  | .fmaBf16x2 rm => some (Fields.ofMod 0x097 (0#1 ++ rm.toBits), none)
  | .fminF64 => some (Fields.ofMod 0x098 0, none)
  | .fminF32 => some (Fields.ofMod 0x099 0, none)
  | .fminF16 => some (Fields.ofMod 0x09A 0, none)
  | .fminBf16 => some (Fields.ofMod 0x09B 0, none)
  | .fminF16x2 => some (Fields.ofMod 0x09C 0, none)
  | .fminBf16x2 => some (Fields.ofMod 0x09D 0, none)
  | .fmaxF64 => some (Fields.ofMod 0x09E 0, none)
  | .fmaxF32 => some (Fields.ofMod 0x09F 0, none)
  | .fmaxF16 => some (Fields.ofMod 0x0A0 0, none)
  | .fmaxBf16 => some (Fields.ofMod 0x0A1 0, none)
  | .fmaxF16x2 => some (Fields.ofMod 0x0A2 0, none)
  | .fmaxBf16x2 => some (Fields.ofMod 0x0A3 0, none)
  | .fcmpF64 cc => some (Fields.ofMod 0x0A4 cc.toBits, none)
  | .fcmpF32 cc => some (Fields.ofMod 0x0A5 cc.toBits, none)
  | .fcmpF16 cc => some (Fields.ofMod 0x0A6 cc.toBits, none)
  | .fcmpBf16 cc => some (Fields.ofMod 0x0A7 cc.toBits, none)
  | .fclassF64 => some (Fields.ofMod 0x0A8 0, none)
  | .fclassF32 => some (Fields.ofMod 0x0A9 0, none)
  | .fclassF16 => some (Fields.ofMod 0x0AA 0, none)
  | .fclassBf16 => some (Fields.ofMod 0x0AB 0, none)
  | .cvtF64F32 => some (Fields.ofMod 0x0C0 0, none)
  | .cvtF32F16 => some (Fields.ofMod 0x0C1 0, none)
  | .cvtF32Bf16 => some (Fields.ofMod 0x0C2 0, none)
  | .cvtF32E4m3 => some (Fields.ofMod 0x0C3 0, none)
  | .cvtF32E5m2 => some (Fields.ofMod 0x0C4 0, none)
  | .cvtF32E2m1 => some (Fields.ofMod 0x0C5 0, none)
  | .cvtF32F64 rm sat => some (Fields.ofMod 0x0C6 (BitVec.ofBool sat ++ rm.toBits), none)
  | .cvtF16F32 rm sat => some (Fields.ofMod 0x0C7 (BitVec.ofBool sat ++ rm.toBits), none)
  | .cvtBf16F32 rm sat => some (Fields.ofMod 0x0C8 (BitVec.ofBool sat ++ rm.toBits), none)
  | .cvtE4m3F32 rm sat => some (Fields.ofMod 0x0C9 (BitVec.ofBool sat ++ rm.toBits), none)
  | .cvtE5m2F32 rm sat => some (Fields.ofMod 0x0CA (BitVec.ofBool sat ++ rm.toBits), none)
  | .cvtE2m1F32 rm sat => some (Fields.ofMod 0x0CB (BitVec.ofBool sat ++ rm.toBits), none)
  | .cvtSrE4m3F32 sat => some (Fields.ofMod 0x0CC (BitVec.ofBool sat ++ 0#2), none)
  | .cvtSrE5m2F32 sat => some (Fields.ofMod 0x0CD (BitVec.ofBool sat ++ 0#2), none)
  | .cvtSrE2m1F32 sat => some (Fields.ofMod 0x0CE (BitVec.ofBool sat ++ 0#2), none)
  | .cvtF16x2F32 rm sat => some (Fields.ofMod 0x0CF (BitVec.ofBool sat ++ rm.toBits), none)
  | .cvtBf16x2F32 rm sat => some (Fields.ofMod 0x0D0 (BitVec.ofBool sat ++ rm.toBits), none)
  | .cvtF32I32 rm => some (Fields.ofMod 0x0D1 (0#1 ++ rm.toBits), none)
  | .cvtF32N32 rm => some (Fields.ofMod 0x0D2 (0#1 ++ rm.toBits), none)
  | .cvtF64I64 rm => some (Fields.ofMod 0x0D3 (0#1 ++ rm.toBits), none)
  | .cvtF64N64 rm => some (Fields.ofMod 0x0D4 (0#1 ++ rm.toBits), none)
  | .cvtI32F32 rm => some (Fields.ofMod 0x0D5 (0#1 ++ rm.toBits), none)
  | .cvtN32F32 rm => some (Fields.ofMod 0x0D6 (0#1 ++ rm.toBits), none)
  | .cvtI64F64 rm => some (Fields.ofMod 0x0D7 (0#1 ++ rm.toBits), none)
  | .cvtN64F64 rm => some (Fields.ofMod 0x0D8 (0#1 ++ rm.toBits), none)
  | .ext src w => some (Fields.ofMod 0x0D9 (BitVec.ofBool w.toBit ++ src.toBits), none)
  | .nar rm sat => some (Fields.ofMod 0x0DA (BitVec.ofBool sat ++ rm.toBits), none)
  | .cvtE8m0F32 rm => some (Fields.ofMod 0x0DB (0#1 ++ rm.toBits), none)
  | .cvtF32E8m0 rm => some (Fields.ofMod 0x0DC (0#1 ++ rm.toBits), none)
  | .rcpF32 => some (Fields.ofMod 0x0DD 0, none)
  | .rsqF32 => some (Fields.ofMod 0x0DE 0, none)
  | .sqrtF32 => some (Fields.ofMod 0x0DF 0, none)
  | .exp2F32 => some (Fields.ofMod 0x0E0 0, none)
  | .log2F32 => some (Fields.ofMod 0x0E1 0, none)
  | .sinpiF32 => some (Fields.ofMod 0x0E2 0, none)
  | .cospiF32 => some (Fields.ofMod 0x0E3 0, none)
  | .rcpF64 rm => some (Fields.ofMod 0x0E4 (0#1 ++ rm.toBits), none)
  | .sqrtF64 rm => some (Fields.ofMod 0x0E5 (0#1 ++ rm.toBits), none)
  | .frndF32 rm => some (Fields.ofMod 0x0E6 (0#1 ++ rm.toBits), none)
  | .ldexpF32 rm => some (Fields.ofMod 0x0E7 (0#1 ++ rm.toBits), none)
  | .permB32 => some (Fields.ofMod 0x100 0, none)
  | .permB64 => some (Fields.ofMod 0x101 0, none)
  | .xlaneB32 form rot => some (Fields.ofMod 0x102 (BitVec.ofBool rot ++ form.toBits), none)
  | .xlaneB64 form rot => some (Fields.ofMod 0x103 (BitVec.ofBool rot ++ form.toBits), none)
  | .vote form => some (Fields.ofMod 0x104 (0#1 ++ form.toBits), none)
  | .matchB32 => some (Fields.ofMod 0x105 0, none)
  | .matchB64 => some (Fields.ofMod 0x106 0, none)
  | .gscanAdd sat n => some (Fields.ofMod 0x107 (0#1 ++ BitVec.ofBool n ++ BitVec.ofBool sat), none)
  | .gscanAddF32 => some (Fields.ofMod 0x108 0, none)
  | .gscanMax ty => some (Fields.ofMod 0x109 (0#1 ++ ty.toBits), none)
  | .gscanMin ty => some (Fields.ofMod 0x10A (0#1 ++ ty.toBits), none)
  | .gredAdd sat n => some (Fields.ofMod 0x10B (0#1 ++ BitVec.ofBool n ++ BitVec.ofBool sat), none)
  | .gredAddF32 => some (Fields.ofMod 0x10C 0, none)
  | .gredAddF64 => some (Fields.ofMod 0x10D 0, none)
  | .gredMax ty => some (Fields.ofMod 0x10E (0#1 ++ ty.toBits), none)
  | .gredMin ty => some (Fields.ofMod 0x10F (0#1 ++ ty.toBits), none)
  | .gredBitwise op => some (Fields.ofMod 0x110 (0#1 ++ op.toBits), none)
  | .gscanAddF64 => some (Fields.ofMod 0x111 0, none)
  | .pand op => some (Fields.ofMod 0x112 (0#1 ++ op.toBits), none)
  | .mpopc => some (Fields.ofMod 0x113 0, none)
  | .mffs => some (Fields.ofMod 0x114 0, none)
  | .bcast => some (Fields.ofMod 0x115 0, none)
  | .gredSexp => some (Fields.ofMod 0x116 0, none)
  | .lmask rel => some (Fields.ofMod 0x117 rel.toBits, none)
  | .lds w => some (Fields.ofMod 0x140 w.toBits, none)
  | .sts w => some (Fields.ofMod 0x141 (0#1 ++ w.toBits), none)
  | .ldx w => some (Fields.ofMod 0x142 w.toBits, none)
  | .stx w => some (Fields.ofMod 0x143 (0#1 ++ w.toBits), none)
  | .ldk w => some (Fields.ofMod 0x144 w.toBits, none)
  | .stk w => some (Fields.ofMod 0x145 (0#1 ++ w.toBits), none)
  | .atomAdd k wide => some (Fields.ofMod 0x146 0, some (atomExt k wide))
  | .atomAnd k wide => some (Fields.ofMod 0x147 0, some (atomExt k wide))
  | .atomOr k wide => some (Fields.ofMod 0x148 0, some (atomExt k wide))
  | .atomXor k wide => some (Fields.ofMod 0x149 0, some (atomExt k wide))
  | .atomMinI k wide => some (Fields.ofMod 0x14A 0, some (atomExt k wide))
  | .atomMaxI k wide => some (Fields.ofMod 0x14B 0, some (atomExt k wide))
  | .atomMinN k wide => some (Fields.ofMod 0x14C 0, some (atomExt k wide))
  | .atomMaxN k wide => some (Fields.ofMod 0x14D 0, some (atomExt k wide))
  | .atomExch k wide => some (Fields.ofMod 0x14E 0, some (atomExt k wide))
  | .atomCas k wide => some (Fields.ofMod 0x14F 0, some (atomExt k wide))
  | .atomInc k wide => some (Fields.ofMod 0x150 0, some (atomExt k wide))
  | .atomDec k wide => some (Fields.ofMod 0x151 0, some (atomExt k wide))
  | .atomFadd .f32 k => some (Fields.ofMod 0x152 0, some (atomExt k false))
  | .atomFadd .f64 k => some (Fields.ofMod 0x153 0, some (atomExt k true))
  | .atomFaddX2 .f16x2 k => some (Fields.ofMod 0x165 0, some (atomExt k false))
  | .atomFaddX2 .bf16x2 k => some (Fields.ofMod 0x166 0, some (atomExt k false))
  | .atomFmax k wide => some (Fields.ofMod 0x155 0, some (atomExt k wide))
  | .atomFmin k wide => some (Fields.ofMod 0x156 0, some (atomExt k wide))
  | .redFaddF32 sc sp => some (Fields.ofMod 0x167 0, some (atomExt ⟨sc, .rlx, sp⟩ false))
  | .ldAcq sc sp wide => some (Fields.ofMod 0x160 0, some (atomExt ⟨sc, .acq, sp⟩ wide))
  | .stRel sc sp wide => some (Fields.ofMod 0x161 0, some (atomExt ⟨sc, .rel, sp⟩ wide))
  | .fence sc => some (Fields.ofMod 0x157 sc.toBits, none)
  | .fenceSc => some (Fields.ofMod 0x164 0, none)
  | .barArrive => some (Fields.ofMod 0x158 0, none)
  | .barWait => some (Fields.ofMod 0x159 0, none)
  | .barSync => some (Fields.ofMod 0x15A 0, none)
  | .barRed => some (Fields.ofMod 0x162 0, none)
  | .barInval => some (Fields.ofMod 0x168 0, none)
  | .mbarInit => some (Fields.ofMod 0x15B 0, none)
  | .mbarArrive => some (Fields.ofMod 0x15C 0, none)
  | .mbarWait => some (Fields.ofMod 0x15D 0, none)
  | .mbarTest => some (Fields.ofMod 0x15E 0, none)
  | .mbarInval => some (Fields.ofMod 0x163 0, none)
  | .mcast => some (Fields.ofMod 0x15F 0, none)
  | .cpy strict => some (Fields.ofMod 0x180 (0#2 ++ BitVec.ofBool strict), none)
  | .cpyBatch => some (Fields.ofMod 0x181 0, none)
  | .cpyWait => some (Fields.ofMod 0x182 0, none)
  | .cpyLr strict => some (Fields.ofMod 0x183 (0#2 ++ BitVec.ofBool strict), none)
  | .sbind => some (Fields.ofMod 0x184 0, none)
  | .bind e => some (Fields.ofMod 0x185 e, none)
  | .unbind e => some (Fields.ofMod 0x186 e, none)
  | .sstat => some (Fields.ofMod 0x187 0, none)
  | .enqInstr => some (Fields.ofMod 0x188 0, none)
  | .deqInstr => some (Fields.ofMod 0x189 0, none)
  | .notifyInstr => some (Fields.ofMod 0x18A 0, none)
  | .qwait => some (Fields.ofMod 0x18B 0, none)
  | .qdepth => some (Fields.ofMod 0x18C 0, none)
  | .bpenc => some (Fields.ofMod 0x18D 0, none)
  | .bpdec => some (Fields.ofMod 0x18E 0, none)
  | .mld strict => some (Fields.ofMod 0x18F (0#2 ++ BitVec.ofBool strict), none)
  | .mst strict => some (Fields.ofMod 0x190 (0#2 ++ BitVec.ofBool strict), none)
  | .mmaF16 k => some (Fields.ofMod 0x191 0, some k.toExt)
  | .mmaF8 k => some (Fields.ofMod 0x197 0, some k.toExt)
  | .mmaE2m1 n => some (Fields.ofMod 0x198 0, some (MmaKind.toExt ⟨n, false, false⟩))
  | .mmaI8 n => some (Fields.ofMod 0x199 0, some (MmaKind.toExt ⟨n, false, false⟩))
  | .mzero => some (Fields.ofMod 0x192 0, none)
  | .mpairEast => some (Fields.ofMod 0x193 0, none)
  | .mpairWest => some (Fields.ofMod 0x193 0, none)
  | .mpairDissolve => some (Fields.ofMod 0x193 0, none)
  | .seqCfg => some (Fields.ofMod 0x194 0, none)
  | .seqGo => some (Fields.ofMod 0x195 0, none)
  | .mchk => some (Fields.ofMod 0x196 0, none)
  | .tapeOpen => some (Fields.ofMod 0x19A 0, none)
  | .tapeClose => some (Fields.ofMod 0x19B 0, none)
  | .tapeRec => some (Fields.ofMod 0x19C 0, none)
  | .tapeRev => some (Fields.ofMod 0x19D 0, none)
  | .tapePop => some (Fields.ofMod 0x19E 0, none)
  | .tapeBrpop => some (Fields.ofMod 0x19F 0, none)
  | .tapeSeg => some (Fields.ofMod 0x1A0 0, none)
  | .tapeStat => some (Fields.ofMod 0x1A1 0, none)
  | .mrd => some (Fields.ofMod 0x1A2 0, none)
  | .mwr => some (Fields.ofMod 0x1A3 0, none)
  | .cfgLaunch => some (Fields.ofMod 0x1CF 0, none)
  | .cfgBind => some (Fields.ofMod 0x1D0 0, none)
  | .cfgSignalStatus => some (Fields.ofMod 0x1D1 0, none)
  | .cfgSignalRelease => some (Fields.ofMod 0x1D1 0, none)
  | .cfgSignalStep => some (Fields.ofMod 0x1D1 0, none)
  | .cfgSignalStop => some (Fields.ofMod 0x1D1 0, none)
  | .cfgSignalPriority => some (Fields.ofMod 0x1D1 0, none)
  | .cfgEvictDrain => some (Fields.ofMod 0x1D2 0, none)
  | .cfgEvictKill => some (Fields.ofMod 0x1D2 0, none)
  | .spawn => some (Fields.ofMod 0x1D3 0, none)
  | .stealInstr => some (Fields.ofMod 0x1D4 0, none)
  | .jcntInit => some (Fields.ofMod 0x1D5 0, none)
  | .retireKeep0 => some (Fields.ofMod 0x1D6 0, none)
  | .retireKeep1 => some (Fields.ofMod 0x1D6 0, none)
  | .cont => some (Fields.ofMod 0x1D7 0, none)
  | .budGet => some (Fields.ofMod 0x1D8 0, none)
  | .budGive => some (Fields.ofMod 0x1D9 0, none)
  | .budAdd => some (Fields.ofMod 0x1DA 0, none)
  | .asidKill => some (Fields.ofMod 0x1DB 0, none)
  | .tlbinvAsid => some (Fields.ofMod 0x1DC 0, none)
  | .tlbinvVa => some (Fields.ofMod 0x1DC 0, none)
  | .tlbinvAsidEntry => some (Fields.ofMod 0x1DC 0, none)
  | .tlbinvAll => some (Fields.ofMod 0x1DC 0, none)
  | .monCfgConfigure => some (Fields.ofMod 0x1DD 0, none)
  | .monCfgStop => some (Fields.ofMod 0x1DD 0, none)
  | .monCfgDump => some (Fields.ofMod 0x1DD 0, none)
  | .keyset => some (Fields.ofMod 0x1DE 0, none)
  | .keydrop => some (Fields.ofMod 0x1DF 0, none)
  | _ => none

/-- The opcode of an instruction of block code. -/
def Instr.opcode? (i : Instr) : Option Nat := i.fields?.map (fun x => x.1.op.toNat)

/-- The fields of a node: its operation's fields with the targets and the guard set as its layout has them. -/
def Node.place (n : Node) (x : Fields) : Fields :=
  match layoutOf x.op.toNat with
  | .result => { x with g := n.guard.toBits, t1 := targetBits n.t1, t0 := targetBits n.t0 }
  | .immResult => { x with g := n.guard.toBits, t0 := targetBits n.t0 }
  | .regRead => { x with t0 := targetBits n.t0 }
  | .regWrite => x
  | .noResult | .branch => { x with g := n.guard.toBits }

/-- The words of a node (R34): one, or two with its extension word. -/
def encode (n : Node) : List W32 :=
  match n.instr.fields? with
  | none => []
  | some (x, ext) => (n.place x).toWord :: ext.toList

/-- Whether a node carries no target and no guard that its layout lacks (R83). -/
def Node.edgesFit (n : Node) : Bool :=
  match n.instr.opcode?.map layoutOf with
  | none => false
  | some .result => true
  | some .immResult => n.t1 = none
  | some .regRead => n.t1 = none && n.guard = .always
  | some .regWrite => n.t0 = none && n.t1 = none && n.guard = .always
  | some .noResult | some .branch => n.t0 = none && n.t1 = none

/-- The instruction whose words the opcode-table row's bits give, low word first. -/
def decodeTableWord (_nbits w : Nat) : Option Instr :=
  match decodeBytes (wordBytes (BitVec.ofNat 32 w) ++ wordBytes (BitVec.ofNat 32 (w / 2 ^ 32))) with
  | .ok (n, _) => some n.instr
  | .error _ => none

/-! ### Operator words of a configuration (R279, R306) -/

/-- A source code (R279). -/
def Src.ofBits (b : BitVec 3) : Src :=
  match b.toNat with
  | 0 => .none | 1 => .k0 | 2 => .k1 | 3 => .k2 | 4 => .i0 | 5 => .i1 | 6 => .i2 | _ => .i3
/-- The code of a source (R279). -/
def Src.toBits : Src → BitVec 3
  | .none => 0 | .k0 => 1 | .k1 => 2 | .k2 => 3 | .i0 => 4 | .i1 => 5 | .i2 => 6 | .i3 => 7

/-- The fields of an operator word's payload beside opcode, modifier and aux (R279). -/
def OpWord.ofPayload (x : BitVec 52) : OpWord :=
  { a := Src.ofBits (x.extractLsb' 12 3), b := Src.ofBits (x.extractLsb' 15 3), c := Src.ofBits (x.extractLsb' 18 3),
    p := Src.ofBits (x.extractLsb' 21 3), sense := x.getLsbD 24, o0 := x.getLsbD 25, o1 := x.getLsbD 26,
    tagsel := x.getLsbD 27, tbase := x.extractLsb' 28 5, tsize := x.extractLsb' 33 6 }

/-- The payload of an operator word (R279). -/
def OpWord.toPayload (o : OpWord) (op : BitVec 9) (m : BitVec 3) (aux : BitVec 13) : BitVec 52 :=
  aux ++ o.tsize ++ o.tbase ++ BitVec.ofBool o.tagsel ++ BitVec.ofBool o.o1 ++ BitVec.ofBool o.o0
    ++ BitVec.ofBool o.sense ++ o.p.toBits ++ o.c.toBits ++ o.b.toBits ++ o.a.toBits ++ m ++ op

/-- A fabric operator from its opcode, modifier and aux fields (R306); every bit that the table does not give is
reserved. -/
def decodeFabric (op : Nat) (m : BitVec 3) (aux : BitVec 13) : Except DecodeError Instr := do
  let bit1 := m.extractLsb' 1 2 = 0#2
  let sc := (m.extractLsb' 0 2).toNat
  match op with
  | 0x1C0 => reserved (bit1 ∧ aux = 0); pure (.steer (m.getLsbD 0))
  | 0x1C1 => reserved (bit1 ∧ aux = 0); pure (.merge (m.getLsbD 0))
  | 0x1C2 => reserved (m = 0 ∧ aux = 0); pure (.carry)
  | 0x1C3 => reserved (m = 0 ∧ aux = 0); pure (.inv)
  | 0x1C4 => reserved (m = 0 ∧ aux = 0); pure (.join)
  | 0x1C5 =>
    reserved (m = 0)
    pure (.win ⟨aux.extractLsb' 0 3, aux.extractLsb' 3 2, aux.extractLsb' 5 2, aux.extractLsb' 7 6⟩)
  | 0x1C6 => reserved (m = 0 ∧ aux = 0); pure (.isect)
  | 0x1C7 => reserved (bit1 ∧ aux = 0); pure (.tredSum (m.getLsbD 0))
  | 0x1C8 => reserved (bit1 ∧ aux = 0); pure (.tredMax (m.getLsbD 0))
  | 0x1C9 => reserved (bit1 ∧ aux = 0); pure (.tredSexp (m.getLsbD 0))
  | 0x1CA =>
    reserved (m.getLsbD 2 = false ∧ aux = 0)
    match sc with
    | 1 => pure (.welt .stack)
    | 2 => pure (.welt .device)
    | _ => .error .blockForm
  | 0x1CB =>
    reserved (m.getLsbD 2 = false ∧ aux = 0)
    match sc with
    | 0 => pure (.twillFence .region)
    | 1 => pure (.twillFence .stack)
    | 2 => pure (.twillFence .device)
    | _ => .error .blockForm
  | 0x1CC =>
    reserved (m.getLsbD 2 = false ∧ aux.extractLsb' 8 5 = 0#5)
    match sc with
    | 0 => reserved (aux = 0); pure (.mbarvArrive)
    | 1 => reserved (aux = 0); pure (.mbarvEot)
    | 2 => pure (.mbarvWait (aux.extractLsb' 0 8))
    | _ => .error .blockForm
  | 0x1CD => reserved (m = 0 ∧ aux = 0); pure (.sink)
  | 0x1CE => reserved (m ≠ 7 ∧ aux = 0); pure (.iter m)
  | _ => .error .illegalOpcode

/-- The operator of an operator word's payload (R279): a fabric operator, or the instruction that a T value names, without
targets or a guard of its own. A T value's aux field is reserved, and so is the modifier of the short `movi`, for which R77 names no code
(log entry 112). -/
def decodeOperator (x : BitVec 52) : Except DecodeError (Instr × OpWord) := do
  let op := x.extractLsb' 0 9
  let m := x.extractLsb' 9 3
  let aux := x.extractLsb' 39 13
  let o := OpWord.ofPayload x
  if isFabricOpcode op.toNat then
    let i ← decodeFabric op.toNat m aux
    pure (i, o)
  else
    reserved (aux = 0)
    reserved (op ≠ 0x003 ∨ m = 0)
    let n ← decodeSlot (Fields.toWord ⟨op, 0, m, 0, 0⟩) (some 0)
    pure (n.instr, o)

/-- The payload of a fabric operator's operator word (R279, R306); other instructions have none here. -/
def encodeFabric (i : Instr) (o : OpWord) : Option (BitVec 52) :=
  match i with
  | .steer d => some (o.toPayload 0x1C0 (0#2 ++ BitVec.ofBool d) 0)
  | .merge d => some (o.toPayload 0x1C1 (0#2 ++ BitVec.ofBool d) 0)
  | .carry => some (o.toPayload 0x1C2 0 0)
  | .inv => some (o.toPayload 0x1C3 0 0)
  | .join => some (o.toPayload 0x1C4 0 0)
  | .win k => some (o.toPayload 0x1C5 0 (k.n ++ k.d ++ k.s ++ k.k))
  | .isect => some (o.toPayload 0x1C6 0 0)
  | .tredSum e => some (o.toPayload 0x1C7 (0#2 ++ BitVec.ofBool e) 0)
  | .tredMax e => some (o.toPayload 0x1C8 (0#2 ++ BitVec.ofBool e) 0)
  | .tredSexp e => some (o.toPayload 0x1C9 (0#2 ++ BitVec.ofBool e) 0)
  | .welt .stack => some (o.toPayload 0x1CA 1 0)
  | .welt .device => some (o.toPayload 0x1CA 2 0)
  | .twillFence .region => some (o.toPayload 0x1CB 0 0)
  | .twillFence .stack => some (o.toPayload 0x1CB 1 0)
  | .twillFence .device => some (o.toPayload 0x1CB 2 0)
  | .mbarvArrive => some (o.toPayload 0x1CC 0 0)
  | .mbarvEot => some (o.toPayload 0x1CC 1 0)
  | .mbarvWait ph => some (o.toPayload 0x1CC 2 (0#5 ++ ph))
  | .sink => some (o.toPayload 0x1CD 0 0)
  | .iter c => some (o.toPayload 0x1CE c 0)
  | _ => none

end Sys2Proof
end

