-- ==== Sys2Proof/Machine/State.lean ====
section
/-! DEFINITION. The state of the machine as plain data: memories, the work queues, the cores with their tables and
teams, the stacks with their arrays, the isolation tables and the hub, with the values that hold at reset. -/
namespace Sys2Proof.Machine

/-- Reasons for which a step stops without a next state: one, for a question that the machine is never asked. The faults of the manual are
next states (R435), and an event that cannot occur in a state leaves it as it is. Safe: a claim about a run is not made easier by a stop. -/
inductive Fault where
  /-- An instruction was asked of a state in which no group executes a block, or no element acts. Raised by the meanings of block
instructions and operators. Safe: no step asks it. -/
  | noContext
  deriving DecidableEq, Repr

/-- Reasons for which the model gives an instruction no meaning. Safe: nothing follows from a refusal. -/
inductive Refusal where
  /-- The instruction has no meaning yet. Raised by the arms of `exec`. -/
  | notModelled (mnemonic : String)
  deriving DecidableEq, Repr

/-! ### Memory -/

/-- The fault codes of R433; `trap` is code 0x00. -/
inductive FaultCode where
  | trap | illegalOpcode | blockForm | blockExit | align | badHandle | page | access | key | priv | tapeFull
  | matrixData | matrixPair | memData | linkConfig | decompLength | barrierSpill | mcastRange
  deriving DecidableEq, Repr

/-- A fault as its trap unit raises it (R432, R436): what a record or FLTINFO says of it. -/
structure Trap where
  code : FaultCode
  slot : Nat := 0
  lane : Nat := 0
  header : Bool := false
  addr : W64 := 0
  detail : Nat := 0
  extra : W64 := 0
  deriving DecidableEq, Repr

/-- A fault record (R436) without its sequence number. -/
structure Record where
  code : FaultCode
  fatal : Bool := false
  resumable : Bool := false
  store : Bool := false
  inteam : Bool := false
  source : Nat
  asid : W16
  detail : Nat := 0
  slot : Nat := 0
  lane : Nat := 0
  header : Bool := false
  address : W64 := 0
  /-- The field `where` of R437. -/
  place : W64 := 0
  agent : W32 := 0
  iter : List W32 := []
  extra : W64 := 0
  cycle : Nat := 0
  deriving DecidableEq, Repr

/-- A cached translation (R406, R407, R409): the page of an ASID that holds a virtual address. -/
structure TlbEntry where
  asid : W16
  /-- The page's first virtual address. -/
  va : Nat
  /-- The page's size in bytes. -/
  size : Nat
  /-- The physical address of the page's first byte. -/
  pa : Nat
  r : Bool
  w : Bool
  x : Bool
  s : Bool
  key : Nat
  deriving DecidableEq, Repr

/-- The state of an ASID entry (R405). -/
inductive AsidState where
  | free | live | dying | reserved
  deriving DecidableEq, Repr

/-- An ASID entry as a walk reads it (R405). -/
structure AsidEntry where
  valid : Bool
  state : AsidState
  tenant : W16
  root : Nat
  tvec : W64
  yq : W64
  fq : W64
  killmb : W64
  deriving DecidableEq, Repr

/-- The state of a key slot (R410): the generation tells one drawn key pair from another; the keys themselves never leave
the part. -/
inductive KeySlot where
  | free
  | bound (tenant : W16) (gen : Nat)
  | dropped
  deriving DecidableEq, Repr

/-! ### Queues -/

/-- An entry of a work queue; a held entry is reserved by an unfinished `deq` or `steal` at that slot of
the block of that team and group (R267, R268). -/
structure QEntry where
  tok : Token
  held : Option (Nat × Nat × Nat)
  /-- The cycle of the enqueue's moment (R452). -/
  since : Nat
  deriving DecidableEq, Repr

/-- A token that waits at the queue engine (R438): a fault record is given its number when it is enqueued. -/
structure EngineToken where
  tok : Token
  record : Bool := false
  deriving DecidableEq, Repr

/-- A work queue (R265, R266): its CONFIG fields, its sticky STATUS bits, the entries from head to tail, the last NOTIFY
value with the number of writes so far, and the tokens that wait at the queue engine (R438). -/
structure Queue where
  enable : Bool := false
  depthLog : Nat := 0
  place : Bool := false
  bound : Bool := false
  core : Nat := 0
  channel : Nat := 0
  storage : Nat := 0
  emptyRead : Bool := false
  lost : Bool := false
  entries : List QEntry := []
  notifyVal : W64 := 0
  notifies : Nat := 0
  waiting : List EngineToken := []
  deriving DecidableEq, Repr

/-! ### Values and blocks -/

/-- A value on an edge (R37): its lanes, whether it is uniform, and the lane register that a direct `rd` took it from
(R145), with its pair flag. Values of 32 bits are held zero-extended. -/
structure Val where
  lanes : List (Option W64)
  uni : Bool
  reg : Option (Nat × Bool)
  deriving DecidableEq, Repr

/-- A value that stands on a port of a slot. -/
structure PortVal where
  slot : Nat
  port : Port
  val : Val
  deriving DecidableEq, Repr

/-- How a group comes to a block (R31). A refetch is one of the four fetches that are no entry. -/
inductive EntryPath where
  | launch | jump | call | ret | reconverge | resume | reverse | trapEntry | refetch
  deriving DecidableEq, Repr

/-- What a block waits on (R41, R355): the waits that the manual names. -/
inductive WaitKind where
  /-- A port without a value (R38). -/
  | operand
  /-- An eyelet pop (R48). -/
  | pop (n : Nat)
  /-- A push reservation (R49). -/
  | push (n : Nat)
  /-- A pending arrival on a barrier entry (R243). -/
  | bar (kind : Bool) (id : Nat)
  /-- `mbar.wait` (R245): the word's physical address and the phase that it must leave. -/
  | mbar (pa phase : Nat)
  /-- `qwait` on a queue (R268). -/
  | queueWait (q : Nat)
  /-- `cpy.wait` (R258): the last of the batches. -/
  | batch (n : Nat)
  /-- A commit that waits for room in a queue or table, or for an acknowledgement of every cache. -/
  | room
  /-- `spin` (R70): the cycle up to which the commit waits. -/
  | until (cycle : Nat)
  /-- Room in the matrix queue, or a claim (R156, R168): a counting wait while the command ahead waits for its partner (R171). -/
  | matrix
  /-- A tape buffer or transfer. -/
  | tape
  deriving DecidableEq, Repr

/-- The spaces that direct accesses reach (R230). -/
inductive MemSpace where
  | spill | shared | spad
  deriving DecidableEq, Repr

/-- The read-modify-write operations (R236). -/
inductive AtomOp where
  | add | and | or | xor | minI | maxI | minN | maxN | exch | cas | inc | dec | fadd | faddF16x2 | faddBf16x2 | fmax
  | fmin
  deriving DecidableEq, Repr

/-- One lane's part of a store or atomic: the address in its space (physical for scratchpad) with the operands. -/
structure LaneAccess where
  lane : Nat
  addr : Nat
  b : W64
  c : W64
  deriving DecidableEq, Repr

/-- The exits of a block (R40). -/
inductive ExitKind where
  | br | call | ret | exit | yield
  deriving DecidableEq, Repr

/-- A control word of the hardware barriers (R240). -/
structure BarWord where
  id : Nat
  cluster : Bool
  scope : Nat
  count : Nat
  op : Nat
  dest : Nat
  deriving DecidableEq, Repr

/-- An access record as read (R249): 512 bits, lowest word first. -/
abbrev RecWords := List W64

/-- An iteration vector (R249, R251). -/
abbrev IterVec := List Nat

/-- A copy, stream or layout copy as the copy engine holds it (R255, R259, R263). -/
inductive CopyKind where
  | copy (src dst : RecWords) (strict : Bool)
  | layout (record : RecWords)
  | mload (src : RecWords) | mstore (dst : RecWords)
  deriving DecidableEq, Repr

/-- What a `mac` stream keeps (R325): the accumulators of its tile in progress, by stack × 1,024 + pseudo-channel × 16 + bank
and position, the banks that its ended tiles have reached, and how many tiles those are: none of them is added again by a replay
(R175). -/
structure MacRun where
  pending : PMap (PMap W32) := []
  reached : List Nat := []
  tiles : Nat := 0
  combined : Bool := false
  deriving DecidableEq, Repr

/-- A command of a team's copy queue (R256). -/
structure CopyCmd where
  kind : CopyKind
  group : Nat
  batch : Nat
  seq : Nat
  /-- The privilege and ASID at which it acts (R404). -/
  sup : Bool
  asid : W16
  /-- Issued: its transfer has begun. -/
  started : Bool := false
  /-- The next element, and the elements of the current tile that have been read: none where a fused operator yields no
  output (R324). -/
  pos : Nat := 0
  outs : List (Option Nat) := []
  /-- Under a codec, `outs` holds every element that has been read, and this is how many coded elements have been stored (R271). -/
  written : Nat := 0
  mac : MacRun := {}
  /-- Stalled on a PAGE fault at this virtual address, since the cycle; the cycle of a stall after which nothing has been issued yet
  (R443, R452). -/
  stalled : Option (W64 × Nat) := none
  stallFrom : Option Nat := none
  deriving DecidableEq, Repr

/-- A matrix command (R156): the opcode, the operand word on port a, the extension word of an `mma`, the record of a transfer, and
the lanes of an `mwr`. -/
structure MatCmd where
  op : Nat
  a : W64
  ext : Nat := 0
  record : RecWords := []
  vals : List (Option W32) := []
  /-- The traffic in units of 64 bytes (R164, R257). -/
  traffic : Nat := 0
  sup : Bool := false
  group : Nat := 0
  batch : Nat := 0
  seq : Nat := 0
  /-- The controller that generated it (R169). -/
  source : Option Nat := none
  started : Bool := false
  /-- The team whose node B a paired `mma` under way reads (R171). -/
  west : Option Nat := none
  /-- Rerun once after a mismatch of checksums (R162). -/
  rerun : Bool := false
  /-- Stalled on a PAGE fault at this virtual address, since the cycle (R164, R443). -/
  stalled : Option (W64 × Nat) := none
  deriving DecidableEq, Repr

/-- A commit-time effect (R39) of a slot, with what its fire has computed. -/
inductive Effect where
  /-- `wr`: it takes the value of its port w at commit (R53, R237). -/
  | wr (slot : Nat) (r : RegRef)
  /-- A store (R234, R235). -/
  | store (slot : Nat) (sp : MemSpace) (size : Nat) (lanes : List LaneAccess)
  /-- A read-modify-write; its old values go to the write ports named (R236, R237). -/
  | atomic (slot : Nat) (op : AtomOp) (sp : MemSpace) (wide : Bool) (lanes : List LaneAccess) (dests : List Dest)
  /-- A multicast store: offset and value for each lane, and the members (R246). -/
  | mcast (slot : Nat) (members : Nat) (lanes : List LaneAccess)
  /-- A fence or `fence.sc` of the group (R239). -/
  | fence (slot : Nat) (sc : Bool)
  /-- The barrier instructions (R243). -/
  | barArrive (slot : Nat) (w : BarWord) (contribution : Option Nat) (wait : Bool)
  | barWait (slot : Nat) (w : BarWord)
  | barInval (slot : Nat) (w : BarWord)
  /-- The memory barrier words (R245): the physical address. -/
  | mbarInit (slot : Nat) (pa : Nat) (count : Nat)
  | mbarArrive (slot : Nat) (pa : Nat)
  | mbarInval (slot : Nat) (pa : Nat)
  /-- An exit's number and its lanes with their targets (R40, R42). -/
  | exit (slot num : Nat) (k : ExitKind) (lanes : List (Nat × W64))
  /-- `jset` names the join address (R361). -/
  | jset (slot : Nat) (target : W64)
  | rejoin (slot : Nat) (lanes : W16)
  | spin (slot : Nat) (cycles : Nat)
  | trap (slot : Nat) (imm : Nat)
  | eret (slot : Nat)
  | srw (slot : Nat) (r : CtlReg) (v : W64)
  /-- Eyelet bindings (R262). -/
  | bind (slot : Nat) (n : Nat) (word : W64)
  | unbind (slot : Nat) (n : Nat)
  /-- Copies, streams and batches (R255 to R263). -/
  | copy (slot : Nat) (k : CopyKind) (traffic : Nat)
  | batch (slot : Nat)
  | sbind (slot : Nat) (stream : Nat) (store : Bool) (record : RecWords) (traffic : Nat)
  /-- Queues (R268). -/
  | enq (slot : Nat) (q : Nat) (tok : Token)
  | deq (slot : Nat) (q : Nat) (newest : Bool)
  | notify (slot : Nat) (pa : Nat) (v : W64)
  | qwaited (slot : Nat) (q : Nat)
  /-- Tasks and budgets (R382 to R389). -/
  | spawn (slot : Nat) (q : Nat) (desc : RecWords) (lanes : List (Nat × W64))
  | give (slot : Nat) (ib tb : Nat)
  | jcntInit (slot : Nat) (pa key : Nat) (count : W64)
  | retire (slot : Nat) (keep : Bool) (va : W64)
  | cont (slot : Nat) (v : W64)
  | budAdd (slot : Nat) (a b : W64)
  /-- Residencies (R293 to R298). -/
  | cfgLaunch (slot : Nat) (id : W32) (desc : RecWords) (images : List W64) (prio : Nat)
  | cfgBind (slot : Nat) (a b : W64) (record : RecWords)
  | cfgSignal (slot : Nat) (a : W64)
  | cfgEvict (slot : Nat) (a : W64)
  /-- Matrix commands (R156), a new claim with the physical address of its done word (R168), an enable token for the root
(R169), and the clear of `mchk` (R172). -/
  | matrix (slot : Nat) (cmd : MatCmd)
  | seqCfg (slot : Nat) (image : RecWords) (done : Option Nat)
  | seqGo (slot : Nat)
  | mchk (slot : Nat)
  /-- The tape (R200 to R206). -/
  | tapeOpen (slot : Nat) (base : W64)
  | tapeClose (slot : Nat)
  | tapeRec (slot : Nat) (v : List (Option W32))
  /-- Whether port a was 0, the base, the end of the records, the previous values, the marker, the segments and the records stored. -/
  | tapeRev (slot : Nat) (own : Bool) (base : W64) (finish : Nat) (prevs : PMap W32) (marker : Bool) (used stored : Nat)
  /-- The cursor and the previous value after the pop, and the lowest position read; none where the pop tells of the marker. -/
  | tapePop (slot : Nat) (read : Option (Nat × Nat × W32 × Nat))
  | tapeSeg (slot : Nat) (n : Nat)
  /-- Isolation (R420 to R424). -/
  | keyset (slot : Nat) (k : Nat) (tenant : W16)
  | keydrop (slot : Nat) (k : Nat)
  | tlbinv (slot : Nat) (a : W64)
  | asidKill (slot : Nat) (asid : W16)
  | monCfg (slot : Nat) (a b : W64)
  | monDump (slot : Nat) (a : W64) (pas : List Nat)
  deriving DecidableEq, Repr

/-- The header of a block (R30). -/
structure Header where
  count : Nat
  exits : Nat
  tape : Bool
  pack : Bool
  writes : Nat
  charge : Nat
  kind : Nat
  reserved : Nat
  deriving DecidableEq, Repr

/-- A slot that has fired before a slot that stands before it, with the slots that its instruction takes and its effects. -/
structure Early where
  slot : Nat
  size : Nat
  effects : List Effect
  deriving DecidableEq, Repr

/-- A block in execution by a group: its words, the first slot that has not fired, the values that stand on ports, and the effects
gathered for its commit by the slots before it. -/
structure Flight where
  /-- H, the header address (R29). -/
  head : W64
  hdr : Header
  words : List W32
  slot : Nat := 0
  ports : List PortVal := []
  effects : List Effect := []
  /-- The later slots that have fired already, in slot order (R38). -/
  early : List Early := []
  /-- The group's mask at block start. -/
  mask : W16
  /-- The cycle at which the block started. -/
  start : Nat
  /-- The control registers at block start, by number (R416). -/
  regs : PMap W64 := []
  /-- The wait in which the block stands. -/
  wait : Option WaitKind := none
  /-- The number of the team's last command at the fire of an `mrd` that waits, by slot (R165). -/
  mrds : PMap Nat := []
  /-- Channel slots reserved by pushes: receiving core, channel and sending eyelet (R49). -/
  pushes : List (Nat × Nat × Nat) := []
  /-- The charge taken from IBUD at the fetch (R372). -/
  paid : Nat := 0
  /-- The pages of the translations that the block was fetched under and that its effects keep, by address and size (R231, R422). -/
  pages : List (Nat × Nat) := []
  deriving DecidableEq, Repr

/-! ### Groups -/

/-- The kinds of reconvergence entry (R360). -/
inductive ReconKind where
  | join | joinFree | waiting
  deriving DecidableEq, Repr

/-- A reconvergence entry (R360). `path` is how its lanes enter their block, and `stamp` the order of pushes that it
shares with the call entries (R58). -/
structure ReconEntry where
  kind : ReconKind
  addr : W64
  mask : W16
  arrived : W16 := 0
  count : Nat := 0
  path : EntryPath := .jump
  stamp : Nat := 0
  deriving DecidableEq, Repr

/-- A call entry (R58), with the lanes of its mask that have executed `ret` and wait (R59). -/
structure CallEntry where
  ret : W64
  mask : W16
  returned : W16 := 0
  stamp : Nat := 0
  deriving DecidableEq, Repr

/-- An eyelet's binding (R262). -/
structure Eyelet where
  channel : Nat
  output : Bool
  core : Nat
  tag : W16
  deriving DecidableEq, Repr

/-- Supervisor mode entered by R419: the mask that the running sub-group had on entry. -/
structure SupFrame where
  mask : W16
  deriving DecidableEq, Repr

/-- Where a group stands between blocks. -/
inductive GroupPhase where
  | running
  /-- Committed the pack block and waits for the others (R366). -/
  | gathered
  /-- Committed a `rejoin` block and waits for the others (R369). -/
  | rejoining
  /-- A packed group without a thread until the return (R367). -/
  | parked
  | ended
  deriving DecidableEq, Repr

/-- A group of 16 lanes (R18, R43, R359): registers, masks, stacks, generator states, eyelets, supervisor state, spill
stack and the block in execution. -/
structure Group where
  /-- v registers, the register number times 16 plus the lane. -/
  v : PMap W32 := []
  /-- g registers. -/
  g : PMap W64 := []
  /-- p registers. -/
  p : PMap W16 := []
  /-- Lanes that hold a thread: launched, or packed in. -/
  launched : W16 := 0
  exited : W16 := 0
  /-- The running sub-group. -/
  mask : W16 := 0
  /-- The block that the running sub-group fetches next, and by which path. -/
  pc : W64 := 0
  path : EntryPath := .launch
  recon : List ReconEntry := []
  calls : List CallEntry := []
  stamp : Nat := 0
  /-- Generator states of the 16 lanes (R96). -/
  gens : PMap W32 := []
  eyelets : PMap Eyelet := []
  /-- Replay latches (R48). -/
  latches : PMap Token := []
  /-- Closed batches and the command numbers of members still open, by batch (R258). -/
  batches : Nat := 0
  /-- Pending arrivals: barrier kind and number, with the phase's sequence number (R243). -/
  arrivals : List (Bool × Nat) := []
  /-- The barriers whose completion the next block waits for (R243). -/
  barWait : List (Bool × Nat) := []
  /-- Queues that a `qwait` of the block waits on, with the number of NOTIFY writes that each had when the wait began; it
  outlives an abandoned block (R268, R356). -/
  kept : PMap Nat := []
  sup : Option SupFrame := none
  /-- The block that raised BARRIER_SPILL and makes room when it executes again (R447). -/
  barSpill : Option W64 := none
  epc : W64 := 0
  fltinfo : W64 := 0
  fltaddr : W64 := 0
  ssca : W64 := 0
  sscb : W64 := 0
  /-- Bytes of the spill stack by offset; an unlisted byte is zero. -/
  spill : List Host.Cell := []
  phase : GroupPhase := .running
  /-- Exit targets recorded by a pack or `rejoin` block, by lane (R366, R369). -/
  targets : PMap W64 := []
  /-- The paths of those exits (R31). -/
  paths : PMap EntryPath := []
  /-- Home group of the thread in each lane while packed (R367). -/
  home : PMap Nat := []
  /-- The join address that a pack or `rejoin` block named. -/
  joinAt : Option W64 := none
  /-- The lanes that the group was launched with, kept while it is packed. -/
  seats : W16 := 0
  /-- A `trap` of a pack or `rejoin` block, slot and immediate: the address that its group fetches next is known after the return
  (R366, R419). -/
  trapDue : Option (Nat × Nat) := none
  /-- The wait in which its last block was abandoned (R356). -/
  waited : Option WaitKind := none
  blk : Option Flight := none
  deriving DecidableEq, Repr

/-! ### Teams -/

/-- A controller of the sequencer (R167) with its progress (R169). -/
structure Controller where
  words : RecWords
  /-- Enable tokens received and not yet taken. -/
  enables : Nat := 0
  /-- Running its iterations, and how many it has begun. -/
  active : Bool := false
  begun : Nat := 0
  /-- Enable tokens taken since the parent began its run: the next one belongs to that iteration of the parent. -/
  taken : Nat := 0
  /-- A loop's done tokens by child; a leaf's commands that are not complete. -/
  dones : PMap Nat := []
  outstanding : List Nat := []
  deriving DecidableEq, Repr

/-- A buffer of an operand node (R154, R155): 128 rows of 256 data bytes and of 16 scale bytes, as sparse bytes with zero
for an unlisted one, the full bit, and whether the last enqueued command was a fill. -/
structure MatBuffer where
  data : List Host.Cell := []
  scale : List Host.Cell := []
  full : Bool := false
  filled : Bool := false
  deriving DecidableEq, Repr

/-- A pairing handshake under way (R170): the cycle of the own request, the partner's team, whether it lies east, and the cycle of
its request once that has arrived. -/
structure PairAsk where
  sent : Nat
  partner : Nat
  east : Bool
  other : Option Nat := none
  deriving DecidableEq, Repr

/-- A team's matrix claim and queue (R153 to R173). -/
structure Matrix where
  tiles : Nat := 0
  depthA : Nat := 0
  depthB : Nat := 0
  /-- Tile elements: tile × 16,384 + row × 128 + column. -/
  acc : PMap W32 := []
  bufA : PMap MatBuffer := []
  bufB : PMap MatBuffer := []
  /-- Commands that are not complete, oldest first. -/
  queue : List MatCmd := []
  controllers : List Controller := []
  root : Nat := 0
  /-- Physical address of the done word. -/
  done : Option Nat := none
  /-- The sequencer runs. -/
  busy : Bool := false
  /-- The paired team, and whether it lies east (R170). -/
  pair : Option (Nat × Bool) := none
  ask : Option PairAsk := none
  /-- The west core's B buffers of the paired `mma` under way, and which of its halves have completed (R171). -/
  span : List Nat := []
  westDone : Bool := false
  eastDone : Bool := false
  reruns : Nat := 0
  timeout : Bool := false
  /-- The cycle at which the `mma` that occupies the array completes. -/
  doneAt : Nat := 0
  deriving DecidableEq, Repr

/-- The state of a team's tape (R183). -/
inductive TapeMode where
  | idle | recording | closed | reversing
  deriving DecidableEq, Repr

/-- The last record of the stream that is not a repeat, with the copies that a repeat after it stands for (R189). -/
structure LastRecord where
  chain : Nat
  kind : Nat
  body : List W16
  copies : Nat := 0
  deriving DecidableEq, Repr

/-- A team's tape (R183 to R199). -/
structure Tape where
  policy : Bool := false
  quota : Nat := 0
  mode : TapeMode := .idle
  marker : Bool := false
  used : Nat := 0
  base : W64 := 0
  /-- The end of the stream in the tape buffer, and the position of its first byte; while reversing, the lowest position that has
  been read into the buffer (R193). -/
  buf : List W8 := []
  flushed : Nat := 64
  /-- The position to which the buffer is written out for another team (R193). -/
  servedTo : Nat := 64
  /-- What the tape buffer still holds of the stream's end after its recording, and the position of the first byte (R193, R199). -/
  held : List W8 := []
  heldAt : Nat := 64
  /-- The previous value of each chain (R188), and those that stand in the trailer (R192). -/
  prev : PMap W32 := []
  trailer : PMap W32 := []
  last : Option LastRecord := none
  /-- Records stored and records dropped (R192, R195). -/
  stored : Nat := 0
  /-- The stream came from a tape area by `tape.rev`, so that its records have not been counted (R204, R207). -/
  uncounted : Bool := false
  dropped : Nat := 0
  /-- The end of the stream's records before the marker and the trailer (R196). -/
  finish : Nat := 64
  /-- In reverse: each chain's cursor, with the copies already taken of the repeat that ends there, and the groups that have been
  told of the marker (R196). -/
  cursors : PMap (Nat × Nat) := []
  told : List Nat := []
  /-- A tape header that is still to be written: its first two words (R185). -/
  head : Option (W64 × W64) := none
  /-- Commands whose tape transfers are not complete (R258). -/
  seqs : List Nat := []
  /-- A transfer stands on a fault at this virtual address, since the cycle (R193, R443). -/
  stalled : Option (W64 × Nat) := none
  deriving DecidableEq, Repr

/-- A stream slot (R263, R264). -/
structure Stream where
  running : Bool := false
  store : Bool := false
  record : RecWords := []
  group : Nat := 0
  batch : Nat := 0
  seq : Nat := 0
  sup : Bool := false
  /-- The next element, the tokens sent or taken in the tile, the tiles that have ended, and whether the end-of-tile token is still
  to be sent. Under a codec, the next element of what is sent or stored (R271). -/
  pos : Nat := 0
  tileTok : Nat := 0
  tiles : Nat := 0
  eotDue : Bool := false
  /-- Elements of the next token that have passed their bank units, and what a `mac` stream keeps (R324, R325). A codec load keeps
  every element that it has read. -/
  part : List (Option Nat) := []
  mac : MacRun := {}
  stalled : Option (W64 × Nat) := none
  stallFrom : Option Nat := none
  state : Nat := 0
  code : Nat := 0
  elements : Nat := 0
  /-- Elements of the tile that has not ended, by element index; the tokens that a codec transfer has taken. -/
  pending : PMap Nat := []
  coded : List (List (Option W32)) := []
  deriving DecidableEq, Repr

/-- Where a team's context is (R352, R356, R373). -/
inductive TeamPlace where
  | resident
  /-- Swapped out or pre-empted, or resumed by a `bud.add` and not yet placed: ready or not yet. -/
  | out (ready : Bool)
  /-- Yielded, until a `bud.add` names it. -/
  | yielded
  deriving DecidableEq, Repr

/-- Why a resident team is being taken (R352, R355, R373): its groups finish the blocks that wait on nothing and start no others. A
yield has its cause, the failing group and the shortfall. -/
inductive Taking where
  | victim
  | longWait
  | yield (cause group shortfall : Nat)
  deriving DecidableEq, Repr

/-- A packing of a team (R366 to R369). -/
structure Packing where
  /-- The address of the pack block. -/
  addr : W64
  /-- The groups have been repacked and not yet returned. -/
  open_ : Bool
  /-- The pack block has the tape bit set (R197). -/
  tape : Bool
  deriving DecidableEq, Repr

/-- A team with its context (R18, R350, R352). -/
structure Team where
  id : Nat
  /-- die × 192 + y × 16 + x. -/
  core : Nat
  handle : W32
  vid : Nat
  asid : W16
  /-- Launched from an entry with sup = 1. -/
  sup : Bool
  topup : Bool
  teamid : W32
  /-- The first team of its cluster, its member number and the cluster's width and height (R246). -/
  lead : Nat
  member : Nat
  cw : Nat
  ch : Nat
  /-- Core and virtual id of member 0's team (R241). -/
  leadCore : Nat
  leadVid : Nat
  /-- Units of 16 registers, shared bytes and spill bytes of each group (R344). -/
  k : Nat
  sharedSize : Nat
  spillSize : Nat
  entryPrio : Nat
  prio : Nat
  ibud : Nat
  tbud : Nat
  cont : W64
  waitswap : Nat
  placedAt : Nat
  place : TeamPlace := .resident
  taken : Option Taking := none
  /-- The cycle at which it last became ready, or of its placement (R347), and its slot on the core (R389). -/
  age : Nat := 0
  slot : Nat := 0
  /-- The wait count of R355. -/
  waitCount : Nat := 0
  groups : List Group := []
  shared : List Host.Cell := []
  /-- A keep-0 `retire` recorded at commit: the record's address and the privilege (R386). -/
  retire : Option (W64 × Bool) := none
  /-- A command fault that the next block fetch takes, with its record (R157, R435). -/
  cmdFault : Option Record := none
  copies : List CopyCmd := []
  streams : PMap Stream := []
  /-- Numbers the team's commands (R437). -/
  cmdSeq : Nat := 0
  /-- Batch members that are not complete: group, batch and command number (R258). -/
  members : List (Nat × Nat × Nat) := []
  /-- Batches with a `.strict` length fault: group, batch and status word (R258, R271). -/
  strictFaults : List (Nat × Nat × W64) := []
  matrix : Option Matrix := none
  tape : Tape := {}
  packing : Option Packing := none
  /-- Retired, while other members of its cluster live: it holds its shared memory only (R246). -/
  gone : Bool := false
  deriving DecidableEq, Repr

/-! ### Cores -/

/-- A handler entry (R342), with its frame's full slots. -/
structure Handler where
  valid : Bool := false
  masked : Bool := false
  channel : Nat := 0
  prio : Nat := 0
  frame : Bool := false
  grid : Bool := false
  sup : Bool := false
  slots : Nat := 0
  fbase : Nat := 0
  asid : W16 := 0
  template : Nat := 0
  present : Nat := 0
  /-- The frame's bytes, by offset from its base, and the header fields of the token that filled slot 0 (R346, R350). -/
  bytes : List Host.Cell := []
  first : Option Token := none
  /-- The cycle at which it last became runnable (R345). -/
  age : Option Nat := none
  /-- Teams of the head token already placed by a grid entry (R351). -/
  gridDone : Nat := 0
  /-- The age of a grid entry whose token has placed some of its teams (R345, R351). -/
  gridAge : Nat := 0
  deriving DecidableEq, Repr

/-- An entry of the barrier table (R241), with the groups that have arrived in the phase, their combined contribution, and
what R447 keeps of it. -/
structure BarEntry where
  id : Nat
  cluster : Bool
  scope : Nat
  expected : Nat
  counted : Bool
  arrived : Nat
  phase : Bool
  owner : Nat
  /-- Team and group index of each arrival of the phase, with the register that a `bar.red` writes. -/
  pending : List (Nat × Nat × Option Nat) := []
  op : Nat := 0
  sum : Nat := 0
  lastArrival : Nat := 0
  /-- Pinned by the blocks of the teams and groups that made room for it (R447). -/
  pinned : List (Nat × Nat) := []
  deriving DecidableEq, Repr

/-- A candidate of a core's selector (R347). -/
inductive Candidate where
  | handler (index : Nat)
  | team (id : Nat)
  deriving DecidableEq, Repr

/-- A core (R11): its tables and channels. Its teams stand in the module's list. -/
structure Core where
  handlers : PMap Handler := []
  hsel : W64 := 0
  hent1 : W64 := 0
  /-- Receive buffers of the channels, head first, at most four tokens (R261). -/
  channels : PMap (List Token) := []
  /-- Slots reserved by senders (R49). -/
  reservedSlots : PMap Nat := []
  bars : List BarEntry := []
  spilledBars : List BarEntry := []
  /-- Decisions made since reset, the cycle to which the placement unit is busy, and the handler last chosen at each
  level (R347). -/
  decisions : Nat := 0
  busyTo : Nat := 0
  lastChosen : PMap Nat := []
  blocked : Option (Candidate × Nat) := none
  overdue : List Candidate := []
  /-- The team whose `mma` last took the array (R156). -/
  arrayLast : Nat := 0
  /-- The team whose stream end the tape buffer holds (R193). -/
  tapeTeam : Option Nat := none
  /-- Placements in each of the core's 8 slots, for handles (R389). -/
  slotGen : PMap Nat := []
  deriving DecidableEq, Repr

/-- A capture unit of a die (R424, R452). -/
structure Monitor where
  running : Bool := false
  config : W64 := 0
  min : W64 := 0
  max : W64 := 0
  events : W64 := 0
  bins : PMap W64 := []
  deriving DecidableEq, Repr

/-! ### Stacks -/

/-- The tiles that something descends from, by source, the first and the last of each (R254, R290). A source is a circuit on which
tokens come into a fabric, or 64 + e for what element context e begins by itself: the one sequence of an `iter`, the first token of a
`carry`. -/
abbrev Lineage := PMap (Nat × Nat)

/-- A token within a fabric, with the tiles that it belongs to or descends from, its number and the numbers of the tokens that it
descends from (R315); those numbers are kept only where the fabric holds a `fence`. -/
structure Carried where
  tok : Token
  origin : Lineage
  id : Nat
  anc : List Nat
  deriving DecidableEq, Repr

/-- A receiver of a circuit: an input port of an element context, or the outside end of an external circuit. -/
inductive Inlet where
  | port (elem port : Nat)
  | node (circuit : Nat)
  deriving DecidableEq, Repr

/-- A token on its way along a circuit to one receiver (R277). -/
structure Flying where
  item : Carried
  circuit : Nat
  inlet : Inlet
  deriving DecidableEq, Repr

/-- What a replay of a tile finds again in an element context (R97, R290, R444): all that its operator keeps, as it stood when the tile
began. -/
structure TileMark where
  gens : PMap W32
  reg : Option Token
  regOrigin : Lineage
  phase : W8
  tileMem : PMap W32
  masks : PMap W16
  pack : List (W32 × W32)
  counts : Nat × Nat × Nat
  last : Option W32 × Option W32
  flag : Bool
  held : Lineage
  arrived : Nat
  deriving DecidableEq, Repr

/-- A context of an element (R273): operator, constants, switch table, links, buffers, and the state that its operator
keeps. -/
structure ElemCtx where
  op : Option (Instr × OpWord) := none
  consts : PMap W32 := []
  /-- Circuits of the output ports o0 (0) and o1 (1). -/
  outs : PMap Nat := []
  /-- Input ports: circuit and slot count. -/
  ins : PMap (Nat × Nat) := []
  /-- Receive buffers by port, head first. -/
  bufs : PMap (List Carried) := []
  /-- Generator states of `cvt.sr` by lane (R97). -/
  gens : PMap W32 := []
  /-- The window of the tile memory by word (R273): delay lines of `win` with the valid mask of each token, or fibre B of
  `isect`. -/
  tileMem : PMap W32 := []
  masks : PMap W16 := []
  /-- Pack buffer of `join` and match buffer of `isect`: value and index, oldest first. -/
  pack : List (W32 × W32) := []
  /-- Counters that an operator keeps within a tile or a sequence: `join` numbers its dense tokens (n0); `win` counts the tokens
  of its tile (n0) and the firings of the present one (n1); `isect` counts fibre B (n0), fibre A (n1) and the tokens sent (n2);
  `iter` counts the tokens of its sequence (n0). -/
  n0 : Nat := 0
  n1 : Nat := 0
  n2 : Nat := 0
  /-- The coordinate that came last (R313). -/
  lastA : Option W32 := none
  lastB : Option W32 := none
  /-- Phase of `mbarv.wait` (R316). -/
  phase : W8 := 0
  /-- The register of a `carry`: the token that it has placed last, none after the end of its stream (R309). -/
  reg : Option Token := none
  /-- `isect` holds all of fibre B; `iter` has sent its one sequence. -/
  flag : Bool := false
  /-- The reconfiguration token has passed and the context is free (R291). -/
  passed : Bool := false
  /-- The step from which it has been enabled beside other contexts of its element (R277). -/
  since : Option Nat := none
  /-- Where the token in the register of a `carry` descends from. -/
  regOrigin : Lineage := []
  /-- The tiles of all of its firings, those of what it keeps for the tile in progress, and those of tokens that a fault drain has made
  it discard (R444). -/
  seen : Lineage := []
  held : Lineage := []
  lost : Lineage := []
  /-- What it held when it first fired for a tile, newest first, with the tiles of its firings since (R97, R290). -/
  marks : List (Lineage × TileMark) := []
  /-- The arrivals that its firings have come to, and how many have been performed: a replay repeats none (R316, R444). -/
  arrived : Nat := 0
  performed : Nat := 0
  deriving DecidableEq, Repr

/-- The outside end of an external circuit (R296). -/
inductive Binding where
  | record (words : RecWords) (va : W64)
  | channel (core chan : Nat) (tag : W16)
  | peer (id : W32) (index image : Nat)
  | queue (q : Nat)
  deriving DecidableEq, Repr

/-- What the node at the outside end of a circuit does (R254, R269, R296): a loader; a storer, with the circuit on which it tells of
its tiles (R221); a node that takes requests and answers on circuits; such a circuit's own end; a link port node or the end of a
peer's circuit. -/
inductive NodeRole where
  | loader
  | storer (told : Option Nat)
  | requests (replies : List Nat)
  | reply
  | link
  deriving DecidableEq, Repr

/-- A fault that waits for a RESUME (R440, R442, R444): its record, its sequence number, the node at which it stands (none for an
element), the cycle of the stall (R452), and whether it has been resumed. -/
structure Outstanding where
  record : Record
  seq : Nat
  node : Option Nat
  since : Nat
  resumed : Bool := false
  deriving DecidableEq, Repr

/-- A node's work for a residency (R254, R269, R440). -/
structure AgNode where
  role : NodeRole
  binding : Binding
  /-- The AG node's number (R15). -/
  number : Nat := 0
  /-- The external buffer of an outgoing circuit, head first. -/
  buf : List Carried := []
  /-- Next element; tokens sent in the tile; whether the tile's traffic is paid and its end-of-tile token due. -/
  pos : Nat := 0
  tileTok : Nat := 0
  tileOpen : Bool := false
  eotDue : Bool := false
  /-- A loader's partly filled token (R440), every element that a codec load has read, or what a request has been answered with so
  far. -/
  part : List (Option Nat) := []
  mac : MacRun := {}
  /-- Tiles that have ended. -/
  tile : Nat := 0
  /-- Where each ended tile ended: the next element, and the tokens that a codec storer had taken (R290). -/
  cuts : List (Nat × Nat) := []
  /-- A storer's elements of the current tile by element index, the tokens that they came with, and the tokens that a codec transfer
  has taken. -/
  pending : PMap Nat := []
  pendIds : List Nat := []
  coded : List (List (Option W32)) := []
  /-- The tiles of the tokens that an outgoing circuit's node has taken, newest first, and how many of them, from the first on, have had
  their effect: a replay repeats none (R1, R290). -/
  taken : List Lineage := []
  done : Nat := 0
  /-- The tokens that have come into the fabric from a queue, a peer or a storer, in order, each a tile of its source: a replay sends
  them again. -/
  log : List Token := []
  /-- An end-of-tile that the storer has taken and not yet performed; what it performs after that: 1 the last tile, 2 with an error,
  3 a reconfiguration. A codec loader that has written its status word has 1, or
  2 where it has sent the end with an error. -/
  tileDue : Bool := false
  endDue : Nat := 0
  /-- The data of the end with an error that a storer has taken (R24). -/
  endData : List W32 := []
  /-- A loader that issues no more; a node that has ended; one that has sent or taken its reconfiguration token. -/
  stopped : Bool := false
  ended : Bool := false
  sent : Bool := false
  /-- The cycle of a stall after which nothing has been issued yet (R452). -/
  stallFrom : Option Nat := none
  /-- The load-side fault at which it stands (R440). -/
  fault : Option Outstanding := none
  deriving DecidableEq, Repr

/-- An image in the context slots of a region (R273 to R292). -/
structure Fabric where
  image : Nat
  /-- The physical slots of the logical contexts. -/
  slots : List Nat
  /-- The load is complete; the nodes and elements have started. -/
  loaded : Bool := false
  started : Bool := false
  rows : Nat := 0
  cols : Nat := 0
  /-- Element contexts: context × 256 + row × 32 + column, region-relative. -/
  elems : PMap ElemCtx := []
  /-- Row counters: context × 64 + row × 8 + number. -/
  counters : PMap Nat := []
  extused : Nat := 0
  extout : Nat := 0
  /-- Nodes by external circuit index. -/
  nodes : PMap AgNode := []
  flying : List Flying := []
  nextId : Nat := 0
  /-- Some element runs `fence`. -/
  fenced : Bool := false
  deriving DecidableEq, Repr

/-- The state of a residency (R295). -/
inductive ResState where
  | queued | loading | running | ended
  deriving DecidableEq, Repr

/-- Why a residency drains (R289, R298, R391, R444). After `killed` it ends. -/
inductive DrainCause where
  | displaced | evicted | firings | traffic | fault | killed
  deriving DecidableEq, Repr

/-- What drain-and-switch saves of a residency (R290): the image, the first tile of each source that has not committed, the contexts as
they stood there, and the nodes as the drain left them: where their tiles ended, and what a `mac` stream keeps. -/
structure Saved where
  image : Nat
  starts : PMap Nat
  contexts : PMap ElemCtx
  nodes : PMap AgNode
  deriving DecidableEq, Repr

/-- The header of an image (R281). -/
structure ImageHead where
  rows : Nat
  cols : Nat
  contexts : Nat
  words : Nat
  extused : Nat
  extout : Nat
  deriving DecidableEq, Repr

/-- A configuration residency (R283, R293 to R298). -/
structure Residency where
  id : W32
  stack : Nat
  asid : W16
  sup : Bool
  topup : Bool
  prio : Nat
  fbud : Nat
  tbud : Nat
  images : List W64
  /-- Hold bits still set, by image. -/
  holds : List Bool
  held : Bool
  done : W64
  save : W64
  yq : W64
  state : ResState := .queued
  suspended : Bool := false
  awaitsBudget : Bool := false
  error : Bool := false
  arrivedAt : Nat := 0
  /-- Origin row and column. -/
  orow : Nat := 0
  ocol : Nat := 0
  image : Nat := 0
  fab : Option Fabric := none
  /-- The image that is loaded on standby, or whose load is under way (R291). -/
  next : Option Fabric := none
  /-- Headers of the images that have been loaded: a reload must find the same (R285). -/
  heads : PMap ImageHead := []
  /-- Bindings by image × 64 + circuit index. -/
  bindings : PMap Binding := []
  drain : Option DrainCause := none
  /-- The charge or traffic that did not fit, for the yield record of a drain that a budget has begun (R374, R391). -/
  shortfall : Nat := 0
  /-- `cfg.signal` stop (R297). -/
  stopping : Bool := false
  /-- The store-side faults for which a fault drain waits (R444, R448). -/
  halts : List Outstanding := []
  saved : Option Saved := none
  deriving DecidableEq, Repr

/-- The registers of a bank unit (R321, R322, R325, R330): the owner key and whether it guards the row, OPR, the `mac` stream that
owns the unit, and the bytes of SCALE, THRESH, BCAST and ACC by their offset in the row; an unlisted byte is zero. -/
structure BankRow where
  owner : Nat := 0
  keyed : Bool := false
  op : Nat := 0
  clear : Bool := false
  macBy : Option Streamer := none
  bytes : List Host.Cell := []
  /-- The bits of ACC, by byte offset, that have been stored since the owning stream's tile in progress reached the unit: the store is
  placed at the end of that tile (R327). -/
  late : PMap W8 := []
  deriving DecidableEq, Repr

/-- A pseudo-channel's all-bank state (R328). -/
inductive AllBank where
  | off
  /-- Requested by an agent of the ASID at the cycle. -/
  | waiting (since : Nat) (asid : W16)
  | granted (at_ : Nat)
  | active
  | leaving
  deriving DecidableEq, Repr

/-- A stack (R9, R13, R15). -/
structure Stack where
  /-- Cycles of the base die since its reset (R70, R436). -/
  clk : Nat := 0
  trained : Bool := false
  /-- Its training has failed (R450). -/
  failed : Bool := false
  inService : Bool := false
  residencies : PMap Residency := []
  /-- Residency generations by slot. -/
  gens : PMap Nat := []
  /-- The configuration cache: physical image addresses with their words (R285). -/
  cache : PMap (List W64) := []
  /-- Choices made by each physical element, and the context slot that fired last (R277). -/
  picks : PMap (Nat × Nat) := []
  banks : PMap BankRow := []
  allBank : PMap AllBank := []
  deriving DecidableEq, Repr

/-! ### Links, hub and the whole part -/

/-- A sender into a core channel (R261). -/
inductive Sender where
  | eyelet (team group n : Nat)
  | stream (team slot : Nat)
  | queue (q : Nat)
  | linkPort (stack slot circuit : Nat)
  deriving DecidableEq, Repr

/-- A token on its way to a core channel. -/
structure NetToken where
  core : Nat
  chan : Nat
  sender : Sender
  tok : Token
  deriving DecidableEq, Repr

/-- A store to a bank control row that has its moment next (R323): the physical address, the bytes with the bits of each that keep
what the row holds, the key slot of the page and the agent that stores. -/
structure RowStore where
  pa : Nat
  bytes : List W8
  keeps : List W8
  key : Nat
  who : Streamer
  deriving DecidableEq, Repr

/-- A die (R9, R449, R452). -/
structure Die where
  /-- Cycles of the die since reset. -/
  clk : Nat := 0
  calibrated : Bool := false
  /-- Samples taken of the sources that are sampled every 1,024 cycles (R452). -/
  samples : Nat := 0
  monitors : PMap Monitor := []
  /-- Single-bit errors that its receivers and its memories have corrected (R25, R446). -/
  corrected : Nat := 0
  deriving DecidableEq, Repr

/-- A Seam port (R228, R428). -/
structure SeamPort where
  up : Bool := false
  /-- Flits enciphered under the present keys, and how many keys have been agreed. -/
  flits : Nat := 0
  keys : Nat := 0
  /-- Binding table: the index with the sender's ASID and the local one. -/
  bindings : PMap (W16 × W16) := []
  /-- Remote enqueues held at the link, oldest first (R272). -/
  held : List RemoteEnqueue := []
  deriving DecidableEq, Repr

/-- The phases of the part's service (R28, R429, R449, R450). -/
inductive Phase where
  /-- Reset: the root of trust has not yet checked the image. -/
  | reset
  /-- Only the mailbox is served. -/
  | mailboxOnly
  | bringUp
  /-- Early service, with whether the host's request for full service has been taken. -/
  | early (requested : Bool)
  | full
  /-- Stopped by a thermal trip. -/
  | stopped
  deriving DecidableEq, Repr

/-- An event record of R451: event, die, the management controller's cycle and the detail. -/
structure HostEvent where
  event : Nat
  die : Nat
  cycle : Nat
  detail : Nat
  deriving DecidableEq, Repr

/-- The 64-byte record of an event, by bit place (R451). -/
def HostEvent.record (e : HostEvent) : BitVec 512 :=
  BitVec.ofNat 512 (e.event % 2 ^ 8 + e.die % 4 * 2 ^ 8 + e.cycle % 2 ^ 64 * 2 ^ 64 + e.detail % 2 ^ 64 * 2 ^ 128)

/-- The ring in host memory to which events are posted: its first address, its size in records, the place of the next one, and the records
that stand in it, by address (R451). -/
structure EventRing where
  base : W64
  records : Nat
  next : Nat := 0
  written : PMap (BitVec 512) := []
  deriving DecidableEq, Repr

/-- The ring with an event posted to its next place, and the first place again after the last. -/
def EventRing.post (R : EventRing) (e : HostEvent) : EventRing :=
  { R with
    next := (R.next + 1) % R.records
    written := if R.records = 0 then R.written else PMap.insert R.written (R.base.toNat + 64 * R.next) e.record }

/-- The checks of R343 on a written handler entry, one for each of its cases: a reserved bit, a frame without slots, a frame beyond
384 KiB or over another, a channel that is bound. -/
inductive EntryCheck where
  | reserved | slots | extent | channel
  deriving DecidableEq, Repr

/-- What a request of the host is answered with. -/
inductive Reply where
  /-- An unsupported request (R425). -/
  | unsupported
  /-- A CXL.mem request completed with poison (R426). -/
  | poison
  | data (bytes : List W8)
  | token (data : List W32)
  /-- A write is complete. -/
  | done
  /-- A mailbox request refused, with the failed check (R343). -/
  | refused (check : EntryCheck)
  /-- A report with its signature (R430). -/
  | report (bits : BitVec 1216) (signature : BitVec 768)
  /-- A remote request that has no binding, or whose translation faults (R428). -/
  | remote (code : FaultCode)
  deriving DecidableEq, Repr

/-- The hub die: service phase, clock, the running image, the event ring, the answers to the host, the host functions and the
Seam ports (R16, R425 to R430, R449 to R451). -/
structure Hub where
  phase : Phase := .reset
  mhz : Nat := 700
  /-- The management controller's cycle count, and the count at its next sample. -/
  clk : Nat := 0
  sampleAt : Nat := 0
  /-- The die of which a junction has reached 115 °C, until the trip (R28). -/
  hot : Option Nat := none
  image : List W8 := []
  /-- Full service is ready: event 0x03 has been posted. -/
  ready : Bool := false
  ring : Option EventRing := none
  /-- Events posted, oldest first. -/
  posted : List HostEvent := []
  /-- Answers to the host's requests, newest first. -/
  replies : List Reply := []
  /-- ASIDs of the requesting functions, and the windows of virtual functions: base and count. -/
  functions : PMap W16 := []
  windows : PMap (Nat × Nat) := []
  seam : PMap SeamPort := []
  swapAreas : PMap Nat := []
  deriving DecidableEq, Repr

/-- A location that can hold an uncorrectable error (R446): a byte of main memory or of a scratchpad, of a team's shared
memory or a group's spill stack, a register of a group (0 v, 1 g, 2 p), a tile-memory word of an element's context, or a
word of a stack's configuration cache. -/
inductive Spot where
  | memory (a : Nat)
  | shared (team offset : Nat)
  | spill (team group offset : Nat)
  | register (team group kind n : Nat)
  | tile (stack slot elem word : Nat)
  | cache (stack pa : Nat)
  deriving DecidableEq, Repr

/-- What the next step does: a device event, or the next act of the group of a team. -/
inductive Move where
  | event (i : Instr)
  | thread (team group : Nat)
  /-- The fire of a later slot of the group's block, whose operands stand. -/
  | ahead (team group slot : Nat)
  /-- The next act of an element's operator: stack, residency slot and element context. -/
  | element (stack slot elem : Nat)
  deriving DecidableEq, Repr

/-- The state of the part. `tick`, `agenda`, `cur` and `curElem` are the model's own: the number of the step, which the open
values of `Config` are applied to; the moves that come next before any choice; the group and the fabric element for
which an instruction acts. -/
structure State where
  tick : Nat := 0
  agenda : List Move := []
  cur : Option (Nat × Nat) := none
  /-- Stack, residency slot and element context. -/
  curElem : Option (Nat × Nat × Nat) := none
  /-- Main memory and the scratchpads (R212): main memory by its place under the map of R213. -/
  mem : List Host.Cell := []
  /-- The key generation, and the data unit of 64 bytes by physical address, under which a unit of main memory was enciphered, by unit
  (R412). -/
  memTag : PMap (Nat × Nat) := []
  /-- Locations that hold an uncorrectable error (R446). -/
  poison : List Spot := []
  /-- Key slots that are not free, with the number of keys drawn (R410). -/
  keys : PMap KeySlot := []
  draws : Nat := 0
  /-- Base of the ASID table (R405). -/
  asidBase : Option Nat := none
  /-- Cached ASID entries and translations (R409). -/
  asidCache : PMap AsidEntry := []
  tlb : List TlbEntry := []
  /-- ASIDs that a teardown is running for (R423). -/
  dying : List W16 := []
  /-- Fault records written for each ASID (R438). -/
  faultSeq : PMap Nat := []
  queues : PMap Queue := []
  cores : PMap Core := []
  /-- Teams by number of first placement. -/
  teams : PMap Team := []
  nextTeam : Nat := 0
  /-- Tokens on their way to core channels, oldest first. -/
  net : List NetToken := []
  hbmStacks : PMap Stack := []
  rowStores : List RowStore := []
  dies : PMap Die := []
  hub : Hub := {}
  deriving DecidableEq, Repr

/-! ### Reset -/

/-- The part right after reset (R5, R410, R429): no die runs and the root of trust is about to check the image; slot 0 is
bound to tenant 0. -/
def State.reset : State := { keys := [(0, .bound 0 1)], draws := 1 }

end Sys2Proof.Machine
end

