-- ==== Sys2Proof/Machine/Memory.lean ====
section
/-! DEFINITION. The physical address map, the bytes of main memory and of the scratchpads under their key generations, and
the canonical form in which they are listed. -/
namespace Sys2Proof.Machine

/-- The kinds of window of the physical address map (R212). -/
inductive Window where
  | hbm
  | controlRow (stack pc bank offset : Nat)
  | scratchpad (die offset : Nat)
  | queue (q offset : Nat)
  | notify (stack node offset : Nat)
  | mailbox (offset : Nat)
  | secondTier (port offset : Nat)
  | unmapped
  deriving DecidableEq, Repr

/-- The window of a physical address (R212). -/
def windowOf (pa : Nat) : Window :=
  if pa < 0x10000000000 then .hbm
  else if pa < 0x10001000000 then
    let x := pa - 0x10000000000
    .controlRow (x / 2 ^ 20) (x / 2 ^ 14 % 64) (x / 2 ^ 10 % 16) (x % 2 ^ 10)
  else if 0x10100000000 ≤ pa ∧ pa < 0x10140000000 ∧ (pa - 0x10100000000) % 0x10000000 < 0xC000000 then
    .scratchpad ((pa - 0x10100000000) / 0x10000000) ((pa - 0x10100000000) % 0x10000000)
  else if 0x10200000000 ≤ pa ∧ pa < 0x10220000000 then
    .queue ((pa - 0x10200000000) / 4096) ((pa - 0x10200000000) % 4096)
  else if 0x10300000000 ≤ pa ∧ pa < 0x10300400000 then
    .notify ((pa - 0x10300000000) / 2 ^ 18) ((pa - 0x10300000000) / 4096 % 64) ((pa - 0x10300000000) % 4096)
  else if 0x10400000000 ≤ pa ∧ pa < 0x10400010000 then .mailbox (pa - 0x10400000000)
  else if 0x8000000000000 ≤ pa ∧ pa < 0x10000000000000 then
    let p := (pa - 0x8000000000000) / 0x1000000000000
    let o := (pa - 0x8000000000000) % 0x1000000000000
    if o < 64 * Config.secondTierBytes p then .secondTier p o else .unmapped
  else .unmapped

/-- The byte that an unlisted address reads as: zero in the scratchpads when bring-up ends; main memory states none
(R209). -/
def Memory.unlisted (a : Nat) : Option W8 :=
  match windowOf a with
  | .scratchpad _ _ => some 0
  | _ => none

/-- Addresses strictly rising, each above the bound, and no byte equal to the unlisted one. -/
def Memory.wfAbove : Option Nat → List Host.Cell → Bool
  | _, [] => true
  | lo, (a, b) :: rest =>
    (match lo with | none => true | some x => decide (x < a)) && decide (Memory.unlisted a ≠ some b)
      && Memory.wfAbove (some a) rest

/-- The canonical form of memory. -/
def Memory.wf (m : List Host.Cell) : Bool := Memory.wfAbove none m

/-- The byte at an address: the listed one, or the unlisted one. -/
def Memory.read (m : List Host.Cell) (a : Nat) : Option W8 :=
  match PMap.get? m a with
  | some b => some b
  | none => Memory.unlisted a

/-- The memory with a byte written; a byte equal to the unlisted one is not listed. -/
def Memory.write (m : List Host.Cell) (a : Nat) (b : W8) : List Host.Cell :=
  if Memory.unlisted a = some b then PMap.erase m a else PMap.insert m a b

/-- A place in HBM (R213). -/
structure Place where
  stack : Nat
  pc : Nat
  bank : Nat
  granule : Nat
  row : Nat
  byte : Nat
  deriving DecidableEq, Repr

/-- The place of an HBM address under the full map (R213). -/
def placeOf (p : Nat) : Place where
  byte := bitsOf p 0 8
  stack := bitsOf p 8 4 ^^^ bitsOf p 24 4
  pc := bitsOf p 12 6 ^^^ bitsOf p 28 6
  bank := bitsOf p 18 4 ^^^ bitsOf p 34 4
  granule := bitsOf p 22 2
  row := bitsOf p 24 16

/-- The place of an HBM address in early service (R449). -/
def placeOfEarly (p : Nat) : Place where
  byte := bitsOf p 0 8
  stack := bitsOf p 8 2 ^^^ bitsOf p 24 2
  pc := bitsOf p 10 6 ^^^ bitsOf p 26 6
  bank := bitsOf p 16 4 ^^^ bitsOf p 32 4
  granule := bitsOf p 20 2
  row := bitsOf p 22 16

/-- The address of a place under the full map: by it main memory is listed. -/
def addressOf (x : Place) : Nat :=
  x.byte + 2 ^ 8 * (x.stack ^^^ bitsOf x.row 0 4) + 2 ^ 12 * (x.pc ^^^ bitsOf x.row 4 6)
    + 2 ^ 18 * (x.bank ^^^ bitsOf x.row 10 4) + 2 ^ 22 * x.granule + 2 ^ 24 * x.row

/-- Whether the map of full service is in effect (R449, R450). -/
def State.fullMap (s : State) : Bool := s.hub.phase == .full

/-- The address under which a byte is listed, for a physical address of main memory or of a scratchpad that the present map
holds (R212, R449). -/
def State.storageAddr (s : State) (pa : Nat) : Option Nat :=
  match windowOf pa with
  | .hbm =>
    if s.fullMap then some pa
    else if pa < 0x4000000000 then some (addressOf (placeOfEarly pa)) else none
  | .scratchpad d _ => if s.fullMap ∨ d = 0 then some pa else none
  | .secondTier _ _ => if s.fullMap then some pa else none
  | _ => none

/-- The generation of the keys bound in a slot (R410). -/
def State.keyGen (s : State) (k : Nat) : Option Nat :=
  match PMap.get? s.keys k with
  | some (.bound _ g) => some g
  | _ => none

/-- Whether a listed address belongs to main memory, which is enciphered (R412). -/
def isMain (a : Nat) : Bool :=
  match windowOf a with
  | .scratchpad _ _ => false
  | _ => true

/-- The data unit of 64 bytes in which an address lies (R412). -/
def unitOf (a : Nat) : Nat := a / 64

/-- A byte of a data unit as it was enciphered, under keys of the generation and at the physical address of the unit (R209). -/
def enciphered (mem : List Host.Cell) (a gen unit : Nat) : W8 :=
  PMap.getD mem a (Config.powerOnByte gen (64 * unit + a % 64))

/-- The byte of main memory that a read through keys of the generation returns (R209, R412): a unit that no store has written since power-on
holds no stated bytes, and one that was enciphered under other keys or at another address reads as a decipherment of all of it. -/
def State.mainByte (s : State) (gen pa a : Nat) : W8 :=
  match PMap.get? s.memTag (unitOf a) with
  | none => enciphered s.mem a gen (unitOf pa)
  | some (g, u) =>
    if g = gen ∧ u = unitOf pa then enciphered s.mem a g u
    else Config.decipher g u gen (unitOf pa) ((List.range 64).map fun i => enciphered s.mem (64 * unitOf a + i) g u) (a % 64)

/-- The byte that a read through keys of the generation returns at a physical address (R209, R412). -/
def State.readByte (s : State) (gen pa : Nat) : Option W8 :=
  match s.storageAddr pa with
  | none => none
  | some a => if isMain a then some (s.mainByte gen pa a) else Memory.read s.mem a

/-- Bytes listed from an address on. -/
def Memory.writeAll (m : List Host.Cell) (a : Nat) : List W8 → List Host.Cell
  | [] => m
  | b :: rest => Memory.writeAll (Memory.write m a b) (a + 1) rest

/-- Memory for a write through keys of the generation (R412): a data unit that stands enciphered under other keys or at another address is
enciphered anew with the bytes that a read through these keys finds. -/
def State.unitFor (s : State) (gen pa a : Nat) : List Host.Cell :=
  match PMap.get? s.memTag (unitOf a) with
  | none => s.mem
  | some x =>
    if x = (gen, unitOf pa) then s.mem
    else Memory.writeAll s.mem (64 * unitOf a) ((List.range 64).map fun i => s.mainByte gen (64 * unitOf pa + i) (64 * unitOf a + i))

/-- The state with a byte written through keys of the generation; the write mends an uncorrectable error there (R446). -/
def State.writeByte (s : State) (gen pa : Nat) (b : W8) : State :=
  match s.storageAddr pa with
  | none => s
  | some a =>
    { s with
      mem := Memory.write (if isMain a then s.unitFor gen pa a else s.mem) a b
      memTag := if isMain a then PMap.insert s.memTag (unitOf a) (gen, unitOf pa) else s.memTag
      poison := s.poison.filter (· != .memory a) }

/-- Whether a byte in a range of physical addresses holds an uncorrectable error (R446). -/
def State.spoiled (s : State) (pa n : Nat) : Bool :=
  s.poison.any fun
    | .memory a => (List.range n).any fun i => s.storageAddr (pa + i) == some a
    | _ => false

/-- Bytes from a physical address on, lowest address first; zero where nothing is mapped. -/
def State.readBytes (s : State) (gen pa n : Nat) : List W8 :=
  (List.range n).map fun i => (s.readByte gen (pa + i)).getD 0

/-- The number that bytes hold, the first lowest (R4). -/
def natOfBytes : List W8 → Nat
  | [] => 0
  | b :: rest => b.toNat + 256 * natOfBytes rest

/-- The lowest `n` bytes of a number, the first lowest (R4). -/
def bytesOfNat : Nat → Nat → List W8
  | 0, _ => []
  | n + 1, x => BitVec.ofNat 8 x :: bytesOfNat n (x / 256)

/-- A little-endian word of `n` bytes. -/
def State.readNat (s : State) (gen pa n : Nat) : Nat := natOfBytes (s.readBytes gen pa n)

/-- The state with bytes written from a physical address on. -/
def State.writeBytes (s : State) (gen pa : Nat) : List W8 → State
  | [] => s
  | b :: rest => State.writeBytes (s.writeByte gen pa b) gen (pa + 1) rest

/-- The state with a little-endian word written. -/
def State.writeNat (s : State) (gen pa n x : Nat) : State := s.writeBytes gen pa (bytesOfNat n x)

/-- 64-bit words from a physical address on, lowest first. -/
def State.readWords (s : State) (gen pa n : Nat) : List W64 :=
  (List.range n).map fun i => BitVec.ofNat 64 (s.readNat gen (pa + 8 * i) 8)

/-- A bit field of a list of 64-bit words, lowest word first. -/
def fieldOf (ws : List W64) (lo n : Nat) : Nat :=
  bitsOf (ws.foldr (fun w acc => w.toNat + 2 ^ 64 * acc) 0) lo n

/-! ### Core SRAM -/

/-- Bytes of an SRAM whose unlisted bytes are zero (R209). -/
def sramRead (m : List Host.Cell) (a n : Nat) : Nat :=
  natOfBytes ((List.range n).map fun i => PMap.getD m (a + i) 0)

/-- An SRAM with bytes written, lowest address first. -/
def sramWriteBytes (m : List Host.Cell) (a : Nat) : List W8 → List Host.Cell
  | [] => m
  | b :: rest => sramWriteBytes (PMap.set m 0 a b) (a + 1) rest

/-- An SRAM with a little-endian word written. -/
def sramWrite (m : List Host.Cell) (a n x : Nat) : List Host.Cell := sramWriteBytes m a (bytesOfNat n x)

end Sys2Proof.Machine
end

