-- ==== Sys2Proof/Machine/Translate.lean ====
section
/-! DEFINITION. Translation of virtual addresses (R405 to R411): the ASID entry, the walk, the cached translations, and the
checks of permission, privilege, window and key. -/
namespace Sys2Proof.Machine

/-- What an access needs of its page (R407). -/
inductive Perm where
  | r | w | x | rw
  deriving DecidableEq, Repr

/-- A fault of a translation: the code and, for PAGE, the level (R408). -/
structure XlatFault where
  code : FaultCode
  level : Nat := 0
  deriving DecidableEq, Repr

/-- A translated address: the physical address, the key slot of the page and the generation of its keys. -/
structure Phys where
  pa : Nat
  key : Nat
  gen : Nat
  deriving DecidableEq, Repr

/-- The generation under which walks read tables: that of key slot 0 (R405). -/
def State.rootGen (s : State) : Nat := (s.keyGen 0).getD 0

/-- The ASID entry in the table (R405); a table that the platform has not placed holds no entry in use. An entry with a
reserved bit set is malformed and counts as not valid. -/
def State.asidEntryInTable (s : State) (asid : W16) : AsidEntry :=
  match s.asidBase with
  | none => { valid := false, state := .free, tenant := 0, root := 0, tvec := 0, yq := 0, fq := 0, killmb := 0 }
  | some base =>
    let ws := s.readWords s.rootGen (base + 64 * asid.toNat) 8
    let f := fieldOf ws
    { valid := f 0 1 = 1 ∧ f 3 13 = 0 ∧ f 120 8 = 0 ∧ f 184 8 = 0 ∧ f 248 8 = 0 ∧ f 312 200 = 0
      state := match f 1 2 with | 0 => .free | 1 => .live | 2 => .dying | _ => .reserved
      tenant := BitVec.ofNat 16 (f 16 16)
      root := f 32 32 * 2 ^ 20
      tvec := BitVec.ofNat 64 (f 64 56)
      yq := BitVec.ofNat 64 (f 128 56)
      fq := BitVec.ofNat 64 (f 192 56)
      killmb := BitVec.ofNat 64 (f 256 56) }

/-- The ASID entry as a walk finds it: cached, or in the table (R409). -/
def State.asidEntry (s : State) (asid : W16) : AsidEntry :=
  match PMap.get? s.asidCache asid.toNat with
  | some e => e
  | none => s.asidEntryInTable asid

/-- The tenant of an ASID (R405). -/
def State.tenantOf (s : State) (asid : W16) : W16 := (s.asidEntry asid).tenant

/-- The index of a virtual address in the table of a level (R406). -/
def levelIndex (va level : Nat) : Nat :=
  match level with
  | 3 => bitsOf va 39 17
  | 2 => bitsOf va 30 9
  | 1 => bitsOf va 21 9
  | _ => bitsOf va 16 5

/-- The size of the page that a leaf of a level with a size field maps (R406, R407). -/
def leafSize (level size : Nat) : Nat :=
  match level with
  | 2 => 2 ^ 30
  | 1 => if size = 1 then 2 ^ 26 else 2 ^ 21
  | _ => 2 ^ 16

/-- The alignment of the table that an entry of a level names (R406). -/
def nextTableAlign (level : Nat) : Nat := if level = 1 then 256 else 4096

/-- The windows outside which the key field is treated as zero (R407). -/
def keyed (pa : Nat) : Bool :=
  match windowOf pa with
  | .hbm | .secondTier _ _ | .controlRow _ _ _ _ => true
  | _ => false

/-- The walk from a level on, at a table (R406, R407): a cached translation or a PAGE fault with its level; a table outside the
HBM that the present map holds faults (R408, R449). -/
def State.walkFrom (s : State) (asid : W16) (va : Nat) : Nat → Nat → Nat → Except XlatFault TlbEntry
  | 0, level, _ => .error ⟨.page, level⟩
  | fuel + 1, level, table =>
    let entry := table + 8 * levelIndex va level
    if windowOf entry ≠ .hbm then .error ⟨.page, level + 1⟩
    else if s.storageAddr entry = none then .error ⟨.access, 0⟩
    else
      let e := s.readNat s.rootGen entry 8
      if bitsOf e 0 1 = 0 then .error ⟨.page, level⟩
      else if bitsOf e 1 1 = 0 then
        let next := bitsOf e 8 44 * 256
        if level = 0 ∨ bitsOf e 2 6 ≠ 0 ∨ bitsOf e 52 12 ≠ 0 ∨ next % nextTableAlign level ≠ 0
            ∨ windowOf next ≠ .hbm then .error ⟨.page, level⟩
        else s.walkFrom asid va fuel (level - 1) next
      else
        let size := bitsOf e 6 2
        let bytes := leafSize level size
        let pa := bitsOf e 20 36 * 2 ^ 16
        if level = 3 ∨ bitsOf e 56 8 ≠ 0 ∨ 1 < size ∨ (size = 1 ∧ level ≠ 1) ∨ pa % bytes ≠ 0 then
          .error ⟨.page, level⟩
        else
          .ok { asid := asid, va := va / bytes * bytes, size := bytes, pa := pa
                r := bitsOf e 2 1 = 1, w := bitsOf e 3 1 = 1, x := bitsOf e 4 1 = 1, s := bitsOf e 5 1 = 1
                key := if keyed pa then bitsOf e 8 12 else 0 }

/-- The walk of a translation (R406, R408). -/
def State.walk (s : State) (asid : W16) (va : Nat) : Except XlatFault TlbEntry :=
  let e := s.asidEntry asid
  if e.valid = false ∨ e.state = .free ∨ e.state = .reserved then .error ⟨.page, 4⟩
  else if windowOf e.root ≠ .hbm then .error ⟨.page, 4⟩
  else s.walkFrom asid va 4 3 e.root

/-- A cached translation that covers an address (R409). -/
def State.cached (s : State) (asid : W16) (va : Nat) : Option TlbEntry :=
  s.tlb.find? fun e => e.asid = asid ∧ e.va ≤ va ∧ va < e.va + e.size

/-- Whether the page grants what the access needs. -/
def TlbEntry.grants (e : TlbEntry) : Perm → Bool
  | .r => e.r
  | .w => e.w
  | .x => e.x
  | .rw => e.r && e.w

/-- Translation of an access (R408, R411): PAGE, then ACCESS for permission, privilege or a window that the access does not
reach, then KEY. A translation under a dying ASID faults (R423). -/
def State.translate (s : State) (asid : W16) (sup : Bool) (need : Perm) (reach : Window → Bool) (va : W64) :
    Except XlatFault Phys :=
  if (s.asidEntry asid).state = .dying then .error ⟨.page, 4⟩
  else if va.toNat / 2 ^ 56 ≠ 0 then .error ⟨.access, 0⟩
  else
    let found : Except XlatFault TlbEntry := match s.cached asid va.toNat with
      | some e => .ok e
      | none => s.walk asid va.toNat
    match found with
    | .error f => .error f
    | .ok e =>
      let pa := e.pa + (va.toNat - e.va)
      let mapped := match windowOf pa with
        | .hbm | .scratchpad _ _ | .secondTier _ _ => (s.storageAddr pa).isSome
        | _ => true
      if e.grants need = false ∨ (e.s = true ∧ sup = false) ∨ reach (windowOf pa) = false ∨ mapped = false then
        .error ⟨.access, 0⟩
      else if keyed pa = false then .ok ⟨pa, 0, 0⟩
      else
        let tenant := s.tenantOf asid
        match PMap.get? s.keys e.key with
        | some (.bound t g) =>
          if t ≠ tenant ∨ (e.key = 0 ∧ tenant ≠ 0) then .error ⟨.key, 0⟩ else .ok ⟨pa, e.key, g⟩
        | _ => .error ⟨.key, 0⟩

/-- Accesses that reach scratchpad only (R214). -/
def Window.isScratchpad : Window → Bool
  | .scratchpad _ _ => true
  | _ => false

/-- Accesses that reach queue windows only (R214). -/
def Window.isQueue : Window → Bool
  | .queue _ _ => true
  | _ => false

/-- Windows that copies and streams reach on their source side (R214): main memory, scratchpad and control rows. -/
def Window.isData : Window → Bool
  | .hbm | .secondTier _ _ | .scratchpad _ _ | .controlRow _ _ _ _ => true
  | _ => false

/-- Main memory. -/
def Window.isMain : Window → Bool
  | .hbm | .secondTier _ _ => true
  | _ => false

/-- Main memory and scratchpad. -/
def Window.isStore : Window → Bool
  | .hbm | .secondTier _ _ | .scratchpad _ _ => true
  | _ => false

end Sys2Proof.Machine
end

