-- ==== Sys2Proof/Machine/Ops.lean ====
section
/-! DEFINITION. The named operations over the state that the meanings share: access to teams, groups, cores and queues, the
queue engine and its records, taking a fault or a trap (R435, R419) and the return from one, and the firing of an
instruction (R38, R39). -/
namespace Sys2Proof.Machine

/-- The map with the entry under a key changed; the same map where the key is not listed. -/
def PMap.update {α : Type} (m : PMap α) (k : Nat) (f : α → α) : PMap α :=
  match PMap.get? m k with
  | some x => PMap.insert m k (f x)
  | none => m

/-! ### Cores and dies -/

/-- The die of a core, whose number is die × 192 + y × 16 + x (R10). -/
def dieOf (core : Nat) : Nat := core / 192

/-- COREID of a core: x in [3:0], y in [7:4] (R415). -/
def coreIdOf (core : Nat) : Nat := core % 16 + 16 * (core % 192 / 16)

/-- The core that the dest form of R249 names: x [3:0], y [7:4], die [9:8]; none for a row above 11. -/
def coreOfDest (d : Nat) : Option Nat :=
  if 11 < bitsOf d 4 4 then none else some (192 * bitsOf d 8 2 + 16 * bitsOf d 4 4 + bitsOf d 0 4)

/-- The dest form of a core. -/
def destOfCore (core : Nat) : Nat := coreIdOf core + 256 * dieOf core

def State.die (s : State) (d : Nat) : Die := PMap.getD s.dies d {}

def State.modDie (s : State) (d : Nat) (f : Die → Die) : State :=
  { s with dies := PMap.set s.dies {} d (f (s.die d)) }

/-- The cycle count of a die. -/
def State.clk (s : State) (d : Nat) : Nat := (s.die d).clk

def State.core (s : State) (c : Nat) : Core := PMap.getD s.cores c {}

def State.modCore (s : State) (c : Nat) (f : Core → Core) : State :=
  { s with cores := PMap.set s.cores {} c (f (s.core c)) }

def State.stack (s : State) (n : Nat) : Stack := PMap.getD s.hbmStacks n {}

def State.modStack (s : State) (n : Nat) (f : Stack → Stack) : State :=
  { s with hbmStacks := PMap.set s.hbmStacks {} n (f (s.stack n)) }

/-! ### Teams, groups and blocks in execution -/

def State.team? (s : State) (t : Nat) : Option Team := PMap.get? s.teams t

def State.modTeam (s : State) (t : Nat) (f : Team → Team) : State := { s with teams := PMap.update s.teams t f }

def State.modGroup (s : State) (t g : Nat) (f : Group → Group) : State :=
  s.modTeam t fun T => { T with groups := modifyAt T.groups g f }

def State.group? (s : State) (t g : Nat) : Option Group := (s.team? t).bind fun T => T.groups[g]?

def State.modFlight (s : State) (t g : Nat) (f : Flight → Flight) : State :=
  s.modGroup t g fun G => { G with blk := G.blk.map f }

/-- What an instruction fires in: its team, group and block, with the node of its slot. -/
structure Ctx where
  t : Nat
  g : Nat
  team : Team
  group : Group
  blk : Flight
  node : Node
  deriving DecidableEq, Repr

/-- The node that the slot of a block in execution holds. A block starts only when each of its slots decodes (R32), so the
node without targets stands for no case that a run meets. -/
def Flight.node (F : Flight) : Node :=
  match decodeSlot (F.words.getD F.slot 0) F.words[F.slot + 1]? with
  | .ok n => n
  | .error _ => { instr := .nop, t0 := none, t1 := none, guard := .always }

/-- The context of the group that acts. -/
def State.ctx? (s : State) : Option Ctx :=
  match s.cur with
  | none => none
  | some (t, g) =>
    match s.team? t with
    | none => none
    | some T =>
      match T.groups[g]? with
      | none => none
      | some G =>
        match G.blk with
        | none => none
        | some F => some { t := t, g := g, team := T, group := G, blk := F, node := F.node }

/-- The slots that the slot's instruction takes: two with an extension word (R34). -/
def Ctx.size (c : Ctx) : Nat :=
  if isExtended ((c.blk.words.getD c.blk.slot 0).toNat / 2 ^ 23) then 2 else 1

/-- The die of the acting group. -/
def Ctx.die (c : Ctx) : Nat := dieOf c.team.core

/-- Whether the group acts at supervisor privilege (R404). -/
def Ctx.sup (c : Ctx) : Bool := c.team.sup || c.group.sup.isSome

/-! ### Queues and the queue engine -/

def State.queue (s : State) (q : Nat) : Queue := PMap.getD s.queues q {}

def State.modQueue (s : State) (q : Nat) (f : Queue → Queue) : State :=
  { s with queues := PMap.set s.queues {} q (f (s.queue q)) }

/-- The number of entries that the queue can hold (R266). -/
def Queue.size (Q : Queue) : Nat := 16 * 2 ^ Q.depthLog

/-- DEPTH: entries present and not reserved (R265). -/
def Queue.depth (Q : Queue) : Nat := (Q.entries.filter fun e => e.held.isNone).length

/-- Entries that can still be enqueued; reserved entries keep their place. -/
def Queue.room (Q : Queue) : Nat := Q.size - Q.entries.length

/-- Whether `n` tokens can be enqueued (R268, R438). -/
def Queue.takes (Q : Queue) (n : Nat) : Bool := Q.enable && decide (n ≤ Q.room)

/-- The queue with a token enqueued at a cycle. -/
def Queue.push (Q : Queue) (cycle : Nat) (tok : Token) : Queue :=
  { Q with entries := Q.entries ++ [⟨tok, none, cycle⟩] }

/-- STATUS (R266). -/
def Queue.status (Q : Queue) : W64 :=
  BitVec.ofNat 64 ((if Q.enable then 1 else 0) + (if Q.emptyRead then 2 else 0)
    + (if Q.depth = Q.size then 4 else 0) + (if Q.lost then 8 else 0))

/-- The cycle count by which the queue engine times a queue: that of the die of the receiving core (R452). -/
def Queue.cycle (Q : Queue) (s : State) : Nat := s.clk (dieOf Q.core)

/-- The number of a token kind (R24). -/
def kindNumber : TokKind → Nat
  | .data => 0 | .endOfTile => 1 | .endOfStream => 2 | .endOfStreamError => 3 | .config => 4 | .reconfig => 5
  | .faultStall => 6

/-- A number of 32-bit words, the first of them lowest. -/
def natOfWords (ws : List W32) : Nat := ws.foldr (fun w acc => w.toNat + 2 ^ 32 * acc) 0

/-- The bits [557:528] of a token: kind, context tag, channel and tag (R23). -/
def tokenHead (tok : Token) : BitVec 30 :=
  BitVec.ofNat 30 (kindNumber tok.kind + tok.ctx.toNat * 2 ^ 4 + tok.chan.toNat * 2 ^ 6 + tok.tag.toNat * 2 ^ 14)

/-- The bits [557:0] of a token (R23). -/
def tokenBody (tok : Token) : BitVec 558 := (tokenHead tok ++ tok.valid) ++ BitVec.ofNat 512 (natOfWords tok.data)

/-- The check field with which a token is sent (R25). -/
def tokenCheck (tok : Token) : BitVec 18 := Config.tokenCrc (tokenHead tok) ++ Config.secDed (tokenBody tok)

/-- A token of 576 bits as it is sent (R23). -/
def tokenBits (tok : Token) : BitVec 576 := tokenCheck tok ++ tokenBody tok

/-- A token as its receiver finds it after a link (R25): an error of one bit is corrected. -/
def overLink (e : Config.LinkError) (tok : Token) : Token :=
  if e = .beyond then { tok with damaged := true } else tok

/-- A correction is counted (R25). -/
def State.countCorrection (s : State) (d : Nat) (e : Config.LinkError) : State :=
  if e = .single then s.modDie d fun D => { D with corrected := D.corrected + 1 } else s

/-- A token enqueued at the moment of the step (R267), by the link that leads to the queue (R25). -/
def State.enqueue (s : State) (q : Nat) (tok : Token) : State :=
  let e := Config.linkError s.tick
  (s.countCorrection (dieOf (s.queue q).core) e).modQueue q fun Q => Q.push (Q.cycle s) (overLink e tok)

/-- The next sequence number of an ASID's records (R438). -/
def State.nextFaultSeq (s : State) (asid : W16) : Nat := PMap.getD s.faultSeq asid.toNat 0 + 1

/-- A token enqueued by the queue engine; a fault record is given the next number of its ASID, in its element 7 (R436, R438). -/
def State.engineTake (s : State) (q : Nat) (x : EngineToken) : State :=
  if x.record then
    let asid := ((x.tok.data.getD 0 0) >>> 16).setWidth 16
    let n := s.nextFaultSeq asid
    { s with faultSeq := PMap.insert s.faultSeq asid.toNat n }.enqueue q
      { x.tok with data := modifyAt x.tok.data 7 fun _ => BitVec.ofNat 32 n }
  else s.enqueue q x.tok

/-- The queue engine enqueues a token on the device's behalf; it waits at the engine while the queue is full or not enabled,
or while others wait there (R438). -/
def State.engineEnqueue (s : State) (q : Nat) (tok : Token) (record : Bool := false) : State :=
  if (s.queue q).waiting.isEmpty && (s.queue q).takes 1 then s.engineTake q ⟨tok, record⟩
  else s.modQueue q fun Q => { Q with waiting := Q.waiting ++ [⟨tok, record⟩] }

/-- Whether the record of an agent's fault at an address waits at the queue engine (R438): the agent stays stalled. -/
def State.recordWaits (s : State) (agent : W32) (address : W64) : Bool :=
  s.queues.any fun (_, Q) => Q.waiting.any fun x => x.record && x.tok.data.getD 6 0 == agent
    && x.tok.data.getD 2 0 == address.setWidth 32 && x.tok.data.getD 3 0 == (address >>> 32).setWidth 32

/-- A data token without flags. -/
def dataToken (data : List W32) (valid tag : W16) : Token :=
  { data := data, valid := valid, kind := .data, ctx := 0, chan := 0, tag := tag }

/-- The low 32-bit words of a number, lowest first. -/
def wordsOfNat : Nat → Nat → List W32
  | 0, _ => []
  | n + 1, x => BitVec.ofNat 32 x :: wordsOfNat n (x / 2 ^ 32)

/-- The queue that a virtual address of ASID 0 names at supervisor privilege with W; 0 names none (R405). -/
def State.supervisorQueue (s : State) (va : W64) : Option Nat :=
  if va = 0 then none
  else match s.translate 0 true .w Window.isQueue va with
    | .ok p => match windowOf p.pa with
      | .queue q 0 => some q
      | _ => none
    | .error _ => none

/-! ### Fault records -/

/-- The value of a fault code (R433). -/
def FaultCode.toNat : FaultCode → Nat
  | .trap => 0x00 | .illegalOpcode => 0x01 | .blockForm => 0x02 | .blockExit => 0x03 | .align => 0x04
  | .badHandle => 0x05 | .page => 0x06 | .access => 0x07 | .key => 0x08 | .priv => 0x09 | .tapeFull => 0x0A
  | .matrixData => 0x0B | .matrixPair => 0x0C | .memData => 0x0D | .linkConfig => 0x0E | .decompLength => 0x0F
  | .barrierSpill => 0x10 | .mcastRange => 0x11

/-- The token of a record with its sequence number (R436, R438): element k holds record bits [32k + 31:32k]. -/
def Record.token (r : Record) (seq : Nat) : Token :=
  let bit (b : Bool) (n : Nat) : Nat := if b then 2 ^ n else 0
  let iter := natOfWords ((r.iter ++ [0, 0, 0, 0]).take 4)
  let x := r.code.toNat + bit r.fatal 8 + bit r.resumable 9 + bit r.store 10 + bit r.inteam 11
    + r.source * 2 ^ 12 + r.asid.toNat * 2 ^ 16 + r.detail * 2 ^ 32 + r.slot * 2 ^ 40 + r.lane * 2 ^ 46
    + bit r.header 50 + r.address.toNat * 2 ^ 64 + r.place.toNat * 2 ^ 128 + r.agent.toNat * 2 ^ 192
    + seq % 2 ^ 32 * 2 ^ 224 + iter * 2 ^ 256 + r.extra.toNat * 2 ^ 384 + r.cycle % 2 ^ 64 * 2 ^ 448
  dataToken (wordsOfNat 16 x) 0xFFFF (BitVec.ofNat 16 r.code.toNat)

/-- The record goes to the queue that the ASID entry's fq names, where it is given its number; none when fq is 0 or names no queue window
(R438). -/
def State.writeRecord (s : State) (r : Record) : Option State :=
  match s.supervisorQueue (s.asidEntry r.asid).fq with
  | none => none
  | some q =>
    some (s.engineEnqueue q (r.token 0) true)

/-! ### Monitors and events of the management controller -/

/-- The bin of a value (R424). -/
def monitorBin (config : W64) (v : Nat) : Nat :=
  let base := bitsOf config.toNat 10 32
  let shift := bitsOf config.toNat 5 5
  let within (i : Nat) : Bool :=
    if config.getLsbD 4 then decide (v < base * 2 ^ (i + 1)) else decide (v < base + (i + 1) * 2 ^ shift)
  match (List.range 31).find? within with
  | some i => i
  | none => 31

/-- A unit with an event counted. -/
def Monitor.count (M : Monitor) (v : Nat) : Monitor :=
  let w := BitVec.ofNat 64 v
  let b := monitorBin M.config v
  { M with
    min := if M.events = 0 then w else if v < M.min.toNat then w else M.min
    max := if M.events = 0 then w else if M.max.toNat < v then w else M.max
    events := M.events + 1
    bins := PMap.set M.bins 0 b (PMap.getD M.bins b 0 + 1) }

/-- An event of a source on a die, with its ASID where it has one, is counted by the running units of that source whose
filter lets it pass (R424, R452). -/
def State.monitorEvent (s : State) (d source : Nat) (asid : Option W16) (v : Nat) : State :=
  s.modDie d fun D => { D with monitors := D.monitors.map fun (k, M) =>
    let filtered := M.config.getLsbD 58 && decide (source ≤ 3) && decide (asid ≠ some (M.config.extractLsb' 42 16))
    (k, if M.running && decide (bitsOf M.config.toNat 0 4 = source) && !filtered then M.count v else M) }

/-- The management controller posts an event (R451). -/
def State.post (s : State) (event die detail : Nat) : State :=
  let e : HostEvent := ⟨event, die, s.hub.clk, detail⟩
  { s with hub := { s.hub with posted := s.hub.posted ++ [e], ring := s.hub.ring.map fun R => R.post e } }

/-- The host's request is answered. -/
def State.reply (s : State) (r : Reply) : State := { s with hub := { s.hub with replies := r :: s.hub.replies } }

/-! ### The barrier table -/

/-- The core whose table holds a barrier of the team, and the owner's virtual id (R241). -/
def Team.barHome (T : Team) (cluster : Bool) : Nat × Nat :=
  if cluster then (T.leadCore, T.leadVid) else (T.core, T.vid)

/-- Whether a table entry is the barrier of the owner with the number and kind. -/
def BarEntry.is (b : BarEntry) (owner id : Nat) (cluster : Bool) : Bool :=
  b.owner = owner && b.id = id && b.cluster == cluster

/-- Whether a group has not ended (R241): one that had ended before a packing and holds threads of others counts as ended. -/
def Group.counts (G : Group) : Bool := G.phase != .ended && !(decide (G.seats = 0) && !G.home.isEmpty)

/-- The groups of a team that have not ended. -/
def Team.live (T : Team) : Nat := (T.groups.filter Group.counts).length

/-- The groups that a count of 0 stands for: those of the team, or of the cluster, that have not ended (R241). -/
def State.liveGroups (s : State) (T : Team) (cluster : Bool) : Nat :=
  if cluster then (s.teams.map fun (_, U) => if U.lead = T.lead then U.live else 0).sum else T.live

/-- Whether the group has a pending arrival on a barrier (R243). -/
def Group.pendingOn (G : Group) (cluster : Bool) (id : Nat) : Bool := G.arrivals.contains (cluster, id)

/-- The pending arrivals of a phase are satisfied, and the result of a `bar.red` goes to each group that named a register
(R243). -/
def State.satisfy (s : State) (b : BarEntry) : List (Nat × Nat × Option Nat) → State
  | [] => s
  | (t, g, dest) :: rest =>
    State.satisfy
      (s.modGroup t g fun G =>
        { G with
          arrivals := G.arrivals.filter (· ≠ (b.cluster, b.id))
          g := match dest with
            | some d => PMap.set G.g 0 d (BitVec.ofNat 64 b.sum)
            | none => G.g }) b rest

/-- The owner's barrier, in the table or spilled. -/
def Core.bar? (C : Core) (owner id : Nat) (cluster : Bool) : Option BarEntry :=
  (C.bars ++ C.spilledBars).find? (·.is owner id cluster)

/-- The entries of a core, spilled ones among them, each changed by a function. -/
def Core.mapBars (C : Core) (f : BarEntry → BarEntry) : Core :=
  { C with bars := C.bars.map f, spilledBars := C.spilledBars.map f }

/-- The owner's barrier changed. -/
def Core.modBar (C : Core) (owner id : Nat) (cluster : Bool) (f : BarEntry → BarEntry) : Core :=
  C.mapBars fun b => if b.is owner id cluster then f b else b

/-- When arrived has reached expected, the phase flips and its arrivals are satisfied (R243). -/
def State.barPhase (s : State) (T : Team) (id : Nat) (cluster : Bool) : State :=
  let home := T.barHome cluster
  match (s.core home.1).bar? home.2 id cluster with
  | none => s
  | some b =>
    if b.arrived < b.expected ∨ b.arrived = 0 then s
    else
      (s.modCore home.1 fun C => C.modBar home.2 id cluster fun b =>
        { b with
          phase := !b.phase, arrived := 0, pending := [], sum := 0
          expected := if b.counted then s.liveGroups T cluster else b.expected }).satisfy b b.pending

/-- Some groups of the team have ended: entries of one kind that count every group expect as many arrivals less (R241), and a phase may be
complete. -/
def State.barsExpectLess (s : State) (T : Team) (n : Nat) (cluster : Bool) : State :=
  let home := T.barHome cluster
  let s := s.modCore home.1 fun C =>
    C.mapBars fun b => if b.owner = home.2 && b.cluster == cluster && b.counted then { b with expected := b.expected - n } else b
  (List.range 16).foldl (fun s id => s.barPhase T id cluster) s

/-- Groups of the team have ended (R241). -/
def State.barGroupsEnded (s : State) (T : Team) (n : Nat) : State := (s.barsExpectLess T n false).barsExpectLess T n true

/-! ### Buffers of the matrix engine -/

/-- A buffer of a node: B, or A (R154). -/
def Matrix.buf (M : Matrix) (b : Bool) (i : Nat) : MatBuffer := PMap.getD (if b then M.bufB else M.bufA) i {}

def Matrix.modBuf (M : Matrix) (b : Bool) (i : Nat) (f : MatBuffer → MatBuffer) : Matrix :=
  if b then { M with bufB := PMap.set M.bufB {} i (f (M.buf true i)) }
  else { M with bufA := PMap.set M.bufA {} i (f (M.buf false i)) }

/-- Buffers set empty (R155). -/
def Matrix.empty (M : Matrix) (b : Bool) (is : List Nat) : Matrix :=
  is.foldl (fun M i => M.modBuf b i fun x => { x with full := false }) M

/-- A half of a paired `mma` ends at the claim of the west team: its B buffers are empty once both halves have ended (R171). -/
def Matrix.halfEnds (M : Matrix) (west : Bool) : Matrix :=
  let N := if west then { M with westDone := true } else { M with eastDone := true }
  if N.westDone && N.eastDone then { N.empty true N.span with westDone := false, eastDone := false, span := [] } else N

/-- Commands of a team that are discarded hold the node B of a west team no longer (R157, R171). -/
def State.leaveHalves (s : State) (t : Nat) (xs : List MatCmd) : State :=
  xs.foldl (fun s x =>
    match x.west with
    | some w => if w = t then s else s.modTeam w fun W => { W with matrix := W.matrix.map fun M => M.halfEnds false }
    | none => s) s

/-! ### Abandoning a block and ending a team -/

/-- Queue entries reserved by the group's block return to their places (R268). -/
def State.returnEntries (s : State) (t g : Nat) : State :=
  { s with queues := s.queues.map fun (k, Q) =>
      (k, { Q with entries := Q.entries.map fun e => if e.held.map (fun h => (h.1, h.2.1)) = some (t, g) then { e with held := none } else e }) }

/-- The channel slots reserved by the group's block are released (R49). -/
def State.returnPushes (s : State) : List (Nat × Nat × Nat) → State
  | [] => s
  | (core, chan, _) :: rest =>
    State.returnPushes
      (s.modCore core fun C =>
        { C with reservedSlots := PMap.set C.reservedSlots 0 chan (PMap.getD C.reservedSlots chan 0 - 1) }) rest

/-- Barrier entries lose the pin of the group's block (R447). The residency ids reserved by its `cfg.launch` need no release (R293): an
id is reserved by its effect alone. -/
def State.unpin (s : State) (t g : Nat) : State :=
  { s with cores := s.cores.map fun (k, C) =>
      (k, { C with bars := C.bars.map fun b => { b with pinned := b.pinned.filter (· ≠ (t, g)) } }) }

/-- A started block of the group is abandoned: it commits nothing, and its reservations return (R41). -/
def State.abandon (s : State) (t g : Nat) : State :=
  match (s.group? t g).bind (·.blk) with
  | none => s
  | some F =>
    (((s.returnEntries t g).returnPushes F.pushes).unpin t g).modGroup t g fun G => { G with blk := none }

/-- A started block that is abandoned without a fault has its charge returned (R41, R372), and the group's next block is the same. -/
def State.giveUp (s : State) (t g : Nat) : State :=
  match (s.group? t g).bind (·.blk) with
  | none => s
  | some F =>
    ((s.abandon t g).modTeam t fun T => { T with ibud := Nat.min (T.ibud + F.paid) (2 ^ 48 - 1) }).modGroup t g fun G =>
      { G with waited := F.wait }

/-- Abandons the blocks of groups 0 to n − 1 of a team. -/
def State.abandonAll (s : State) (t : Nat) : Nat → State
  | 0 => s
  | n + 1 => (s.abandonAll t n).abandon t n

/-- The barrier entries of a team are freed; those of its cluster too when no other member lives (R241). -/
def State.releaseBars (s : State) (T : Team) (others : Bool) : State :=
  let keep (b : BarEntry) : Bool := b.owner ≠ T.vid || b.cluster
  let s := s.modCore T.core fun C => { C with bars := C.bars.filter keep, spilledBars := C.spilledBars.filter keep }
  if others then s
  else
    let other (b : BarEntry) : Bool := b.owner ≠ T.leadVid || !b.cluster
    s.modCore T.leadCore fun C => { C with bars := C.bars.filter other, spilledBars := C.spilledBars.filter other }

/-- The units that streams owned are free at their ends (R325). -/
def State.freeUnitsOf (s : State) (done : Streamer → Bool) : State :=
  { s with hbmStacks := s.hbmStacks.map fun (n, S) =>
      (n, { S with banks := S.banks.map fun (k, R) =>
        (k, if R.macBy.any done then { R with macBy := none, late := [] } else R) }) }

def State.freeUnits (s : State) (who : Streamer) : State := s.freeUnitsOf (· == who)

/-- The units that a team's streams owned are free. -/
def State.freeUnitsOfTeam (s : State) (t : Nat) : State :=
  s.freeUnitsOf fun
    | .copy u _ => u == t
    | _ => false

/-- A team ends: its blocks commit nothing, and its queues, streams, barrier entries, claim and SRAM go with it (R439), and its groups that
had not ended count no longer at the cluster's barriers (R241). The shared memory that retired members of its cluster keep goes with the
cluster's last team (R246). -/
def State.dropTeam (s : State) (t : Nat) : State :=
  match s.team? t with
  | none => s
  | some T =>
    let others := s.teams.any fun (k, U) => k ≠ t && U.lead = T.lead && !U.gone
    let s := (((s.abandonAll t T.groups.length).releaseBars T others).freeUnitsOfTeam t).leaveHalves t
      (match T.matrix with | some M => M.queue | none => [])
    { s with
      teams := s.teams.filter fun (k, U) => k ≠ t && (others || U.lead ≠ T.lead)
      cur := none
      agenda := s.agenda.filter fun m => match m with | .thread u _ => u ≠ t | _ => true }.barsExpectLess T T.live true

/-- A team ends fatally, with a record marked fatal where fq can take one (R435, R438, R439). -/
def State.fatalEnd (s : State) (t : Nat) (r : Record) : State :=
  ((s.writeRecord { r with fatal := true }).getD s).dropTeam t

/-! ### Taking a fault or a trap, and the return -/

/-- FLTINFO (R418). -/
def fltinfoOf (code : FaultCode) (soft : Bool) (n slot lane : Nat) (header : Bool) : W64 :=
  BitVec.ofNat 64 (code.toNat + (if soft then 2 ^ 8 else 0) + n % 2 ^ 12 * 2 ^ 9 + slot % 2 ^ 6 * 2 ^ 21
    + lane % 2 ^ 4 * 2 ^ 27 + (if header then 2 ^ 31 else 0))

/-- Whether every fault of an ASID is fatal to its owner (R435): its entry names no handler, or it is dying. -/
def State.fatalAsid (s : State) (asid : W16) : Bool :=
  let e := s.asidEntry asid
  decide (e.tvec = 0) || decide (e.state = .dying)

/-- Whether a fault of a team that no group takes, in an ASID, is fatal (R435). -/
def State.fatalFor (s : State) (t : Nat) (asid : W16) : Bool :=
  (match s.team? t with | some T => T.sup | none => false) || s.fatalAsid asid

/-- Whether a fault or a trap of the group is fatal whatever its code (R419, R435). -/
def State.isFatal (s : State) (T : Team) (G : Group) : Bool := G.sup.isSome || T.sup || s.fatalAsid T.asid

/-- Entry to supervisor mode (R419): EPC, FLTINFO and FLTADDR are set, the running sub-group keeps its mask and stack, and it
fetches the tvec block of its ASID by the entry that R31 is extended with. -/
def State.enterSupervisor (s : State) (t g : Nat) (epc info addr : W64) : State :=
  match s.team? t with
  | none => s
  | some T =>
    s.modGroup t g fun G =>
      { G with
        sup := some ⟨G.mask⟩, epc := epc, fltinfo := info, fltaddr := addr
        pc := (s.asidEntry T.asid).tvec, path := .trapEntry, blk := none }

/-- The record of a block fault (R436, R437). -/
def State.blockRecord (s : State) (T : Team) (head : W64) (x : Trap) : Record where
  code := x.code
  source := 0
  asid := T.asid
  detail := x.detail
  slot := x.slot
  lane := x.lane
  header := x.header
  address := x.addr
  place := head
  agent := T.handle
  extra := x.extra
  cycle := s.clk (dieOf T.core)

/-- A block at an address raises a fault (R435): the block commits nothing and keeps its charge; the fault is fatal to the
team, or the group enters supervisor mode with EPC naming the block. -/
def State.takeFault (s : State) (t g : Nat) (head : W64) (x : Trap) : State :=
  match s.team? t, s.group? t g with
  | some T, some G =>
    if s.isFatal T G then s.fatalEnd t (s.blockRecord T head x)
    else
      ((s.abandon t g).enterSupervisor t g head (fltinfoOf x.code false 0 x.slot x.lane x.header) x.addr).modGroup
        t g fun G => if x.code = .barrierSpill then { G with barSpill := some head } else G
  | _, _ => s

/-- A `trap` of the group at the end of its commit (R419): the group's next fetch is saved in EPC and the tvec block comes
next, or the team ends with a record of code 0x00. -/
def State.takeTrap (s : State) (t g : Nat) (head : W64) (slot imm : Nat) : State :=
  match s.team? t, s.group? t g with
  | some T, some G =>
    if s.isFatal T G then
      s.fatalEnd t (s.blockRecord T head { code := .trap, slot := slot, extra := BitVec.ofNat 64 (imm % 2 ^ 12) })
    else s.enterSupervisor t g G.pc (fltinfoOf .trap true imm slot 0 false) 0
  | _, _ => s

/-- `eret` (R419): the group leaves supervisor mode and fetches EPC with the mask it had on entry; that fetch is no
entry (R31). -/
def State.returnFromTrap (s : State) (t g : Nat) : State :=
  s.modGroup t g fun G =>
    match G.sup with
    | none => G
    | some f => { G with sup := none, mask := f.mask &&& ~~~G.exited, pc := G.epc, path := .refetch }

/-! ### Firing -/

/-- What an instruction's fire comes to (R38): it completes with values for its targets and effects for the commit, it waits,
or it raises a fault. -/
inductive Fired where
  | ok (s : State) (v0 v1 : Option Val) (effects : List Effect)
  | wait (k : WaitKind)
  /-- As `wait`, in a state that the attempt has changed. -/
  | waitIn (s : State) (k : WaitKind)
  | trap (x : Trap)

/-- A block with a value placed on the port that a target names (R35, R37). -/
def Flight.deliver (F : Flight) (d : Option Dest) (v : Option Val) : Flight :=
  match d, v with
  | some d, some v => { F with ports := F.ports ++ [⟨d.slot.toNat, d.port, v⟩] }
  | _, _ => F

/-- The effects of every slot that has fired, in slot order. -/
def Flight.allEffects (F : Flight) : List Effect := F.effects ++ F.early.flatMap (·.effects)

/-- The block gone on past those of the listed slots that have fired ahead and come next, their effects in slot order with the others. -/
def Flight.goOn (F : Flight) : List Early → Flight
  | [] => F
  | e :: rest =>
    if e.slot = F.slot then
      Flight.goOn { F with slot := F.slot + e.size, effects := F.effects ++ e.effects, early := rest } rest
    else F

/-- The block after the slot of the context has fired. -/
def Flight.fired (F : Flight) (c : Ctx) (v0 v1 : Option Val) (effects : List Effect) : Flight :=
  Flight.goOn { ((F.deliver c.node.t0 v0).deliver c.node.t1 v1) with
    slot := F.slot + c.size, effects := F.effects ++ effects, wait := none } F.early

/-- The value on a port of the slot at which the block stands. -/
def Ctx.port? (c : Ctx) (port : Port) : Option Val :=
  (c.blk.ports.find? fun v => v.slot = c.blk.slot ∧ v.port = port).map (·.val)

/-- The value as a uniform port takes it: that of the lowest lane that is not null (R37). -/
def Val.uniform? (v : Val) : Option W64 := v.lanes.findSome? id

/-- The page of an address, by its first address and its size (R406, R409). -/
def State.pageOf (s : State) (asid : W16) (va : Nat) : Option (Nat × Nat) :=
  match s.cached asid va, s.walk asid va with
  | some e, _ | none, .ok e => some (e.va, e.size)
  | none, .error _ => none

/-- The virtual addresses whose translations an effect keeps from its fire to the commit (R231). -/
def Ctx.keeps (c : Ctx) (e : Effect) : List W64 :=
  let uniform (p : Port) : List W64 := ((c.port? p).bind Val.uniform?).toList
  match e with
  | .store _ .spad _ xs | .atomic _ _ .spad _ xs _ => xs.filterMap fun x => (c.port? .a).bind fun v => (v.lanes[x.lane]?).join
  | .mbarInit _ _ _ | .mbarArrive _ _ | .mbarInval _ _ | .jcntInit _ _ _ _ | .enq _ _ _ | .deq _ _ _ | .notify _ _ _ => uniform .a
  | .spawn _ _ desc _ => [BitVec.ofNat 64 (fieldOf desc 0 56)]
  | .seqCfg _ image (some _) => [BitVec.ofNat 64 (fieldOf image 64 56)]
  | .monDump _ _ _ => (uniform .b).flatMap fun y => [y, y + 256]
  | _ => []

/-- The pages of the translations that effects keep. -/
def State.keptPages (s : State) (c : Ctx) (effects : List Effect) : List (Nat × Nat) :=
  (effects.flatMap c.keeps).filterMap fun va => s.pageOf c.team.asid (bitsOf va.toNat 0 56)

/-- The state after the slot of the context has fired (R38). -/
def State.complete (s : State) (c : Ctx) (v0 v1 : Option Val) (effects : List Effect) : State :=
  s.modFlight c.t c.g fun F => { F.fired c v0 v1 effects with pages := F.pages ++ s.keptPages c effects }

/-- The group with the start of a wait on a queue kept (R268, R356). -/
def Group.keepWait (G : Group) (q notifies : Nat) : Group :=
  match PMap.get? G.kept q with
  | some _ => G
  | none => { G with kept := PMap.insert G.kept q notifies }

/-- The state with the block of the context waiting (R41). -/
def State.waitOn (s : State) (c : Ctx) (k : WaitKind) : State :=
  (match k with
    | .queueWait q => s.modGroup c.t c.g fun G => G.keepWait q (s.queue q).notifies
    | _ => s).modFlight c.t c.g fun F => { F with wait := some k }

/-- The fire of the slot at which the acting group stands: the next state, whatever the fire comes to. -/
def fire (s : State) (f : Ctx → Fired) : Host.Outcome State Fault Refusal :=
  match s.ctx? with
  | none => .fault .noContext
  | some c =>
    match f c with
    | .ok s' v0 v1 effects => .next (s'.complete c v0 v1 effects)
    | .wait k => .next (s.waitOn c k)
    | .waitIn s' k => .next (s'.waitOn c k)
    | .trap x => .next (s.takeFault c.t c.g c.blk.head x)

/-- A device event: the state that it leaves, or, in a state in which it cannot occur, that state as it is. -/
def occurs (s : State) (t : Option State) : Host.Outcome State Fault Refusal := .next (t.getD s)

end Sys2Proof.Machine
end

