-- ==== Sys2Proof/Machine/Operands.lean ====
section
/-! DEFINITION. The operand forms: values on ports, guards and null lanes (R36 to R38), uniform operands, and the firing of a
lane instruction that core blocks and Twill elements share (R101 to R104, R144, R300, R301). -/
namespace Sys2Proof.Machine

/-- The lanes in which the instruction is active (R7, R36): those of the mask at block start whose guard is true; none while
the guard's port holds no value. -/
def Ctx.on? (c : Ctx) : Option W16 :=
  match c.node.guard with
  | .always => some c.blk.mask
  | g =>
    match c.port? .p with
    | none => none
    | some v => some (maskOf fun l => laneBit c.blk.mask l && guardHolds g (laneAt v.lanes l))

/-- Goes on with the lanes in which the instruction is active, or waits for the guard (R38). -/
def withOn (c : Ctx) (k : W16 → Fired) : Fired :=
  match c.on? with
  | none => .wait .operand
  | some on => k on

/-- Goes on with the value of a port, or waits for it (R38). -/
def withPort (c : Ctx) (port : Port) (k : Val → Fired) : Fired :=
  match c.port? port with
  | none => .wait .operand
  | some v => k v

/-- A lane is null when it is not active or when an input is null in it (R38). -/
def inputsPresent (ins : List Lanes) (l : Nat) : Bool := ins.all fun v => (laneAt v l).isSome

/-- The lanes of a result over inputs (R38). -/
def overLanes (on : W16) (ins : List Lanes) (f : Nat → W64) : Lanes :=
  (List.range 16).map fun l => if laneBit on l && inputsPresent ins l then some (f l) else none

/-- The lanes in which an instruction with these inputs is not null (R38). -/
def liveOn (on : W16) (ins : List Lanes) : W16 := maskOf fun l => laneBit on l && inputsPresent ins l

/-- A uniform value, null outside the given lanes (R37). -/
def uniformVal (on : W16) (x : W64) : Val := { lanes := overLanes on [] fun _ => x, uni := true, reg := none }

/-- A lane-wise value. -/
def laneVal (v : Lanes) : Val := { lanes := v, uni := false, reg := none }

/-! ### Lane instructions -/

/-- What a lane instruction sees: the state of the lanes (R143, R145), the lanes in which it is active, the lanes of its
operands, and the generator value of each lane (R96). -/
structure LaneIn where
  view : LaneView
  on : W16
  a : Lanes
  b : Lanes
  c : Lanes
  draw : Nat → W32

/-- The shape of a result (R102, R146, R148, R149). -/
inductive Shape where
  | follows | laneWise | uniform
  deriving DecidableEq, Repr

/-- A lane instruction: the ports that it uses, the shape of its result, and the result in a lane that is not null. -/
structure LaneOp where
  useA : Bool
  useB : Bool
  useC : Bool
  shape : Shape
  lane : LaneIn → Nat → W64

/-- The value of an operand in a lane, 0 where it is null. -/
def LaneIn.aAt (x : LaneIn) (l : Nat) : W64 := (laneAt x.a l).getD 0
def LaneIn.bAt (x : LaneIn) (l : Nat) : W64 := (laneAt x.b l).getD 0
def LaneIn.cAt (x : LaneIn) (l : Nat) : W64 := (laneAt x.c l).getD 0

/-- Operand a in the lanes that contribute: active and not null (R148). -/
def LaneIn.contributing (x : LaneIn) : Lanes :=
  (List.range 16).map fun l => if laneBit x.on l then laneAt x.a l else none

/-- A lane-by-lane operation of one, two or three operands (R102). -/
def LaneOp.one (f : W64 → W64) : LaneOp := ⟨true, false, false, .follows, fun x l => f (x.aAt l)⟩
def LaneOp.two (f : W64 → W64 → W64) : LaneOp := ⟨true, true, false, .follows, fun x l => f (x.aAt l) (x.bAt l)⟩
def LaneOp.three (f : W64 → W64 → W64 → W64) : LaneOp :=
  ⟨true, true, true, .follows, fun x l => f (x.aAt l) (x.bAt l) (x.cAt l)⟩

/-- A reduction with a uniform result, and a scan with a lane-wise one (R149). -/
def LaneOp.gred {α : Type} (r : Reduction α) : LaneOp :=
  ⟨true, false, false, .uniform, fun x _ => r.total x.contributing⟩
def LaneOp.gscan {α : Type} (r : Reduction α) : LaneOp :=
  ⟨true, false, false, .laneWise, fun x l => r.prefixTo x.contributing l⟩

/-- The operands that the operation uses. -/
def LaneOp.inputs (op : LaneOp) (x : LaneIn) : List Lanes :=
  (if op.useA then [x.a] else []) ++ (if op.useB then [x.b] else []) ++ (if op.useC then [x.c] else [])

/-- The lanes of the result (R38). -/
def LaneOp.result (op : LaneOp) (x : LaneIn) : Lanes := overLanes x.on (op.inputs x) (op.lane x)

/-- The content of a lane register, or a pair, in every lane (R52). -/
def Group.laneContent (G : Group) (n : Nat) (b64 : Bool) : Lanes :=
  (List.range 16).map fun l =>
    let lo := (PMap.getD G.v (16 * n + l) 0).setWidth 64
    some (if b64 then ((PMap.getD G.v (16 * (n + 1) + l) 0).setWidth 64 <<< 32) ||| lo else lo)

/-- What a lane may read of the others at block start (R143, R145). -/
def Ctx.viewOf (c : Ctx) (v : Val) : LaneView where
  dead := c.group.exited ||| ~~~c.group.launched
  content := match v.reg with
    | some (n, b64) => c.group.laneContent n b64
    | none => []

/-- The words of a block without the extension words (R34). -/
def instructionWords : List W32 → List W32
  | [] => []
  | [w] => [w]
  | w :: next :: rest =>
    w :: (if isExtended (Fields.ofWord w).op.toNat then instructionWords rest else instructionWords (next :: rest))

/-- How many `cvt.sr` stand in some of a block's words (R96). -/
def drawCount (ws : List W32) : Nat :=
  ((instructionWords ws).filter fun w => let op := (Fields.ofWord w).op.toNat; decide (0x0CC ≤ op ∧ op ≤ 0x0CE)).length

/-- The generator value of a lane for the `cvt.sr` of the slot (R96): those before it in the block have their own. -/
def Ctx.drawOf (c : Ctx) (l : Nat) : W32 := genSteps (drawCount (c.blk.words.take c.blk.slot) + 1) (PMap.getD c.group.gens l 0)

/-- A value for a port that the instruction does not use. -/
def noVal : Val := { lanes := [], uni := true, reg := none }

/-- The value of a port where the instruction uses it. -/
def Ctx.portIf? (c : Ctx) (use : Bool) (port : Port) : Option Val := if use then c.port? port else some noVal

/-- The lane instruction's inputs in the context, once every port that it uses holds a value. -/
def Ctx.laneIn? (c : Ctx) (op : LaneOp) : Option (LaneIn × Bool) :=
  match c.on?, c.portIf? op.useA .a, c.portIf? op.useB .b, c.portIf? op.useC .c with
  | some on, some a, some b, some d =>
    some (⟨c.viewOf a, on, a.lanes, b.lanes, d.lanes, c.drawOf⟩, a.uni && b.uni && d.uni)
  | _, _, _, _ => none

/-- The result value of a lane instruction. -/
def LaneOp.value (op : LaneOp) (x : LaneIn) (uni : Bool) : Val where
  lanes := op.result x
  uni := match op.shape with
    | .follows => uni
    | .laneWise => false
    | .uniform => true
  reg := none

/-- The fire of a lane instruction: its one result goes to both targets (R102, R144). -/
def fireLane (s : State) (op : LaneOp) : Host.Outcome State Fault Refusal :=
  fire s fun c =>
    match c.laneIn? op with
    | none => .wait .operand
    | some (x, uni) => .ok s (some (op.value x uni)) (some (op.value x uni)) []

end Sys2Proof.Machine
end

