-- ==== Sys2Proof/Machine/Floating.lean ====
section
/-! DEFINITION. The meanings of the floating-point instructions of classes 2 and 3 (R124 to R141). -/
namespace Sys2Proof.Machine

/-- R124. binary64 add, rounded once. -/
def opFaddF64 (rm : Rounding) : LaneOp := .two (faddOf tyF64 rm)
def execFaddF64 (rm : Rounding) (s : State) : Host.Outcome State Fault Refusal := fireLane s (opFaddF64 rm)

/-- R124. binary32 add. -/
def opFaddF32 (rm : Rounding) : LaneOp := .two (faddOf tyF32 rm)
def execFaddF32 (rm : Rounding) (s : State) : Host.Outcome State Fault Refusal := fireLane s (opFaddF32 rm)

/-- R124. binary16 add. -/
def opFaddF16 (rm : Rounding) : LaneOp := .two (faddOf tyF16 rm)
def execFaddF16 (rm : Rounding) (s : State) : Host.Outcome State Fault Refusal := fireLane s (opFaddF16 rm)

/-- R124. bfloat16 add, rne only. -/
def opFaddBf16 (rm : Rounding) : LaneOp := .two (faddOf tyBf16 rm)
def execFaddBf16 (rm : Rounding) (s : State) : Host.Outcome State Fault Refusal := fireLane s (opFaddBf16 rm)

/-- R124. Packed binary16 add. -/
def opFaddF16x2 (rm : Rounding) : LaneOp := .two (faddOf tyF16x2 rm)
def execFaddF16x2 (rm : Rounding) (s : State) : Host.Outcome State Fault Refusal := fireLane s (opFaddF16x2 rm)

/-- R124. Packed bfloat16 add, rne only. -/
def opFaddBf16x2 (rm : Rounding) : LaneOp := .two (faddOf tyBf16x2 rm)
def execFaddBf16x2 (rm : Rounding) (s : State) : Host.Outcome State Fault Refusal := fireLane s (opFaddBf16x2 rm)

/-- R124. binary64 subtract. -/
def opFsubF64 (rm : Rounding) : LaneOp := .two (fsubOf tyF64 rm)
def execFsubF64 (rm : Rounding) (s : State) : Host.Outcome State Fault Refusal := fireLane s (opFsubF64 rm)

/-- R124. binary32 subtract. -/
def opFsubF32 (rm : Rounding) : LaneOp := .two (fsubOf tyF32 rm)
def execFsubF32 (rm : Rounding) (s : State) : Host.Outcome State Fault Refusal := fireLane s (opFsubF32 rm)

/-- R124. binary16 subtract. -/
def opFsubF16 (rm : Rounding) : LaneOp := .two (fsubOf tyF16 rm)
def execFsubF16 (rm : Rounding) (s : State) : Host.Outcome State Fault Refusal := fireLane s (opFsubF16 rm)

/-- R124. bfloat16 subtract. -/
def opFsubBf16 (rm : Rounding) : LaneOp := .two (fsubOf tyBf16 rm)
def execFsubBf16 (rm : Rounding) (s : State) : Host.Outcome State Fault Refusal := fireLane s (opFsubBf16 rm)

/-- R124. Packed binary16 subtract. -/
def opFsubF16x2 (rm : Rounding) : LaneOp := .two (fsubOf tyF16x2 rm)
def execFsubF16x2 (rm : Rounding) (s : State) : Host.Outcome State Fault Refusal := fireLane s (opFsubF16x2 rm)

/-- R124. Packed bfloat16 subtract. -/
def opFsubBf16x2 (rm : Rounding) : LaneOp := .two (fsubOf tyBf16x2 rm)
def execFsubBf16x2 (rm : Rounding) (s : State) : Host.Outcome State Fault Refusal := fireLane s (opFsubBf16x2 rm)

/-- R124. binary64 multiply. -/
def opFmulF64 (rm : Rounding) : LaneOp := .two (fmulOf tyF64 rm)
def execFmulF64 (rm : Rounding) (s : State) : Host.Outcome State Fault Refusal := fireLane s (opFmulF64 rm)

/-- R124. binary32 multiply. -/
def opFmulF32 (rm : Rounding) : LaneOp := .two (fmulOf tyF32 rm)
def execFmulF32 (rm : Rounding) (s : State) : Host.Outcome State Fault Refusal := fireLane s (opFmulF32 rm)

/-- R124. binary16 multiply. -/
def opFmulF16 (rm : Rounding) : LaneOp := .two (fmulOf tyF16 rm)
def execFmulF16 (rm : Rounding) (s : State) : Host.Outcome State Fault Refusal := fireLane s (opFmulF16 rm)

/-- R124. bfloat16 multiply. -/
def opFmulBf16 (rm : Rounding) : LaneOp := .two (fmulOf tyBf16 rm)
def execFmulBf16 (rm : Rounding) (s : State) : Host.Outcome State Fault Refusal := fireLane s (opFmulBf16 rm)

/-- R124. Packed binary16 multiply. -/
def opFmulF16x2 (rm : Rounding) : LaneOp := .two (fmulOf tyF16x2 rm)
def execFmulF16x2 (rm : Rounding) (s : State) : Host.Outcome State Fault Refusal := fireLane s (opFmulF16x2 rm)

/-- R124. Packed bfloat16 multiply. -/
def opFmulBf16x2 (rm : Rounding) : LaneOp := .two (fmulOf tyBf16x2 rm)
def execFmulBf16x2 (rm : Rounding) (s : State) : Host.Outcome State Fault Refusal := fireLane s (opFmulBf16x2 rm)

/-- R124. binary64 fused multiply-add. -/
def opFmaF64 (rm : Rounding) : LaneOp := .three (fmaOf tyF64 rm)
def execFmaF64 (rm : Rounding) (s : State) : Host.Outcome State Fault Refusal := fireLane s (opFmaF64 rm)

/-- R124. binary32 fused multiply-add. -/
def opFmaF32 (rm : Rounding) : LaneOp := .three (fmaOf tyF32 rm)
def execFmaF32 (rm : Rounding) (s : State) : Host.Outcome State Fault Refusal := fireLane s (opFmaF32 rm)

/-- R124. binary16 fused multiply-add. -/
def opFmaF16 (rm : Rounding) : LaneOp := .three (fmaOf tyF16 rm)
def execFmaF16 (rm : Rounding) (s : State) : Host.Outcome State Fault Refusal := fireLane s (opFmaF16 rm)

/-- R124. bfloat16 fused multiply-add. -/
def opFmaBf16 (rm : Rounding) : LaneOp := .three (fmaOf tyBf16 rm)
def execFmaBf16 (rm : Rounding) (s : State) : Host.Outcome State Fault Refusal := fireLane s (opFmaBf16 rm)

/-- R124. Packed binary16 fused multiply-add. -/
def opFmaF16x2 (rm : Rounding) : LaneOp := .three (fmaOf tyF16x2 rm)
def execFmaF16x2 (rm : Rounding) (s : State) : Host.Outcome State Fault Refusal := fireLane s (opFmaF16x2 rm)

/-- R124. Packed bfloat16 fused multiply-add. -/
def opFmaBf16x2 (rm : Rounding) : LaneOp := .three (fmaOf tyBf16x2 rm)
def execFmaBf16x2 (rm : Rounding) (s : State) : Host.Outcome State Fault Refusal := fireLane s (opFmaBf16x2 rm)

/-- R125. binary64 minimum. -/
def opFminF64 : LaneOp := .two (fminOf tyF64)
def execFminF64 (s : State) : Host.Outcome State Fault Refusal := fireLane s opFminF64

/-- R125. binary32 minimum. -/
def opFminF32 : LaneOp := .two (fminOf tyF32)
def execFminF32 (s : State) : Host.Outcome State Fault Refusal := fireLane s opFminF32

/-- R125. binary16 minimum. -/
def opFminF16 : LaneOp := .two (fminOf tyF16)
def execFminF16 (s : State) : Host.Outcome State Fault Refusal := fireLane s opFminF16

/-- R125. bfloat16 minimum. -/
def opFminBf16 : LaneOp := .two (fminOf tyBf16)
def execFminBf16 (s : State) : Host.Outcome State Fault Refusal := fireLane s opFminBf16

/-- R125. Packed binary16 minimum. -/
def opFminF16x2 : LaneOp := .two (fminOf tyF16x2)
def execFminF16x2 (s : State) : Host.Outcome State Fault Refusal := fireLane s opFminF16x2

/-- R125. Packed bfloat16 minimum. -/
def opFminBf16x2 : LaneOp := .two (fminOf tyBf16x2)
def execFminBf16x2 (s : State) : Host.Outcome State Fault Refusal := fireLane s opFminBf16x2

/-- R125. binary64 maximum. -/
def opFmaxF64 : LaneOp := .two (fmaxOf tyF64)
def execFmaxF64 (s : State) : Host.Outcome State Fault Refusal := fireLane s opFmaxF64

/-- R125. binary32 maximum. -/
def opFmaxF32 : LaneOp := .two (fmaxOf tyF32)
def execFmaxF32 (s : State) : Host.Outcome State Fault Refusal := fireLane s opFmaxF32

/-- R125. binary16 maximum. -/
def opFmaxF16 : LaneOp := .two (fmaxOf tyF16)
def execFmaxF16 (s : State) : Host.Outcome State Fault Refusal := fireLane s opFmaxF16

/-- R125. bfloat16 maximum. -/
def opFmaxBf16 : LaneOp := .two (fmaxOf tyBf16)
def execFmaxBf16 (s : State) : Host.Outcome State Fault Refusal := fireLane s opFmaxBf16

/-- R125. Packed binary16 maximum. -/
def opFmaxF16x2 : LaneOp := .two (fmaxOf tyF16x2)
def execFmaxF16x2 (s : State) : Host.Outcome State Fault Refusal := fireLane s opFmaxF16x2

/-- R125. Packed bfloat16 maximum. -/
def opFmaxBf16x2 : LaneOp := .two (fmaxOf tyBf16x2)
def execFmaxBf16x2 (s : State) : Host.Outcome State Fault Refusal := fireLane s opFmaxBf16x2

/-- R126. binary64 comparison. -/
def opFcmpF64 (cc : FCond) : LaneOp := .two (fcompareOf tyF64 cc)
def execFcmpF64 (cc : FCond) (s : State) : Host.Outcome State Fault Refusal := fireLane s (opFcmpF64 cc)

/-- R126. binary32 comparison. -/
def opFcmpF32 (cc : FCond) : LaneOp := .two (fcompareOf tyF32 cc)
def execFcmpF32 (cc : FCond) (s : State) : Host.Outcome State Fault Refusal := fireLane s (opFcmpF32 cc)

/-- R126. binary16 comparison. -/
def opFcmpF16 (cc : FCond) : LaneOp := .two (fcompareOf tyF16 cc)
def execFcmpF16 (cc : FCond) (s : State) : Host.Outcome State Fault Refusal := fireLane s (opFcmpF16 cc)

/-- R126. bfloat16 comparison. -/
def opFcmpBf16 (cc : FCond) : LaneOp := .two (fcompareOf tyBf16 cc)
def execFcmpBf16 (cc : FCond) (s : State) : Host.Outcome State Fault Refusal := fireLane s (opFcmpBf16 cc)

/-- R127. binary64 classification. -/
def opFclassF64 : LaneOp := .one (fclassOf tyF64)
def execFclassF64 (s : State) : Host.Outcome State Fault Refusal := fireLane s opFclassF64

/-- R127. binary32 classification. -/
def opFclassF32 : LaneOp := .one (fclassOf tyF32)
def execFclassF32 (s : State) : Host.Outcome State Fault Refusal := fireLane s opFclassF32

/-- R127. binary16 classification. -/
def opFclassF16 : LaneOp := .one (fclassOf tyF16)
def execFclassF16 (s : State) : Host.Outcome State Fault Refusal := fireLane s opFclassF16

/-- R127. bfloat16 classification. -/
def opFclassBf16 : LaneOp := .one (fclassOf tyBf16)
def execFclassBf16 (s : State) : Host.Outcome State Fault Refusal := fireLane s opFclassBf16

/-- R128. Exact widening f32 to f64. -/
def opCvtF64F32 : LaneOp := .one (convertOf fmtF32 fmtF64 .rne false)
def execCvtF64F32 (s : State) : Host.Outcome State Fault Refusal := fireLane s opCvtF64F32

/-- R128. Exact widening f16 to f32. -/
def opCvtF32F16 : LaneOp := .one (convertOf fmtF16 fmtF32 .rne false)
def execCvtF32F16 (s : State) : Host.Outcome State Fault Refusal := fireLane s opCvtF32F16

/-- R128. Exact widening bf16 to f32. -/
def opCvtF32Bf16 : LaneOp := .one (convertOf fmtBf16 fmtF32 .rne false)
def execCvtF32Bf16 (s : State) : Host.Outcome State Fault Refusal := fireLane s opCvtF32Bf16

/-- R128. Exact widening e4m3 to f32. -/
def opCvtF32E4m3 : LaneOp := .one (convertOf fmtE4m3 fmtF32 .rne false)
def execCvtF32E4m3 (s : State) : Host.Outcome State Fault Refusal := fireLane s opCvtF32E4m3

/-- R128. Exact widening e5m2 to f32. -/
def opCvtF32E5m2 : LaneOp := .one (convertOf fmtE5m2 fmtF32 .rne false)
def execCvtF32E5m2 (s : State) : Host.Outcome State Fault Refusal := fireLane s opCvtF32E5m2

/-- R128. Exact widening e2m1 to f32. -/
def opCvtF32E2m1 : LaneOp := .one (convertOf fmtE2m1 fmtF32 .rne false)
def execCvtF32E2m1 (s : State) : Host.Outcome State Fault Refusal := fireLane s opCvtF32E2m1

/-- R129. Narrowing f64 to f32. -/
def opCvtF32F64 (rm : Rounding) (sat : Bool) : LaneOp := .one (convertOf fmtF64 fmtF32 rm sat)
def execCvtF32F64 (rm : Rounding) (sat : Bool) (s : State) : Host.Outcome State Fault Refusal := fireLane s (opCvtF32F64 rm sat)

/-- R129. Narrowing f32 to f16. -/
def opCvtF16F32 (rm : Rounding) (sat : Bool) : LaneOp := .one (convertOf fmtF32 fmtF16 rm sat)
def execCvtF16F32 (rm : Rounding) (sat : Bool) (s : State) : Host.Outcome State Fault Refusal := fireLane s (opCvtF16F32 rm sat)

/-- R129. Narrowing f32 to bf16, rne only. -/
def opCvtBf16F32 (rm : Rounding) (sat : Bool) : LaneOp := .one (convertOf fmtF32 fmtBf16 rm sat)
def execCvtBf16F32 (rm : Rounding) (sat : Bool) (s : State) : Host.Outcome State Fault Refusal := fireLane s (opCvtBf16F32 rm sat)

/-- R129. Narrowing f32 to e4m3. -/
def opCvtE4m3F32 (rm : Rounding) (sat : Bool) : LaneOp := .one (convertOf fmtF32 fmtE4m3 rm sat)
def execCvtE4m3F32 (rm : Rounding) (sat : Bool) (s : State) : Host.Outcome State Fault Refusal := fireLane s (opCvtE4m3F32 rm sat)

/-- R129. Narrowing f32 to e5m2. -/
def opCvtE5m2F32 (rm : Rounding) (sat : Bool) : LaneOp := .one (convertOf fmtF32 fmtE5m2 rm sat)
def execCvtE5m2F32 (rm : Rounding) (sat : Bool) (s : State) : Host.Outcome State Fault Refusal := fireLane s (opCvtE5m2F32 rm sat)

/-- R129. Narrowing f32 to e2m1. -/
def opCvtE2m1F32 (rm : Rounding) (sat : Bool) : LaneOp := .one (convertOf fmtF32 fmtE2m1 rm sat)
def execCvtE2m1F32 (rm : Rounding) (sat : Bool) (s : State) : Host.Outcome State Fault Refusal := fireLane s (opCvtE2m1F32 rm sat)

/-- R130. Stochastic rounding f32 to e4m3. -/
def opCvtSrE4m3F32 (sat : Bool) : LaneOp := ⟨true, false, false, .follows, fun x l => stochasticOf fmtE4m3 sat (x.draw l) (x.aAt l)⟩
def execCvtSrE4m3F32 (sat : Bool) (s : State) : Host.Outcome State Fault Refusal := fireLane s (opCvtSrE4m3F32 sat)

/-- R130. Stochastic rounding f32 to e5m2. -/
def opCvtSrE5m2F32 (sat : Bool) : LaneOp := ⟨true, false, false, .follows, fun x l => stochasticOf fmtE5m2 sat (x.draw l) (x.aAt l)⟩
def execCvtSrE5m2F32 (sat : Bool) (s : State) : Host.Outcome State Fault Refusal := fireLane s (opCvtSrE5m2F32 sat)

/-- R130. Stochastic rounding f32 to e2m1. -/
def opCvtSrE2m1F32 (sat : Bool) : LaneOp := ⟨true, false, false, .follows, fun x l => stochasticOf fmtE2m1 sat (x.draw l) (x.aAt l)⟩
def execCvtSrE2m1F32 (sat : Bool) (s : State) : Host.Outcome State Fault Refusal := fireLane s (opCvtSrE2m1F32 sat)

/-- R131. Two f32 values to packed f16. -/
def opCvtF16x2F32 (rm : Rounding) (sat : Bool) : LaneOp := .one (convertPairOf fmtF16 rm sat)
def execCvtF16x2F32 (rm : Rounding) (sat : Bool) (s : State) : Host.Outcome State Fault Refusal := fireLane s (opCvtF16x2F32 rm sat)

/-- R131. Two f32 values to packed bf16. -/
def opCvtBf16x2F32 (rm : Rounding) (sat : Bool) : LaneOp := .one (convertPairOf fmtBf16 rm sat)
def execCvtBf16x2F32 (rm : Rounding) (sat : Bool) (s : State) : Host.Outcome State Fault Refusal := fireLane s (opCvtBf16x2F32 rm sat)

/-- R133. Signed 32-bit integer to f32. -/
def opCvtF32I32 (rm : Rounding) : LaneOp := .one (fromIntOf .i32 fmtF32 rm)
def execCvtF32I32 (rm : Rounding) (s : State) : Host.Outcome State Fault Refusal := fireLane s (opCvtF32I32 rm)

/-- R133. Unsigned 32-bit integer to f32. -/
def opCvtF32N32 (rm : Rounding) : LaneOp := .one (fromIntOf .n32 fmtF32 rm)
def execCvtF32N32 (rm : Rounding) (s : State) : Host.Outcome State Fault Refusal := fireLane s (opCvtF32N32 rm)

/-- R133. Signed 64-bit integer to f64. -/
def opCvtF64I64 (rm : Rounding) : LaneOp := .one (fromIntOf .i64 fmtF64 rm)
def execCvtF64I64 (rm : Rounding) (s : State) : Host.Outcome State Fault Refusal := fireLane s (opCvtF64I64 rm)

/-- R133. Unsigned 64-bit integer to f64. -/
def opCvtF64N64 (rm : Rounding) : LaneOp := .one (fromIntOf .n64 fmtF64 rm)
def execCvtF64N64 (rm : Rounding) (s : State) : Host.Outcome State Fault Refusal := fireLane s (opCvtF64N64 rm)

/-- R134. f32 to clamped signed 32-bit integer. -/
def opCvtI32F32 (rm : Rounding) : LaneOp := .one (toIntOf fmtF32 .i32 rm)
def execCvtI32F32 (rm : Rounding) (s : State) : Host.Outcome State Fault Refusal := fireLane s (opCvtI32F32 rm)

/-- R134. f32 to clamped unsigned 32-bit integer. -/
def opCvtN32F32 (rm : Rounding) : LaneOp := .one (toIntOf fmtF32 .n32 rm)
def execCvtN32F32 (rm : Rounding) (s : State) : Host.Outcome State Fault Refusal := fireLane s (opCvtN32F32 rm)

/-- R134. f64 to clamped signed 64-bit integer. -/
def opCvtI64F64 (rm : Rounding) : LaneOp := .one (toIntOf fmtF64 .i64 rm)
def execCvtI64F64 (rm : Rounding) (s : State) : Host.Outcome State Fault Refusal := fireLane s (opCvtI64F64 rm)

/-- R134. f64 to clamped unsigned 64-bit integer. -/
def opCvtN64F64 (rm : Rounding) : LaneOp := .one (toIntOf fmtF64 .n64 rm)
def execCvtN64F64 (rm : Rounding) (s : State) : Host.Outcome State Fault Refusal := fireLane s (opCvtN64F64 rm)

/-- R135. Widening integer extension of 8 or 16 bits. -/
def opExt (src : ExtSource) (w : Width) : LaneOp := .one (extendOf src w)
def execExt (src : ExtSource) (w : Width) (s : State) : Host.Outcome State Fault Refusal := fireLane s (opExt src w)

/-- R136. Rounds a 32.32 fixed-point value to i32. -/
def opNar (rm : Rounding) (sat : Bool) : LaneOp := .one (narrowOf rm sat)
def execNar (rm : Rounding) (sat : Bool) (s : State) : Host.Outcome State Fault Refusal := fireLane s (opNar rm sat)

/-- R132. Power-of-two scale of an f32 magnitude. -/
def opCvtE8m0F32 (rm : Rounding) : LaneOp := .one (toE8m0Of rm)
def execCvtE8m0F32 (rm : Rounding) (s : State) : Host.Outcome State Fault Refusal := fireLane s (opCvtE8m0F32 rm)

/-- R132. E8M0 scale to exact f32. -/
def opCvtF32E8m0 (_ : Rounding) : LaneOp := .one (fromE8m0Of)
def execCvtF32E8m0 (rm : Rounding) (s : State) : Host.Outcome State Fault Refusal := fireLane s (opCvtF32E8m0 rm)

/-- R139. Truncated reciprocal. -/
def opRcpF32 : LaneOp := .one (rcpOf)
def execRcpF32 (s : State) : Host.Outcome State Fault Refusal := fireLane s opRcpF32

/-- R139. Truncated reciprocal square root. -/
def opRsqF32 : LaneOp := .one (rsqOf)
def execRsqF32 (s : State) : Host.Outcome State Fault Refusal := fireLane s opRsqF32

/-- R139. Truncated square root. -/
def opSqrtF32 : LaneOp := .one (sqrtOf)
def execSqrtF32 (s : State) : Host.Outcome State Fault Refusal := fireLane s opSqrtF32

/-- R139. trunc2 of 2^a. -/
def opExp2F32 : LaneOp := .one (exp2Of)
def execExp2F32 (s : State) : Host.Outcome State Fault Refusal := fireLane s opExp2F32

/-- R139. trunc2 of log2 a. -/
def opLog2F32 : LaneOp := .one (log2Of)
def execLog2F32 (s : State) : Host.Outcome State Fault Refusal := fireLane s opLog2F32

/-- R139. Truncated sin(pi a). -/
def opSinpiF32 : LaneOp := .one (sinpiOf)
def execSinpiF32 (s : State) : Host.Outcome State Fault Refusal := fireLane s opSinpiF32

/-- R139. Truncated cos(pi a). -/
def opCospiF32 : LaneOp := .one (cospiOf)
def execCospiF32 (s : State) : Host.Outcome State Fault Refusal := fireLane s opCospiF32

/-- R141. Correctly rounded f64 reciprocal. -/
def opRcpF64 (rm : Rounding) : LaneOp := .one (rcp64Of rm)
def execRcpF64 (rm : Rounding) (s : State) : Host.Outcome State Fault Refusal := fireLane s (opRcpF64 rm)

/-- R141. Correctly rounded f64 square root. -/
def opSqrtF64 (rm : Rounding) : LaneOp := .one (sqrt64Of rm)
def execSqrtF64 (rm : Rounding) (s : State) : Host.Outcome State Fault Refusal := fireLane s (opSqrtF64 rm)

/-- R137. Rounds to an integral f32. -/
def opFrndF32 (rm : Rounding) : LaneOp := .one (roundIntegralOf rm)
def execFrndF32 (rm : Rounding) (s : State) : Host.Outcome State Fault Refusal := fireLane s (opFrndF32 rm)

/-- R138. Scales by 2^n with one rounding. -/
def opLdexpF32 (rm : Rounding) : LaneOp := .two (ldexpOf rm)
def execLdexpF32 (rm : Rounding) (s : State) : Host.Outcome State Fault Refusal := fireLane s (opLdexpF32 rm)

end Sys2Proof.Machine
end

