-- ==== Sys2Proof/Machine/Integer.lean ====
section
/-! DEFINITION. The meanings of the integer and address instructions of class 1 (R101 to R118). -/
namespace Sys2Proof.Machine

/-- R105. Wrapping 32-bit add. -/
def opAddB32 : LaneOp := .two (addWrap .b32)
def execAddB32 (s : State) : Host.Outcome State Fault Refusal := fireLane s opAddB32

/-- R105. Wrapping 64-bit add. -/
def opAddB64 : LaneOp := .two (addWrap .b64)
def execAddB64 (s : State) : Host.Outcome State Fault Refusal := fireLane s opAddB64

/-- R105. Signed 32-bit saturating add. -/
def opAddSatI32 : LaneOp := .two (addSat .i32)
def execAddSatI32 (s : State) : Host.Outcome State Fault Refusal := fireLane s opAddSatI32

/-- R105. Unsigned 32-bit saturating add. -/
def opAddSatN32 : LaneOp := .two (addSat .n32)
def execAddSatN32 (s : State) : Host.Outcome State Fault Refusal := fireLane s opAddSatN32

/-- R105. Signed 64-bit saturating add. -/
def opAddSatI64 : LaneOp := .two (addSat .i64)
def execAddSatI64 (s : State) : Host.Outcome State Fault Refusal := fireLane s opAddSatI64

/-- R105. Unsigned 64-bit saturating add. -/
def opAddSatN64 : LaneOp := .two (addSat .n64)
def execAddSatN64 (s : State) : Host.Outcome State Fault Refusal := fireLane s opAddSatN64

/-- R105. Wrapping 32-bit subtract. -/
def opSubB32 : LaneOp := .two (subWrap .b32)
def execSubB32 (s : State) : Host.Outcome State Fault Refusal := fireLane s opSubB32

/-- R105. Wrapping 64-bit subtract. -/
def opSubB64 : LaneOp := .two (subWrap .b64)
def execSubB64 (s : State) : Host.Outcome State Fault Refusal := fireLane s opSubB64

/-- R105. Signed 32-bit saturating subtract. -/
def opSubSatI32 : LaneOp := .two (subSat .i32)
def execSubSatI32 (s : State) : Host.Outcome State Fault Refusal := fireLane s opSubSatI32

/-- R105. Unsigned 32-bit saturating subtract. -/
def opSubSatN32 : LaneOp := .two (subSat .n32)
def execSubSatN32 (s : State) : Host.Outcome State Fault Refusal := fireLane s opSubSatN32

/-- R105. Signed 64-bit saturating subtract. -/
def opSubSatI64 : LaneOp := .two (subSat .i64)
def execSubSatI64 (s : State) : Host.Outcome State Fault Refusal := fireLane s opSubSatI64

/-- R105. Unsigned 64-bit saturating subtract. -/
def opSubSatN64 : LaneOp := .two (subSat .n64)
def execSubSatN64 (s : State) : Host.Outcome State Fault Refusal := fireLane s opSubSatN64

/-- R106. Low 32 bits of the product. -/
def opMulB32 : LaneOp := .two (mulLow .b32)
def execMulB32 (s : State) : Host.Outcome State Fault Refusal := fireLane s opMulB32

/-- R106. Low 64 bits of the product. -/
def opMulB64 : LaneOp := .two (mulLow .b64)
def execMulB64 (s : State) : Host.Outcome State Fault Refusal := fireLane s opMulB64

/-- R106. High 32 bits of the signed product. -/
def opMulhiI32 : LaneOp := .two (mulHigh .i32)
def execMulhiI32 (s : State) : Host.Outcome State Fault Refusal := fireLane s opMulhiI32

/-- R106. High 32 bits of the unsigned product. -/
def opMulhiN32 : LaneOp := .two (mulHigh .n32)
def execMulhiN32 (s : State) : Host.Outcome State Fault Refusal := fireLane s opMulhiN32

/-- R106. High 64 bits of the signed product. -/
def opMulhiI64 : LaneOp := .two (mulHigh .i64)
def execMulhiI64 (s : State) : Host.Outcome State Fault Refusal := fireLane s opMulhiI64

/-- R106. High 64 bits of the unsigned product. -/
def opMulhiN64 : LaneOp := .two (mulHigh .n64)
def execMulhiN64 (s : State) : Host.Outcome State Fault Refusal := fireLane s opMulhiN64

/-- R106. Low 32 bits of a times b plus c. -/
def opMadB32 : LaneOp := .three (madLow .b32)
def execMadB32 (s : State) : Host.Outcome State Fault Refusal := fireLane s opMadB32

/-- R106. Low 64 bits of a times b plus c. -/
def opMadB64 : LaneOp := .three (madLow .b64)
def execMadB64 (s : State) : Host.Outcome State Fault Refusal := fireLane s opMadB64

/-- R107. Signed 32-bit division. -/
def opDivI32 : LaneOp := .two (divQuot .i32)
def execDivI32 (s : State) : Host.Outcome State Fault Refusal := fireLane s opDivI32

/-- R107. Unsigned 32-bit division. -/
def opDivN32 : LaneOp := .two (divQuot .n32)
def execDivN32 (s : State) : Host.Outcome State Fault Refusal := fireLane s opDivN32

/-- R107. Signed 64-bit division. -/
def opDivI64 : LaneOp := .two (divQuot .i64)
def execDivI64 (s : State) : Host.Outcome State Fault Refusal := fireLane s opDivI64

/-- R107. Unsigned 64-bit division. -/
def opDivN64 : LaneOp := .two (divQuot .n64)
def execDivN64 (s : State) : Host.Outcome State Fault Refusal := fireLane s opDivN64

/-- R107. Signed 32-bit remainder. -/
def opRemI32 : LaneOp := .two (divRem .i32)
def execRemI32 (s : State) : Host.Outcome State Fault Refusal := fireLane s opRemI32

/-- R107. Unsigned 32-bit remainder. -/
def opRemN32 : LaneOp := .two (divRem .n32)
def execRemN32 (s : State) : Host.Outcome State Fault Refusal := fireLane s opRemN32

/-- R107. Signed 64-bit remainder. -/
def opRemI64 : LaneOp := .two (divRem .i64)
def execRemI64 (s : State) : Host.Outcome State Fault Refusal := fireLane s opRemI64

/-- R107. Unsigned 64-bit remainder. -/
def opRemN64 : LaneOp := .two (divRem .n64)
def execRemN64 (s : State) : Host.Outcome State Fault Refusal := fireLane s opRemN64

/-- R108. Left shift without count reduction. -/
def opShl (w : Width) : LaneOp := .two (shiftLeft w)
def execShl (w : Width) (s : State) : Host.Outcome State Fault Refusal := fireLane s (opShl w)

/-- R108. Logical or arithmetic right shift. -/
def opShr (ty : IntType) : LaneOp := .two (shiftRight ty)
def execShr (ty : IntType) (s : State) : Host.Outcome State Fault Refusal := fireLane s (opShr ty)

/-- R109. 32-bit and, or, xor, andn, orn, xnor or not, as the modifier selects. -/
def opBitwiseB32 (op : BitOp) : LaneOp := if op = .not then .one (fun a => bitwise op .b32 a 0) else .two (bitwise op .b32)
def execBitwiseB32 (op : BitOp) (s : State) : Host.Outcome State Fault Refusal := fireLane s (opBitwiseB32 op)

/-- R109. 64-bit and, or, xor, andn, orn, xnor or not, as the modifier selects. -/
def opBitwiseB64 (op : BitOp) : LaneOp := if op = .not then .one (fun a => bitwise op .b64 a 0) else .two (bitwise op .b64)
def execBitwiseB64 (op : BitOp) (s : State) : Host.Outcome State Fault Refusal := fireLane s (opBitwiseB64 op)

/-- R110. Signed 32-bit comparison giving 1 or 0. -/
def opCmpI32 (cc : Cond) : LaneOp := .two (compareOf .i32 cc)
def execCmpI32 (cc : Cond) (s : State) : Host.Outcome State Fault Refusal := fireLane s (opCmpI32 cc)

/-- R110. Unsigned 32-bit comparison. -/
def opCmpN32 (cc : Cond) : LaneOp := .two (compareOf .n32 cc)
def execCmpN32 (cc : Cond) (s : State) : Host.Outcome State Fault Refusal := fireLane s (opCmpN32 cc)

/-- R110. Signed 64-bit comparison. -/
def opCmpI64 (cc : Cond) : LaneOp := .two (compareOf .i64 cc)
def execCmpI64 (cc : Cond) (s : State) : Host.Outcome State Fault Refusal := fireLane s (opCmpI64 cc)

/-- R110. Unsigned 64-bit comparison. -/
def opCmpN64 (cc : Cond) : LaneOp := .two (compareOf .n64 cc)
def execCmpN64 (cc : Cond) (s : State) : Host.Outcome State Fault Refusal := fireLane s (opCmpN64 cc)

/-- R111. Integer minimum. -/
def opMin (ty : IntType) : LaneOp := .two (intMinOf ty)
def execMin (ty : IntType) (s : State) : Host.Outcome State Fault Refusal := fireLane s (opMin ty)

/-- R111. Integer maximum. -/
def opMax (ty : IntType) : LaneOp := .two (intMaxOf ty)
def execMax (ty : IntType) (s : State) : Host.Outcome State Fault Refusal := fireLane s (opMax ty)

/-- R112. Signed absolute value, optionally saturating. -/
def opAbs (sat : Bool) (w : Width) : LaneOp := .one (absOf sat w)
def execAbs (sat : Bool) (w : Width) (s : State) : Host.Outcome State Fault Refusal := fireLane s (opAbs sat w)

/-- R113. Population count. -/
def opPopc (w : Width) : LaneOp := .one (popCount w)
def execPopc (w : Width) (s : State) : Host.Outcome State Fault Refusal := fireLane s (opPopc w)

/-- R113. Leading zero count. -/
def opClz (w : Width) : LaneOp := .one (leadingZeros w)
def execClz (w : Width) (s : State) : Host.Outcome State Fault Refusal := fireLane s (opClz w)

/-- R113. Bit reversal. -/
def opBrev (w : Width) : LaneOp := .one (bitReverse w)
def execBrev (w : Width) (s : State) : Host.Outcome State Fault Refusal := fireLane s (opBrev w)

/-- R114. Bit-field extract with sign or zero extension. -/
def opBfe (ty : IntType) : LaneOp := .two (fieldExtract ty)
def execBfe (ty : IntType) (s : State) : Host.Outcome State Fault Refusal := fireLane s (opBfe ty)

/-- R115. Bit-field insert. -/
def opBfi (w : Width) : LaneOp := .three (fieldInsert w)
def execBfi (w : Width) (s : State) : Host.Outcome State Fault Refusal := fireLane s (opBfi w)

/-- R116. Selects a or b by bit 0 of c. -/
def opSel (w : Width) : LaneOp := .three (selectOf w)
def execSel (w : Width) (s : State) : Host.Outcome State Fault Refusal := fireLane s (opSel w)

/-- R117. Byte or nibble selection and extension. -/
def opBsel : LaneOp := .three (byteSelect)
def execBsel (s : State) : Host.Outcome State Fault Refusal := fireLane s opBsel

/-- R118. Base plus scaled signed index, unchecked. The width is 64 in a block and 32 in an element (R104). -/
def opLeaShort (w : Nat) (sc : Scale) : LaneOp := .two (leaOf w sc 0)
def execLeaShort (sc : Scale) (s : State) : Host.Outcome State Fault Refusal := fireLane s (opLeaShort 64 sc)

/-- R118. Base plus scaled index plus a 32-bit offset from the extension word. The width is 64 in a block and 32 in an element (R104). -/
def opLeaLong (w : Nat) (sc : Scale) (off : W32) : LaneOp := .two (leaOf w sc off)
def execLeaLong (sc : Scale) (off : W32) (s : State) : Host.Outcome State Fault Refusal := fireLane s (opLeaLong 64 sc off)

end Sys2Proof.Machine
end

