-- ==== Sys2Proof/Machine/Lanes.lean ====
section
/-! DEFINITION. The meanings of the lane and group instructions of class 4, and of `lid` (R143 to R150, R70). -/
namespace Sys2Proof.Machine

/-- The uniform operand b of `perm` and `bcast`: that of the lowest lane that is not null (R37, R146). -/
def LaneIn.selector (x : LaneIn) (_ : Nat) : W64 := (x.b.findSome? id).getD 0

/-- R70. Delivers each lane's index. -/
def opLid : LaneOp := ⟨false, false, false, .laneWise, fun _ l => BitVec.ofNat 64 l⟩
def execLid (s : State) : Host.Outcome State Fault Refusal := fireLane s opLid

/-- R146. Reads 32-bit values from lanes named by a selector. -/
def opPermB32 : LaneOp := ⟨true, true, true, .laneWise, fun x l => wrapTo 32 (ux 32 (sourceOf x.view x.a (x.cAt l) (permSource (x.selector l) l)) : Nat)⟩
def execPermB32 (s : State) : Host.Outcome State Fault Refusal := fireLane s opPermB32

/-- R146. Reads 64-bit values from lanes named by a selector. -/
def opPermB64 : LaneOp := ⟨true, true, true, .laneWise, fun x l => wrapTo 64 (ux 64 (sourceOf x.view x.a (x.cAt l) (permSource (x.selector l) l)) : Nat)⟩
def execPermB64 (s : State) : Host.Outcome State Fault Refusal := fireLane s opPermB64

/-- R146. Shifts, rotates, flips or indexes 32-bit values across lanes. -/
def opXlaneB32 (form : LaneForm) (rot : Bool) : LaneOp := ⟨true, true, true, .laneWise, fun x l => wrapTo 32 (ux 32 (sourceOf x.view x.a (x.cAt l) (xlaneSource form rot l (x.bAt l))) : Nat)⟩
def execXlaneB32 (form : LaneForm) (rot : Bool) (s : State) : Host.Outcome State Fault Refusal := fireLane s (opXlaneB32 form rot)

/-- R146. Shifts, rotates, flips or indexes 64-bit values across lanes. -/
def opXlaneB64 (form : LaneForm) (rot : Bool) : LaneOp := ⟨true, true, true, .laneWise, fun x l => wrapTo 64 (ux 64 (sourceOf x.view x.a (x.cAt l) (xlaneSource form rot l (x.bAt l))) : Nat)⟩
def execXlaneB64 (form : LaneForm) (rot : Bool) (s : State) : Host.Outcome State Fault Refusal := fireLane s (opXlaneB64 form rot)

/-- R148. Some, every, mask or same vote over contributing lanes. -/
def opVote (form : VoteForm) : LaneOp := ⟨true, false, false, .uniform, fun x _ => voteOf form x.contributing⟩
def execVote (form : VoteForm) (s : State) : Host.Outcome State Fault Refusal := fireLane s (opVote form)

/-- R148. Mask of lanes with an equal 32-bit value. -/
def opMatchB32 : LaneOp := ⟨true, false, false, .laneWise, fun x l => matchOf .b32 x.contributing (x.aAt l)⟩
def execMatchB32 (s : State) : Host.Outcome State Fault Refusal := fireLane s opMatchB32

/-- R148. Mask of lanes with an equal 64-bit value. -/
def opMatchB64 : LaneOp := ⟨true, false, false, .laneWise, fun x l => matchOf .b64 x.contributing (x.aAt l)⟩
def execMatchB64 (s : State) : Host.Outcome State Fault Refusal := fireLane s opMatchB64

/-- R150. Exact integer inclusive prefix sum. -/
def opGscanAdd (sat : Bool) (n : Bool) : LaneOp := .gscan (redAddInt sat n)
def execGscanAdd (sat : Bool) (n : Bool) (s : State) : Host.Outcome State Fault Refusal := fireLane s (opGscanAdd sat n)

/-- R149. f32 prefix sum by the fixed tree. -/
def opGscanAddF32 : LaneOp := .gscan (redAddFloat tyF32)
def execGscanAddF32 (s : State) : Host.Outcome State Fault Refusal := fireLane s opGscanAddF32

/-- R150. Prefix maximum. -/
def opGscanMax (ty : RedType) : LaneOp := .gscan (redMax ty)
def execGscanMax (ty : RedType) (s : State) : Host.Outcome State Fault Refusal := fireLane s (opGscanMax ty)

/-- R150. Prefix minimum. -/
def opGscanMin (ty : RedType) : LaneOp := .gscan (redMin ty)
def execGscanMin (ty : RedType) (s : State) : Host.Outcome State Fault Refusal := fireLane s (opGscanMin ty)

/-- R150. Exact integer group sum. -/
def opGredAdd (sat : Bool) (n : Bool) : LaneOp := .gred (redAddInt sat n)
def execGredAdd (sat : Bool) (n : Bool) (s : State) : Host.Outcome State Fault Refusal := fireLane s (opGredAdd sat n)

/-- R149. f32 group sum by the fixed tree. -/
def opGredAddF32 : LaneOp := .gred (redAddFloat tyF32)
def execGredAddF32 (s : State) : Host.Outcome State Fault Refusal := fireLane s opGredAddF32

/-- R149. f64 group sum by the fixed tree. -/
def opGredAddF64 : LaneOp := .gred (redAddFloat tyF64)
def execGredAddF64 (s : State) : Host.Outcome State Fault Refusal := fireLane s opGredAddF64

/-- R150. Group maximum. -/
def opGredMax (ty : RedType) : LaneOp := .gred (redMax ty)
def execGredMax (ty : RedType) (s : State) : Host.Outcome State Fault Refusal := fireLane s (opGredMax ty)

/-- R150. Group minimum. -/
def opGredMin (ty : RedType) : LaneOp := .gred (redMin ty)
def execGredMin (ty : RedType) (s : State) : Host.Outcome State Fault Refusal := fireLane s (opGredMin ty)

/-- R150. Group and, or or xor. -/
def opGredBitwise (op : RedBit) : LaneOp := .gred (redBitwise op)
def execGredBitwise (op : RedBit) (s : State) : Host.Outcome State Fault Refusal := fireLane s (opGredBitwise op)

/-- R149. f64 prefix sum by the fixed tree. -/
def opGscanAddF64 : LaneOp := .gscan (redAddFloat tyF64)
def execGscanAddF64 (s : State) : Host.Outcome State Fault Refusal := fireLane s opGscanAddF64

/-- R148. And, or, xor or and-not of 16-bit masks. -/
def opPand (op : MaskOp) : LaneOp := .two (maskOpOf op)
def execPand (op : MaskOp) (s : State) : Host.Outcome State Fault Refusal := fireLane s (opPand op)

/-- R148. Counts bits of a 16-bit mask. -/
def opMpopc : LaneOp := .one (maskPopOf)
def execMpopc (s : State) : Host.Outcome State Fault Refusal := fireLane s opMpopc

/-- R148. Index of the lowest set bit of a mask. -/
def opMffs : LaneOp := .one (maskFirstOf)
def execMffs (s : State) : Host.Outcome State Fault Refusal := fireLane s opMffs

/-- R146. Broadcasts one lane's value as a uniform. -/
def opBcast : LaneOp := ⟨true, true, false, .uniform, fun x l => wrapTo 32 (ux 32 (sourceOf x.view x.a 0 (ux 32 (x.selector l))) : Nat)⟩
def execBcast (s : State) : Host.Outcome State Fault Refusal := fireLane s opBcast

/-- R150. Group sexp combine of (m, s) pairs. -/
def opGredSexp : LaneOp := .gred redSexp
def execGredSexp (s : State) : Host.Outcome State Fault Refusal := fireLane s opGredSexp

/-- R148. Lane masks by relation to the lane index. -/
def opLmask (rel : LaneRel) : LaneOp := ⟨false, false, false, .laneWise, fun _ l => laneMaskOf rel l⟩
def execLmask (rel : LaneRel) (s : State) : Host.Outcome State Fault Refusal := fireLane s (opLmask rel)

end Sys2Proof.Machine
end

