-- ==== Sys2Proof/Machine/Control.lean ====
section
/-! DEFINITION. The meanings of the block instructions of class 0: registers and eyelets, constants, exits, control registers,
traps (R50 to R61, R70, R361, R369, R415 to R419). -/
namespace Sys2Proof.Machine

/-- A fault of the slot at which the block stands. -/
def Ctx.fault (c : Ctx) (code : FaultCode) (lane : Nat := 0) (addr : W64 := 0) (detail : Nat := 0)
    (extra : W64 := 0) : Fired :=
  .trap { code := code, slot := c.blk.slot, lane := lane, addr := addr, detail := detail, extra := extra }

/-- MEM_DATA with the place of the error (R446). -/
def Ctx.memData (c : Ctx) (s : State) (place : Nat) (lane : Nat := 0) (addr : W64 := 0) : Fired :=
  c.fault .memData lane addr place (Config.errorStatus s.tick)

/-- R51. `nop` fires and has no effect. -/
def execNop (s : State) : Host.Outcome State Fault Refusal :=
  fire s fun c => withOn c fun _ => .ok s none none []

/-! ### Registers and eyelets -/

/-- The eyelet's binding where the group has bound it in the direction asked for (R45). -/
def Ctx.eyelet? (c : Ctx) (n : Nat) (output : Bool) : Option Eyelet :=
  match PMap.get? c.group.eyelets n with
  | some e => if e.output = output then some e else none
  | none => none

/-- The token that the group's next read of an eyelet receives: the latched one, or the head of the channel (R48). -/
def Ctx.nextToken? (c : Ctx) (s : State) (n : Nat) (e : Eyelet) : Option Token :=
  match PMap.get? c.group.latches n with
  | some tok => some tok
  | none => (PMap.getD (s.core c.team.core).channels e.channel []).head?

/-- The state with the head of the eyelet's channel in the replay latch (R48). -/
def Ctx.popped (c : Ctx) (s : State) (n : Nat) (e : Eyelet) (tok : Token) : State :=
  match PMap.get? c.group.latches n with
  | some _ => s
  | none =>
    (s.modCore c.team.core fun C =>
      { C with channels := PMap.set C.channels [] e.channel (PMap.getD C.channels e.channel []).tail }).modGroup
        c.t c.g fun G => { G with latches := PMap.insert G.latches n tok }

/-- The lanes of a token: element L where its valid bit is set; a token of another kind than data gives null everywhere
(R52). -/
def tokenLanes (tok : Token) : Lanes :=
  (List.range 16).map fun l =>
    if tok.kind = .data ∧ laneBit tok.valid l then some ((tok.data.getD l 0).setWidth 64) else none

/-- The lanes of a value restricted to a mask. -/
def maskLanes (m : W16) (v : Lanes) : Lanes :=
  (List.range 16).map fun l => if laneBit m l then laneAt v l else none

/-- `rd` of an eyelet register (R48, R52). -/
def fireEyeletRead (s : State) (n : Nat) : Host.Outcome State Fault Refusal :=
  fire s fun c =>
    match c.eyelet? n false with
    | none => c.fault .badHandle
    | some e =>
      match c.nextToken? s n e with
      | none => .wait (.pop n)
      | some tok =>
        if tok.damaged then c.memData s 3
        else .ok (c.popped s n e tok) (some (laneVal (maskLanes c.blk.mask (tokenLanes tok)))) none []

/-- `rd` of an eyelet kind (R48). -/
def fireKindRead (s : State) (n : Nat) : Host.Outcome State Fault Refusal :=
  fire s fun c =>
    match c.eyelet? n false with
    | none => c.fault .badHandle
    | some e =>
      match c.nextToken? s n e with
      | none => .wait (.pop n)
      | some tok => .ok s (some (uniformVal c.blk.mask (BitVec.ofNat 64 (kindNumber tok.kind)))) none []

/-- The register of a reference as a location that may hold an error (R446): file and number. -/
def Ctx.spotOf (c : Ctx) (kind n : Nat) : Spot := .register c.t c.g kind n

/-- `rd` of one or two registers of a file (R52), with the error check of R446. -/
def fireRegisterRead (s : State) (kind : Nat) (ns : List Nat) (v : Ctx → Val) : Host.Outcome State Fault Refusal :=
  fire s fun c => if ns.any fun n => s.poison.contains (c.spotOf kind n) then c.memData s 2 else .ok s (some (v c)) none []

/-- R52. `rd` reads a register, a mask or an eyelet token and sends it to its target. -/
def execRd (r : RegRef) (s : State) : Host.Outcome State Fault Refusal :=
  match r with
  | .lane n b64 =>
    if 248 ≤ n.toNat then fireEyeletRead s (n.toNat - 248)
    else fireRegisterRead s 0 (if b64 then [n.toNat, n.toNat + 1] else [n.toNat]) fun c =>
      { lanes := maskLanes c.blk.mask (c.group.laneContent n.toNat b64), uni := false, reg := some (n.toNat, b64) }
  | .uniform n => fireRegisterRead s 1 [n.toNat] fun c => uniformVal c.blk.mask (PMap.getD c.group.g n.toNat 0)
  | .mask n false => fireRegisterRead s 2 [n.toNat] fun c =>
      laneVal (overLanes c.blk.mask [] fun l =>
        if laneBit (PMap.getD c.group.p n.toNat 0) l then 1 else 0)
  | .mask n true => fireRegisterRead s 2 [n.toNat] fun c =>
      uniformVal c.blk.mask ((PMap.getD c.group.p n.toNat 0).setWidth 64)
  | .kind n => fireKindRead s n.toNat

/-- Whether an atomic of the block delivers to a write port: its value exists at commit (R237). -/
def Ctx.fromAtomic (c : Ctx) : Bool :=
  c.blk.effects.any fun
    | .atomic _ _ _ _ _ dests => dests.contains ⟨BitVec.ofNat 6 c.blk.slot, .w⟩
    | _ => false

/-- Free slots of a channel's receive buffer that no sender has reserved (R49, R261). -/
def State.channelRoom (s : State) (core chan : Nat) : Nat :=
  let C := s.core core
  4 - (PMap.getD C.channels chan []).length - PMap.getD C.reservedSlots chan 0

/-- The state with a slot of a channel reserved. -/
def State.reserveSlot (s : State) (core chan : Nat) : State :=
  s.modCore core fun C =>
    { C with reservedSlots := PMap.set C.reservedSlots 0 chan (PMap.getD C.reservedSlots chan 0 + 1) }

/-- R53. `wr` writes its value at commit; to a bound eyelet it reserves a slot of the channel (R49). -/
def execWr (r : RegRef) (s : State) : Host.Outcome State Fault Refusal :=
  fire s fun c =>
    if (c.port? .w).isNone && !c.fromAtomic then .wait .operand
    else
      match r with
      | .lane n _ =>
        if 248 ≤ n.toNat then
          match c.eyelet? (n.toNat - 248) true with
          | none => c.fault .badHandle
          | some e =>
            if s.channelRoom e.core e.channel = 0 then .wait (.push (n.toNat - 248))
            else
              .ok ((s.reserveSlot e.core e.channel).modFlight c.t c.g fun F =>
                { F with pushes := F.pushes ++ [(e.core, e.channel, n.toNat - 248)] }) none none [.wr c.blk.slot r]
        else .ok s none none [.wr c.blk.slot r]
      | .uniform _ | .mask _ _ | .kind _ => .ok s none none [.wr c.blk.slot r]

/-! ### Constants and addresses -/

/-- The fire of an instruction without operands that delivers a uniform value (R37). -/
def fireUniform (s : State) (x : Ctx → W64) : Host.Outcome State Fault Refusal :=
  fire s fun c => withOn c fun on =>
    .ok s (some (uniformVal on (x c))) (some (uniformVal on (x c))) []

/-- R54. `movi` short: the sign-extended immediate in 32 bits. -/
def execMoviShort (imm : BitVec 12) (s : State) : Host.Outcome State Fault Refusal :=
  fireUniform s fun _ => ((imm.signExtend 32).setWidth 64)

/-- R54. `movi` long: the extension word as the modifier selects. -/
def execMoviLong (ty : MovType) (imm : W32) (s : State) : Host.Outcome State Fault Refusal :=
  fireUniform s fun _ =>
    match ty with
    | .b32 | .n64 => imm.setWidth 64
    | .i64 => imm.signExtend 64

/-- R55. `movh`: the extension word above the low 32 bits of operand a. -/
def opMovh (imm : W32) : LaneOp := .one fun a => (imm.setWidth 64 <<< 32) ||| (a.setWidth 32).setWidth 64
def execMovh (imm : W32) (s : State) : Host.Outcome State Fault Refusal := fireLane s (opMovh imm)

/-- An address 16 × a signed offset away from the block (R56, R70). -/
def fromHead (head : W64) (off : Int) : W64 := head + BitVec.ofInt 64 (16 * off)

/-- R70. `adr`: H plus 16 times the signed extension word. -/
def execAdr (off : W32) (s : State) : Host.Outcome State Fault Refusal :=
  fireUniform s fun c => fromHead c.blk.head off.toInt

/-- R70. `amask`: the group's mask at block start. -/
def execAmask (s : State) : Host.Outcome State Fault Refusal := fireUniform s fun c => c.blk.mask.setWidth 64

/-- R70. `clk`: the die's cycle count; without a guard it fires at block start (R38). -/
def execClk (s : State) : Host.Outcome State Fault Refusal :=
  fireUniform s fun c =>
    BitVec.ofNat 64 (if c.node.guard = .always then c.blk.start else s.clk c.die)

/-- R70. `spin`: where it is not null in some lane, the commit waits until the given cycle after block start. -/
def execSpin (imm : BitVec 12) (s : State) : Host.Outcome State Fault Refusal :=
  fire s fun c => withOn c fun on =>
    .ok s none none (if on = 0 then [] else [.spin c.blk.slot imm.toNat])

/-! ### Exits -/

/-- The lanes of a mask, all with one target. -/
def sameTarget (on : W16) (target : W64) : List (Nat × W64) := (lanesOf on).map fun l => (l, target)

/-- R56. `br`: the non-null lanes continue at H + 16 × offset. -/
def execBr (e : BitVec 2) (off : BitVec 19) (s : State) : Host.Outcome State Fault Refusal :=
  fire s fun c => withOn c fun on =>
    .ok s none none [.exit c.blk.slot e.toNat .br (sameTarget on (fromHead c.blk.head off.toInt))]

/-- R57. `bri`: each lane continues at its operand, which must be a multiple of 16. -/
def execBri (e : BitVec 2) (s : State) : Host.Outcome State Fault Refusal :=
  fire s fun c => withOn c fun on => withPort c .a fun a =>
    let lanes := (List.range 16).filterMap fun l =>
      if laneBit on l then (laneAt a.lanes l).map fun x => (l, x) else none
    match lanes.find? fun x => x.2.toNat % 16 ≠ 0 with
    | some (l, x) => c.fault .align l x
    | none => .ok s none none [.exit c.blk.slot e.toNat .br lanes]

/-- R58. `call`: the non-null lanes go to the target, and the commit pushes a call entry. -/
def execCall (e : BitVec 2) (off : BitVec 19) (s : State) : Host.Outcome State Fault Refusal :=
  fire s fun c => withOn c fun on =>
    .ok s none none [.exit c.blk.slot e.toNat .call (sameTarget on (fromHead c.blk.head off.toInt))]

/-- Goes on with a uniform block address on port a: ALIGN is checked whatever the guard, unless the operand is null in every
lane, in which case the instruction is null (R37, R61, R70). -/
def withBlockAddress (c : Ctx) (k : Option W64 → W16 → Fired) : Fired :=
  withOn c fun on => withPort c .a fun a =>
    match a.uniform? with
    | none => k none 0
    | some x => if x.toNat % 16 ≠ 0 then c.fault .align 0 x else k (some x) (liveOn on [a.lanes])

/-- R70. `call.ind`: a call of the uniform address in operand a. -/
def execCallInd (e : BitVec 2) (s : State) : Host.Outcome State Fault Refusal :=
  fire s fun c => withBlockAddress c fun x on =>
    .ok s none none [.exit c.blk.slot e.toNat .call (sameTarget on (x.getD 0))]

/-- R59. `ret`: the commit returns the non-null lanes to the address in the top call entry. -/
def execRet (e : BitVec 2) (s : State) : Host.Outcome State Fault Refusal :=
  fire s fun c => withOn c fun on => .ok s none none [.exit c.blk.slot e.toNat .ret (sameTarget on 0)]

/-- R60. `exit`: the commit marks the non-null lanes exited. -/
def execExit (e : BitVec 2) (s : State) : Host.Outcome State Fault Refusal :=
  fire s fun c => withOn c fun on => .ok s none none [.exit c.blk.slot e.toNat .exit (sameTarget on 0)]

/-- R61. `yield`: the commit sets g62 to operand a and the team yields. -/
def execYield (e : BitVec 2) (s : State) : Host.Outcome State Fault Refusal :=
  fire s fun c => withBlockAddress c fun x on =>
    .ok s none none [.exit c.blk.slot e.toNat .yield (sameTarget on (x.getD 0))]

/-- R361. `jset`: where it is not null in some lane, it names the join address of the commit's split. -/
def execJset (off : BitVec 19) (s : State) : Host.Outcome State Fault Refusal :=
  fire s fun c => withOn c fun on =>
    .ok s none none (if on = 0 then [] else [.jset c.blk.slot (fromHead c.blk.head off.toInt)])

/-- R369. `rejoin`: the commit records each lane's exit target where a packing is open. -/
def execRejoin (s : State) : Host.Outcome State Fault Refusal :=
  fire s fun c => withOn c fun on => .ok s none none [.rejoin c.blk.slot on]

/-! ### Control registers, traps -/

/-- The number of a control register (R415). -/
def ctlNumber : CtlReg → Nat
  | .laneid => 0x000 | .groupid => 0x001 | .teamid => 0x002 | .clusterid => 0x003 | .coreid => 0x004
  | .dieid => 0x005 | .teamh => 0x006 | .ibud => 0x010 | .tbud => 0x011 | .cont => 0x012 | .prio => 0x018
  | .waitswap => 0x019 | .tapest => 0x020 | .tapeseg => 0x021 | .asid => 0x030 | .tenant => 0x031
  | .fltinfo => 0x040 | .fltaddr => 0x041 | .epc => 0x042 | .ssca => 0x043 | .sscb => 0x044 | .hsel => 0x050
  | .hent0 => 0x051 | .hent1 => 0x052

/-- Every control register of R415. -/
def ctlRegs : List CtlReg :=
  [.laneid, .groupid, .teamid, .clusterid, .coreid, .dieid, .teamh, .ibud, .tbud, .cont, .prio, .waitswap, .tapest,
    .tapeseg, .asid, .tenant, .fltinfo, .fltaddr, .epc, .ssca, .sscb, .hsel, .hent0, .hent1]

/-- TAPEST (R183). -/
def Tape.word (T : Tape) : W64 :=
  BitVec.ofNat 64 ((if T.policy then 1 else 0) + T.quota % 2 ^ 16 * 2
    + (match T.mode with | .idle => 0 | .recording => 1 | .closed => 2 | .reversing => 3) * 2 ^ 17
    + (if T.marker then 2 ^ 19 else 0) + T.used % 2 ^ 16 * 2 ^ 20)

/-- Word 0 of a handler entry (R342). -/
def Handler.word0 (H : Handler) : W64 :=
  let bit (b : Bool) (n : Nat) : Nat := if b then 2 ^ n else 0
  BitVec.ofNat 64 (bit H.valid 0 + bit H.masked 1 + H.channel % 2 ^ 8 * 2 ^ 2 + H.prio % 2 ^ 5 * 2 ^ 10
    + bit H.frame 15 + bit H.grid 16 + bit H.sup 17 + H.slots % 2 ^ 3 * 2 ^ 18 + H.fbase % 2 ^ 13 * 2 ^ 21
    + H.asid.toNat * 2 ^ 34 + bit H.age.isSome 50 + H.present % 2 ^ 8 * 2 ^ 51)

/-- Word 1 of a handler entry: bits [55:6] of the template's address (R342). -/
def Handler.word1 (H : Handler) : W64 := BitVec.ofNat 64 (H.template / 64 % 2 ^ 50)

/-- The value of a control register for a group, in 64 bits; LANEID is taken in each lane (R415, R416). -/
def State.ctlValue (s : State) (T : Team) (g : Nat) (G : Group) (r : CtlReg) : W64 :=
  let C := s.core T.core
  match r with
  | .laneid => 0
  | .groupid => BitVec.ofNat 64 g
  | .teamid => T.teamid.setWidth 64
  | .clusterid => BitVec.ofNat 64 T.member
  | .coreid => BitVec.ofNat 64 (coreIdOf T.core)
  | .dieid => BitVec.ofNat 64 (dieOf T.core)
  | .teamh => T.handle.setWidth 64
  | .ibud => BitVec.ofNat 64 T.ibud
  | .tbud => BitVec.ofNat 64 T.tbud
  | .cont => T.cont
  | .prio => BitVec.ofNat 64 T.prio
  | .waitswap => BitVec.ofNat 64 T.waitswap
  | .tapest => T.tape.word
  | .tapeseg => BitVec.ofNat 64 (T.tape.base.toNat % 2 ^ 56)
  | .asid => T.asid.setWidth 64
  | .tenant => (s.tenantOf T.asid).setWidth 64
  | .fltinfo => G.fltinfo
  | .fltaddr => G.fltaddr
  | .epc => G.epc
  | .ssca => G.ssca
  | .sscb => G.sscb
  | .hsel => C.hsel
  | .hent0 => (PMap.getD C.handlers (C.hsel.toNat % 64) {}).word0
  | .hent1 => (PMap.getD C.handlers (C.hsel.toNat % 64) {}).word1

/-- The control registers of a group as a block finds them at its start (R416). -/
def State.ctlValues (s : State) (T : Team) (g : Nat) (G : Group) : PMap W64 :=
  ctlRegs.foldl (fun m r => PMap.set m 0 (ctlNumber r) (s.ctlValue T g G r)) []

/-- R416. `srr`: the register's value at block start. -/
def execSrr (cr : CtlReg) (s : State) : Host.Outcome State Fault Refusal :=
  fire s fun c => withOn c fun on =>
    let v := if cr = .laneid then laneVal (overLanes on [] fun l => BitVec.ofNat 64 l)
      else uniformVal on (PMap.getD c.blk.regs (ctlNumber cr) 0)
    .ok s (some v) none []

/-- The lowest reserved bit of a control register that `srw` may write (R415): none where every bit is a field. -/
def ctlReserved : CtlReg → Nat
  | .ibud | .tbud => 48
  | .prio => 5
  | .waitswap | .fltinfo => 32
  | .tapest => 36
  | .hsel => 6
  | .hent0 => 59
  | .hent1 => 50
  | _ => 64

/-- Whether R183 or R354 forbids a tenant to write the value: PRIO above the limit of its launch, or a change of quota. -/
def Ctx.forbids (c : Ctx) (r : CtlReg) (x : W64) : Bool :=
  !c.sup && (match r with
    | .prio => decide (c.team.entryPrio < x.toNat)
    | .tapest => decide (bitsOf x.toNat 1 16 ≠ c.team.tape.quota)
    | _ => false)

/-- R417. `srw`: writes operand a at commit; reserved bits and forbidden values are checked at fire, whatever the
guard. -/
def execSrw (cr : CtlReg) (s : State) : Host.Outcome State Fault Refusal :=
  fire s fun c => withOn c fun on => withPort c .a fun a =>
    match a.uniform? with
    | none => .ok s none none []
    | some x =>
      if 2 ^ ctlReserved cr ≤ x.toNat then c.fault .blockForm
      else if c.forbids cr x then c.fault .priv
      else .ok s none none (if liveOn on [a.lanes] = 0 then [] else [.srw c.blk.slot cr x])

/-- R419. `trap`: where it is not null in some lane, the group enters supervisor mode after the commit. -/
def execTrap (imm : BitVec 12) (s : State) : Host.Outcome State Fault Refusal :=
  fire s fun c => withOn c fun on =>
    .ok s none none (if on = 0 then [] else [.trap c.blk.slot imm.toNat])

/-- R419. `eret`: where it is not null in some lane, the commit leaves supervisor mode. -/
def execEret (s : State) : Host.Outcome State Fault Refusal :=
  fire s fun c => withOn c fun on =>
    .ok s none none (if on = 0 then [] else [.eret c.blk.slot])

end Sys2Proof.Machine
end

