-- ==== Sys2Proof/Machine/MemInstr.lean ====
section
/-! DEFINITION. The meanings of the loads, stores, atomics and fences of class 5 (R230 to R239), with what their commit-time
effects do. -/
namespace Sys2Proof.Machine

/-- Bytes of the group's spill stack that spilled call and reconvergence entries occupy (R58, R360). -/
def Group.spilledBytes (G : Group) : Nat := 16 * ((G.calls.length - 8) + (G.recon.length - 32))

/-- A fault of an access: lane, code, level, address. -/
structure AccessFault where
  lane : Nat
  code : FaultCode
  level : Nat := 0
  addr : W64
  deriving DecidableEq, Repr

/-- The address of one lane's access in its space, checked in the order of R231: translation, range and permission,
alignment. -/
def Ctx.resolve (c : Ctx) (s : State) (sp : MemSpace) (need : Perm) (size lane : Nat) (x : W64) :
    Except AccessFault Nat :=
  let offset (limit : Nat) : Except AccessFault Nat :=
    let o := x.toNat % 2 ^ 32
    if limit < o + size then .error ⟨lane, .access, 0, BitVec.ofNat 64 o⟩
    else if o % size ≠ 0 then .error ⟨lane, .align, 0, BitVec.ofNat 64 o⟩
    else .ok o
  match sp with
  | .spill => offset (c.team.spillSize - c.group.spilledBytes)
  | .shared => offset c.team.sharedSize
  | .spad =>
    match s.translate c.team.asid c.sup need Window.isScratchpad x with
    | .error f => .error ⟨lane, f.code, f.level, x⟩
    | .ok p => if x.toNat % size ≠ 0 then .error ⟨lane, .align, 0, x⟩ else .ok p.pa

/-- The addresses of the lanes given, in ascending order; the first faulting lane stops (R231). -/
def Ctx.resolveAll (c : Ctx) (s : State) (sp : MemSpace) (need : Perm) (size : Nat) (a : Lanes) :
    List Nat → Except AccessFault (List (Nat × Nat))
  | [] => .ok []
  | l :: rest =>
    match c.resolve s sp need size l ((laneAt a l).getD 0) with
    | .error f => .error f
    | .ok x =>
      match c.resolveAll s sp need size a rest with
      | .error f => .error f
      | .ok more => .ok ((l, x) :: more)

/-- The fault of an access as the block's fault. -/
def Ctx.accessFault (c : Ctx) (f : AccessFault) : Fired := c.fault f.code f.lane f.addr f.level

/-- The bytes of a space as a number: the shared memory of a team, the spill stack of a group, or the scratchpads. -/
def State.load (s : State) (sp : MemSpace) (t g a size : Nat) : Nat :=
  match sp with
  | .shared => match s.team? t with | some T => sramRead T.shared a size | none => 0
  | .spill => match s.group? t g with | some G => sramRead G.spill a size | none => 0
  | .spad => s.readNat 0 a size

/-- The state with a number stored in a space (R234). A store mends an uncorrectable error (R446). -/
def State.store (s : State) (sp : MemSpace) (t g a size x : Nat) : State :=
  match sp with
  | .shared =>
    { s.modTeam t (fun T => { T with shared := sramWrite T.shared a size x }) with
      poison := s.poison.filter fun q => !(List.range size).any fun i => q = .shared t (a + i) }
  | .spill =>
    { s.modGroup t g (fun G => { G with spill := sramWrite G.spill a size x }) with
      poison := s.poison.filter fun q => !(List.range size).any fun i => q = .spill t g (a + i) }
  | .spad => s.writeNat 0 a size x

/-- Whether an access to a space meets an uncorrectable error, and the place that MEM_DATA names (R446). -/
def State.spoiledIn (s : State) (sp : MemSpace) (t g a size : Nat) : Option Nat :=
  match sp with
  | .shared => if s.poison.any (fun q => (List.range size).any fun i => q = .shared t (a + i)) then some 2 else none
  | .spill => if s.poison.any (fun q => (List.range size).any fun i => q = .spill t g (a + i)) then some 2 else none
  | .spad => if s.spoiled a size then some 1 else none

/-! ### Loads -/

/-- The bytes that a load takes (R77). -/
def loadSize : LoadWidth → Nat
  | .n8 | .i8 => 1
  | .n16 | .i16 => 2
  | .b32 => 4
  | .b64 => 8

/-- The value that a load delivers for the bytes it has read (R234). -/
def loadValue (w : LoadWidth) (v : Nat) : W64 :=
  match w with
  | .i8 => ((BitVec.ofNat 8 v).signExtend 32).setWidth 64
  | .i16 => ((BitVec.ofNat 16 v).signExtend 32).setWidth 64
  | _ => BitVec.ofNat 64 v

/-- The address that a fault of a lane's access names (R231): a scratchpad's virtual address, or the offset in an SRAM space. -/
def namedAddress (sp : MemSpace) (a : Lanes) (l x : Nat) : W64 :=
  match sp with
  | .spad => (laneAt a l).getD 0
  | .shared | .spill => BitVec.ofNat 64 x

/-- The fire of a load (R234): every lane that is not null reads its bytes. -/
def fireLoad (s : State) (sp : MemSpace) (w : LoadWidth) : Host.Outcome State Fault Refusal :=
  fire s fun c => withOn c fun on => withPort c .a fun a =>
    match c.resolveAll s sp .r (loadSize w) a.lanes (lanesOf (liveOn on [a.lanes])) with
    | .error f => c.accessFault f
    | .ok addrs =>
      match addrs.findSome? fun (l, x) => (s.spoiledIn sp c.t c.g x (loadSize w)).map fun p => (l, x, p) with
      | some (l, x, place) => c.memData s place l (namedAddress sp a.lanes l x)
      | none =>
        let v := laneVal ((List.range 16).map fun l =>
          (PMap.get? addrs l).map fun x => loadValue w (s.load sp c.t c.g x (loadSize w)))
        .ok s (some v) (some v) []

/-! ### Stores -/

/-- The bytes that a store writes (R77). -/
def storeSize : StoreWidth → Nat
  | .b8 => 1
  | .b16 => 2
  | .b32 => 4
  | .b64 => 8

/-- One lane's part of an access. -/
def laneAccess (b d : Lanes) (x : Nat × Nat) : LaneAccess :=
  { lane := x.1, addr := x.2, b := (laneAt b x.1).getD 0, c := (laneAt d x.1).getD 0 }

/-- The fire of a store (R231, R234): it keeps the translation for its commit. -/
def fireStore (s : State) (sp : MemSpace) (size : Nat) : Host.Outcome State Fault Refusal :=
  fire s fun c => withOn c fun on => withPort c .a fun a => withPort c .b fun b =>
    match c.resolveAll s sp .w size a.lanes (lanesOf (liveOn on [a.lanes, b.lanes])) with
    | .error f => c.accessFault f
    | .ok addrs => .ok s none none [.store c.blk.slot sp size (addrs.map (laneAccess b.lanes []))]

/-- A store's bytes at commit, lanes ascending, so that the higher lane's bytes stand (R229, R234). -/
def State.doStore (s : State) (sp : MemSpace) (t g size : Nat) : List LaneAccess → State
  | [] => s
  | x :: rest => State.doStore (s.store sp t g x.addr size (x.b.toNat % 2 ^ (8 * size))) sp t g size rest

def execLds (w : LoadWidth) (s : State) : Host.Outcome State Fault Refusal := fireLoad s .shared w
def execLdx (w : LoadWidth) (s : State) : Host.Outcome State Fault Refusal := fireLoad s .spad w
def execLdk (w : LoadWidth) (s : State) : Host.Outcome State Fault Refusal := fireLoad s .spill w
def execSts (w : StoreWidth) (s : State) : Host.Outcome State Fault Refusal := fireStore s .shared (storeSize w)
def execStx (w : StoreWidth) (s : State) : Host.Outcome State Fault Refusal := fireStore s .spad (storeSize w)
def execStk (w : StoreWidth) (s : State) : Host.Outcome State Fault Refusal := fireStore s .spill (storeSize w)

/-- The space that an extension word names (R78). -/
def spaceOf : Space → MemSpace
  | .shared => .shared
  | .spad => .spad

/-- R235. `ld.acq`: a load; each access takes its moment at once, so the acquire orders nothing further here. -/
def execLdAcq (_sc : Scope) (sp : Space) (wide : Bool) (s : State) : Host.Outcome State Fault Refusal :=
  fireLoad s (spaceOf sp) (if wide then .b64 else .b32)

/-- R235. `st.rel`: a store. -/
def execStRel (_sc : Scope) (sp : Space) (wide : Bool) (s : State) : Host.Outcome State Fault Refusal :=
  fireStore s (spaceOf sp) (if wide then 8 else 4)

/-! ### Atomics -/

/-- The new value of a location that holds o (R236). -/
def atomValue (op : AtomOp) (wide : Bool) (o b d : W64) : W64 :=
  let w : Width := if wide then .b64 else .b32
  let n := widthBits w
  let it (sgn : Bool) : IntType := if wide then (if sgn then .i64 else .n64) else (if sgn then .i32 else .n32)
  let ft : FType := if wide then tyF64 else tyF32
  let low (x : W64) : W64 := BitVec.ofNat 64 (ux n x)
  match op with
  | .add => addWrap w o b
  | .and => bitwise .and w o b
  | .or => bitwise .or w o b
  | .xor => bitwise .xor w o b
  | .minI => intMinOf (it true) o b
  | .maxI => intMaxOf (it true) o b
  | .minN => intMinOf (it false) o b
  | .maxN => intMaxOf (it false) o b
  | .exch => low b
  | .cas => if low o = low b then low d else low o
  | .inc =>
    if ux n b = 0 then addWrap w o 1
    else if ux n o + 1 < ux n b then addWrap w o 1 else 0
  | .dec =>
    if ux n b = 0 then subWrap w o 1
    else if ux n o = 0 ∨ ux n b ≤ ux n o then subWrap w b 1 else subWrap w o 1
  | .fadd => faddOf ft .rne o b
  | .faddF16x2 => faddOf tyF16x2 .rne o b
  | .faddBf16x2 => faddOf tyBf16x2 .rne o b
  | .fmax => fmaxOf ft o b
  | .fmin => fminOf ft o b

/-- The write ports that an atomic's targets name (R237). -/
def nodeDests (n : Node) : List Dest := n.t0.toList ++ n.t1.toList

/-- The fire of an atomic (R231, R238): addresses are checked, and the read-modify-write takes place at commit. -/
def fireAtomic (s : State) (op : AtomOp) (sp : Space) (wide useC : Bool) : Host.Outcome State Fault Refusal :=
  fire s fun c => withOn c fun on => withPort c .a fun a => withPort c .b fun b =>
    match c.portIf? useC .c with
    | none => .wait .operand
    | some d =>
      let ins := [a.lanes, b.lanes] ++ (if useC then [d.lanes] else [])
      match c.resolveAll s (spaceOf sp) .rw (if wide then 8 else 4) a.lanes (lanesOf (liveOn on ins)) with
      | .error f => c.accessFault f
      | .ok addrs =>
        .ok s none none [.atomic c.blk.slot op (spaceOf sp) wide (addrs.map (laneAccess b.lanes d.lanes)) (nodeDests c.node)]

/-- The read-modify-writes of an atomic at commit, lanes ascending, each reading what the lower lanes left: the state and the
old values by lane (R238). -/
def State.doAtomic (s : State) (op : AtomOp) (sp : MemSpace) (wide : Bool) (t g : Nat) :
    List LaneAccess → State × PMap W64
  | [] => (s, [])
  | x :: rest =>
    let size := if wide then 8 else 4
    let o := BitVec.ofNat 64 (s.load sp t g x.addr size)
    let r := State.doAtomic (s.store sp t g x.addr size (atomValue op wide o x.b x.c).toNat) op sp wide t g rest
    (r.1, (x.lane, o) :: r.2)

def execAtomAdd (k : AtomKind) (wide : Bool) (s : State) := fireAtomic s .add k.space wide false
def execAtomAnd (k : AtomKind) (wide : Bool) (s : State) := fireAtomic s .and k.space wide false
def execAtomOr (k : AtomKind) (wide : Bool) (s : State) := fireAtomic s .or k.space wide false
def execAtomXor (k : AtomKind) (wide : Bool) (s : State) := fireAtomic s .xor k.space wide false
def execAtomMinI (k : AtomKind) (wide : Bool) (s : State) := fireAtomic s .minI k.space wide false
def execAtomMaxI (k : AtomKind) (wide : Bool) (s : State) := fireAtomic s .maxI k.space wide false
def execAtomMinN (k : AtomKind) (wide : Bool) (s : State) := fireAtomic s .minN k.space wide false
def execAtomMaxN (k : AtomKind) (wide : Bool) (s : State) := fireAtomic s .maxN k.space wide false
def execAtomExch (k : AtomKind) (wide : Bool) (s : State) := fireAtomic s .exch k.space wide false
def execAtomCas (k : AtomKind) (wide : Bool) (s : State) := fireAtomic s .cas k.space wide true
def execAtomInc (k : AtomKind) (wide : Bool) (s : State) := fireAtomic s .inc k.space wide false
def execAtomDec (k : AtomKind) (wide : Bool) (s : State) := fireAtomic s .dec k.space wide false
def execAtomFadd (ty : FaddType) (k : AtomKind) (s : State) := fireAtomic s .fadd k.space (ty == .f64) false
def execAtomFaddX2 (ty : FaddPair) (k : AtomKind) (s : State) :=
  fireAtomic s (match ty with | .f16x2 => .faddF16x2 | .bf16x2 => .faddBf16x2) k.space false false
def execAtomFmax (k : AtomKind) (wide : Bool) (s : State) := fireAtomic s .fmax k.space wide false
def execAtomFmin (k : AtomKind) (wide : Bool) (s : State) := fireAtomic s .fmin k.space wide false

/-- R75. `red.fadd.f32`: the effect of `atom.fadd.f32`, with no result. -/
def execRedFaddF32 (_sc : Scope) (sp : Space) (s : State) := fireAtomic s .fadd sp false false

/-! ### Fences -/

/-- R239. `fence`: each access takes its moment in program order, so the fence orders nothing further. -/
def execFence (_sc : Scope) (s : State) : Host.Outcome State Fault Refusal :=
  fire s fun c => withOn c fun on => .ok s none none (if on = 0 then [] else [.fence c.blk.slot false])

/-- R217, R239. `fence.sc`: the commit waits for every copy that the group has issued. -/
def execFenceSc (s : State) : Host.Outcome State Fault Refusal :=
  fire s fun c => withOn c fun on => .ok s none none (if on = 0 then [] else [.fence c.blk.slot true])

/-! ### Uniform operands -/

/-- Goes on with a uniform operand on a port; where it is null in every lane the instruction is null (R37, R232). -/
def withUniform (c : Ctx) (port : Port) (k : Val → W64 → Fired) (null : Fired) : Fired :=
  withPort c port fun v => match v.uniform? with | none => null | some x => k v x

/-- The outcome of a computation that may have met a fault. -/
def Fired.ofExcept : Except Fired Fired → Fired
  | .ok f => f
  | .error f => f

/-- What the checks of a uniform operand find: they are made whatever the guard and whatever the other operands are, and skipped only
where this operand is null in every lane (R37, R232, R434). -/
def Val.checked {α : Type} (v : Val) (check : W64 → Except Fired α) : Except Fired (Option α) :=
  match v.uniform? with
  | none => .ok none
  | some x => (check x).map some

/-- Goes on with two operands on ports a and b and the lanes in which both stand. -/
def withTwo (c : Ctx) (k : Val → Val → W16 → Fired) : Fired :=
  withOn c fun on => withPort c .a fun a => withPort c .b fun b => k a b (liveOn on [a.lanes, b.lanes])

/-! ### Multicast -/

/-- R246. `mcast`: stores b to each named member's shared memory at offset a. -/
def execMcast (s : State) : Host.Outcome State Fault Refusal :=
  fire s fun c => withOn c fun on => withPort c .a fun a => withPort c .b fun b =>
    withUniform c .c (null := .ok s none none []) fun d m =>
      if m.toNat / 2 ^ 12 ≠ 0 then c.fault .badHandle
      else if m.toNat / 2 ^ (c.team.cw * c.team.ch) ≠ 0 then c.fault .mcastRange
      else
        match c.resolveAll s .shared .w 4 a.lanes (lanesOf (liveOn on [a.lanes, b.lanes, d.lanes])) with
        | .error f => c.accessFault f
        | .ok addrs => .ok s none none [.mcast c.blk.slot m.toNat (addrs.map (laneAccess b.lanes []))]

/-- The team that is member m of the cluster with the given lead, while its shared memory exists (R246). -/
def State.memberTeam (s : State) (lead m : Nat) : Option Nat :=
  (s.teams.find? fun (_, T) => T.lead = lead ∧ T.member = m).map (·.1)

/-- A multicast store at commit (R246): lanes ascending, and each named member in turn. -/
def State.doMcast (s : State) (lead members g : Nat) : List LaneAccess → State
  | [] => s
  | x :: rest =>
    let s := (List.range 12).foldl (fun s m =>
      if members.testBit m then
        match s.memberTeam lead m with
        | some u => s.store .shared u g x.addr 4 (x.b.toNat % 2 ^ 32)
        | none => s
      else s) s
    State.doMcast s lead members g rest

end Sys2Proof.Machine
end

