-- ==== Sys2Proof/Machine/Barriers.lean ====
section
/-! DEFINITION. The hardware barriers and the memory barrier words (R240 to R245, R447): the meanings of their instructions
and what their commit-time effects do. -/
namespace Sys2Proof.Machine

/-! ### The barrier table -/

/-- The control word of the barriers, or none where R240 refuses it: a reserved bit, a scope narrower than the kind, a count
above 384, or op or dest in anything but `bar.red`. -/
def barWordOf (red : Bool) (x : W64) : Option BarWord :=
  let f := bitsOf x.toNat
  let cluster := f 4 1 = 1
  let scope := f 5 3
  let narrow := scope ≠ 0 ∧ (5 < scope ∨ scope < (if cluster then 2 else 1))
  if f 27 37 ≠ 0 ∨ narrow ∨ 384 < f 8 11 ∨ (red = false ∧ f 19 8 ≠ 0) then none
  else some { id := f 0 4, cluster := cluster, scope := scope, count := f 8 11, op := f 19 2, dest := f 21 6 }

/-- A fresh entry: the first arrival's word fixes scope and count (R241). -/
def State.newBar (s : State) (T : Team) (w : BarWord) : BarEntry :=
  { id := w.id, cluster := w.cluster, scope := w.scope, counted := w.count = 0, arrived := 0, phase := false
    expected := if w.count = 0 then s.liveGroups T w.cluster else w.count
    owner := (T.barHome w.cluster).2 }

/-- The barrier's entry in the table: one is allocated where it has none (R241). -/
def State.withBar (s : State) (T : Team) (w : BarWord) : State :=
  let home := T.barHome w.cluster
  if (s.core home.1).bars.any (·.is home.2 w.id w.cluster) then s
  else s.modCore home.1 fun C => { C with bars := C.bars ++ [s.newBar T w] }

/-- The valid entry that is not pinned and whose last arrival is oldest (R447). -/
def Core.oldestBar (C : Core) : Option BarEntry :=
  C.bars.foldl (fun best b =>
    if b.pinned ≠ [] then best
    else match best with
      | some x => if x.lastArrival ≤ b.lastArrival then best else some b
      | none => some b) none

/-- Whether an arrival finds its entry, or a free one (R242). -/
def State.barReady (s : State) (T : Team) (w : BarWord) : Bool :=
  let home := T.barHome w.cluster
  let C := s.core home.1
  C.bars.any (·.is home.2 w.id w.cluster)
    || (!C.spilledBars.any (·.is home.2 w.id w.cluster) && decide (C.bars.length < 32))

/-- The table entry of a barrier with a pin of a group's block (R447). -/
def State.pinBar (s : State) (by_ : Nat × Nat) (T : Team) (w : BarWord) : State :=
  let home := T.barHome w.cluster
  s.modCore home.1 fun C =>
    { C with
      bars := C.bars.map fun b => if b.is home.2 w.id w.cluster then { b with pinned := b.pinned ++ [by_] } else b }

/-- The bytes of a team's context (R352, R394): registers, shared memory and spill stacks, tiles, buffers and the half of the tape
buffer. -/
def Team.contextBytes (T : Team) : Nat :=
  T.groups.length * (1024 * T.k + T.spillSize) + T.sharedSize
    + (match T.matrix with | some M => 65536 * M.tiles + 34816 * (M.depthA + M.depthB) | none => 0)
    + (if T.tape.mode = .recording ∨ T.tape.mode = .reversing then 32768 else 0)

/-- The 64 bits of a barrier entry (R241). -/
def BarEntry.image (b : BarEntry) : Nat :=
  b.id + (if b.cluster then 2 ^ 4 else 0) + b.scope * 2 ^ 5 + b.expected % 2 ^ 11 * 2 ^ 8 + b.arrived % 2 ^ 11 * 2 ^ 19
    + (if b.phase then 2 ^ 30 else 0) + 2 ^ 31 + b.owner % 2 ^ 16 * 2 ^ 32

/-- A barrier entry leaves its table and is written to its owner's context in the core's swap area (R447): the manual gives no place of it
there. -/
def State.spillBar (s : State) (core : Nat) (b : BarEntry) : State :=
  let s := s.modCore core fun C => { C with bars := C.bars.filter (· ≠ b), spilledBars := C.spilledBars ++ [b] }
  match PMap.get? s.hub.swapAreas core, s.teams.find? fun (_, T) => T.core = core && T.vid = b.owner with
  | some base, some (_, T) => s.writeNat s.rootGen (base + Config.spillPlace s.tick % T.contextBytes) 8 b.image
  | _, _ => s

/-- A barrier's spilled entry comes back into the table (R447). -/
def State.restoreBar (s : State) (T : Team) (w : BarWord) : State :=
  let home := T.barHome w.cluster
  s.modCore home.1 fun C =>
    match C.spilledBars.find? (·.is home.2 w.id w.cluster) with
    | none => C
    | some b => { C with bars := C.bars ++ [b], spilledBars := C.spilledBars.filter fun x => !x.is home.2 w.id w.cluster }

/-- Room is made for a barrier that a block executed again needs (R447): where the table is full, the oldest entry that is not pinned is
spilled; the needed entry is restored or allocated, and pinned. None while every entry is pinned. -/
def State.makeBarRoom (s : State) (by_ : Nat × Nat) (T : Team) (w : BarWord) : Option State :=
  let home := T.barHome w.cluster
  let C := s.core home.1
  if C.bars.any (·.is home.2 w.id w.cluster) then some (s.pinBar by_ T w)
  else if C.bars.length < 32 then some (((s.restoreBar T w).withBar T w).pinBar by_ T w)
  else
    match C.oldestBar with
    | none => none
    | some o =>
      some ((((s.spillBar home.1 o).restoreBar T w).withBar T w).pinBar by_ T w)

/-- The fire of an arrival: it waits while the group has a pending arrival on the entry; an arrival without an entry raises
BARRIER_SPILL, and makes room when its block executes again (R242, R243, R447). -/
def Ctx.arrive (c : Ctx) (s : State) (w : BarWord) (contribution : Option Nat) (wait : Bool) : Fired :=
  if c.group.pendingOn w.cluster w.id then .wait (.bar w.cluster w.id)
  else if c.group.barSpill = some c.blk.head then
    match s.makeBarRoom (c.t, c.g) c.team w with
    | some s => .ok s none none [.barArrive c.blk.slot w contribution wait]
    | none => .wait .room
  else if s.barReady c.team w then .ok s none none [.barArrive c.blk.slot w contribution wait]
  else c.fault .barrierSpill

/-- The fire of a barrier instruction: its control word is checked whatever the guard (R232, R240), and it acts once unless it
is null in every lane (R243). -/
def fireBar (s : State) (red : Bool) (act : Ctx → BarWord → W16 → Fired) : Host.Outcome State Fault Refusal :=
  fire s fun c => withOn c fun on =>
    withUniform c .a (null := .ok s none none []) fun a x =>
      match barWordOf red x with
      | none => c.fault .badHandle
      | some w => if liveOn on [a.lanes] = 0 then .ok s none none [] else act c w (liveOn on [a.lanes])

/-- R243. `bar.arrive`. -/
def execBarArrive (s : State) : Host.Outcome State Fault Refusal :=
  fireBar s false fun c w _ => c.arrive s w none false

/-- R243. `bar.wait`. -/
def execBarWait (s : State) : Host.Outcome State Fault Refusal :=
  fireBar s false fun c w _ => .ok s none none [.barWait c.blk.slot w]

/-- R243. `bar.sync`. -/
def execBarSync (s : State) : Host.Outcome State Fault Refusal :=
  fireBar s false fun c w _ => c.arrive s w none true

/-- Two contributions combined (R243): and, or, sum, max. -/
def barCombine (op x y : Nat) : Nat :=
  match op with
  | 0 => x * y
  | 1 => Nat.max x y
  | 2 => x + y
  | _ => Nat.max x y

/-- A group's contribution: over its non-null lanes, bit 0 for and and or, the 32-bit value for sum and max (R243). -/
def barContribution (op : Nat) (on : W16) (b : Lanes) : Nat :=
  let xs := (lanesOf on).map fun l => ((laneAt b l).getD 0).toNat
  match op with
  | 0 => xs.foldl (fun acc x => acc * (x % 2)) 1
  | 1 => xs.foldl (fun acc x => Nat.max acc (x % 2)) 0
  | 2 => xs.foldl (fun acc x => acc + x % 2 ^ 32) 0
  | _ => xs.foldl (fun acc x => Nat.max acc (x % 2 ^ 32)) 0

/-- R243. `bar.red`. -/
def execBarRed (s : State) : Host.Outcome State Fault Refusal :=
  fireBar s true fun c w on => withPort c .b fun b =>
    let on := liveOn on [b.lanes]
    if on = 0 then .ok s none none [] else c.arrive s w (some (barContribution w.op on b.lanes)) true

/-- R243. `bar.inval`. -/
def execBarInval (s : State) : Host.Outcome State Fault Refusal :=
  fireBar s false fun c w _ => .ok s none none [.barInval c.blk.slot w]

/-- An arrival at commit (R243): the entry is allocated by the first one (R241). -/
def State.doArrive (s : State) (t g : Nat) (w : BarWord) (contribution : Option Nat) (wait : Bool) : State :=
  match s.team? t with
  | none => s
  | some T =>
    let home := T.barHome w.cluster
    let s := s.withBar T w
    let now := s.clk (dieOf T.core)
    let s := s.modCore home.1 fun C => C.modBar home.2 w.id w.cluster fun b =>
      { b with
        arrived := b.arrived + 1, lastArrival := now, op := w.op
        pending := b.pending ++ [(t, g, contribution.map fun _ => w.dest)]
        sum := match contribution with
          | none => b.sum
          | some x => if b.pending.any (·.2.2.isSome) then barCombine w.op b.sum x else x }
    let s := s.modGroup t g fun G =>
      { G with
        arrivals := G.arrivals ++ [(w.cluster, w.id)]
        barWait := if wait then G.barWait ++ [(w.cluster, w.id)] else G.barWait }
    s.barPhase T w.id w.cluster

/-- `bar.wait` at commit: the next block waits for the arrival on the entry that the group then has pending (R243). -/
def State.doBarWait (s : State) (t g : Nat) (w : BarWord) : State :=
  s.modGroup t g fun G => { G with barWait := G.barWait ++ [(w.cluster, w.id)] }

/-- Whether the group's next block waits for a barrier: it has an arrival pending on one that its last block named (R243). -/
def Group.awaitsBar (G : Group) : Bool := G.barWait.any fun w => G.pendingOn w.1 w.2

/-- `bar.inval` at commit: the entry is freed and its pending arrivals are satisfied (R243). -/
def State.doBarInval (s : State) (t : Nat) (w : BarWord) : State :=
  match s.team? t with
  | none => s
  | some T =>
    let home := T.barHome w.cluster
    match (s.core home.1).bar? home.2 w.id w.cluster with
    | none => s
    | some b =>
      let others (xs : List BarEntry) : List BarEntry := xs.filter fun x => !x.is home.2 w.id w.cluster
      (s.modCore home.1 fun C => { C with bars := others C.bars, spilledBars := others C.spilledBars }).satisfy b
        (b.pending.map fun (t, g, _) => (t, g, none))

/-- The slot of the first arrival of a commit's effects that finds neither its entry nor a free one (R242): those before it in the block
have taken theirs. -/
def State.spilledArrival (s : State) (t : Nat) (T : Team) : List Effect → Option Nat
  | [] => none
  | .barArrive slot w _ _ :: rest => if s.barReady T w then (s.withBar T w).spilledArrival t T rest else some slot
  | .barInval _ w :: rest => (s.doBarInval t w).spilledArrival t T rest
  | _ :: rest => s.spilledArrival t T rest

/-! ### Memory barrier words -/

/-- The word's address in a control word of R245. -/
def mbarAddress (x : W64) : W64 := BitVec.ofNat 64 (bitsOf x.toNat 3 53 * 8)

/-- The awaited phase in a control word of R245, or none for a bad scope code or a phase where none belongs. -/
def mbarPhase (wait : Bool) (x : W64) : Option Nat :=
  let scope := bitsOf x.toNat 0 3
  let phase := bitsOf x.toNat 56 8
  if scope < 3 ∨ 5 < scope ∨ (wait = false ∧ phase ≠ 0) then none else some phase

/-- The word that a control word of R245 names, translated, and the awaited phase: the address and then the rest of the control word are
checked (log entry 106 for the order). -/
def Ctx.mbarWord (c : Ctx) (s : State) (wait : Bool) (need : Perm) (x : W64) : Except Fired (Nat × Nat) :=
  match c.resolve s .spad need 8 0 (mbarAddress x) with
  | .error f => .error (c.accessFault f)
  | .ok pa =>
    match mbarPhase wait x with
    | none => .error (c.fault .badHandle)
    | some phase => .ok (pa, phase)

/-- The address that the operand of an mbar instruction names. -/
def Ctx.mbarNamed (c : Ctx) : W64 := mbarAddress (((c.port? .a).bind Val.uniform?).getD 0)

/-- The fire of an mbar instruction with one operand, whose checks are made whatever the guard (R232, R245). -/
def fireMbar (s : State) (wait : Bool) (need : Perm) (act : Ctx → Nat → Nat → W16 → Fired) :
    Host.Outcome State Fault Refusal :=
  fire s fun c => withOn c fun on => withPort c .a fun a => Fired.ofExcept do
    match ← a.checked (c.mbarWord s wait need) with
    | some (pa, phase) => pure (act c pa phase (liveOn on [a.lanes]))
    | none => pure (.ok s (some (uniformVal 0 0)) (some (uniformVal 0 0)) [])

/-- R245. `mbar.init`: b is uniform, from 1 to 2^24 − 1. -/
def execMbarInit (s : State) : Host.Outcome State Fault Refusal :=
  fire s fun c => withTwo c fun a b live => Fired.ofExcept do
    let word ← a.checked (c.mbarWord s false .w)
    let count ← b.checked fun n => if n = 0 ∨ 2 ^ 24 ≤ n.toNat then .error (c.fault .badHandle) else .ok n.toNat
    match word, count with
    | some (pa, _), some n => pure (.ok s none none (if live = 0 then [] else [.mbarInit c.blk.slot pa n]))
    | _, _ => pure (.ok s none none [])

/-- R245. `mbar.arrive`. -/
def execMbarArrive (s : State) : Host.Outcome State Fault Refusal :=
  fireMbar s false .rw fun c pa _ on =>
    if on = 0 then .ok s none none [] else .ok s none none [.mbarArrive c.blk.slot pa]

/-- R245. `mbar.wait`: waits until the word's phase differs from the one given; a word that is not valid raises
BAD_HANDLE. -/
def execMbarWait (s : State) : Host.Outcome State Fault Refusal :=
  fireMbar s true .r fun c pa phase on =>
    if on = 0 then .ok s none none []
    else if s.spoiled pa 8 then c.memData s 1 0 c.mbarNamed
    else
      let w := s.readNat 0 pa 8
      if bitsOf w 63 1 = 0 then c.fault .badHandle
      else if bitsOf w 48 8 = phase then .wait (.mbar pa phase)
      else .ok s none none []

/-- R245. `mbar.test`: the word's 64 bits. -/
def execMbarTest (s : State) : Host.Outcome State Fault Refusal :=
  fireMbar s false .r fun c pa _ on =>
    if on ≠ 0 ∧ s.spoiled pa 8 then c.memData s 1 0 c.mbarNamed
    else
      let v := uniformVal on (BitVec.ofNat 64 (s.readNat 0 pa 8))
      .ok s (some v) (some v) []

/-- R245. `mbar.inval`. -/
def execMbarInval (s : State) : Host.Outcome State Fault Refusal :=
  fireMbar s false .w fun c pa _ on =>
    if on = 0 then .ok s none none [] else .ok s none none [.mbarInval c.blk.slot pa]

/-- A word after `mbar.init` with the count (R244, R245). -/
def mbarInitWord (n : Nat) : Nat := n + n * 2 ^ 24 + 2 ^ 63

/-- A word after an arrival (R245). -/
def mbarArriveWord (w : Nat) : Nat :=
  if bitsOf w 63 1 = 0 then w
  else
    let pending := bitsOf w 0 24
    if 2 ≤ pending then w - 1
    else
      let expected := bitsOf w 24 24
      let phase := (bitsOf w 48 8 + 1) % 256
      expected + expected * 2 ^ 24 + phase * 2 ^ 48 + bitsOf w 56 7 * 2 ^ 56 + 2 ^ 63

/-- An arrival on the word at a physical address through keys of a generation (R245, R316). -/
def State.arriveAt (s : State) (gen pa : Nat) : State := s.writeNat gen pa 8 (mbarArriveWord (s.readNat gen pa 8))

end Sys2Proof.Machine
end

