-- ==== Sys2Proof/Machine/TapeCode.lean ====
section
/-! DEFINITION. The bit-plane coding of value tokens (R188, R196, R270) and the record forms of tapes and codecs (R187, R189,
R271), as functions of tokens and 16-bit units. -/
namespace Sys2Proof.Machine

/-- The values that are coded: an invalid lane repeats its neighbour, lane 0 the previous value (R188). -/
def fillLanes (prev : W32) : List (Option W32) → List W32
  | [] => []
  | x :: rest => let v := x.getD prev; v :: fillLanes v rest

/-- The deltas of values after a previous one, modulo 2^32 (R188). -/
def deltasOf (prev : W32) : List W32 → List W32
  | [] => []
  | x :: rest => (x - prev) :: deltasOf x rest

/-- Plane b: bit i is bit b of d[i] (R188). -/
def planeOf (d : List W32) (b : Nat) : W16 :=
  maskOf fun i => (d.getD i 0).getLsbD b

/-- q[b]: plane b, xor the plane above it (R188). -/
def codedPlane (d : List W32) (b : Nat) : W16 :=
  if b = 31 then planeOf d 31 else planeOf d b ^^^ planeOf d (b + 1)

/-- The 32 coded planes of values. -/
def codedPlanes (d : List W32) : List W16 := (List.range 32).map (codedPlane d)

/-- The mask of the planes that are not zero (R188). -/
def planeMask (q : List W16) : W32 :=
  BitVec.ofNat 32 ((List.range 32).foldl (fun acc b => if q.getD b 0 = 0 then acc else acc + 2 ^ b) 0)

/-- The valid mask of lanes. -/
def validMask (x : List (Option W32)) : W16 := maskOf fun i => ((x[i]?).join).isSome

/-- The body of a value record and the next previous value (R188). -/
def valueBody (prev : W32) (x : List (Option W32)) : List W16 × W32 :=
  let v := fillLanes prev x
  let q := codedPlanes (deltasOf prev v)
  let m := planeMask q
  ([validMask x, m.setWidth 16, (m >>> 16).setWidth 16] ++ q.filter (· ≠ 0), v.getLastD prev)

/-- Planes back from coded planes: plane[b] := q[b] xor plane[b + 1] (R196). The list runs from plane 31 down. -/
def unfoldPlanes (above : W16) : List W16 → List W16
  | [] => []
  | q :: rest => let p := q ^^^ above; p :: unfoldPlanes p rest

/-- The deltas that 32 coded planes hold (R196). -/
def deltasOfPlanes (q : List W16) : List W32 :=
  let planes := (unfoldPlanes 0 q.reverse).reverse
  (List.range 16).map fun i =>
    BitVec.ofNat 32 ((List.range 32).foldl (fun acc b => if laneBit (planes.getD b 0) i then acc + 2 ^ b else acc) 0)

/-- Values from deltas, forward from a previous value (R270). -/
def sumForward (prev : W32) : List W32 → List W32
  | [] => []
  | d :: rest => let v := prev + d; v :: sumForward v rest

/-- Values from deltas, back from the last one (R196): the deltas are given from d[15] down; the result is x[15] down to x[0]
with the previous value of the record before. -/
def sumBack (last : W32) : List W32 → List W32 × W32
  | [] => ([], last)
  | d :: rest => let r := sumBack (last - d) rest; (last :: r.1, r.2)

/-- The 32 coded planes of a body: those absent from the mask are zero (R196). -/
def spreadPlanes (mask : W32) : Nat → List W16 → List W16
  | 0, _ => []
  | n + 1, units =>
    let b := 31 - n
    if mask.getLsbD b then units.headD 0 :: spreadPlanes mask n units.tail else 0 :: spreadPlanes mask n units

/-- The valid mask and deltas of a value body (R196). -/
def bodyDeltas (body : List W16) : W16 × List W32 :=
  let m : W32 := (body.getD 2 0) ++ (body.getD 1 0)
  (body.getD 0 0, deltasOfPlanes (spreadPlanes m 32 (body.drop 3)))

/-- Lanes from a valid mask and values. -/
def lanesFrom (valid : W16) (x : List W32) : List (Option W32) :=
  (List.range 16).map fun i => if laneBit valid i then some (x.getD i 0) else none

/-- A value body decoded forward: the lanes and the next previous value (R271). -/
def decodeForward (prev : W32) (body : List W16) : List (Option W32) × W32 :=
  let (valid, d) := bodyDeltas body
  let x := sumForward prev d
  (lanesFrom valid x, x.getLastD prev)

/-- A value body decoded back: the lanes and the previous value of the record before it (R196). -/
def decodeBack (last : W32) (body : List W16) : List (Option W32) × W32 :=
  let (valid, d) := bodyDeltas body
  let r := sumBack last d.reverse
  (lanesFrom valid r.1.reverse, r.2)

/-- The tail word of a record (R187). -/
def tailWord (kind chain length count : Nat) : W32 :=
  BitVec.ofNat 32 (kind + chain * 2 ^ 4 + length * 2 ^ 10 + count * 2 ^ 19)

/-- A tail word as two units, low half first. -/
def tailUnits (w : W32) : List W16 := [w.setWidth 16, (w >>> 16).setWidth 16]

/-- Units as bytes (R4). -/
def bytesOfUnits : List W16 → List W8
  | [] => []
  | x :: rest => x.setWidth 8 :: (x >>> 8).setWidth 8 :: bytesOfUnits rest

/-- Bytes as units; an odd byte at the end is no unit. -/
def unitsOfBytes : List W8 → List W16
  | lo :: hi :: rest => (hi ++ lo) :: unitsOfBytes rest
  | _ => []

/-! ### Codec mode -/

/-- A record of a codec: a body, with the number of copies that a repeat after it stands for. -/
structure CodecRecord where
  body : List W16
  repeats : Nat
  deriving DecidableEq, Repr

/-- The records of tokens in order (R188, R189), the last record first. -/
def codecRecords (prev : W32) (done : List CodecRecord) : List (List (Option W32)) → List CodecRecord
  | [] => done
  | x :: rest =>
    let (body, prev') := valueBody prev x
    match done with
    | r :: more => if r.body = body then codecRecords prev' ({ r with repeats := r.repeats + 1 } :: more) rest
      else codecRecords prev' (⟨body, 0⟩ :: done) rest
    | [] => codecRecords prev' [⟨body, 0⟩] rest

/-- Repeat records for a number of copies, each of at most 4,096 (R189). -/
def repeatUnits (chain kind : Nat) : Nat → Nat → List W16
  | 0, _ => []
  | fuel + 1, n =>
    if n = 0 then []
    else if n ≤ 4096 then tailUnits (tailWord kind chain 0 (n - 1))
    else tailUnits (tailWord kind chain 0 4095) ++ repeatUnits chain kind fuel (n - 4096)

/-- The coded units of tokens: each record's tail stands before its body (R271). -/
def encodeTokens (toks : List (List (Option W32))) : List W16 :=
  (codecRecords 0 [] toks).reverse.flatMap fun r =>
    tailUnits (tailWord 1 0 r.body.length 0) ++ r.body ++ repeatUnits 0 2 (r.repeats + 1) r.repeats

/-- The units of tokens that later tokens leave as they are: a repeat at the end may still be raised (R189, R271). -/
def settledUnits (toks : List (List (Option W32))) : Nat :=
  (encodeTokens toks).length - (match codecRecords 0 [] toks with
    | r :: _ => if r.repeats % 4096 = 0 then 0 else 2
    | [] => 0)

/-- What decoding comes to: the tokens, and whether it stopped at a record that is no value or has a reserved tail. -/
structure Decoded where
  toks : List (List (Option W32))
  stopped : Bool
  deriving DecidableEq, Repr

/-- Copies of a value body decoded forward. -/
def decodeCopies (prev : W32) (body : List W16) : Nat → List (List (Option W32)) × W32
  | 0 => ([], prev)
  | n + 1 =>
    let (x, p) := decodeForward prev body
    let r := decodeCopies p body n
    (x :: r.1, r.2)

/-- The tokens that coded units hold, at most `limit` of them (R271). -/
def decodeUnits (prev : W32) (body : List W16) (limit : Nat) : Nat → List W16 → Decoded
  | 0, _ => ⟨[], false⟩
  | fuel + 1, units =>
    match units with
    | lo :: hi :: rest =>
      let w : W32 := hi ++ lo
      let kind := bitsOf w.toNat 0 4
      let len := bitsOf w.toNat 10 9
      let count := bitsOf w.toNat 19 12
      if limit = 0 then ⟨[], false⟩
      else if w.getLsbD 31 || bitsOf w.toNat 4 6 ≠ 0 then ⟨[], true⟩
      else if kind = 1 ∧ count = 0 ∧ 3 ≤ len then
        if rest.length < len then ⟨[], false⟩
        else
        let (x, p) := decodeForward prev (rest.take len)
        let d := decodeUnits p (rest.take len) (limit - 1) fuel (rest.drop len)
        ⟨x :: d.toks, d.stopped⟩
      else if kind = 2 ∧ len = 0 ∧ body ≠ [] then
        let n := Nat.min (count + 1) limit
        let (xs, p) := decodeCopies prev body n
        let d := decodeUnits p body (limit - n) fuel rest
        ⟨xs ++ d.toks, d.stopped⟩
      else ⟨[], true⟩
    | _ => ⟨[], false⟩

end Sys2Proof.Machine
end

