-- ==== Sys2Proof/Machine/Records.lean ====
section
/-! DEFINITION. Access records (R248 to R254): layout, checks, elements and tiles; the reading and writing of elements in main
memory, scratchpad, shared memory and bank control rows (R321 to R323, R330); the bank units' fused operators (R324, R325). -/
namespace Sys2Proof.Machine

/-- An access record (R249). -/
structure Rec where
  base : Nat
  type : Nat
  space : Nat
  ndim : Nat
  offset : Nat
  farg : Nat
  /-- Counts (not less one) and strides of dimensions 0 to 3. -/
  counts : List Nat
  strides : List Int
  fused : Nat
  combine : Nat
  dkind : Nat
  dest : Nat
  codec : Nat
  eot : Bool
  tiledim : Nat
  status : Nat
  deriving DecidableEq, Repr

/-- The fields of a record's words (R249). -/
def recOf (ws : RecWords) : Rec :=
  let f := fieldOf ws
  { base := f 0 56, type := f 56 4, space := f 60 1, ndim := f 61 2, offset := f 64 32, farg := f 96 32
    counts := (List.range 4).map fun d => f (128 + 64 * d) 24 + 1
    strides := (List.range 4).map fun d => signed 40 (f (152 + 64 * d) 40)
    fused := f 384 3, combine := f 387 2, dkind := f 392 2, dest := f 394 18, codec := f 416 2
    eot := f 418 1 = 1, tiledim := f 419 2, status := f 424 56 }

/-- The width of an element type (R250); 0 for the reserved code. -/
def typeWidth (t : Nat) : Nat :=
  if t < 2 then 4 else if t < 7 then 8 else if t < 11 then 16 else if t < 14 then 32 else if t = 14 then 64 else 0

/-- The elements of a record. -/
def Rec.elements (r : Rec) : Nat := ((r.counts.take (r.ndim + 1)).foldl (· * ·) 1)

/-- The indices of element k in iteration order, dimension 0 innermost (R251). -/
def indicesFrom : List Nat → Nat → List Nat
  | [], _ => []
  | c :: rest, k => k % c :: indicesFrom rest (k / c)

def Rec.indices (r : Rec) (k : Nat) : List Nat :=
  indicesFrom ((List.range 4).map fun d => if d ≤ r.ndim then r.counts.getD d 1 else 1) k

/-- The bit address of element k, computed exactly (R251). -/
def Rec.bitAddr (r : Rec) (k : Nat) : Int :=
  let i := r.indices k
  8 * (r.base : Int) + typeWidth r.type * ((r.offset : Int)
    + ((List.range 4).map fun d => (i.getD d 0 : Int) * r.strides.getD d 0).sum)

/-- Elements that a full token takes (R254). -/
def Rec.perToken (r : Rec) : Nat := 512 / typeWidth r.type

/-- Elements of a tile (R254). -/
def Rec.tileElems (r : Rec) : Nat :=
  if r.eot then (r.counts.take (r.tiledim + 1)).foldl (· * ·) 1 else 4096 * r.perToken

/-- The first element of the tile that holds element k. -/
def Rec.tileStart (r : Rec) (k : Nat) : Nat := k / r.tileElems * r.tileElems

/-- The element after the last of the tile that holds element k. -/
def Rec.tileEnd (r : Rec) (k : Nat) : Nat := Nat.min (r.tileStart k + r.tileElems) r.elements

/-- The fused operator's type and argument are those of the table (R324). -/
def Rec.fusedOk (r : Rec) : Bool :=
  let float := r.type = 7 ∨ r.type = 8 ∨ r.type = 11
  (match r.fused with
    | 0 => decide (r.codec ≠ 0 ∨ r.farg = 0)
    | 1 => decide (float ∧ r.farg < 4 ∧ (r.type ≠ 8 ∨ r.farg = 0))
    | 2 => decide (float ∧ r.farg < 8)
    | 3 => decide (r.type = 7 ∧ r.ndim ≤ 1 ∧ r.farg = 0)
    | _ => true) && decide (r.combine = 0 ∨ r.fused = 3)

/-- The checks of a record as it is read: BAD_HANDLE for a reserved field or code, then ACCESS for a space-1 extent beyond the
team's shared allocation (R249, R252). -/
def Rec.check (ws : RecWords) (shared : Nat) : Option FaultCode :=
  let r := recOf ws
  let f := fieldOf ws
  let above (d : Nat) : Bool := decide (r.ndim < d) && decide (f (128 + 64 * d) 64 ≠ 0)
  let w := typeWidth r.type
  let tokens := (r.tileElems + r.perToken - 1) / r.perToken
  if f 63 1 ≠ 0 ∨ f 389 3 ≠ 0 ∨ f 412 4 ≠ 0 ∨ f 421 3 ≠ 0 ∨ f 480 32 ≠ 0 ∨ w = 0 ∨ above 1 ∨ above 2 ∨ above 3
      ∨ 4 < r.fused ∨ r.dkind = 3 ∨ (r.dkind = 0 ∧ r.dest ≠ 0) ∨ (r.dkind = 1 ∧ 1024 ≤ r.dest)
      ∨ (r.dkind = 2 ∧ (coreOfDest (r.dest / 256)).isNone) ∨ r.codec = 3 ∨ r.ndim < r.tiledim ∨ r.status % 8 ≠ 0
      ∨ (r.space = 1 ∧ 2 ^ 32 ≤ r.base) ∨ r.fusedOk = false ∨ (r.eot ∧ 4096 < tokens) then
    some .badHandle
  else if r.space = 1 then
    let reach (low : Bool) : Int :=
      8 * (r.base : Int) + w * ((r.offset : Int) + ((List.range (r.ndim + 1)).map fun d =>
        let x := ((r.counts.getD d 1 : Int) - 1) * r.strides.getD d 0
        if low then (if x < 0 then x else 0) else (if x < 0 then 0 else x)).sum)
    if reach true < 0 ∨ 8 * (shared : Int) < reach false + w then some .access else none
  else none

/-! ### Bank control rows -/

/-- The row of a bank of a stack: pseudo-channel × 16 + bank. -/
def State.bankRow (s : State) (stack n : Nat) : BankRow := PMap.getD (s.stack stack).banks n {}

def State.modBankRow (s : State) (stack n : Nat) (f : BankRow → BankRow) : State :=
  s.modStack stack fun S => { S with banks := PMap.set S.banks {} n (f (PMap.getD S.banks n {})) }

/-- All-bank state of a pseudo-channel. -/
def State.allBank (s : State) (stack pc : Nat) : AllBank := PMap.getD (s.stack stack).allBank pc .off

/-- A byte of a control row as a read returns it (R321 to R323). -/
def State.rowByte (s : State) (stack pc bank o : Nat) : W8 :=
  let R := s.bankRow stack (16 * pc + bank)
  let ab := s.allBank stack pc
  let active : Bool := bank = 0 && (ab = .active || ab = .leaving)
  let waits : Bool := match ab with | .waiting _ _ => true | _ => false
  let granted : Bool := match ab with | .granted _ => true | _ => false
  let stat := (if active then 1 else 0) + (if bank = 0 && waits then 2 else 0)
    + (if R.macBy.isSome then 4 else 0) + (if R.keyed then 8 else 0) + R.owner % 4096 * 16
  if o = 0 then BitVec.ofNat 8 (R.op + if R.clear then 8 else 0)
  else if 8 ≤ o ∧ o < 16 then BitVec.ofNat 8 (stat / 256 ^ (o - 8))
  else if o = 24 then (if bank = 0 && (active || waits || granted) && ab != .leaving then 1 else 0)
  else PMap.getD R.bytes o 0

/-- Whether a byte written to a control row would set a reserved bit (R321 to R323, R328). -/
def rowByteReserved (bank o : Nat) (b : W8) : Bool :=
  if o = 0 then decide (b.toNat / 16 ≠ 0)
  else if o < 8 then b ≠ 0
  else if o < 24 then false
  else if o = 24 then decide (b.toNat / 2 ≠ 0) || (decide (bank ≠ 0) && decide (b ≠ 0))
  else if o < 256 then b ≠ 0
  else false

/-- A row with a byte written to SCALE, THRESH, BCAST, ACC or OPR (R323), but for the bits that are kept; ABM is written by its own
events. -/
def BankRow.writeByte (R : BankRow) (o : Nat) (b keep : W8) : BankRow :=
  if o = 0 then (if keep.getLsbD 3 then R else { R with clear := b.getLsbD 3 })
  else if (16 ≤ o ∧ o < 24) ∨ 256 ≤ o then
    { R with
      bytes := PMap.set R.bytes 0 o ((PMap.getD R.bytes o 0 &&& keep) ||| (b &&& ~~~keep))
      late := if 768 ≤ o ∧ R.macBy.isSome then PMap.set R.late 0 o (PMap.getD R.late o 0 ||| ~~~keep) else R.late }
  else R

/-- A row with its registers cleared (R330). -/
def BankRow.cleared (R : BankRow) : BankRow :=
  { R with clear := false, bytes := [], late := if R.macBy.isSome then (List.range 256).map fun i => (768 + i, 0xFF) else [] }

/-- Whether a row is guarded against a key slot (R330). -/
def BankRow.barred (R : BankRow) (k : Nat) : Bool := R.keyed && R.owner != k

/-! ### Where an element's bytes lie -/

/-- A byte's place: a physical address with the generation of its keys, a byte of a team's shared memory, or a byte of a bank
control row with the key slot of its page. -/
inductive Loc where
  | mem (pa gen : Nat)
  | shared (team offset : Nat)
  | row (pa key : Nat)
  deriving DecidableEq, Repr

/-- The means by which a transfer reaches memory (R214). -/
inductive Means where
  | copy | stream | loader | storer
  deriving DecidableEq, Repr

/-- The windows that a means reaches (R214). -/
def Means.reaches : Means → Window → Bool
  | .copy, w => w.isData
  | .stream, w | .loader, w => w.isMain
  | .storer, w => w.isMain || (match w with | .controlRow _ _ _ _ => true | _ => false)

/-- Who makes the accesses of a transfer: ASID, privilege and the issuing team (R404), and the means. -/
structure Agent where
  asid : W16
  sup : Bool
  team : Nat
  means : Means := .copy
  deriving DecidableEq, Repr

/-- The place of a byte of a record's space (R230, R251). -/
def State.locate (s : State) (who : Agent) (space : Nat) (need : Perm) (a : Int) : Except XlatFault Loc :=
  if a < 0 then .error ⟨.access, 0⟩
  else if space = 1 then
    match s.team? who.team with
    | some T => if a.toNat < T.sharedSize then .ok (.shared who.team a.toNat) else .error ⟨.access, 0⟩
    | none => .error ⟨.access, 0⟩
  else if 2 ^ 56 ≤ a.toNat then .error ⟨.access, 0⟩
  else
    match s.translate who.asid who.sup need who.means.reaches (BitVec.ofNat 64 a.toNat) with
    | .error f => .error f
    | .ok p =>
      match windowOf p.pa with
      | .controlRow st pc b _ =>
        if need = .r ∧ (s.bankRow st (16 * pc + b)).barred p.key then .error ⟨.key, 0⟩ else .ok (.row p.pa p.key)
      | _ => .ok (.mem p.pa p.gen)

/-- The byte at a place; MEM_DATA with its place where an uncorrectable error stands there (R446). -/
def State.readLoc (s : State) (x : Loc) : Except XlatFault W8 :=
  match x with
  | .mem pa gen =>
    if s.spoiled pa 1 then .error ⟨.memData, if (windowOf pa).isScratchpad then 1 else 0⟩
    else .ok ((s.readByte gen pa).getD 0)
  | .shared t o =>
    if s.poison.contains (.shared t o) then .error ⟨.memData, 2⟩
    else .ok (match s.team? t with | some T => PMap.getD T.shared o 0 | none => 0)
  | .row pa _ =>
    match windowOf pa with
    | .controlRow st pc b o => .ok (s.rowByte st pc b o)
    | _ => .ok 0

/-- A byte stored at a place that is no control row. -/
def State.writeLoc (s : State) (x : Loc) (b : W8) : State :=
  match x with
  | .mem pa gen => s.writeByte gen pa b
  | .shared t o => s.store .shared t 0 o 1 b.toNat
  | .row _ _ => s

/-- The places of the bytes that hold bits [a, a + w) of a space. -/
def State.locateBits (s : State) (who : Agent) (space : Nat) (need : Perm) (a : Int) (w : Nat) :
    Except XlatFault (List Loc) :=
  let first := a / 8
  let bytes := ((a % 8).toNat + w + 7) / 8
  (List.range bytes).mapM fun (i : Nat) => s.locate who space need (first + i)

/-- The bytes at places, as a number. -/
def State.readLocs (s : State) (xs : List Loc) : Except XlatFault Nat := do
  let bs ← xs.mapM s.readLoc
  pure (natOfBytes bs)

/-- An element as a transfer reads it (R251). -/
def State.readElement (s : State) (who : Agent) (r : Rec) (k : Nat) : Except XlatFault Nat := do
  let a := r.bitAddr k
  let xs ← s.locateBits who r.space .r a (typeWidth r.type)
  let v ← s.readLocs xs
  pure (bitsOf v (a % 8).toNat (typeWidth r.type))

/-- A store of an element: the places of its bytes with the bytes to be stored; bits outside the element keep what the bytes
hold (R251). -/
def State.elementBytes (s : State) (xs : List Loc) (a : Int) (w v : Nat) : List (Loc × W8) :=
  let old := match s.readLocs xs with | .ok x => x | .error _ => 0
  let lo := (a % 8).toNat
  let x := old % 2 ^ lo + v % 2 ^ w * 2 ^ lo + old / 2 ^ (lo + w) * 2 ^ (lo + w)
  xs.zip (bytesOfNat xs.length x)

/-- The bits of those bytes that an element of a width at a bit address leaves as they are (R251, R323). -/
def keptBits (a : Int) (w n : Nat) : List W8 :=
  let lo := (a % 8).toNat
  bytesOfNat n (2 ^ (8 * n) - 1 - (2 ^ w - 1) * 2 ^ lo)

/-- The events that store to control rows, for a row store (R323, R328): ABM's request bit makes or withdraws a request. -/
def rowStoreEvent (x : RowStore) : Instr :=
  match windowOf x.pa with
  | .controlRow _ _ 0 o =>
    if o ≤ 24 ∧ 24 < o + x.bytes.length ∧ (x.keeps.getD (24 - o) 0).getLsbD 0 = false then
      if ((x.bytes.getD (24 - o) 0).getLsbD 0) then .abmRequest else .abmLeave
    else .controlRowStore
  | _ => .controlRowStore

/-- The stores to control rows that bytes with the bits they keep come to: one for the bytes of each row (R323). -/
def rowRuns (who : Streamer) : List ((Loc × W8) × W8) → List RowStore
  | [] => []
  | ((.row pa key, b), keep) :: rest =>
    let one : RowStore := { pa := pa, bytes := [b], keeps := [keep], key := key, who := who }
    (match rowRuns who rest with
      | x :: more =>
        if x.pa = pa + 1 ∧ x.pa / 1024 = pa / 1024 then { x with pa := pa, bytes := b :: x.bytes, keeps := keep :: x.keeps } :: more
        else one :: x :: more
      | [] => [one])
  | _ :: rest => rowRuns who rest

/-- An element's bytes stored: to memory at once, to the control rows that hold them by events that come before any other step
(R323). -/
def State.storeElement (s : State) (who : Streamer) (xs : List Loc) (a : Int) (w v : Nat) : State :=
  let bs := s.elementBytes xs a w v
  let s := { s with rowStores := s.rowStores ++ rowRuns who (bs.zip (keptBits a w bs.length)) }
  bs.foldl (fun s p => s.writeLoc p.1 p.2) s

/-- Whether a store of an element would set a reserved bit of a control row (R323). -/
def storeRefused (bs : List (Loc × W8)) : Bool :=
  bs.any fun
    | (.row pa _, b) =>
      (match windowOf pa with | .controlRow _ _ bank o => rowByteReserved bank o b | _ => false)
    | _ => false

/-! ### Bank units -/

/-- The bank of an HBM physical address: stack × 1,024 + pseudo-channel × 16 + bank (R213, R449). -/
def State.bankOf (s : State) (pa : Nat) : Nat :=
  let x := if s.fullMap then placeOf pa else placeOfEarly pa
  1024 * x.stack + 16 * x.pc + x.bank

/-- A 32-bit register of a row at an offset. -/
def BankRow.word (R : BankRow) (o : Nat) : Nat := sramRead R.bytes o 4

/-- The float format of a record's type that the fused operators take. -/
def fusedFmt (t : Nat) : Fmt := if t = 7 then fmtF16 else if t = 8 then fmtBf16 else fmtF32

/-- The output of `scale`, `filter` and `window` for an element (R324). -/
def fusedOut (R : BankRow) (r : Rec) (k x : Nat) : Option Nat :=
  let t := fusedFmt r.type
  match r.fused with
  | 1 =>
    let rm : Rounding := match r.farg with | 0 => .rne | 1 => .rz | 2 => .rup | _ => .rdn
    some (t.ofVal rm false (mulVal (t.value x) (fmtF32.value (R.word 16))))
  | 2 =>
    match FCond.ofBits (BitVec.ofNat 3 r.farg) with
    | .ok c => if fcondHolds c (t.value x) (fmtF32.value (R.word 20)) then some x else some 0
    | .error _ => some x
  | 4 =>
    let i0 := (r.indices k).getD 0 0
    let lo := bitsOf r.farg 0 16
    if lo ≤ i0 ∧ i0 < lo + bitsOf r.farg 16 16 then some x else none
  | _ => some x

/-- Elements that meet no operator leave code 000 in the units of their banks (R320, R322). -/
def State.passUnits (s : State) (xs : List Loc) : State :=
  xs.foldl (fun s x => match x with
    | .mem pa _ =>
      let n := s.bankOf pa
      if windowOf pa = .hbm ∧ (s.bankRow (n / 1024) (n % 1024)).op ≠ 0 then
        s.modBankRow (n / 1024) (n % 1024) fun R => { R with op := 0 }
      else s
    | _ => s) s

/-- The elements of a record from k on, n of them, have passed their units without an operator. -/
def State.passElements (s : State) (who : Agent) (r : Rec) (k n : Nat) : State :=
  (List.range n).foldl (fun s i => match s.locateBits who r.space .r (r.bitAddr (k + i)) (typeWidth r.type) with
    | .ok xs => s.passUnits xs
    | .error _ => s) s

/-- The accumulators of a bank as a `mac` stream finds them: of its tile in progress, or those that the row gives; cleared before
the stream's first element where OPR.clear is set (R325). -/
def macStart (R : BankRow) (m : MacRun) (bank : Nat) : PMap W32 :=
  match PMap.get? m.pending bank with
  | some acc => acc
  | none =>
    if R.clear && !m.reached.contains bank then []
    else (List.range 64).foldl (fun acc p => PMap.set acc 0 p (BitVec.ofNat 32 (R.word (768 + 4 * p)))) []

/-- One element through its bank unit (R320, R324, R325): the next state of the unit, the stream's accumulators and the output;
KEY for a page key other than the owner's (R330), BAD_HANDLE for a unit that another `mac` stream owns. A tile that a replay repeats
after it has ended adds nothing (R175). -/
def State.bankElement (s : State) (who : Streamer) (r : Rec) (m : MacRun) (k pa key x : Nat) :
    Except XlatFault (State × MacRun × Option Nat) :=
  let bank := s.bankOf pa
  let R := s.bankRow (bank / 1024) (bank % 1024)
  if R.barred key then .error ⟨.key, 0⟩
  else
    let touch (f : BankRow → BankRow) : State := s.modBankRow (bank / 1024) (bank % 1024) fun R => f { R with op := r.fused }
    if r.fused = 3 then
      if (match R.macBy with | some o => decide (o ≠ who) | none => false) then .error ⟨.badHandle, 0⟩
      else if k < m.tiles * r.tileElems then .ok (touch fun R => { R with macBy := some who }, m, none)
      else
        let i := r.indices k
        let p := i.getD 1 0 % 64
        let b := sramRead R.bytes (256 + 2 * (i.getD 0 0 % 256)) 2
        let acc := macStart R m bank
        let prod := fmtF32.ofVal .rne false (mulVal (fmtF16.value x) (fmtF16.value b))
        let sum := (faddOf tyF32 .rne ((PMap.getD acc p 0).setWidth 64) (BitVec.ofNat 64 prod)).setWidth 32
        .ok (touch fun R => { R with macBy := some who, late := if (PMap.get? m.pending bank).isSome then R.late else [] },
          { m with pending := PMap.insert m.pending bank (PMap.set acc 0 p sum) }, none)
    else .ok (touch id, m, fusedOut R r k x)

/-- A row with the 64 accumulators written, but for the bits that a store has written during the tile (R327). -/
def BankRow.withAcc (R : BankRow) (acc : PMap W32) : BankRow :=
  let sums := (List.range 64).flatMap fun p => bytesOfNat 4 (PMap.getD acc p 0).toNat
  { R with
    late := []
    bytes := ((List.range 256).zip sums).foldl (fun m x =>
      let o := 768 + x.1
      let keep := PMap.getD R.late o 0
      PMap.set m 0 o ((PMap.getD R.bytes o 0 &&& keep) ||| (x.2 &&& ~~~keep))) R.bytes }

/-- The accumulators of an ended tile take their moment (R325). -/
def State.commitMac (s : State) : PMap (PMap W32) → State
  | [] => s
  | (bank, acc) :: rest =>
    State.commitMac (s.modBankRow (bank / 1024) (bank % 1024) fun R => R.withAcc acc) rest

/-- The stream's accumulators after its tile has ended. -/
def MacRun.ended (m : MacRun) (tile : Nat) : MacRun :=
  { m with tiles := Nat.max m.tiles tile, pending := [], reached := m.reached ++ (m.pending.map (·.1)).filter fun b => !m.reached.contains b }

end Sys2Proof.Machine
end

