-- ==== Sys2Proof/Machine/MatrixQueue.lean ====
section
/-! DEFINITION. The commands of the matrix queue (R153 to R156, R164, R165): what a command names, its stream, and the fills and consumes
that alternate on each buffer. -/
namespace Sys2Proof.Machine

/-- A command of the transfer stream (R156). -/
def MatCmd.transfer (x : MatCmd) : Bool := x.op == 0x18F || x.op == 0x190

/-- An `mma` of some family (R158). -/
def MatCmd.isMma (x : MatCmd) : Bool := x.op == 0x191 || x.op == 0x197 || x.op == 0x198 || x.op == 0x199

/-- A paired `mma` (R171). -/
def MatCmd.paired (x : MatCmd) : Bool := x.isMma && x.a.getLsbD 10

/-- The tile that a command names (R158, R164, R165). -/
def MatCmd.tile? (x : MatCmd) : Option Nat :=
  if x.op = 0x18F ∨ x.op = 0x193 then none else some (bitsOf x.a.toNat 0 2)

/-- n of an `mma` (R79). -/
def MatCmd.n (x : MatCmd) : Nat := bitsOf x.ext 0 3

/-- The buffers that an `mma` spans: the named one and those after it in ring order (R154). -/
def spanOf (first depth n : Nat) : List Nat := (List.range (2 ^ (n - 3))).map fun i => (first + i) % depth

def MatCmd.spanA (x : MatCmd) (M : Matrix) : List Nat := spanOf (bitsOf x.a.toNat 3 3) M.depthA x.n
def MatCmd.spanB (x : MatCmd) (M : Matrix) : List Nat := spanOf (bitsOf x.a.toNat 6 3) M.depthB x.n

/-- The node, buffer and part that an `mld` names (R164). -/
def MatCmd.nodeB (x : MatCmd) : Bool := x.a.getLsbD 0
def MatCmd.buffer (x : MatCmd) : Nat := bitsOf x.a.toNat 1 3
def MatCmd.scalePart (x : MatCmd) : Bool := x.a.getLsbD 4

def State.modMatrix (s : State) (t : Nat) (f : Matrix → Matrix) : State :=
  s.modTeam t fun T => { T with matrix := T.matrix.map f }

/-- Whether the core will be the east one of a pair when a command enqueued now runs: by the last pairing command enqueued, or by
the present pair (R158, R170). -/
def Matrix.eastAhead (M : Matrix) (more : List MatCmd) : Bool :=
  match ((M.queue ++ more).filter fun x => x.op = 0x193).getLast? with
  | some x => bitsOf x.a.toNat 0 2 = 2
  | none => match M.pair with | some (_, east) => !east | none => false

/-- A fill or consume recorded as the buffer's last enqueued command (R155). -/
def Matrix.mark (M : Matrix) (east : Bool) (x : MatCmd) : Matrix :=
  if x.op = 0x18F then
    if x.scalePart then M else M.modBuf x.nodeB x.buffer fun b => { b with filled := true }
  else if x.isMma then
    let M := (x.spanA M).foldl (fun M i => M.modBuf false i fun b => { b with filled := false }) M
    if x.paired && east then M
    else (x.spanB M).foldl (fun M i => M.modBuf true i fun b => { b with filled := false }) M
  else M

/-- Whether a command keeps fills and consumes in turn (R155). -/
def Matrix.inTurn (M : Matrix) (east : Bool) (x : MatCmd) : Bool :=
  if x.op = 0x18F then x.scalePart || !(M.buf x.nodeB x.buffer).filled
  else if x.isMma then
    (x.spanA M).all (fun i => (M.buf false i).filled)
      && ((x.paired && east) || (x.spanB M).all fun i => (M.buf true i).filled)
  else true

/-- The claim with its marks as the commands that stand in the queue leave them (R155): a fault has discarded the others (R157). The west
half of a pair that has completed has consumed its B buffers, which stay full until the other half has (R171). -/
def Matrix.remarked (M : Matrix) : Matrix :=
  let marked (used : List Nat) (bufs : PMap MatBuffer) : PMap MatBuffer :=
    bufs.map fun (k, b) => (k, { b with filled := b.full && !used.contains k })
  let bare : Matrix := { M with queue := [] }
  (M.queue.foldl (fun (acc : Matrix × List MatCmd) x => (acc.1.mark (bare.eastAhead acc.2) x, acc.2 ++ [x]))
    ({ M with bufA := marked [] M.bufA, bufB := marked (if M.westDone then M.span else []) M.bufB }, [])).1

/-- The team's sequencer stops (R157). -/
def Matrix.stopped (M : Matrix) : Matrix :=
  { M.remarked with busy := false, controllers := M.controllers.map fun c => { words := c.words } }

end Sys2Proof.Machine
end

