-- ==== Sys2Proof/Machine/Copies.lean ====
section
/-! DEFINITION. Copies (R255 to R260, R271, R443): the meanings of `cpy`, `cpy.batch`, `cpy.wait` and `cpy.lr`, and the events of
the copy engine and of the bank units. -/
namespace Sys2Proof.Machine

/-! ### Reading records at fire -/

/-- Words of an object in scratchpad, read at fire under R231 and R248; an address that must be aligned is checked before the read. -/
def Ctx.readObject (c : Ctx) (s : State) (va : W64) (words : Nat) (align : Nat := 1) : Except Fired RecWords :=
  match c.resolve s .spad .r align 0 va with
  | .error f => .error (c.accessFault f)
  | .ok pa => if s.spoiled pa (8 * words) then .error (c.memData s 1 0 va) else .ok (s.readWords 0 pa words)

/-- The address [55:6] of a record in an operand word. -/
def recordAddress (x : W64) : W64 := BitVec.ofNat 64 (bitsOf x.toNat 6 50 * 64)

/-- A record's words, once they pass the checks of R252. -/
def Ctx.checkRecord (c : Ctx) (va : W64) (ws : RecWords) : Except Fired RecWords :=
  match Rec.check ws c.team.sharedSize with
  | some code => .error (c.fault code 0 va)
  | none => .ok ws

/-- A record read and checked (R248, R252). -/
def Ctx.readRecord (c : Ctx) (s : State) (va : W64) : Except Fired RecWords := do
  let ws ← c.readObject s va 8
  c.checkRecord va ws

/-- The agent of a group's transfers (R404). -/
def Ctx.agent (c : Ctx) : Agent := { asid := c.team.asid, sup := c.sup, team := c.t }

/-- The window in which a record's first element lies, where it translates. -/
def State.sideWindow (s : State) (who : Agent) (r : Rec) (need : Perm) : Option Window :=
  if r.space = 1 then none
  else match s.locate who 0 need (r.bitAddr 0 / 8) with
    | .ok (.mem pa _) => some (windowOf pa)
    | .ok (.row pa _) => some (windowOf pa)
    | _ => none

/-- The traffic of a side: 64-byte units of main memory, none for scratchpad and shared memory (R257). A side that does not
translate is charged. -/
def State.sideTraffic (s : State) (who : Agent) (r : Rec) (need : Perm) : Nat :=
  if r.space = 1 then 0
  else match s.sideWindow who r need with
    | some (.scratchpad _ _) => 0
    | _ => (r.elements * typeWidth r.type + 511) / 512

/-- Whether two records make a copy (R255, R271). -/
def copyPairOk (src dst : Rec) (srcHbm : Bool) : Bool :=
  decide (src.dkind = 0 ∧ dst.dkind = 0 ∧ dst.fused = 0 ∧ dst.combine = 0 ∧ dst.codec = 0 ∧ dst.eot = false)
    && (match src.codec with
      | 0 => decide (src.elements = dst.elements ∧ typeWidth src.type = typeWidth dst.type)
      | 1 => decide (typeWidth src.type = 32 ∧ dst.type = 6)
      | _ => decide (src.type = 6 ∧ typeWidth dst.type = 32 ∧ dst.elements = 16 * src.farg))
    && (decide (src.fused = 0 ∧ src.combine = 0) || srcHbm)

/-- R255. `cpy`: reads and checks both records at fire, and queues a copy at commit. -/
def execCpy (strict : Bool) (s : State) : Host.Outcome State Fault Refusal :=
  fire s fun c => withOn c fun on =>
    withUniform c .a (null := .ok s none none []) fun a x =>
      Fired.ofExcept do
        let va := recordAddress x
        let lo ← c.readObject s va 8
        let hi ← c.readObject s (va + 64) 8
        if bitsOf x.toNat 0 6 ≠ 0 ∨ bitsOf x.toNat 56 8 ≠ 0 then throw (c.fault .badHandle 0 va)
        let src ← c.checkRecord va lo
        let dst ← c.checkRecord (va + 64) hi
        let rs := recOf src
        let rd := recOf dst
        let hbm := match s.sideWindow c.agent rs .r with | some .hbm | none => rs.space == 0 | _ => false
        if copyPairOk rs rd hbm = false then .error (c.fault .badHandle 0 va)
        else if liveOn on [a.lanes] = 0 then pure (.ok s none none [])
        else pure (.ok s none none [.copy c.blk.slot (.copy src dst strict)
          (s.sideTraffic c.agent rs .r + s.sideTraffic c.agent rd .w)])

/-! ### Layout records -/

/-- A layout record (R259). -/
structure LayoutRec where
  base : Nat
  type : Nat
  h : Nat
  w : Nat
  c : Nat
  pitchy : Nat
  pitchx : Nat
  y0 : Int
  x0 : Int
  wy : Nat
  wx : Nat
  sy : Nat
  sx : Nat
  dy : Int
  dx : Int
  pad : Nat
  dst : Nat
  pitch : Nat
  deriving DecidableEq, Repr

/-- The fields of a layout record's words (R259). -/
def layoutRecOf (ws : RecWords) : LayoutRec :=
  let f := fieldOf ws
  { base := f 0 56, type := f 56 4, h := f 64 16, w := f 80 16, c := f 96 16, pitchy := f 128 32, pitchx := f 160 32
    y0 := signed 16 (f 192 16), x0 := signed 16 (f 208 16), wy := f 224 6, wx := f 230 6, sy := f 240 4, sx := f 244 4
    dy := signed 16 (f 256 16), dx := signed 16 (f 272 16), pad := f 288 32, dst := f 320 32, pitch := f 352 32 }

/-- The elements that one issue writes (R260). -/
def LayoutRec.elements (r : LayoutRec) : Nat := (r.wy + 1) * (r.wx + 1) * r.c

/-- The shared-memory byte offset of element k (R260). -/
def LayoutRec.target (r : LayoutRec) (k : Nat) : Nat :=
  r.dst + k / r.c * r.pitch + k % r.c * (typeWidth r.type / 8)

/-- The bit address of element k in the image, or none outside it (R260). -/
def LayoutRec.source (r : LayoutRec) (k : Nat) : Option Int :=
  let p := k / r.c
  let y := r.y0 + (p / (r.wx + 1) : Nat) * r.sy + r.dy
  let x := r.x0 + (p % (r.wx + 1) : Nat) * r.sx + r.dx
  if 0 ≤ y ∧ y < r.h ∧ 0 ≤ x ∧ x < r.w then
    some (8 * (r.base : Int) + typeWidth r.type * (y * r.pitchy + x * r.pitchx + (k % r.c : Nat)))
  else none

/-- The checks of a layout record (R252, R259). -/
def LayoutRec.check (ws : RecWords) (shared : Nat) : Option FaultCode :=
  let r := layoutRecOf ws
  let f := fieldOf ws
  let wd := typeWidth r.type
  if f 60 4 ≠ 0 ∨ f 112 16 ≠ 0 ∨ f 236 4 ≠ 0 ∨ f 248 8 ≠ 0 ∨ f 384 128 ≠ 0 ∨ wd < 8 ∨ 32 < wd ∨ r.h = 0 ∨ r.w = 0
      ∨ r.c = 0 ∨ 4096 < r.c ∨ r.sy = 0 ∨ r.sx = 0 ∨ 2 ^ wd ≤ r.pad ∨ r.pitch < r.c * wd / 8 then some .badHandle
  else if shared < r.target (r.elements - 1) + wd / 8 then some .access
  else none

/-- R259, R260. `cpy.lr`: a matrix of positions and channels of an image. -/
def execCpyLr (_strict : Bool) (s : State) : Host.Outcome State Fault Refusal :=
  fire s fun c => withOn c fun on =>
    withUniform c .a (null := .ok s none none []) fun a x =>
      Fired.ofExcept do
        let va := recordAddress x
        let ws ← c.readObject s va 8
        if bitsOf x.toNat 0 6 ≠ 0 ∨ bitsOf x.toNat 56 8 ≠ 0 then throw (c.fault .badHandle 0 va)
        match LayoutRec.check ws c.team.sharedSize with
        | some code => .error (c.fault code 0 va)
        | none =>
          let r := layoutRecOf ws
          if liveOn on [a.lanes] = 0 then pure (.ok s none none [])
          else pure (.ok s none none
            [.copy c.blk.slot (.layout ws) ((r.elements * typeWidth r.type + 511) / 512)])

/-! ### Batches -/

/-- R258. `cpy.batch`: closes the open batch at commit and delivers its number. -/
def execCpyBatch (s : State) : Host.Outcome State Fault Refusal :=
  fire s fun c => withOn c fun on =>
    let earlier := (c.blk.effects.filter fun | .batch _ => true | _ => false).length
    let v := uniformVal on (BitVec.ofNat 64 (c.group.batches + earlier + 1))
    .ok s (some v) (some v) (if on = 0 then [] else [.batch c.blk.slot])

/-- R258. `cpy.wait`: waits until every member of the group's batches up to a is complete; a `.strict` length fault in them is
raised then. -/
def execCpyWait (s : State) : Host.Outcome State Fault Refusal :=
  fire s fun c => withOn c fun on =>
    withUniform c .a (null := .ok s none none []) fun a n =>
      if c.group.batches < n.toNat then c.fault .badHandle
      else if liveOn on [a.lanes] = 0 then .ok s none none []
      else if c.team.members.any fun m => m.1 = c.g ∧ m.2.1 ≤ n.toNat then .wait (.batch n.toNat)
      else match c.team.strictFaults.find? fun m => m.1 = c.g ∧ m.2.1 ≤ n.toNat with
        | some m => c.fault .decompLength 0 0 0 m.2.2
        | none => .ok s none none []

/-! ### What commands share -/

/-- A member of a batch is complete (R258). -/
def State.completeMember (s : State) (t seq : Nat) : State :=
  s.modTeam t fun T => { T with members := T.members.filter fun m => m.2.2 ≠ seq }

/-- The record of a core command's fault (R436, R437). -/
def State.commandRecord (s : State) (T : Team) (code : FaultCode) (level : Nat) (store : Bool) (addr : W64)
    (op seq : Nat) (iter : List Nat) (extra : W64) : Record where
  code := code
  store := store
  source := 1
  asid := T.asid
  detail := level
  address := addr
  place := BitVec.ofNat 64 (op + seq % 2 ^ 32 * 2 ^ 32)
  agent := T.handle
  iter := iter.map (BitVec.ofNat 32)
  extra := extra
  cycle := s.clk (dieOf T.core)

/-- A command fault (R157, R435): its record is written, and the team's next block fetch takes it. Where the fault is fatal to its team, or
no record can be written, the team ends at once (R438). -/
def State.commandFault (s : State) (t : Nat) (r : Record) : State :=
  match s.fatalFor t r.asid, s.writeRecord { r with inteam := true } with
  | true, _ | _, none => s.fatalEnd t r
  | false, some s => s.modTeam t fun T => { T with cmdFault := some (T.cmdFault.getD r) }

def State.modStream (s : State) (t n : Nat) (f : Stream → Stream) : State :=
  s.modTeam t fun T => { T with streams := PMap.set T.streams {} n (f (PMap.getD T.streams n {})) }

/-- A stream ends with a code; its member of the batch is complete (R263, R264). -/
def State.endStream (s : State) (t n : Nat) (code : Nat) : State :=
  match s.team? t with
  | none => s
  | some T =>
    let seq := (PMap.getD T.streams n {}).seq
    ((s.completeMember t seq).freeUnits (.copy t seq)).modStream t n fun x =>
      { x with running := false, pending := [], state := if code = 0 then 2 else 3, code := code }

/-- The team's commands from a number on are discarded, its streams among them, and leave their batches (R157, R256). -/
def State.discardFrom (s : State) (t seq : Nat) : State :=
  match s.team? t with
  | none => s
  | some T =>
    let s := T.streams.foldl (fun s (n, x) => if x.running ∧ seq ≤ x.seq then s.endStream t n 4 else s) s
    let copies := T.copies.filter fun y => seq ≤ y.seq
    let cmds : List MatCmd := match T.matrix with | some M => M.queue.filter fun y => seq ≤ y.seq | none => []
    let gone := copies.map (·.seq) ++ cmds.map (·.seq)
    let s := gone.foldl (fun s n => (s.completeMember t n).freeUnits (.copy t n)) s
    (s.leaveHalves t cmds).modTeam t fun T =>
      { T with
        copies := T.copies.filter fun y => y.seq < seq
        matrix := T.matrix.map fun M =>
          { M with
            queue := M.queue.filter fun y => y.seq < seq
            ask := if cmds.any fun y => y.started && (y.op == 0x193 || y.paired) then none else M.ask }.stopped }

/-- A resumable record of a transfer that stalls (R443), or the end of its team where the fault is fatal to it or no record can be written
(R435, R438). -/
def State.stallRecord (s : State) (t : Nat) (r : Record) : State :=
  match s.fatalFor t r.asid, s.writeRecord { r with resumable := true } with
  | true, _ | _, none => s.fatalEnd t r
  | false, some s => s

/-! ### The copy engine -/

/-- What one element of a transfer comes to: an element that has been taken, with no value where a fused operator yields none, or
a fault with its code, detail, address and side. -/
inductive ElementStep where
  | taken (s : State) (v : Option Nat) (m : MacRun)
  | faulted (code : FaultCode) (detail : Nat) (store : Bool) (addr : W64)

/-- The agent of a copy command. -/
def CopyCmd.agent (x : CopyCmd) (t : Nat) : Agent := { asid := x.asid, sup := x.sup, team := t }

/-- The source record of a copy whose elements pass bank units (R324). -/
def CopyCmd.fusedRec? (x : CopyCmd) : Option Rec :=
  match x.kind with
  | .copy src _ _ => let r := recOf src; if r.fused = 0 then none else some r
  | _ => none

/-- The codec of a copy (R249). -/
def CopyCmd.codec (x : CopyCmd) : Nat :=
  match x.kind with
  | .copy src _ _ => (recOf src).codec
  | _ => 0

/-- The byte address of a bit address, as the address of a fault. -/
def addrOfBit (a : Int) : W64 := BitVec.ofInt 64 (a / 8)

/-- The element read through its bank unit (R320, R324). -/
def State.fusedRead (s : State) (who : Streamer) (agent : Agent) (r : Rec) (m : MacRun) (k : Nat) : ElementStep :=
  let a := r.bitAddr k
  let bad (f : XlatFault) : ElementStep := .faulted f.code f.level false (addrOfBit a)
  match s.translate agent.asid agent.sup .r (fun w => w == .hbm) (addrOfBit a), s.readElement agent r k with
  | .ok p, .ok x =>
    match s.bankElement who r m k p.pa p.key x with
    | .ok (s', m', v) => .taken s' v m'
    | .error f => bad f
  | .error f, _ => bad f
  | _, .error f => bad f

/-- The place of destination element k, checked as it is met (R252, R323). -/
def State.destCheck (s : State) (agent : Agent) (r : Rec) (k v : Nat) : Option (FaultCode × Nat) :=
  let a := r.bitAddr k
  match s.locateBits agent r.space .w a (typeWidth r.type) with
  | .error f => some (f.code, f.level)
  | .ok xs => if storeRefused (s.elementBytes xs a (typeWidth r.type) v) then some (.badHandle, 0) else none

/-- The next element of a copy (R255, R260). -/
def State.copyElement (s : State) (t : Nat) (x : CopyCmd) : ElementStep :=
  let agent := x.agent t
  let k := x.pos
  let dest (r : Rec) (e : ElementStep) : ElementStep :=
    match e with
    | .taken _ (some v) _ =>
      if x.codec ≠ 0 then e
      else (match s.destCheck agent r k v with
        | some (code, d) => .faulted code d true (addrOfBit (r.bitAddr k))
        | none => e)
    | _ => e
  match x.kind with
  | .copy src dst _ =>
    let r := recOf src
    if r.fused ≠ 0 then dest (recOf dst) (s.fusedRead (.copy t x.seq) agent r x.mac k)
    else match s.readElement agent r k with
      | .error f => .faulted f.code f.level false (addrOfBit (r.bitAddr k))
      | .ok v => dest (recOf dst) (.taken (s.passElements agent r k 1) (some v) x.mac)
  | .layout ws =>
    let r := layoutRecOf ws
    match r.source k with
    | none => .taken s (some r.pad) x.mac
    | some a =>
      match (s.locateBits agent 0 .r a (typeWidth r.type)).bind fun xs => (s.readLocs xs).map fun v => (xs, v) with
      | .error f => .faulted f.code f.level false (addrOfBit a)
      | .ok (xs, v) => .taken (s.passUnits xs) (some v) x.mac
  | _ => .taken s none x.mac

/-- The number of elements that a copy takes. -/
def CopyCmd.total (x : CopyCmd) : Nat :=
  match x.kind with
  | .copy src _ _ => (recOf src).elements
  | .layout ws => (layoutRecOf ws).elements
  | _ => 0

/-- Whether a tile ends after the elements taken so far; a layout copy is one tile (R256, R260). -/
def CopyCmd.tileDone (x : CopyCmd) : Bool :=
  match x.kind with
  | .copy src _ _ => decide (x.pos = x.total ∨ x.pos % (recOf src).tileElems = 0)
  | _ => decide (x.pos = x.total)

/-- The elements of a list with their indices, beginning at the one that `writeOrder` names (R223). -/
def rotated {α : Type} (tick : Nat) (l : List α) : List (Nat × α) :=
  let pairs := (List.range l.length).zip l
  let n := Config.writeOrder tick % (l.length + 1)
  pairs.drop n ++ pairs.take n

/-- An element stored at its place; one that a fused operator has dropped is not (R324). -/
def State.storeAt (s : State) (who : Streamer) (agent : Agent) (r : Rec) (k : Nat) (v : Option Nat) : State :=
  match v, s.locateBits agent r.space .w (r.bitAddr k) (typeWidth r.type) with
  | some v, .ok xs => s.storeElement who xs (r.bitAddr k) (typeWidth r.type) v
  | _, _ => s

/-- Why an element that a tile holds cannot be stored now that the tile ends, for the first that cannot: code, detail and address (R1,
R256). An element that a fused operator has dropped is not stored (R324). -/
def State.unstorable (s : State) (who : Agent) (r : Rec) (vs : List (Nat × Option Nat)) : Option (FaultCode × Nat × W64) :=
  vs.findSome? fun (k, v) => v.bind fun v => (s.destCheck who r k v).map fun (code, d) => (code, d, addrOfBit (r.bitAddr k))

/-- The elements of an ended tile of a copy stored at their places, in no order (R223). -/
def State.storeTile (s : State) (who : Streamer) (agent : Agent) (r : Rec) (first : Nat) (vs : List (Option Nat)) : State :=
  (rotated s.tick vs).foldl (fun s p => s.storeAt who agent r (first + p.1) p.2) s

/-- Elements stored in iteration order, as a storer issues its stores (R219). -/
def State.storeInOrder (s : State) (who : Streamer) (agent : Agent) (r : Rec) (k : Nat) : List Nat → State
  | [] => s
  | v :: rest => State.storeInOrder (s.storeAt who agent r k (some v)) who agent r (k + 1) rest

/-- The first destination element of a list, from an index on, that faults. -/
def State.firstBad (s : State) (who : Agent) (r : Rec) : Nat → List Nat → Option (Nat × FaultCode × Nat)
  | _, [] => none
  | k, v :: rest =>
    match s.destCheck who r k v with
    | some (code, d) => some (k, code, d)
    | none => s.firstBad who r (k + 1) rest

/-! ### Codec transfers -/

/-- The tokens of 32-bit elements from one on, 16 to a token; a token never straddles two tiles (R254). -/
def tokensOf (tile : Nat) : Nat → Nat → List (Option Nat) → List (List (Option W32))
  | 0, _, _ => []
  | fuel + 1, k, xs =>
    if xs = [] then []
    else
      let n := Nat.min 16 (tile - k % tile)
      ((List.range 16).map fun i => if i < n then ((xs[i]?).join).map (BitVec.ofNat 32) else none)
        :: tokensOf tile fuel (k + n) (xs.drop n)

/-- What a codec transfer delivers of what it has taken (R271): the elements with none for a container that is not valid, how many
of them what follows leaves as they are, the status word with its code, and whether the counts are equal. -/
structure Coded where
  out : List (Option Nat)
  settled : Nat
  word : W64
  code : Nat
  equal : Bool
  deriving DecidableEq, Repr

/-- The elements that are written: a container that is not valid supplies none (R254). -/
def Coded.elements (c : Coded) : List Nat := c.out.filterMap id

/-- Those that are written now: all of them at the end of the transfer, or those that what follows leaves as they are. -/
def Coded.ready (c : Coded) (last : Bool) : List Nat := if last then c.elements else (c.out.take c.settled).filterMap id

/-- The status word (R271). -/
def statusWord (declared found code : Nat) : W64 :=
  BitVec.ofNat 64 (declared % 2 ^ 28 + found % 2 ^ 28 * 2 ^ 28 + code * 2 ^ 56)

/-- Tokens encoded, into a destination of so many bytes where it is memory (R271). -/
def encodeResult (room : Option Nat) (toks : List (List (Option W32))) : Coded :=
  let units := encodeTokens toks
  let bytes := (bytesOfUnits units).map BitVec.toNat
  let n := Nat.min (room.getD bytes.length) bytes.length
  let code := if n < bytes.length then 3 else 0
  { out := (bytes.take n).map some, settled := Nat.min n (2 * settledUnits toks)
    word := statusWord toks.length (if n < bytes.length then n / 2 else units.length) code, code := code, equal := true }

/-- Coded bytes decoded, with the declared length (R271). -/
def decodeResult (declared : Nat) (bytes : List W8) : Coded :=
  let d := decodeUnits 0 [] (declared + 1) (bytes.length + 1) (unitsOfBytes bytes)
  let found := d.toks.length
  let code := if d.stopped then 2 else if found = declared then 0 else 1
  let out := (d.toks.take declared).flatMap fun t => t.map fun e => e.map BitVec.toNat
  { out := out, settled := out.length, word := statusWord declared found code, code := code
    equal := decide (found = declared) }

/-- The elements that a source has given, coded (R271); an element without an output is no byte of the coded form (R324). -/
def Rec.coded (r : Rec) (room : Option Nat) (xs : List (Option Nat)) : Coded :=
  if r.codec = 1 then encodeResult room (tokensOf r.tileElems xs.length 0 xs)
  else decodeResult r.farg (xs.filterMap fun x => x.map (BitVec.ofNat 8))

/-- The tokens that have come for a record that writes memory, coded (R271). -/
def Rec.codedTokens (r : Rec) (toks : List (List (Option W32))) : Coded :=
  if r.codec = 1 then encodeResult (some r.elements) toks
  else decodeResult r.farg (toks.flatMap fun t => t.flatMap fun x => match x with | some v => bytesOfNat 4 v.toNat | none => [])

/-- The place of a transfer's status word, where its record names one (R249). -/
def State.statusPlace (s : State) (agent : Agent) (status : Nat) : Except XlatFault (Option Phys) :=
  if status = 0 then .ok none
  else (s.translate agent.asid agent.sup .w Window.isScratchpad (BitVec.ofNat 64 status)).map some

/-- The status word written, as a store of the transfer (R271). -/
def State.writeStatus (s : State) (place : Option Phys) (w : W64) : State :=
  match place with
  | some p => s.writeNat 0 p.pa 8 w.toNat
  | none => s

/-- Why elements cannot be stored from an index of a record on: the code, the detail and the address of the first that faults, or
those of the status word where the transfer ends with them; otherwise the status word's place. -/
def State.storable (s : State) (agent : Agent) (r : Rec) (k : Nat) (vs : List Nat) (status : Nat) (last : Bool) :
    Except (FaultCode × Nat × W64) (Option Phys) :=
  match s.firstBad agent r k vs with
  | some (k, code, d) => .error (code, d, addrOfBit (r.bitAddr k))
  | none =>
    if last then (s.statusPlace agent status).mapError fun f => (f.code, f.level, BitVec.ofNat 64 status) else .ok none

/-- Why the tile of a copy that has ended cannot take its moments, where it cannot (R1, R256). -/
def State.tileFault (s : State) (t : Nat) (x : CopyCmd) : Option (FaultCode × Nat × W64) :=
  match x.kind with
  | .copy _ dst _ => s.unstorable (x.agent t) (recOf dst) ((List.range x.outs.length).zip x.outs |>.map fun p => (x.pos - x.outs.length + p.1, p.2))
  | _ => none

/-- The tile of a copy that has ended takes its moments (R254, R256, R325). -/
def State.endCopyTile (s : State) (t : Nat) (x : CopyCmd) : State × CopyCmd :=
  let first := x.pos - x.outs.length
  match x.kind with
  | .copy src dst _ =>
    let r := recOf src
    ((s.storeTile (.copy t x.seq) (x.agent t) (recOf dst) first x.outs).commitMac x.mac.pending,
      { x with outs := [], mac := x.mac.ended ((x.pos + r.tileElems - 1) / r.tileElems) })
  | .layout ws =>
    let r := layoutRecOf ws
    ((rotated s.tick x.outs).foldl (fun s p =>
      s.store .shared t 0 (r.target (first + p.1)) (typeWidth r.type / 8) (p.2.getD 0)) s, { x with outs := [] })
  | _ => (s, x)

/-- A copy command replaced in its queue. -/
def State.setCopy (s : State) (t : Nat) (x : CopyCmd) : State :=
  s.modTeam t fun T => { T with copies := T.copies.map fun y => if y.seq = x.seq then x else y }

/-- The first index of the tile of a copy, or the faulting element on the load side, for a record (R436). -/
def CopyCmd.iter (x : CopyCmd) (store : Bool) : List Nat :=
  match x.kind with
  | .copy src _ _ =>
    let r := recOf src
    r.indices (if store then r.tileStart (if r.codec = 0 then x.pos else x.pos - 1) else x.pos)
  | _ => []

/-- The opcode of a copy command (R437). -/
def CopyCmd.opcode (x : CopyCmd) : Nat :=
  match x.kind with
  | .copy _ _ _ => 0x180
  | .layout _ => 0x183
  | .mload _ => 0x190
  | .mstore _ => 0x192

/-- A fault of a copy at its current element (R256, R443): PAGE stalls it there; any other fault discards the tile and with the
copy every later one of the team. -/
def State.copyFault (s : State) (t : Nat) (x : CopyCmd) (code : FaultCode) (detail : Nat) (store : Bool) (addr : W64) :
    State :=
  match s.team? t with
  | none => s
  | some T =>
    let r := s.commandRecord T code detail store addr x.opcode x.seq (x.iter store)
      (if code = .memData then Config.errorStatus s.tick else 0)
    if code = .page then
      let now := s.clk (dieOf T.core)
      (s.setCopy t { x with stalled := some (addr, now), stallFrom := some (x.stallFrom.getD now) }).stallRecord t r
    else
      (s.discardFrom t x.seq).commandFault t r

/-- The coded elements of a codec copy that nothing can change any more are stored: at the end of a tile, or all of them with the
status word at the end (R254, R271). -/
def State.storeCoded (s : State) (t : Nat) (x : CopyCmd) (last : Bool) : Except State (State × CopyCmd) :=
  match x.kind with
  | .copy src dst strict =>
    let r := recOf src
    let d := recOf dst
    let c := r.coded (some d.elements) x.outs
    let now := (c.ready last).drop x.written
    (match s.storable (x.agent t) d x.written now r.status last with
      | .error (code, lv, addr) => .error (s.copyFault t x code lv true addr)
      | .ok place =>
        let s := (s.storeTile (.copy t x.seq) (x.agent t) d x.written (now.map some)).writeStatus place c.word
        .ok (if last ∧ c.code ≠ 0 ∧ strict then
            s.modTeam t fun T => { T with strictFaults := T.strictFaults ++ [(x.group, x.batch, c.word)] } else s,
          { x with written := x.written + now.length }))
  | _ => .ok (s, x)

/-- A transfer of a team issues again after a stall, whose length counts as an event of source 1 (R452). -/
def State.stallOver (s : State) (t : Nat) (asid : W16) (since : Option Nat) : State :=
  match s.team? t, since with
  | some T, some n => s.monitorEvent (dieOf T.core) 1 (some asid) (s.clk (dieOf T.core) - n)
  | _, _ => s

/-- The end of a copy's tile once its last element has been taken, or the state after a fault of one that cannot be stored (R256). -/
def State.copyTileEnd (s : State) (t : Nat) (x : CopyCmd) : Except State (State × CopyCmd) :=
  if x.outs = [] ∨ x.tileDone = false then .ok (s, x)
  else if x.codec = 0 then
    (match s.tileFault t x with
      | some (code, d, addr) => .error (s.copyFault t x code d true addr)
      | none => .ok (s.endCopyTile t x))
  else if x.pos < x.total then s.storeCoded t x false
  else .ok (s, x)

/-- One element of a copy, and the end of its tile where the element is the tile's last; the state after the fault where it
faults. A copy that has stalled at the end of a tile ends that first. -/
def State.copyOne (s : State) (t : Nat) (x : CopyCmd) : Except State (State × CopyCmd) := do
  let (s, x) ← if x.codec = 0 ∧ x.pos ≠ 0 then s.copyTileEnd t x else .ok (s, x)
  match s.copyElement t x with
  | .faulted code d store addr => .error (s.copyFault t x code d store addr)
  | .taken s v m => (s.stallOver t x.asid x.stallFrom).copyTileEnd t { x with pos := x.pos + 1, outs := x.outs ++ [v], mac := m, stallFrom := none }

/-- The remaining elements of a copy, and the end of a codec transfer. -/
def State.copyRest (s : State) (t : Nat) (x : CopyCmd) : Nat → Except State (State × CopyCmd)
  | 0 => if x.codec = 0 then s.copyTileEnd t x else s.storeCoded t x true
  | n + 1 =>
    match s.copyOne t x with
    | .error s => .error s
    | .ok (s, x) => s.copyRest t x n

/-- A copy is complete and leaves its queue and batch (R223, R258). -/
def State.finishCopy (s : State) (t : Nat) (x : CopyCmd) : State :=
  let s := (s.completeMember t x.seq).freeUnits (.copy t x.seq)
  s.modTeam t fun T => { T with copies := T.copies.filter fun y => y.seq ≠ x.seq }

/-- Whether a copy has issued its last access (R256): its elements have passed their bank units, or no fault stands before any of
those that are left. -/
def State.issued (s : State) (t : Nat) (x : CopyCmd) : Bool :=
  x.started && x.stalled.isNone && (match x.fusedRec? with
    | some _ => decide (x.total ≤ x.pos)
    | none => (s.copyRest t x (x.total - x.pos)).isOk)

/-- R256. COPY_START: the team's next copy starts once every one before it has issued its last access. -/
def State.copyStart (s : State) (t : Nat) : Option State := do
  let T ← s.team? t
  let x ← T.copies.find? fun x => !x.started
  if T.copies.all fun y => decide (x.seq ≤ y.seq) || s.issued t y then some (s.setCopy t { x with started := true }) else none

def execCopyStart (team : Nat) (s : State) : Host.Outcome State Fault Refusal := occurs s (s.copyStart team)

/-- The started copy of a team that can go on. -/
def State.activeCopy (s : State) (t seq : Nat) : Option CopyCmd :=
  (s.team? t).bind fun T => T.copies.find? fun x => x.seq = seq ∧ x.started ∧ x.stalled.isNone

/-- R223, R256. COPY_COMPLETE: the remaining elements are read and each tile's stores take their moments; or the copy stalls or
faults. The elements of a fused copy pass their bank units first, and its accumulators are combined. -/
def State.copyComplete (s : State) (t seq : Nat) : Option State := do
  let x ← s.activeCopy t seq
  if x.fusedRec?.any fun r => decide (x.pos < x.total ∨ (r.fused = 3 ∧ r.combine ≠ 0 ∧ x.mac.combined = false)) then none
  else match s.copyRest t x (x.total - x.pos) with
    | .error s => some s
    | .ok (s, x) => some ((s.setCopy t x).finishCopy t x)

def execCopyComplete (team seq : Nat) (s : State) : Host.Outcome State Fault Refusal :=
  occurs s (s.copyComplete team seq)

/-- The trees of R177 over the accumulators of a pseudo-channel: for each position the 16 banks' values, a bank that the stream did
not reach as the identity, combined into bank 0. -/
def State.combinePc (s : State) (combine : Nat) (reached : List Nat) (stack pc : Nat) : State :=
  let acc (b p : Nat) : W64 := BitVec.ofNat 64 ((s.bankRow stack (16 * pc + b)).word (768 + 4 * p))
  let has (b : Nat) : Bool := reached.contains (1024 * stack + 16 * pc + b)
  let root (op : W64 → W64 → W64) (unit : W64) (leaf : Nat → W64) : W64 :=
    treeRoot op unit 4 ((List.range 16).map fun b => if has b then leaf b else unit)
  let put (s : State) (p : Nat) (v : W64) : State :=
    s.modBankRow stack (16 * pc) fun R => { R with bytes := sramWrite R.bytes (768 + 4 * p) 4 (v.toNat % 2 ^ 32) }
  if combine = 3 then
    (List.range 32).foldl (fun s' k =>
      let v := root sexpOf sexpIdentity fun b => acc b (2 * k) ||| (acc b (2 * k + 1) <<< 32)
      put (put s' (2 * k) v) (2 * k + 1) (v >>> 32)) s
  else
    (List.range 64).foldl (fun s' p =>
      put s' p (if combine = 1 then root (faddOf tyF32 .rne) 0x80000000 fun b => acc b p
        else root (fmaxOf tyF32) 0x7FC00000 fun b => acc b p)) s

/-- The trees over every pseudo-channel that the stream reached (R325). -/
def State.combineAll (s : State) (combine : Nat) (reached : List Nat) : State :=
  (List.range 1024).foldl (fun s n =>
    if reached.any fun b => b / 16 = n then s.combinePc combine reached (n / 64) (n % 64) else s) s

end Sys2Proof.Machine
end

