-- ==== Sys2Proof/Machine/Streams.lean ====
section
/-! DEFINITION. Eyelet bindings and core streams (R261 to R264), the packing of elements into tokens (R254), and bit-plane
coding in a block (R270). -/
namespace Sys2Proof.Machine

/-! ### Tokens of elements -/

/-- Elements of a width packed into 32-bit containers, low end first; a 64-bit element takes two (R90, R254). -/
def packContainers (w : Nat) : Nat → List Nat → List W32
  | 0, _ => []
  | n + 1, xs =>
    if xs = [] then []
    else if w = 64 then
      BitVec.ofNat 32 (xs.headD 0) :: BitVec.ofNat 32 (xs.headD 0 / 2 ^ 32) :: packContainers w n xs.tail
    else
      let per := 32 / w
      BitVec.ofNat 32 ((xs.take per).foldr (fun x acc => x % 2 ^ w + 2 ^ w * acc) 0) :: packContainers w n (xs.drop per)

/-- A list of 16 words, the missing ones zero. -/
def padWords (xs : List W32) : List W32 := (List.range 16).map fun i => xs.getD i 0

/-- A data token of elements (R254). -/
def elementToken (w : Nat) (xs : List Nat) (chan : Nat) (tag : Nat) : Token :=
  let cs := packContainers w xs.length xs
  { dataToken (padWords cs) (maskOf fun i => decide (i < cs.length)) (BitVec.ofNat 16 tag) with
    chan := BitVec.ofNat 8 chan }

/-- A control token (R24): valid is zero. -/
def controlToken (kind : TokKind) (data : List W32) (chan : Nat) : Token :=
  { data := padWords data, valid := 0, kind := kind, ctx := 0, chan := BitVec.ofNat 8 chan, tag := 0 }

/-- The containers of a data token, none for one that is not valid (R24). -/
def tokenWords (tok : Token) : List (Option W32) :=
  (List.range 16).map fun i => if laneBit tok.valid i then some (tok.data.getD i 0) else none

/-- The positions of the valid containers of a data token, as elements of a width (R254). -/
def tokenElements (w : Nat) (tok : Token) : List Nat :=
  let cs := (List.range 16).filterMap fun i =>
    if laneBit tok.valid i then some (tok.data.getD i 0).toNat else none
  if w = 64 then
    (List.range (cs.length / 2)).map fun i => cs.getD (2 * i) 0 + 2 ^ 32 * cs.getD (2 * i + 1) 0
  else cs.flatMap fun x => (List.range (32 / w)).map fun i => bitsOf x (w * i) w

/-! ### Bindings -/

/-- The channels that a handler entry binds (R342). -/
def Handler.binds (H : Handler) (chan : Nat) : Bool :=
  H.valid && decide (H.channel ≤ chan ∧ chan < H.channel + (if H.frame then H.slots + 1 else 1))

/-- Whether an input eyelet of a group of the core is bound to a channel. -/
def State.eyeletOn (s : State) (core chan : Nat) : Bool :=
  s.teams.any fun (_, T) => T.core = core && T.groups.any fun G =>
    G.eyelets.any fun (_, e) => !e.output && e.channel = chan

/-- Whether a handler entry of the core is bound to a channel. -/
def State.handlerOn (s : State) (core chan : Nat) : Bool := (s.core core).handlers.any fun (_, H) => H.binds chan

/-- R262. `bind`: binds an eyelet for the executing group at commit. -/
def execBind (e : BitVec 3) (s : State) : Host.Outcome State Fault Refusal :=
  fire s fun c => withOn c fun on =>
    withUniform c .a (null := .ok s none none []) fun a x =>
      let f := bitsOf x.toNat
      let output := f 8 1 = 1
      if f 35 29 ≠ 0 ∨ (output = false ∧ (f 9 10 ≠ 0 ∨ f 19 16 ≠ 0)) ∨ (coreOfDest (f 9 10)).isNone
          ∨ (PMap.get? c.group.eyelets e.toNat).isSome
          ∨ (output = false ∧ (s.eyeletOn c.team.core (f 0 8) ∨ s.handlerOn c.team.core (f 0 8))) then c.fault .badHandle
      else .ok s none none (if liveOn on [a.lanes] = 0 then [] else [.bind c.blk.slot e.toNat x])

/-- The binding that a word of `bind` describes. -/
def eyeletOf (core : Nat) (x : W64) : Eyelet :=
  let f := bitsOf x.toNat
  if f 8 1 = 1 then
    { channel := f 0 8, output := true, core := (coreOfDest (f 9 10)).getD 0, tag := BitVec.ofNat 16 (f 19 16) }
  else { channel := f 0 8, output := false, core := core, tag := 0 }

/-- R262. `unbind`: removes the binding at commit. -/
def execUnbind (e : BitVec 3) (s : State) : Host.Outcome State Fault Refusal :=
  fire s fun c => withOn c fun on =>
    if (PMap.get? c.group.eyelets e.toNat).isNone then c.fault .badHandle
    else .ok s none none (if on = 0 then [] else [.unbind c.blk.slot e.toNat])

/-! ### Streams -/

/-- Whether a record serves a stream (R263, R271). -/
def streamRecOk (r : Rec) (store : Bool) : Bool :=
  decide (r.dkind = 2 ∧ r.space = 0)
    && (match r.codec, store with
      | 1, false => decide (typeWidth r.type = 32)
      | 2, false => decide (r.type = 6)
      | 1, true => decide (r.type = 6)
      | 2, true => decide (typeWidth r.type = 32)
      | _, _ => true)

/-- The record of an `sbind` and its direction, read and checked (R248, R252, R263). -/
def Ctx.streamRecord (c : Ctx) (s : State) (x : W64) : Except Fired (Bool × RecWords) := do
  let store := x.getLsbD 0
  let va := recordAddress x
  let raw ← c.readObject s va 8
  if bitsOf x.toNat 1 5 ≠ 0 ∨ bitsOf x.toNat 56 8 ≠ 0 then throw (c.fault .badHandle 0 va)
  let ws ← c.checkRecord va raw
  let r := recOf ws
  if streamRecOk r store = false ∨ (store ∧ s.eyeletOn c.team.core (r.dest % 256)) then .error (c.fault .badHandle 0 va)
  else .ok (store, ws)

/-- R263. `sbind`: starts a stream in a slot of the team at commit. -/
def execSbind (s : State) : Host.Outcome State Fault Refusal :=
  fire s fun c => withTwo c fun a b live => Fired.ofExcept do
    let record ← a.checked (c.streamRecord s)
    let n ← b.checked fun y =>
      if 8 ≤ y.toNat ∨ (PMap.getD c.team.streams y.toNat {}).running then
        .error (c.fault .badHandle 0 (recordAddress (a.uniform?.getD 0)))
      else .ok y.toNat
    match record, n with
    | some (store, ws), some n =>
      pure (.ok s none none (if live = 0 then []
        else [.sbind c.blk.slot n store ws (s.sideTraffic c.agent (recOf ws) (if store then .w else .r))]))
    | _, _ => pure (.ok s none none [])

/-- The status word of a stream slot (R264). -/
def Stream.status (x : Stream) : W64 :=
  BitVec.ofNat 64 (x.state + x.code * 4 + Nat.min x.elements (2 ^ 32 - 1) * 32)

/-- R264. `sstat`: the status of a stream slot. -/
def execSstat (s : State) : Host.Outcome State Fault Refusal :=
  fire s fun c => withOn c fun on =>
    withUniform c .a (null := .ok s (some (uniformVal 0 0)) (some (uniformVal 0 0)) []) fun a x =>
      if 8 ≤ x.toNat then c.fault .badHandle
      else
        let v := uniformVal (liveOn on [a.lanes]) (PMap.getD c.team.streams x.toNat {}).status
        .ok s (some v) (some v) []

/-- A running stream of a team that has no outstanding stall. -/
def State.activeStream (s : State) (t n : Nat) (store : Bool) : Option (Team × Stream) := do
  let T ← s.team? t
  let x := PMap.getD T.streams n {}
  if x.running && x.store == store && x.stalled.isNone then some (T, x) else none

def Stream.agent (x : Stream) (T : Team) (t : Nat) : Agent := { asid := T.asid, sup := x.sup, team := t, means := .stream }

/-- A fault of a stream (R256, R443): PAGE stalls it at the element; any other fault discards the tile, and is a command fault that
discards the team's later commands. -/
def State.streamFault (s : State) (t n k : Nat) (code : FaultCode) (detail : Nat) (store : Bool) (addr : W64) : State :=
  match s.team? t with
  | none => s
  | some T =>
    let x := PMap.getD T.streams n {}
    let r := recOf x.record
    let rec_ := s.commandRecord T code detail store addr 0x184 x.seq (r.indices k)
      (if code = .memData then Config.errorStatus s.tick else 0)
    if code = .page then
      let now := s.clk (dieOf T.core)
      (s.modStream t n fun x => { x with stalled := some (addr, now), stallFrom := some (x.stallFrom.getD now) }).stallRecord t rec_
    else (s.discardFrom t x.seq).commandFault t rec_

/-- A stream that has gone on after a stall (R452): the stall is over unless it stands again. -/
def State.streamIssued (s : State) (t n : Nat) : State :=
  match s.team? t with
  | none => s
  | some T =>
    let x := PMap.getD T.streams n {}
    if x.stalled.isSome ∨ x.stallFrom.isNone then s
    else (s.stallOver t T.asid x.stallFrom).modStream t n fun x => { x with stallFrom := none }

/-- A token set on its way to a channel, into a slot reserved for it (R49, R261). -/
def State.send (s : State) (core chan : Nat) (sender : Sender) (tok : Token) : State :=
  let s := s.reserveSlot core chan
  { s with net := s.net ++ [{ core := core, chan := chan, sender := sender, tok := tok }] }

/-- Elements of a record from k on, or the fault at one of them: its index with the fault. -/
def State.readElements (s : State) (who : Agent) (r : Rec) : Nat → Nat → Except (Nat × XlatFault) (List Nat)
  | _, 0 => .ok []
  | k, n + 1 =>
    match s.readElement who r k with
    | .error f => .error (k, f)
    | .ok x =>
      match s.readElements who r (k + 1) n with
      | .error f => .error f
      | .ok xs => .ok (x :: xs)

/-- The width of what a load sends: coded bytes, 32-bit elements that were decoded, or the record's own elements (R271). -/
def Rec.sentWidth (r : Rec) : Nat := if r.codec = 0 then typeWidth r.type else if r.codec = 1 then 8 else 32

/-- What a codec load does next (R254, R271): it reads its record up to an element, it sends elements as a token, which may be the last
of its tile, or it has sent everything. -/
inductive CodecStep where
  | read (upto : Nat)
  | send (part : List (Option Nat)) (last : Bool)
  | done (c : Coded)
  deriving DecidableEq, Repr

/-- The next step of a codec load by the elements that it has read, the coded elements and the tiles that it has sent. With eot = 1 a
tile is what the elements of a tile of the record come to, with eot = 0 it is 4,096 tokens. -/
def Rec.codecStep (r : Rec) (xs : List (Option Nat)) (pos tile : Nat) : CodecStep :=
  let c := r.coded none xs
  let size := c.out.length
  let whole := decide (r.elements ≤ xs.length)
  let ready := if whole then size else c.settled
  let per := 512 / r.sentWidth
  let src := (tile + 1) * r.tileElems
  if r.eot ∧ r.elements ≤ tile * r.tileElems then .done c
  else if r.eot ∧ xs.length < Nat.min src r.elements then .read (r.tileEnd xs.length)
  else
    let stop := if r.eot = false then (tile + 1) * (4096 * per)
      else if r.elements ≤ src then size else (r.coded none (xs.take src)).out.length
    let m := Nat.min per (stop - pos)
    if ready < pos + m ∧ whole = false then .read (r.tileEnd xs.length)
    else
      let m := Nat.min m (size - pos)
      if m = 0 ∧ r.eot = false then .done c
      else .send ((c.out.drop pos).take m) (decide (pos + m = stop ∨ (whole ∧ pos + m = size)))

/-- The token of the elements that a transfer has read: containers in which no element has an output are not valid (R254, R324). -/
def partToken (w : Nat) (vs : List (Option Nat)) (chan tag : Nat) : Token :=
  let tok := elementToken w (vs.map fun v => v.getD 0) chan tag
  let holds (c : Nat) : Bool :=
    if w = 64 then ((vs[c / 2]?).join).isSome
    else ((vs.drop (c * (32 / w))).take (32 / w)).any Option.isSome
  { tok with valid := maskOf fun c => laneBit tok.valid c && holds c }

/-- Elements of a record read from k on, n of them, each leaving code 000 in its unit (R322); a fault with the index of the element
that it is met at, and what was read before it. -/
def State.readRun (s : State) (who : Agent) (r : Rec) (k n : Nat) : State × List Nat × Option (Nat × XlatFault) :=
  match s.readElements who r k n with
  | .ok xs => (s.passElements who r k n, xs, none)
  | .error (j, f) =>
    (s.passElements who r k (j - k), (match s.readElements who r k (j - k) with | .ok xs => xs | .error _ => []), some (j, f))

/-- A codec load stream (R271): each element is read once, and the status word is written before the end is sent. -/
def State.codecStreamToken (s : State) (t n : Nat) (x : Stream) (who : Agent) (out : State → Token → State) : Option State :=
  let r := recOf x.record
  match r.codecStep x.part x.pos x.tiles with
  | .read upto =>
    if r.fused ≠ 0 then none
    else
      let (s, xs, fault) := s.readRun who r x.part.length (upto - x.part.length)
      let s := s.modStream t n fun x => { x with part := x.part ++ xs.map some }
      some (match fault with
        | some (k, f) => s.streamFault t n k f.code f.level false (addrOfBit (r.bitAddr k))
        | none => s)
  | .send part last =>
    some ((if part = [] then s else out s (partToken r.sentWidth part (r.dest % 256) x.tileTok)).modStream t n fun x =>
      { x with
        pos := x.pos + part.length, elements := x.elements + (part.filterMap id).length
        tileTok := if last then 0 else x.tileTok + 1, tiles := if last then x.tiles + 1 else x.tiles, eotDue := r.eot && last })
  | .done c =>
    match s.statusPlace who r.status with
    | .error f => some (s.streamFault t n r.elements f.code f.level true (BitVec.ofNat 64 r.status))
    | .ok place =>
      some ((out (s.writeStatus place c.word) (if c.equal then controlToken .endOfStream [] (r.dest % 256)
        else controlToken .endOfStreamError (wordsOfNat 2 c.word.toNat) (r.dest % 256))).endStream t n (if c.code = 0 then 0 else 3))

/-- R254, R263, R271, R324, R325. LOAD_STREAM_TOKEN: the next token of a load stream goes to its channel. -/
def State.loadStreamToken (s : State) (t n : Nat) : Option State := do
  let (T, x) ← s.activeStream t n false
  let r := recOf x.record
  let chan := r.dest % 256
  let core ← coreOfDest (r.dest / 256)
  if s.channelRoom core chan = 0 then none
  else
    let who := x.agent T t
    let out (s : State) (tok : Token) : State := s.send core chan (.stream t n) tok
    let w := typeWidth r.type
    let per := r.perToken
    let tileSent (x : Stream) : Stream := { x with tileTok := 0, tiles := x.tiles + 1, eotDue := r.eot }
    if x.eotDue then
      let first := (x.tiles - 1) * r.tileElems
      some ((out s (controlToken .endOfTile ((r.indices first).map (BitVec.ofNat 32)) chan)).modStream t n fun x =>
        { x with eotDue := false })
    else if r.codec ≠ 0 then s.codecStreamToken t n x who out
    else if r.fused ≠ 0 ∧ (x.part ≠ [] ∨ x.pos < r.elements) then
      let stop := r.tileEnd (if x.part = [] then x.pos else x.pos - 1)
      let last := decide (x.pos = stop)
      if x.part = [] ∨ (x.part.length ≠ per ∧ last = false) then none
      else
        let s := if last then s.commitMac x.mac.pending else s
        some ((if r.fused = 3 then s else out s (partToken w x.part chan x.tileTok)).modStream t n fun x =>
          if last then tileSent { x with part := [], mac := x.mac.ended (x.tiles + 1) }
          else { x with part := [], tileTok := x.tileTok + 1 })
    else if r.fused = 3 ∧ r.combine ≠ 0 ∧ x.mac.combined = false ∧ x.mac.reached ≠ [] then none
    else if x.pos < r.elements then
      let stop := r.tileEnd x.pos
      let m := Nat.min per (stop - x.pos)
      match s.readElements who r x.pos m with
      | .error (k, f) => some (s.streamFault t n k f.code f.level false (addrOfBit (r.bitAddr k)))
      | .ok xs =>
        some ((out (s.passElements who r x.pos m) (elementToken w xs chan x.tileTok)).modStream t n fun x =>
          let x := { x with pos := x.pos + m, elements := x.elements + m }
          if x.pos = stop then tileSent x else { x with tileTok := x.tileTok + 1 })
    else some ((out s (controlToken .endOfStream [] chan)).endStream t n 0)

def execLoadStreamToken (team stream : Nat) (s : State) : Host.Outcome State Fault Refusal :=
  occurs s ((s.loadStreamToken team stream).map fun s => s.streamIssued team stream)

/-- The channel without its head token. -/
def State.dropHead (s : State) (core chan : Nat) : State :=
  s.modCore core fun C => { C with channels := PMap.set C.channels [] chan (PMap.getD C.channels chan []).tail }

/-- Elements held for a tile stored at their places, in iteration order (R219). -/
def State.storePending (s : State) (who : Agent) (by_ : Streamer) (r : Rec) : PMap Nat → State
  | [] => s
  | (k, v) :: rest => State.storePending (s.storeAt by_ who r k (some v)) who by_ r rest

/-- The tile of a store stream ends: its stores take their moments (R254). -/
def State.endStreamTile (s : State) (t n : Nat) (who : Agent) (r : Rec) (x : Stream) : State :=
  (s.storePending who (.copy t x.seq) r x.pending).modStream t n fun x => { x with pending := [], tileTok := 0 }

/-- Whether a token has a container that lies whole beyond the last element of a record (R254, R264): so many elements has it beyond that
one. The positions of the container that holds the last element are not counted: they end with the tile. -/
def Rec.overruns (r : Rec) (beyond : Nat) : Bool := decide (Nat.max 1 (32 / typeWidth r.type) ≤ beyond)

/-- The coded elements of a codec store stream that nothing can change any more are stored: at the end of a tile, or all of them with
the status word at its end (R254, R271). -/
def State.storeCodedStream (s : State) (t n : Nat) (who : Agent) (r : Rec) (x : Stream) (last : Bool) :
    Except (FaultCode × Nat × W64) State :=
  let c := r.codedTokens x.coded
  let now := ((c.ready last).take r.elements).drop x.pos
  (s.storable who r x.pos now r.status last).map fun place =>
    ((s.storeInOrder (.copy t x.seq) who r x.pos now).writeStatus place c.word).modStream t n fun _ =>
      { x with pos := x.pos + now.length, tileTok := 0 }

/-- The code at the end of a store stream: it tells of an overrun, of a length mismatch or of a short stream (R264, R271). -/
def Stream.endCode (x : Stream) (r : Rec) (bad : Nat) : Nat :=
  if bad ≠ 0 then bad else if x.code ≠ 0 then x.code
  else if r.codec = 0 then (if x.pos < r.elements then 1 else 0)
  else
    let c := r.codedTokens x.coded
    if c.code = 3 ∨ r.elements < c.elements.length then 2 else if c.code ≠ 0 then 3
    else if c.elements.length < r.elements then 1 else 0

/-- R254, R263, R264. STORE_STREAM_TOKEN: a store stream takes the head token of its channel. -/
def State.storeStreamToken (s : State) (t n : Nat) : Option State := do
  let (T, x) ← s.activeStream t n true
  let r := recOf x.record
  let chan := r.dest % 256
  let tok ← (PMap.getD (s.core T.core).channels chan []).head?
  let who := x.agent T t
  let took := s.dropHead T.core chan
  let coded (x : Stream) (last : Bool) (go : State → State) : State :=
    match took.storeCodedStream t n who r x last with
    | .error (code, d, addr) => s.streamFault t n (r.tileStart x.pos) code d true addr
    | .ok s => go s
  let tileEnds (x : Stream) (go : State → State) : State :=
    match s.unstorable who r (x.pending.map fun p => (p.1, some p.2)) with
    | some (code, d, addr) => s.streamFault t n (r.tileStart (x.pos - 1)) code d true addr
    | none => go (took.endStreamTile t n who r x)
  let ended (bad : Nat) : State :=
    if r.codec = 0 then tileEnds x fun s => s.endStream t n (x.endCode r bad)
    else coded x true fun s => s.endStream t n (x.endCode r bad)
  let full := decide (x.tileTok + 1 = 4096) && !r.eot
  if tok.damaged then
    some (s.streamFault t n (r.tileStart x.pos) .memData 3 true (addrOfBit (r.bitAddr x.pos)))
  else
    match tok.kind with
    | .data =>
      if r.codec ≠ 0 then
        let words := tokenWords tok
        let x' : Stream :=
          { x with
            coded := x.coded ++ [words], tileTok := x.tileTok + 1
            elements := x.elements + (words.filterMap id).length * (if r.codec = 1 then 1 else 4) }
        some (if full then coded x' false id else took.modStream t n fun _ => x')
      else
        let xs := tokenElements (typeWidth r.type) tok
        let stop := if r.eot then r.tileEnd (if x.eotDue then x.pos - 1 else x.pos) else r.elements
        let fit := if x.eotDue then [] else xs.take (stop - x.pos)
        match s.firstBad who r x.pos fit with
        | some (k, c, d) => some (s.streamFault t n (r.tileStart k) c d true (addrOfBit (r.bitAddr k)))
        | none =>
          let pos := x.pos + fit.length
          let beyond := x.pos + xs.length - r.elements
          let x' : Stream :=
            { x with
              pos := pos, elements := x.elements + fit.length, tileTok := x.tileTok + 1
              pending := ((List.range fit.length).zip fit).foldl (fun m p => PMap.insert m (x.pos + p.1) p.2) x.pending
              eotDue := r.eot && (x.eotDue || decide (pos = stop ∧ 0 < fit.length))
              code := if (!r.eot && 0 < beyond) || (r.eot && decide (stop = r.elements) && r.overruns beyond) then 2 else x.code }
          if full then
            (match s.unstorable who r (x'.pending.map fun p => (p.1, some p.2)) with
              | some (c, d, addr) => some (s.streamFault t n (r.tileStart x.pos) c d true addr)
              | none => some ((took.modStream t n fun _ => x').endStreamTile t n who r x'))
          else some (took.modStream t n fun _ => x')
    | .endOfTile =>
      if r.codec ≠ 0 then some (coded x false id)
      else
        some (tileEnds x fun s => s.modStream t n fun x =>
          { x with pos := if r.eot && !x.eotDue then r.tileEnd x.pos else x.pos, eotDue := false })
    | .endOfStream => some (ended 0)
    | .endOfStreamError => some (ended 3)
    | _ => some (took.modStream t n fun x => { x with code := 5 })

def execStoreStreamToken (team stream : Nat) (s : State) : Host.Outcome State Fault Refusal :=
  occurs s ((s.storeStreamToken team stream).map fun s => s.streamIssued team stream)

/-! ### Bit-plane coding in a block -/

/-- The lanes of a value as 32-bit elements. -/
def laneWords (v : Lanes) : List (Option W32) := (List.range 16).map fun l => (laneAt v l).map (·.setWidth 32)

/-- The planes and the mask of `bpenc` (R270). -/
def planesOf (v : List (Option W32)) : List W32 × W32 :=
  let q := codedPlanes (deltasOf 0 (fillLanes 0 v))
  ((List.range 16).map fun l => q.getD (2 * l + 1) 0 ++ q.getD (2 * l) 0, planeMask q)

/-- R270. `bpenc`: the planes token on t0, mask and valid mask on t1. -/
def execBpenc (s : State) : Host.Outcome State Fault Refusal :=
  fire s fun c => withOn c fun on => withPort c .a fun a =>
    let v := laneWords (maskLanes on a.lanes)
    let (t0, mask) := planesOf v
    .ok s (some (laneVal (overLanes on [a.lanes] fun l => (t0.getD l 0).setWidth 64)))
      (some (uniformVal on (mask.setWidth 64 ||| ((validMask v).setWidth 64 <<< 32)))) []

/-- The values that planes hold (R270). -/
def planesBack (v : List (Option W32)) : List W32 :=
  let q := (List.range 32).map fun b =>
    let w := ((v[b / 2]?).join).getD 0
    if b % 2 = 1 then (w >>> 16).setWidth 16 else w.setWidth 16
  sumForward 0 (deltasOfPlanes q)

/-- R270. `bpdec`: inverts `bpenc`. -/
def execBpdec (s : State) : Host.Outcome State Fault Refusal :=
  fire s fun c => withOn c fun on => withPort c .a fun a =>
    let x := planesBack (laneWords (maskLanes on a.lanes))
    let v := laneVal (overLanes on [a.lanes] fun l => (x.getD l 0).setWidth 64)
    .ok s (some v) (some v) []

end Sys2Proof.Machine
end

