-- ==== Sys2Proof/Machine/Queues.lean ====
section
/-! DEFINITION. The work queues (R265 to R268, R438): the instructions `enq`, `deq`, `notify`, `qwait` and `qdepth`, the host's
accesses to a queue window, delivery to a channel, and the release of tokens that wait at the queue engine. -/
namespace Sys2Proof.Machine

/-! ### The queue that an operand names -/

/-- The queue that a virtual address names, checked in the order of R231 and R268: translation with the permission that the
instruction needs, alignment, and the enable bit. -/
def Ctx.queueAt (c : Ctx) (s : State) (need : Perm) (aligned : Bool) (va : W64) : Except Fired Nat :=
  match s.translate c.team.asid c.sup need Window.isQueue va with
  | .error f => .error (c.fault f.code 0 va f.level)
  | .ok p =>
    if aligned ∧ va.toNat % 4096 ≠ 0 then .error (c.fault .align 0 va)
    else match windowOf p.pa with
      | .queue q _ => if (s.queue q).enable then .ok q else .error (c.fault .badHandle 0 va)
      | _ => .error (c.fault .access 0 va)

/-- The fire of an instruction whose port a names a queue: the checks are made whatever the guard, unless the operand is null
in every lane (R232, R268, R434). -/
def fireQueue (s : State) (need : Perm) (aligned : Bool) (act : Ctx → Nat → W64 → W16 → Fired) :
    Host.Outcome State Fault Refusal :=
  fire s fun c => withOn c fun on =>
    withUniform c .a (null := .ok s (some (uniformVal 0 0)) (some (uniformVal 0 0)) []) fun a x =>
      match c.queueAt s need aligned x with
      | .error f => f
      | .ok q => act c q x (liveOn on [a.lanes])

/-! ### Instructions -/

/-- The token of an `enq`: element L = b[L], tag a[11:0] (R268). -/
def enqToken (tag : Nat) (live : W16) (b : Lanes) : Token :=
  dataToken ((List.range 16).map fun l => if laneBit live l then ((laneAt b l).getD 0).setWidth 32 else 0) live
    (BitVec.ofNat 16 (tag % 4096))

/-- R268. `enq`: enqueues one token at commit. -/
def execEnqInstr (s : State) : Host.Outcome State Fault Refusal :=
  fireQueue s .w false fun c q x on => withPort c .b fun b =>
    let live := liveOn on [b.lanes]
    .ok s none none (if live = 0 then [] else [.enq c.blk.slot q (enqToken x.toNat live b.lanes)])

/-- The entry that a pop takes: the oldest or the newest that is not reserved (R267), by its place. -/
def Queue.popIndex (Q : Queue) (newest : Bool) : Option Nat :=
  let free := (List.range Q.entries.length).filter fun i =>
    match Q.entries[i]? with | some e => e.held.isNone | none => false
  if newest then free.getLast? else free.head?

/-- The queue with an entry reserved for a group's block (R268). -/
def Queue.reserve (Q : Queue) (i t g slot : Nat) : Queue :=
  { Q with entries := modifyAt Q.entries i fun e => { e with held := some (t, g, slot) } }

/-- The second result of a pop (R268): bit 0 for an empty queue, the tag and the valid mask. -/
def popWord : Option Token → W64
  | none => 1
  | some tok => BitVec.ofNat 64 (tok.tag.toNat * 2 + tok.valid.toNat * 2 ^ 17)

/-- The lanes that a popped token delivers. -/
def popLanes (on : W16) : Option Token → Lanes
  | none => []
  | some tok => maskLanes on (tokenLanes tok)

/-- The fire of a pop (R268, R384): it reserves the entry; a damaged token is not taken (R25). -/
def Ctx.pop (c : Ctx) (s : State) (q : Nat) (newest : Bool) (on : W16) : Fired :=
  if on = 0 then .ok s (some (laneVal [])) (some (uniformVal 0 0)) []
  else
    let Q := s.queue q
    match Q.popIndex newest with
    | none => .ok s (some (laneVal (popLanes on none))) (some (uniformVal on (popWord none))) []
    | some i =>
      let tok := (Q.entries[i]?).map (·.tok)
      if tok.any (·.damaged) then c.memData s 3
      else .ok (s.modQueue q fun Q => Q.reserve i c.t c.g c.blk.slot) (some (laneVal (popLanes on tok)))
        (some (uniformVal on (popWord tok))) [.deq c.blk.slot q newest]

/-- R268. `deq`: reserves the head entry at fire and removes it at commit. -/
def execDeqInstr (s : State) : Host.Outcome State Fault Refusal :=
  fireQueue s .rw true fun c q _ on => c.pop s q false on

/-- Whether a physical address names a register that `notify` may write: a queue's NOTIFY, or a page of AG notify registers
under a supervisor's translation (R268). -/
def notifiable (sup : Bool) (pa : Nat) : Bool :=
  match windowOf pa with
  | .queue _ o => decide (o = 0x0C0)
  | .notify _ _ _ => sup
  | _ => false

/-- Whether the queue that a notify names is enabled; an AG notify register needs no queue. -/
def State.notifyEnabled (s : State) (pa : Nat) : Bool :=
  match windowOf pa with
  | .queue q _ => (s.queue q).enable
  | _ => true

/-- R268. `notify`: writes b to a notify register at commit. -/
def execNotifyInstr (s : State) : Host.Outcome State Fault Refusal :=
  fire s fun c => withOn c fun on =>
    withUniform c .a (null := .ok s none none []) fun a x =>
      match s.translate c.team.asid c.sup .w
          (fun w => match w with | .queue _ _ | .notify _ _ _ => true | _ => false) x with
      | .error f => c.fault f.code 0 x f.level
      | .ok p =>
        if notifiable c.sup p.pa = false then c.fault .access 0 x
        else if s.notifyEnabled p.pa = false then c.fault .badHandle 0 x
        else withUniform c .b (null := .ok s none none []) fun b y =>
          .ok s none none (if liveOn on [a.lanes, b.lanes] = 0 then [] else [.notify c.blk.slot p.pa y])

/-- Whether a NOTIFY write has reached the queue since the group's `qwait` began to wait (R268, R356). -/
def Ctx.notified (c : Ctx) (s : State) (q : Nat) : Bool :=
  match PMap.get? c.group.kept q with
  | some n => decide (n < (s.queue q).notifies)
  | none => false

/-- R268. `qwait`: waits until the queue holds an entry or is notified. -/
def execQwait (s : State) : Host.Outcome State Fault Refusal :=
  fireQueue s .r true fun c q _ on =>
    if on = 0 then .ok s none none []
    else if 0 < (s.queue q).depth ∨ c.notified s q then .ok s none none [.qwaited c.blk.slot q]
    else .wait (.queueWait q)

/-- R268. `qdepth`: the queue's DEPTH. -/
def execQdepth (s : State) : Host.Outcome State Fault Refusal :=
  fireQueue s .r true fun _ q _ on =>
    let v := uniformVal on (BitVec.ofNat 64 (s.queue q).depth)
    .ok s (some v) (some v) []

/-! ### What the effects do at commit -/

/-- The place of the entry that a slot of a group's block has reserved. -/
def Queue.heldIndex (Q : Queue) (t g slot : Nat) : Option Nat :=
  (List.range Q.entries.length).find? fun i =>
    match Q.entries[i]? with | some e => e.held = some (t, g, slot) | none => false

/-- The queue without an entry. -/
def Queue.remove (Q : Queue) (i : Nat) : Queue := { Q with entries := Q.entries.take i ++ Q.entries.drop (i + 1) }

/-- The grants of a task token (R378): IBUD and TBUD; none for any other token. -/
def grantsOf (tok : Token) : Option (Nat × Nat) :=
  let e (i : Nat) : Nat := (tok.data.getD i 0).toNat
  if (tok.data.getD 4 0).getLsbD 31 then some ((e 5 + e 6 * 2 ^ 32) % 2 ^ 48, (e 7 + e 8 * 2 ^ 32) % 2 ^ 48) else none

/-- A budget after an addition (R384, R386, R389): it saturates at 48 bits. -/
def addBudget (x y : Nat) : Nat := Nat.min (x + y) (2 ^ 48 - 1)

/-- The entry that the slot has reserved leaves the queue (R267, R268); a task token that is stolen adds its grants to the
team's budgets (R384). -/
def State.doDeq (s : State) (t g slot q : Nat) (steal : Bool) : State :=
  let Q := s.queue q
  match Q.heldIndex t g slot with
  | none => s
  | some i =>
    let s := s.modQueue q fun Q => Q.remove i
    match steal, (Q.entries[i]?).bind fun e => grantsOf e.tok with
    | true, some (ib, tb) => s.modTeam t fun T => { T with ibud := addBudget T.ibud ib, tbud := addBudget T.tbud tb }
    | _, _ => s

/-- A write to a queue's NOTIFY (R265, R268). -/
def State.doNotify (s : State) (q : Nat) (v : W64) : State :=
  s.modQueue q fun Q => { Q with notifyVal := v, notifies := Q.notifies + 1 }

/-- The wait on a queue is over when the block commits (R356). -/
def State.doQwaited (s : State) (t g q : Nat) : State :=
  s.modGroup t g fun G => { G with kept := PMap.erase G.kept q }

/-! ### The host's accesses -/

/-- The queue that a host function reaches at a window: a physical function every one, a virtual function those that the
platform gives it (R425). -/
def State.hostQueue (s : State) (f : Option Nat) (n : Nat) : Option Nat :=
  match f with
  | none => if n < 131072 then some n else none
  | some v =>
    match PMap.get? s.hub.windows v with
    | some (base, count) => if n < count then some (base + n) else none
    | none => none

/-- The host's access to a queue window, or its answer as an unsupported request (R425). -/
def State.hostAccess (s : State) (f : Option Nat) (n : Nat) (act : Nat → State) : Option State :=
  match s.hub.phase with
  | .early _ | .full =>
    (match s.hostQueue f n with
      | some q => some (act q)
      | none => some (s.reply .unsupported))
  | _ => none

/-- R265. ENQ: a 64-byte write enqueues a token, or is discarded and sets STATUS.lost. -/
def execEnq (f : Option Nat) (q : Nat) (data : List W32) (s : State) : Host.Outcome State Fault Refusal :=
  occurs s (s.hostAccess f q fun q =>
    (if (s.queue q).takes 1 then s.enqueue q (dataToken (padWords data) 0xFFFF 0)
      else s.modQueue q fun Q => { Q with lost := true }).reply .done)

/-- A host pop (R265): the entry's data, or zero with STATUS.empty read. A damaged token is not taken (R25): the read completes with
poison (DESIGN CHOICE, log entry 13). -/
def State.hostPop (s : State) (q : Nat) (newest : Bool) : State :=
  let Q := s.queue q
  match Q.popIndex newest with
  | none => (s.modQueue q fun Q => { Q with emptyRead := true }).reply (.token (padWords []))
  | some i =>
    match Q.entries[i]? with
    | none => s
    | some e => if e.tok.damaged then s.reply .poison else (s.modQueue q fun Q => Q.remove i).reply (.token e.tok.data)

/-- R265. DEQ. -/
def execDeq (f : Option Nat) (q : Nat) (s : State) : Host.Outcome State Fault Refusal :=
  occurs s (s.hostAccess f q fun q => s.hostPop q false)

/-- R265. STEAL. -/
def execSteal (f : Option Nat) (q : Nat) (s : State) : Host.Outcome State Fault Refusal :=
  occurs s (s.hostAccess f q fun q => s.hostPop q true)

/-- R265. NOTIFY. -/
def execNotify (f : Option Nat) (q : Nat) (v : W64) (s : State) : Host.Outcome State Fault Refusal :=
  occurs s (s.hostAccess f q fun q => (s.doNotify q v).reply .done)

/-- Whether a range of physical addresses lies in the window that CONFIG.place names and that the part now maps (R266). -/
def State.storageFits (s : State) (pad : Bool) (a n : Nat) : Bool :=
  let inside (x : Nat) : Bool :=
    (s.storageAddr x).isSome && (match windowOf x with | .hbm => !pad | .scratchpad _ _ => pad | _ => false)
  decide (a % 4096 = 0) && inside a && inside (a + n - 1)

/-- R266. A write to CONFIG. -/
def State.configQueue (s : State) (q : Nat) (words : List W64) : State :=
  let f := fieldOf words
  let enable := f 0 1 = 1
  let depth := f 1 4
  let pad := f 5 1 = 1
  let storage := f 64 52
  if 12 < depth ∨ f 25 39 ≠ 0 ∨ f 116 396 ≠ 0 ∨ (coreOfDest (f 7 10)).isNone
      ∨ (enable ∧ s.storageFits pad storage (128 * 16 * 2 ^ depth) = false) then s
  else s.modQueue q fun Q =>
    { Q with
      enable := enable, depthLog := depth, place := pad, bound := f 6 1 = 1, core := (coreOfDest (f 7 10)).getD 0
      channel := f 17 8, storage := storage, entries := [] }

/-- R266, R425. CONFIG: a virtual function's write is an unsupported request. -/
def execConfig (f : Option Nat) (q : Nat) (words : List W64) (s : State) : Host.Outcome State Fault Refusal :=
  occurs s (s.hostAccess f q fun q =>
    if f.isSome then s.reply .unsupported else (s.configQueue q words).reply .done)

/-- CONFIG as it reads (R266). -/
def Queue.configWord (Q : Queue) : Nat :=
  (if Q.enable then 1 else 0) + Q.depthLog * 2 + (if Q.place then 32 else 0) + (if Q.bound then 64 else 0)
    + destOfCore Q.core * 2 ^ 7 + Q.channel * 2 ^ 17 + Q.storage * 2 ^ 64

/-- The register of a queue window in which a byte lies, with its first offset (R265): NOTIFY reads as STATUS, ENQ as zero, and so
does an offset that the table does not list (R5). -/
def Queue.register (Q : Queue) (offset : Nat) : Nat × Nat :=
  if 0x0C0 ≤ offset ∧ offset < 0x0C8 then (0x0C0, Q.status.toNat)
  else if 0x100 ≤ offset ∧ offset < 0x108 then (0x100, Q.depth)
  else if 0x108 ≤ offset ∧ offset < 0x110 then (0x108, Q.status.toNat)
  else if 0x200 ≤ offset ∧ offset < 0x240 then (0x200, Q.configWord)
  else (offset, 0)

/-- A byte of a queue window as a read finds it. -/
def Queue.registerByte (Q : Queue) (offset : Nat) : W8 :=
  let (first, v) := Q.register offset
  BitVec.ofNat 8 (v / 2 ^ (8 * (offset - first)))

/-- Whether an access touches a byte of CONFIG (R425). -/
def meetsConfig (offset n : Nat) : Bool := decide (offset < 0x240 ∧ 0x200 < offset + n)

/-- A write of 8 bytes to a register of a queue window (R5, R265): STATUS clears the bits that are written as 1, NOTIFY holds the value and
wakes the waits on it, and every other offset ignores it. -/
def State.registerWrite (s : State) (q offset : Nat) (v : W64) : State :=
  if offset = 0x108 then
    s.modQueue q fun Q => { Q with emptyRead := Q.emptyRead && !v.getLsbD 1, lost := Q.lost && !v.getLsbD 3 }
  else if offset = 0x0C0 then s.doNotify q v
  else s

/-- R5, R265, R266. REGISTER_WRITE: a read answers the registers' values, a write acts as its register gives; a virtual function's access to
CONFIG is an unsupported request (R425). -/
def execRegisterWrite (f : Option Nat) (q : Nat) (offset : Nat) (access : RegisterAccess) (s : State) :
    Host.Outcome State Fault Refusal :=
  occurs s (s.hostAccess f q fun q =>
    match access with
    | .read n =>
      s.reply (if f.isSome ∧ meetsConfig offset n then .unsupported
        else .data ((List.range n).map fun i => (s.queue q).registerByte (offset + i)))
    | .write v => if f.isSome ∧ meetsConfig offset 8 then s.reply .unsupported else (s.registerWrite q offset v).reply .done)

/-! ### Delivery and the queue engine -/

/-- Whether a die runs (R449). -/
def State.dieRuns (s : State) (d : Nat) : Bool :=
  match s.hub.phase with
  | .full => true
  | .early _ => decide (d = 0)
  | _ => false

/-- The ASID of a delivery to a channel of a core: that of the handler entry that the channel is bound to (R343, R424). -/
def State.channelAsid (s : State) (core channel : Nat) : Option W16 :=
  (s.core core).handlers.findSome? fun (_, H) => if H.binds channel then some H.asid else none

/-- R267. QUEUE_DELIVERY: the head entry of a bound queue goes to its channel, into a free slot; it counts as an event of source
0 (R452). -/
def State.queueDelivery (s : State) (q : Nat) : Option State :=
  let Q := s.queue q
  match Q.popIndex false with
  | none => none
  | some i =>
    match Q.entries[i]? with
    | none => none
    | some e =>
      if Q.enable && Q.bound && s.dieRuns (dieOf Q.core) && decide (s.channelRoom Q.core Q.channel ≠ 0) then
        let s' := s.modQueue q fun Q => Q.remove i
        some ((s'.send Q.core Q.channel (.queue q) { e.tok with chan := BitVec.ofNat 8 Q.channel }).monitorEvent
          (dieOf Q.core) 0 (s.channelAsid Q.core Q.channel) (Q.cycle s - e.since))
      else none

def execQueueDelivery (q : Nat) (s : State) : Host.Outcome State Fault Refusal := occurs s (s.queueDelivery q)

/-- A fault whose record has waited has the number that the queue engine has given it (R438). -/
def Outstanding.numbered (o : Outstanding) (tok : Token) (n : Nat) : Outstanding :=
  if o.seq = 0 ∧ o.record.token 0 = tok then { o with seq := n } else o

/-- The faults of residencies that wait for the number of a record. -/
def State.numberFaults (s : State) (tok : Token) (n : Nat) : State :=
  (List.range 16).foldl (fun s k => s.modStack k fun S =>
    { S with residencies := S.residencies.map fun (slot, R) => (slot,
        { R with
          halts := R.halts.map fun o => o.numbered tok n
          fab := R.fab.map fun F => { F with nodes := F.nodes.map fun (i, x) => (i, { x with fault := x.fault.map fun o => o.numbered tok n }) } }) }) s

/-- R438. QUEUE_ENGINE_TOKEN_RELEASE: the first token that waits at the engine is enqueued once its queue is enabled and has room. -/
def State.engineRelease (s : State) (q : Nat) : Option State :=
  let Q := s.queue q
  match Q.waiting with
  | [] => none
  | x :: rest =>
    if Q.takes 1 then
      let s' := (s.modQueue q fun Q => { Q with waiting := rest }).engineTake q x
      some (if x.record then s'.numberFaults x.tok (s'.nextFaultSeq (((x.tok.data.getD 0 0) >>> 16).setWidth 16) - 1) else s')
    else none

def execQueueEngineTokenRelease (q : Nat) (s : State) : Host.Outcome State Fault Refusal := occurs s (s.engineRelease q)

end Sys2Proof.Machine
end

