-- ==== Sys2Proof/Machine/Tape.lean ====
section
/-! DEFINITION. The tape engine (R183 to R207): the records that a committing block appends, the stream's transfers, the cursors of
the reverse, and the meanings of the tape instructions. -/
namespace Sys2Proof.Machine

/-! ### The stream while it is recorded -/

/-- The position after the last byte of the stream. -/
def Tape.endPos (T : Tape) : Nat := T.flushed + T.buf.length

/-- The limit of R194. -/
def Tape.limit (T : Tape) : Nat := T.quota * 2 ^ 21 - 256

/-- Segments that a stream of the given end has reached (R183). -/
def segmentsOf (endPos : Nat) : Nat := (endPos - 1) / 2 ^ 21 + 1

/-- The stream with units appended. -/
def Tape.extend (T : Tape) (units : List W16) : Tape :=
  let U := { T with buf := T.buf ++ bytesOfUnits units }
  { U with used := segmentsOf U.endPos }

/-- The stream with the tail of its last record replaced. -/
def Tape.retail (T : Tape) (w : W32) : Tape :=
  { T with buf := T.buf.take (T.buf.length - 4) ++ bytesOfUnits (tailUnits w) }

/-- A record appended (R187, R189): a value or branch record whose body equals that of the last record becomes a repeat, whose
count holds up to 4,096 copies. -/
def Tape.append (T : Tape) (kind chain : Nat) (body : List W16) : Tape :=
  let fresh : Tape :=
    { T.extend (body ++ tailUnits (tailWord kind chain body.length 0)) with
      last := some { chain := chain, kind := kind, body := body } }
  let next : Tape := match T.last with
    | some r =>
      if (kind = 1 ∨ kind = 3) ∧ r.kind = kind ∧ r.chain = chain ∧ r.body = body then
        let tail := tailWord (kind + 1) chain 0 (r.copies % 4096)
        { (if r.copies % 4096 = 0 then T.extend (tailUnits tail) else T.retail tail) with
          last := some { r with copies := r.copies + 1 } }
      else fresh
    | none => fresh
  if kind = 5 then next else { next with stored := T.stored + 1 }

/-- The units of a 64-bit value. -/
def unitsOfWord (n : Nat) : List W16 := (List.range 4).map fun i => BitVec.ofNat 16 (n / 2 ^ (16 * i))

/-- The checkpoint marker appended (R192, R195). -/
def Tape.mark (T : Tape) : Tape :=
  { T.extend (unitsOfWord T.stored ++ tailUnits (tailWord 6 32 4 0)) with marker := true, finish := T.endPos, last := none }

/-- A value record of a chain appended, with the chain's previous value (R188, R203). -/
def Tape.value (T : Tape) (chain : Nat) (x : List (Option W32)) : Tape :=
  let (body, p) := valueBody (PMap.getD T.prev chain 0) x
  { T.append 1 chain body with prev := PMap.set T.prev 0 chain p }

/-- The exit numbers of a block's lanes: bit n of each lane's number (R190). -/
def exitBits (F : Flight) (n : Nat) : W16 :=
  F.effects.foldl (fun m e =>
    match e with
    | .exit _ num _ lanes => if num.testBit n then m ||| maskOf fun l => lanes.any fun x => x.1 = l else m
    | _ => m) 0

/-- The body of a branch record (R190). -/
def branchBody (F : Flight) : List W16 := [F.mask, exitBits F 0 &&& F.mask, exitBits F 1 &&& F.mask]

/-- A record that a block appends (R186). -/
inductive TapeItem where
  | value (x : List (Option W32))
  | branch (body : List W16)
  | pack (units : List W16)

/-- The stream with a record appended without regard to the limit. -/
def Tape.item (g : Nat) (T : Tape) : TapeItem → Tape
  | .value x => T.value g x
  | .branch body => T.append 3 g body
  | .pack units => T.append 5 32 units

/-- Whether an effect ends the run of records that go to one stream (R201, R202, R204). -/
def Effect.turnsTape : Effect → Bool
  | .tapeOpen _ _ | .tapeClose _ | .tapeRev _ _ _ _ _ _ _ _ => true
  | _ => false

/-- The records that a block still appends to the stream as it then stands (R39, R186): the values of the effects that are left, up to one
that turns the tape; the branch record, when no effect does; the pack record of a commit that ends a packing. -/
def tapeItems (F : Flight) (packs : Bool) : List Effect → List TapeItem
  | [] => (if F.hdr.tape then [.branch (branchBody F)] else []) ++ if packs then [.pack (List.replicate 256 0)] else []
  | .tapeRec _ x :: rest => .value x :: tapeItems F packs rest
  | e :: rest => if e.turnsTape then [] else tapeItems F packs rest

/-- Whether records would pass the limit (R194). -/
def Tape.passes (T : Tape) (g : Nat) (items : List TapeItem) : Bool :=
  decide (T.mode = .recording ∧ T.marker = false ∧ T.limit < (items.foldl (Tape.item g) T).endPos) && !items.isEmpty

/-- The first of the listed records goes to the stream (R186, R194, R195): under the checkpoint policy the records of a block stand
together or are dropped together. Pack records do not count. -/
def Tape.record (T : Tape) (g : Nat) (items : List TapeItem) : Tape :=
  match items with
  | [] => T
  | x :: _ =>
    let counts : Nat := match x with | .pack _ => 0 | _ => 1
    if T.mode ≠ .recording then T
    else if T.marker then { T with dropped := T.dropped + counts }
    else if T.passes g items then { T.mark with dropped := T.dropped + counts }
    else T.item g x

/-- A pack record appended (R191), or dropped as R195 gives. -/
def Tape.packRecord (T : Tape) (units : List W16) : Tape := T.record 32 [.pack units]

/-! ### Transfers -/

/-- The position up to which the buffer is due to be written: while recording the full halves, less the last tail, which a
repeat may still change, and what has been written out for another team; a closed tape in full (R193). -/
def Tape.due (T : Tape) : Nat :=
  match T.mode with
  | .recording => Nat.max (Nat.max T.flushed T.servedTo) (64 + (T.endPos - 4 - 64) / 32768 * 32768)
  | .closed => T.endPos
  | _ => T.flushed

/-- The traffic of what is due, in units of 64 bytes. -/
def Tape.traffic (T : Tape) : Nat :=
  (if T.head.isSome then 1 else 0) + (T.due - T.flushed + 63) / 64

/-- The 64 bytes of a tape header (R185). -/
def headBytes (w : W64 × W64) : List W8 := bytesOfNat 8 w.1.toNat ++ bytesOfNat 8 w.2.toNat ++ bytesOfNat 48 0

/-- Main memory, where a tape area lies (R184). -/
def Window.isTape : Window → Bool
  | .hbm | .secondTier _ _ => true
  | _ => false

/-- The virtual address of a position. -/
def tapeAddr (base : W64) (pos : Nat) : W64 := base + BitVec.ofNat 64 pos

/-- Bytes written from a position on, up to a fault: the state, the position reached and the fault. -/
def State.tapeWrite (s : State) (T : Team) (base : W64) (pos : Nat) : List W8 → State × Nat × Option XlatFault
  | [] => (s, pos, none)
  | b :: rest =>
    match s.translate T.asid T.sup .w Window.isTape (tapeAddr base pos) with
    | .error f => (s, pos, some f)
    | .ok p => State.tapeWrite (s.writeByte p.gen p.pa b) T base (pos + 1) rest

/-- A transfer of the tape stalls on a fault (R193, R443). -/
def State.tapeStall (s : State) (t : Nat) (base : W64) (pos : Nat) (store : Bool) (f : XlatFault) : State :=
  match s.team? t with
  | none => s
  | some T =>
    let now := s.clk (dieOf T.core)
    (s.modTeam t fun T => { T with tape := { T.tape with stalled := some (tapeAddr base pos, now) } }).stallRecord t
      { code := f.code, store := store, source := 6, asid := T.asid, detail := f.level, address := tapeAddr base pos
        place := BitVec.ofNat 64 pos, agent := T.handle, cycle := now }

/-- The header that is due, written (R185). -/
def State.tapeHead (s : State) (t : Nat) : State :=
  match s.team? t with
  | none => s
  | some T =>
    match T.tape.head with
    | none => s
    | some w =>
      match s.tapeWrite T T.tape.base 0 (headBytes w) with
      | (s, pos, some f) => s.tapeStall t T.tape.base pos true f
      | (s, _, none) => s.modTeam t fun T => { T with tape := { T.tape with head := none } }

/-- The bytes that are due, written (R193). -/
def State.tapeBytes (s : State) (t : Nat) : State :=
  match s.team? t with
  | none => s
  | some T =>
    let X := T.tape
    match s.tapeWrite T X.base X.flushed (X.buf.take (X.due - X.flushed)) with
    | (s, pos, fault) =>
      let s := s.modTeam t fun T =>
        { T with tape := { T.tape with flushed := pos, buf := T.tape.buf.drop (pos - X.flushed) } }
      match fault with
      | some f => s.tapeStall t X.base pos true f
      | none => s

/-- Whether the tape of a team stands on a fault. -/
def State.tapeStalled (s : State) (t : Nat) : Bool :=
  match s.team? t with
  | some T => T.tape.stalled.isSome
  | none => true

/-- The transfers that are due: a new tape's header first, a closed tape's last (R202). The commands that wait for them are
complete once none is left. -/
def State.tapeRun (s : State) (t : Nat) : State :=
  match s.team? t with
  | none => s
  | some T =>
    let s := if s.tapeStalled t ∨ T.tape.mode ≠ .recording then s else s.tapeHead t
    let s := if s.tapeStalled t then s else s.tapeBytes t
    let s := if s.tapeStalled t then s else s.tapeHead t
    if s.tapeStalled t then s
    else
      (T.tape.seqs.foldl (fun s n => s.completeMember t n) s).modTeam t fun T => { T with tape := { T.tape with seqs := [] } }

/-- Tape transfers of a group's commit: they join its open batch (R258). -/
def State.tapeIssue (s : State) (t g : Nat) : State :=
  (s.modTeam t fun T =>
    if T.tape.head.isSome ∨ T.tape.flushed < T.tape.due then
      { T with
        tape := { T.tape with seqs := T.tape.seqs ++ [T.cmdSeq + 1] }
        cmdSeq := T.cmdSeq + 1
        members := T.members ++ [(g, ((T.groups[g]?).map (·.batches)).getD 0 + 1, T.cmdSeq + 1)] }
    else T).tapeRun t

/-- A stalled tape walks again (R443). -/
def State.tapeRetry (s : State) (t : Nat) : State :=
  (s.modTeam t fun T => { T with tape := { T.tape with stalled := none } }).tapeRun t

/-- The tape of a team that the buffer serves no longer (R193): a recording one is due to be written out, less a tail that a repeat may still
change. -/
def Tape.yieldBuffer (T : Tape) : Tape :=
  match T.mode with
  | .recording => { T with servedTo := Nat.max T.servedTo (T.endPos - 4) }
  | _ => { T with held := [] }

/-- The tape buffer passes to a team: what it holds of another team's stream is written out and charged to that team (R193, R199). -/
def State.tapeServe (s : State) (core t : Nat) : State :=
  match (s.core core).tapeTeam with
  | some u =>
    if u = t then s
    else
      let s := s.modCore core fun C => { C with tapeTeam := some t }
      let s := s.modTeam u fun U =>
        let X := U.tape.yieldBuffer
        { U with tape := X, tbud := U.tbud - (X.traffic - U.tape.traffic) }
      if s.tapeStalled u then s else s.tapeBytes u
  | none => s.modCore core fun C => { C with tapeTeam := some t }

/-- The tape after `tape.close` (R202): the trailer is appended, and buffer and header are due. -/
def Tape.close (T : Tape) : Tape :=
  match T.mode with
  | .recording =>
    let finish := if T.marker then T.finish else T.endPos
    let body := ((List.range 32).flatMap fun c => tailUnits (PMap.getD T.prev c 0)) ++ unitsOfWord T.dropped
    let U := T.extend (body ++ tailUnits (tailWord 7 32 68 0))
    { U with
      mode := .closed, finish := finish, trailer := T.prev, last := none, held := U.buf, heldAt := U.flushed
      head := some (BitVec.ofNat 64 (U.endPos % 2 ^ 48 + 2 ^ 48 + if T.marker then 2 ^ 49 else 0), BitVec.ofNat 64 U.used) }
  | .reversing => { T with mode := .closed, buf := [] }
  | _ => T

/-- The tape after `tape.open` (R201). -/
def Tape.open (T : Tape) (base : W64) : Tape :=
  { policy := T.policy, quota := T.quota, mode := .recording, used := 1, base := base, head := some (0, 0), seqs := T.seqs }

/-! ### The stream read back -/

/-- A record found before a position: where its body starts and its tail ends; not sound where its tail is reserved or its length
does not fit its kind (R187). -/
structure TapeRec where
  kind : Nat
  chain : Nat
  length : Nat
  count : Nat
  start : Nat
  sound : Bool
  deriving DecidableEq, Repr

/-- The byte at a position of the team's own stream that the buffer holds (R193). -/
def Tape.heldByte? (T : Tape) (base : W64) (pos : Nat) : Option W8 :=
  if base = T.base ∧ T.heldAt ≤ pos then T.held[pos - T.heldAt]? else none

/-- A byte of a tape area, from the buffer or from memory, or the fault. -/
def State.tapeByte (s : State) (T : Team) (base : W64) (pos : Nat) : Except XlatFault W8 :=
  match T.tape.heldByte? base pos with
  | some b => .ok b
  | none =>
    match s.translate T.asid T.sup .r Window.isTape (tapeAddr base pos) with
    | .error f => .error f
    | .ok p => if s.spoiled p.pa 1 then .error ⟨.memData, 0⟩ else .ok ((s.readByte p.gen p.pa).getD 0)

/-- Bytes of a tape area from a position on, or the fault and its position. -/
def State.tapeRead (s : State) (T : Team) (base : W64) (pos : Nat) : Nat → Except (XlatFault × Nat) (List W8)
  | 0 => .ok []
  | n + 1 =>
    match s.tapeByte T base pos with
    | .error f => .error (f, pos)
    | .ok b =>
      match State.tapeRead s T base (pos + 1) n with
      | .error f => .error f
      | .ok bs => .ok (b :: bs)

/-- The record whose tail ends at a position (R187). -/
def State.tapeRecBefore (s : State) (T : Team) (base : W64) (pos : Nat) : Except (XlatFault × Nat) TapeRec := do
  let bs ← s.tapeRead T base (pos - 4) 4
  let w := natOfBytes bs
  let kind := bitsOf w 0 4
  let chain := bitsOf w 4 6
  let len := bitsOf w 10 9
  let count := bitsOf w 19 12
  let fits := match kind with
    | 1 => decide (3 ≤ len) | 2 | 4 => decide (len = 0) | 3 => decide (len = 3) | 5 => decide (len = 256)
    | 6 => decide (len = 4) | 7 => decide (len = 68) | _ => false
  pure
    { kind := kind, chain := chain, length := len, count := count, start := pos - 4 - 2 * len
      sound := fits && decide (bitsOf w 31 1 = 0 ∧ chain ≤ 32 ∧ 68 + 2 * len ≤ pos) && (decide (count = 0) || kind == 2 || kind == 4) }

/-- What a search from a position back comes to. -/
inductive TapeFound where
  | nothing
  | unsound
  | found (r : TapeRec) (stop : Nat)

/-- The latest record of a chain before a position (R196). -/
def State.tapeFind (s : State) (T : Team) (base : W64) (chain : Nat) : Nat → Nat → Except (XlatFault × Nat) TapeFound
  | 0, _ => .ok .nothing
  | fuel + 1, pos =>
    if pos < 68 then .ok .nothing
    else
      match s.tapeRecBefore T base pos with
      | .error f => .error f
      | .ok r =>
        if r.sound = false then .ok .unsound
        else if r.chain = chain then .ok (.found r pos)
        else s.tapeFind T base chain fuel r.start

/-- The record of whose body a repeat holds copies: the nearest before it that is no repeat (R189). -/
def State.tapeBodyRec (s : State) (T : Team) (base : W64) (kind : Nat) : Nat → Nat → Except (XlatFault × Nat) (Option TapeRec)
  | 0, _ => .ok none
  | fuel + 1, pos =>
    if pos < 68 then .ok none
    else
      match s.tapeRecBefore T base pos with
      | .error f => .error f
      | .ok r =>
        if r.sound = false then .ok none
        else if r.kind = kind then .ok (some r)
        else if r.kind = kind + 1 then s.tapeBodyRec T base kind fuel r.start
        else .ok none

/-- Records of value and branch kind before a position, each copy counted (R192, R207): of one chain, or of every chain. -/
def State.tapeCount (s : State) (T : Team) (base : W64) (chain : Option Nat) : Nat → Nat → Except (XlatFault × Nat) Nat
  | 0, _ => .ok 0
  | fuel + 1, pos =>
    if pos < 68 then .ok 0
    else
      match s.tapeRecBefore T base pos with
      | .error f => .error f
      | .ok r =>
        if r.sound = false then .ok 0
        else
          match s.tapeCount T base chain fuel r.start with
          | .error f => .error f
          | .ok n => .ok (n + if r.kind ≤ 4 ∧ (chain = none ∨ chain = some r.chain) then r.count + 1 else 0)

/-- The cursor of a chain with the previous value: those of the tape, moved by the block's earlier pops (R196). -/
def Ctx.tapeCursor (c : Ctx) : (Nat × Nat) × W32 :=
  c.blk.effects.foldl (fun acc e =>
    match e with
    | .tapePop _ (some (pos, taken, p, _)) => ((pos, taken), p)
    | _ => acc)
    (PMap.getD c.team.tape.cursors c.g (c.team.tape.finish, 0), PMap.getD c.team.tape.prev c.g 0)

/-- What a pop comes to (R205). -/
inductive TapePopped where
  | status (n : Nat)
  /-- The body, with the cursor and the lowest position read. -/
  | body (units : List W16) (pos taken low : Nat)

/-- The next record of a chain from a cursor (R196, R197, R205): `kind` is 1 for a value, 3 for a branch and 5 for a pack record, which has no
repeats. -/
def State.tapePop (s : State) (T : Team) (base : W64) (chain kind pos taken : Nat) :
    Except (XlatFault × Nat) TapePopped := do
  match ← s.tapeFind T base chain (pos + 1) pos with
  | .nothing => pure (.status 2)
  | .unsound => pure (.status 3)
  | .found r stop =>
    if r.kind = kind then
      let bs ← s.tapeRead T base r.start (2 * r.length)
      pure (.body (unitsOfBytes bs) r.start 0 r.start)
    else if kind ≠ 5 ∧ r.kind = kind + 1 then
      match ← s.tapeBodyRec T base kind (stop + 1) r.start with
      | none => pure (.status 3)
      | some b =>
        let bs ← s.tapeRead T base b.start (2 * b.length)
        if taken < r.count then pure (.body (unitsOfBytes bs) stop (taken + 1) b.start)
        else pure (.body (unitsOfBytes bs) r.start 0 b.start)
    else pure (.status 3)

/-! ### Instructions -/

/-- The value of a tape result that is uniform. -/
def statusVal (on : W16) (n : Nat) : Option Val := some (uniformVal on (BitVec.ofNat 64 n))

/-- What a fault of a tape read comes to at a fire: an uncorrectable error is a fault of the block (R446), any other stalls the tape engine
(R193). -/
def Ctx.tapeFault (c : Ctx) (s : State) (base : W64) (f : XlatFault × Nat) : Fired :=
  if f.1.code = .memData then c.memData s f.1.level 0 (tapeAddr base f.2)
  else .waitIn (s.tapeStall c.t base f.2 false f.1) .tape

/-- The fire of a pop (R196, R205). -/
def firePop (s : State) (kind : Nat) (value : W16 → W32 → List W16 → Val × W32) : Host.Outcome State Fault Refusal :=
  fire s fun c => withOn c fun on =>
    let none_ : Option Val := some (laneVal [])
    let T := c.team.tape
    if on = 0 then .ok s none_ (statusVal 0 0) []
    else if T.mode ≠ .reversing then .ok s none_ (statusVal on 4) []
    else if T.stalled.isSome then .wait .tape
    else if T.marker ∧ ¬T.told.contains c.g then .ok s none_ (statusVal on 1) [.tapePop c.blk.slot none]
    else
      let ((pos, taken), p) := c.tapeCursor
      match s.tapePop c.team T.base c.g kind pos taken with
      | .error f => c.tapeFault s T.base f
      | .ok (.status n) => .ok s none_ (statusVal on n) []
      | .ok (.body units pos taken low) =>
        let (v, p) := value on p units
        .ok s (some v) (statusVal on 0) [.tapePop c.blk.slot (some (pos, taken, p, low))]

/-- R205. `tape.pop`: the values of the chain's next value record. -/
def execTapePop (s : State) : Host.Outcome State Fault Refusal :=
  firePop s 1 fun on p units =>
    let (x, p) := decodeBack p units
    (laneVal (overLanes on [(List.range 16).map fun l => ((x[l]?).join).map (·.setWidth 64)]
      fun l => (((x[l]?).join).getD 0).setWidth 64), p)

/-- R205. `tape.brpop`: the masks of the lanes that took each exit. -/
def execTapeBrpop (s : State) : Host.Outcome State Fault Refusal :=
  firePop s 3 fun on p units =>
    let m := units.getD 0 0
    let e0 := units.getD 1 0
    let e1 := units.getD 2 0
    let took (e : Nat) : W16 :=
      m &&& (if e.testBit 0 then e0 else ~~~e0) &&& (if e.testBit 1 then e1 else ~~~e1)
    (uniformVal on (BitVec.ofNat 64 ((List.range 4).map fun e => (took e).toNat * 2 ^ (16 * e)).sum), p)

/-- R203. `tape.rec`: the block's commit appends a value record while the tape is recording. -/
def execTapeRec (s : State) : Host.Outcome State Fault Refusal :=
  fire s fun c => withOn c fun on => withPort c .a fun a =>
    if liveOn on [a.lanes] = 0 then .ok s none none []
    else .ok s none none [.tapeRec c.blk.slot ((laneWords (maskLanes on a.lanes)))]

/-- R201. `tape.open`. -/
def execTapeOpen (s : State) : Host.Outcome State Fault Refusal :=
  fire s fun c => withOn c fun on =>
    withUniform c .a (null := .ok s none none []) fun a x =>
      if x.toNat % 2 ^ 21 ≠ 0 then c.fault .align 0 x
      else if c.team.tape.mode = .recording ∨ c.team.tape.quota = 0 then c.fault .badHandle
      else .ok s none none (if liveOn on [a.lanes] = 0 then [] else [.tapeOpen c.blk.slot x])

/-- R202. `tape.close`. -/
def execTapeClose (s : State) : Host.Outcome State Fault Refusal :=
  fire s fun c => withOn c fun on => .ok s none none (if on = 0 then [] else [.tapeClose c.blk.slot])

/-- The header and trailer of a tape area (R185, R192, R204): whether it is closed, the end of its records, the previous values, its
marker and its segments. -/
def State.tapeInfo (s : State) (T : Team) (base : W64) :
    Except (XlatFault × Nat) (Option (Nat × PMap W32 × Bool × Nat)) := do
  let h ← s.tapeRead T base 0 16
  let w := natOfBytes h
  if bitsOf w 48 1 = 0 then pure none
  else
    let stop := bitsOf w 0 48
    let marker := bitsOf w 49 1 = 1
    let bs ← s.tapeRead T base (stop - 140) 128
    let words := (List.range 32).map fun i => BitVec.ofNat 32 (natOfBytes ((bs.drop (4 * i)).take 4))
    let prevs : PMap W32 := ((List.range 32).zip words).foldl (fun m x => PMap.set m 0 x.1 x.2) []
    pure (some (stop - (if marker then 152 else 140), prevs, marker, bitsOf w 64 16))

/-- R204. `tape.rev`. -/
def execTapeRev (s : State) : Host.Outcome State Fault Refusal :=
  fire s fun c => withOn c fun on =>
    withUniform c .a (null := .ok s none none []) fun a x =>
      let T := c.team.tape
      let go (e : Effect) : Fired := .ok s none none (if liveOn on [a.lanes] = 0 then [] else [e])
      if x.toNat % 2 ^ 21 ≠ 0 then c.fault .align 0 x
      else if T.mode = .recording ∨ (x = 0 ∧ T.mode ≠ .closed ∧ T.mode ≠ .reversing) then c.fault .badHandle
      else if T.stalled.isSome then .wait .tape
      else if x = 0 then go (.tapeRev c.blk.slot true T.base T.finish T.trailer T.marker T.used T.stored)
      else
        match s.tapeInfo c.team x with
        | .error f => c.tapeFault s x f
        | .ok none => c.fault .badHandle
        | .ok (some (finish, prevs, marker, used)) => go (.tapeRev c.blk.slot false x finish prevs marker used 0)

/-- R206. `tape.seg`. -/
def execTapeSeg (s : State) : Host.Outcome State Fault Refusal :=
  fire s fun c => withOn c fun on =>
    withUniform c .a (null := .ok s none none []) fun a n =>
      if n = 0 ∨ 65535 < c.team.tape.quota + n.toNat then c.fault .badHandle
      else .ok s none none (if liveOn on [a.lanes] = 0 then [] else [.tapeSeg c.blk.slot n.toNat])

/-- The status of the tape for a group, less the records (R207). -/
def Tape.stat (T : Tape) (g : Nat) : Nat :=
  (match T.mode with | .idle => 0 | .recording => 1 | .closed => 2 | .reversing => 3)
    + (if T.policy then 4 else 0) + (if T.marker then 8 else 0)
    + (if T.mode = .reversing ∧ T.marker ∧ ¬T.told.contains g then 16 else 0) + T.used % 2 ^ 16 * 2 ^ 5

/-- The records that `tape.stat` counts (R207): those stored, or, while the tape reverses, those of the group's chain that are not yet read;
the records of a stream that came from a tape area are counted there. -/
def State.tapeRecords (s : State) (T : Team) (g : Nat) : Except (XlatFault × Nat) Nat :=
  let X := T.tape
  match X.mode with
  | .idle => .ok 0
  | .recording | .closed => if X.uncounted then s.tapeCount T X.base none (X.finish + 1) X.finish else .ok X.stored
  | .reversing =>
    let (pos, taken) := PMap.getD X.cursors g (X.finish, 0)
    (s.tapeCount T X.base (some g) (pos + 1) pos).map (· - taken)

/-- R207. `tape.stat`. -/
def execTapeStat (s : State) : Host.Outcome State Fault Refusal :=
  fire s fun c => withOn c fun on =>
    let T := c.team.tape
    let out (n : Nat) : Fired :=
      let v := uniformVal on (BitVec.ofNat 64 (T.stat c.g + n % 2 ^ 43 * 2 ^ 21))
      .ok s (some v) (some v) []
    if on = 0 then out 0
    else if T.stalled.isSome ∧ (T.mode = .reversing ∨ T.uncounted) then .wait .tape
    else
      match s.tapeRecords c.team c.g with
      | .error f => c.tapeFault s T.base f
      | .ok n => out n

/-! ### What the effects do at commit -/

/-- The lowest position of the half that holds a position (R193). -/
def halfStart (pos : Nat) : Nat := 64 + (pos - 64) / 32768 * 32768

/-- The lowest position from which on the buffer still holds the end of the team's own records (R193, R199). -/
def Tape.kept (T : Tape) : Nat := if T.held = [] then T.finish else Nat.min T.finish T.heldAt

/-- `tape.rev` at commit (R204). -/
def Tape.reverse (T : Tape) (own : Bool) (base : W64) (finish : Nat) (prevs : PMap W32) (marker : Bool) (used stored : Nat) : Tape :=
  { T with
    mode := .reversing, base := base, finish := finish, flushed := if own then T.kept else finish, buf := []
    held := if own then T.held else [], prev := prevs
    trailer := prevs, marker := marker, used := used, stored := stored, uncounted := T.uncounted || !own, cursors := [], told := []
    last := none }

/-- The traffic, in units of 64 bytes, of a pop that reads from a position (R193): that of the halves below the one in the buffer. -/
def Tape.popUnits (T : Tape) (low : Nat) : Nat := (T.flushed - Nat.min T.flushed (halfStart low) + 63) / 64

/-- A pop at commit (R196): the cursor moves, or the group has been told of the marker. -/
def Tape.popped (T : Tape) (g : Nat) (read : Option (Nat × Nat × W32 × Nat)) : Tape :=
  match read with
  | none => if T.told.contains g then T else { T with told := T.told ++ [g] }
  | some (pos, taken, p, low) =>
    { T with
      cursors := PMap.insert T.cursors g (pos, taken), prev := PMap.set T.prev 0 g p
      flushed := Nat.min T.flushed (halfStart low) }

/-- A write to TAPEST: policy and quota (R183). -/
def Tape.steered (T : Tape) (v : W64) : Tape := { T with policy := v.getLsbD 0, quota := bitsOf v.toNat 1 16 }

/-- A commit's effect on the tape (R39, R201 to R206), with the block, the effects before it and those after it: a pop moves no cursor of a
stream that an earlier effect of its block has turned to. -/
def Tape.after (T : Tape) (g : Nat) (F : Flight) (packs : Bool) (before : List Effect) (e : Effect) (rest : List Effect) : Tape :=
  match e with
  | .tapeRec _ _ => T.record g (tapeItems F packs (e :: rest))
  | .tapeOpen _ base => T.open base
  | .tapeClose _ => T.close
  | .tapeRev _ own base finish prevs marker used stored => T.reverse own base finish prevs marker used stored
  | .tapePop _ read => if before.any Effect.turnsTape then T else T.popped g read
  | .tapeSeg _ n => { T with quota := T.quota + n }
  | .srw _ .tapest v => T.steered v
  | _ => T

/-- The traffic, in units of 64 bytes, that becomes due as an effect changes the tape (R193, R257). -/
def Tape.owes (T U : Tape) (e : Effect) : Nat :=
  match e with
  | .tapeOpen _ _ => 1
  | .tapeRev _ own _ _ _ _ _ _ => if own then 0 else 4
  | .tapePop _ _ => if T.mode = .reversing then (T.flushed - U.flushed + 63) / 64 else 0
  | _ => U.traffic - T.traffic

/-- The tape after a block's effects and its branch record, with the traffic in units of 64 bytes that becomes due on the way (R193, R257),
and whether its records pass the limit under the trap policy (R194): no transfer is made. -/
def Tape.foretell (g : Nat) (F : Flight) (packs : Bool) (before : List Effect) : Tape → List Effect → Nat × Bool
  | T, [] =>
    let items := tapeItems F packs []
    let U := if F.hdr.tape then T.record g items else T
    let V := if packs then U.record 32 (tapeItems { F with hdr := { F.hdr with tape := false } } packs []) else U
    (V.traffic - T.traffic, !T.policy && T.passes g items)
  | T, e :: rest =>
    let U := T.after g F packs before e rest
    let full := !T.policy && (match e with | .tapeRec _ _ => T.passes g (tapeItems F packs (e :: rest)) | _ => false)
    let r := Tape.foretell g F packs (before ++ [e]) U rest
    (T.owes U e + r.1, full || r.2)

/-- The traffic of a block's tape, in units of 64 bytes (R193, R257). -/
def tapeTraffic (T : Tape) (g : Nat) (F : Flight) (packs : Bool) : Nat := (Tape.foretell g F packs [] T F.effects).1

/-- The block overflows under the trap policy (R194). -/
def Tape.overflows (T : Tape) (g : Nat) (F : Flight) (packs : Bool) : Bool := (Tape.foretell g F packs [] T F.effects).2

/-- Whether the block's commit needs the tape buffer (R193): it records, ends a packing that is recorded, takes a pack record, or pops. -/
def usesTape (T : Tape) (F : Flight) (packs : Bool) : Bool :=
  (T.mode == .recording && (F.hdr.tape || packs || F.effects.any fun e => match e with | .tapeRec _ _ => true | _ => false))
    || (T.mode == .reversing && F.hdr.tape && F.hdr.pack)
    || F.effects.any fun e => match e with | .tapePop _ _ => true | _ => e.turnsTape

/-- The tape buffer serves the team of a block that needs it (R193). -/
def State.tapeServes (s : State) (t : Nat) (F : Flight) (packs : Bool) : State :=
  match s.team? t with
  | some T => if usesTape T.tape F packs then s.tapeServe T.core t else s
  | none => s

/-- The tape of a team changed by a commit of a group, its traffic charged, with the transfers that become due (R193). -/
def State.tapeTo (s : State) (t g : Nat) (f : Tape → Tape) (owes : Tape → Tape → Nat) : State :=
  (s.modTeam t fun T => { T with tape := f T.tape, tbud := T.tbud - owes T.tape (f T.tape) }).tapeIssue t g

/-- A commit's effect on the tape of its team. -/
def State.doTape (s : State) (t g : Nat) (F : Flight) (packs : Bool) (e : Effect) : State :=
  let before := F.effects.takeWhile (· ≠ e)
  s.tapeTo t g (fun T => T.after g F packs before e (F.effects.drop (before.length + 1))) fun T U => T.owes U e

/-- The branch record of a block that has committed (R186). -/
def State.doBranch (s : State) (t g : Nat) (F : Flight) (packs : Bool) : State :=
  if F.hdr.tape then s.tapeTo t g (fun T => T.record g (tapeItems F packs [])) fun T U => U.traffic - T.traffic else s

end Sys2Proof.Machine
end

