-- ==== Sys2Proof/Machine/Matrix.lean ====
section
/-! DEFINITION. The matrix engine (R153 to R173): claims, commands and their order, the products, the transfers, the sequencer and
the pairing, with the meanings of the matrix instructions. -/
namespace Sys2Proof.Machine

/-! ### The claim ahead -/

/-- The claim as it stands for the next command of a block: with the marks of the block's earlier commands (R155). -/
def Ctx.claimAhead (c : Ctx) (M : Matrix) : Matrix × List MatCmd :=
  c.blk.effects.foldl (fun (acc : Matrix × List MatCmd) e =>
    match e with
    | .matrix slot x => if slot < c.blk.slot then (acc.1.mark (acc.1.eastAhead acc.2) x, acc.2 ++ [x]) else acc
    | _ => acc) (M, [])

/-! ### Operand checks -/

/-- The checks of an `mma` control word (R158). -/
def mmaRefused (M : Matrix) (east : Bool) (op n a : Nat) : Bool :=
  let paired := bitsOf a 10 1 = 1
  let scaled := bitsOf a 9 1
  decide (a / 2 ^ 11 ≠ 0 ∨ M.tiles ≤ bitsOf a 0 2 ∨ M.depthA ≤ bitsOf a 3 3
    ∨ (¬(paired ∧ east) ∧ M.depthB ≤ bitsOf a 6 3)
    ∨ (op = 0x198 ∧ scaled = 0) ∨ ((op = 0x191 ∨ op = 0x199) ∧ scaled = 1)
    ∨ (3 ≤ n ∧ (M.depthA < 2 ^ (n - 3) ∨ M.depthB < 2 ^ (n - 3))))

/-- The checks of the low six bits of `mld` and `mst` (R164). -/
def transferRefused (M : Matrix) (op a : Nat) : Bool :=
  decide (bitsOf a 56 8 ≠ 0)
    || (if op = 0x18F then
        decide (bitsOf a 5 1 = 1 ∨ (if bitsOf a 0 1 = 1 then M.depthB else M.depthA) ≤ bitsOf a 1 3)
      else decide (bitsOf a 2 4 ≠ 0 ∨ M.tiles ≤ bitsOf a 0 2))

/-- The rows and the elements in a row of a transfer's record (R164). -/
def Rec.rows (r : Rec) : Nat := if r.ndim = 0 then 1 else r.counts.getD 1 1
def Rec.cols (r : Rec) : Nat := r.counts.getD 0 1

/-- The checks of the record of a transfer (R164): shape, `.strict`, element type, and the alignment of rows. -/
def transferRecFault (op a : Nat) (strict : Bool) (r : Rec) (srcHbm : Bool) : Option FaultCode :=
  let w := typeWidth r.type
  let bytes := (r.cols * w + 7) / 8
  if r.dkind ≠ 0 ∨ r.codec ≠ 0 ∨ 1 < r.ndim ∨ 128 < r.rows then some .badHandle
  else if op = 0x18F then
    let limit := if bitsOf a 4 1 = 1 then 16 else 256
    if limit < bytes ∨ (strict ∧ (r.rows ≠ 128 ∨ r.cols * w ≠ 8 * limit))
        ∨ ((r.fused ≠ 0 ∨ r.combine ≠ 0) ∧ srcHbm = false) then some .badHandle
    else if w = 4 ∧ (r.offset % 2 = 1 ∨ r.strides.getD 1 0 % 2 ≠ 0) then some .align
    else none
  else if 128 < r.cols ∨ r.fused ≠ 0 ∨ r.combine ≠ 0 ∨ r.eot ∨ (strict ∧ (r.rows ≠ 128 ∨ r.cols ≠ 128))
      ∨ ¬(r.type = 0xB ∨ r.type = 0xC ∨ r.type = 7 ∨ r.type = 8) then some .badHandle
  else none

/-! ### Instructions -/

/-- The fire of a matrix instruction: BAD_HANDLE without a claim, whatever the guard; no operand check where port a is null in
every lane (R153, R157). -/
def fireMatrix (s : State) (act : Ctx → Matrix → Val → W64 → W16 → Fired) : Host.Outcome State Fault Refusal :=
  fire s fun c =>
    match c.team.matrix with
    | none => c.fault .badHandle
    | some M => withOn c fun on =>
      withUniform c .a (null := .ok s (some (laneVal [])) (some (laneVal [])) []) fun a x => act c M a x on

/-- The effect of a matrix command: none where the instruction is null in every lane (R156). -/
def Ctx.command (c : Ctx) (s : State) (live : W16) (x : MatCmd) : Fired :=
  .ok s none none (if live = 0 then [] else [.matrix c.blk.slot { x with sup := c.sup, group := c.g }])

/-- R158. The fire of an `mma`. -/
def fireMma (s : State) (op : Nat) (n : BitVec 3) (va vb : Bool) : Host.Outcome State Fault Refusal :=
  fireMatrix s fun c M a x on =>
    let (M', more) := c.claimAhead M
    let east := M'.eastAhead more
    let cmd : MatCmd := { op := op, a := x, ext := n.toNat + (if va then 8 else 0) + if vb then 16 else 0 }
    let live := liveOn on [a.lanes]
    if mmaRefused M east op n.toNat x.toNat then c.fault .badHandle
    else if live ≠ 0 ∧ M'.inTurn east cmd = false then c.fault .badHandle
    else c.command s live cmd

def execMmaF16 (k : MmaKind) (s : State) : Host.Outcome State Fault Refusal := fireMma s 0x191 k.n k.va k.vb
def execMmaF8 (k : MmaKind) (s : State) : Host.Outcome State Fault Refusal := fireMma s 0x197 k.n k.va k.vb
def execMmaE2m1 (n : BitVec 3) (s : State) : Host.Outcome State Fault Refusal := fireMma s 0x198 n false false
def execMmaI8 (n : BitVec 3) (s : State) : Host.Outcome State Fault Refusal := fireMma s 0x199 n false false

/-- R164. The fire of `mld` and `mst`: the record is read and checked at fire. -/
def fireTransfer (s : State) (op : Nat) (strict : Bool) : Host.Outcome State Fault Refusal :=
  fireMatrix s fun c M a x on =>
    let va := recordAddress x
    if transferRefused M op x.toNat then c.fault .badHandle 0 va
    else Fired.ofExcept do
      let ws ← c.readRecord s va
      let r := recOf ws
      let need : Perm := if op = 0x18F then .r else .w
      let hbm := match s.sideWindow c.agent r need with | some .hbm | none => r.space == 0 | _ => false
      match transferRecFault op x.toNat strict r hbm with
      | some code => .error (c.fault code 0 va)
      | none =>
        let cmd : MatCmd := { op := op, a := x, record := ws, traffic := s.sideTraffic c.agent r need }
        let live := liveOn on [a.lanes]
        let (M', more) := c.claimAhead M
        if live ≠ 0 ∧ M'.inTurn (M'.eastAhead more) cmd = false then .error (c.fault .badHandle)
        else pure (c.command s live cmd)

def execMld (strict : Bool) (s : State) : Host.Outcome State Fault Refusal := fireTransfer s 0x18F strict
def execMst (strict : Bool) (s : State) : Host.Outcome State Fault Refusal := fireTransfer s 0x190 strict

/-- R165. `mzero`. -/
def execMzero (s : State) : Host.Outcome State Fault Refusal :=
  fireMatrix s fun c M a x on =>
    if 4 ≤ x.toNat ∨ M.tiles ≤ x.toNat then c.fault .badHandle
    else c.command s (liveOn on [a.lanes]) { op := 0x192, a := x }

/-- The key of a tile element (R165): tile, row, and the column 16 × cb + L. -/
def tileKey (x l : Nat) : Nat := bitsOf x 0 2 * 16384 + bitsOf x 2 7 * 128 + bitsOf x 9 3 * 16 + l

/-- The number of the last command that the team had enqueued when an `mrd` fired (R165): its wait regards no later one. -/
def Ctx.mrdAfter (c : Ctx) : Nat := (PMap.get? c.blk.mrds c.blk.slot).getD c.team.cmdSeq

/-- R165. `mrd`: waits for every command on the tile that the team enqueued before it fired. -/
def execMrd (s : State) : Host.Outcome State Fault Refusal :=
  fireMatrix s fun c M a x on =>
    if 2 ^ 12 ≤ x.toNat ∨ M.tiles ≤ bitsOf x.toNat 0 2 then c.fault .badHandle
    else if liveOn on [a.lanes] ≠ 0 ∧ M.queue.any (fun y => decide (y.tile? = some (bitsOf x.toNat 0 2) ∧ y.seq ≤ c.mrdAfter)) then
      .waitIn (s.modFlight c.t c.g fun F => { F with mrds := PMap.insert F.mrds c.blk.slot c.mrdAfter }) .matrix
    else
      let v := laneVal (overLanes on [a.lanes] fun l => (PMap.getD M.acc (tileKey x.toNat l) 0).setWidth 64)
      .ok s (some v) (some v) []

/-- R165. `mwr`: enqueues the write of the lanes that are not null. -/
def execMwr (s : State) : Host.Outcome State Fault Refusal :=
  fireMatrix s fun c M a x on => withPort c .b fun b =>
    if 2 ^ 12 ≤ x.toNat ∨ M.tiles ≤ bitsOf x.toNat 0 2 then c.fault .badHandle
    else
      let live := liveOn on [a.lanes, b.lanes]
      c.command s live { op := 0x1A3, a := x, vals := laneWords (maskLanes live b.lanes) }

/-- R170. The fire of an `mpair` whose operand must be the direction code. -/
def firePair (s : State) (code : W64) : Host.Outcome State Fault Refusal :=
  fireMatrix s fun c _ a x on =>
    if x ≠ code then c.fault .badHandle else c.command s (liveOn on [a.lanes]) { op := 0x193, a := x }

def execMpairEast (s : State) : Host.Outcome State Fault Refusal := firePair s 1
def execMpairWest (s : State) : Host.Outcome State Fault Refusal := firePair s 2
def execMpairDissolve (s : State) : Host.Outcome State Fault Refusal := firePair s 3

/-- Four words of a controller record (R167), checked: reserved fields and codes, the parent, and the variants of an `mma`, which its
family may reserve (R79). -/
def controllerRefused (count : Nat) (ws : RecWords) : Bool :=
  let f := fieldOf ws
  decide (f 0 2 = 3 ∨ count ≤ f 2 4 ∨ 4 < f 9 3 ∨ 3 < f 125 3 ∨ f 194 62 ≠ 0 ∨ (f 9 3 = 2 ∧ 2 ≤ f 125 3 ∧ f 123 2 ≠ 0))

/-- The controller that parent links lead to in a number of steps. -/
def ancestor (parents : List Nat) : Nat → Nat → Nat
  | 0, c => c
  | n + 1, c => ancestor parents n (parents.getD c 0)

/-- The checks of a sequencer image (R166 to R168): header, controllers, and the parent links. -/
def imageRefused (h : RecWords) (cs : List RecWords) : Bool :=
  let f := fieldOf h
  let count := f 11 5
  let parents := cs.map fun c => fieldOf c 2 4
  decide (f 0 3 = 0 ∨ 4 < f 0 3 ∨ f 3 4 = 0 ∨ 8 < f 3 4 ∨ f 7 4 = 0 ∨ 8 < f 7 4 ∨ 16 < count ∨ (count ≤ f 16 4 ∧ count ≠ 0)
      ∨ f 20 44 ≠ 0 ∨ f 64 56 % 8 ≠ 0 ∨ f 120 392 ≠ 0)
    || cs.any (controllerRefused count)
    || (decide (count ≠ 0) && (decide (parents.getD (f 16 4) 0 ≠ f 16 4)
      || (List.range count).any fun c => ancestor parents count c ≠ f 16 4))

/-- R166, R168. `seq.cfg`: reads and checks the image at fire. -/
def execSeqCfg (s : State) : Host.Outcome State Fault Refusal :=
  fire s fun c => withOn c fun on =>
    withUniform c .a (null := .ok s none none []) fun a x => Fired.ofExcept do
      let va := recordAddress x
      let h ← c.readObject s va 8
      let count := fieldOf h 11 5
      let cs ← (List.range (if 16 < count then 0 else count)).mapM fun i =>
        c.readObject s (va + BitVec.ofNat 64 (64 + 32 * i)) 4
      let done : W64 := BitVec.ofNat 64 (fieldOf h 64 56)
      let pa : Option Nat := if done = 0 then none
        else match s.translate c.team.asid c.sup .rw Window.isScratchpad done with | .ok p => some p.pa | .error _ => none
      if bitsOf x.toNat 0 6 ≠ 0 ∨ bitsOf x.toNat 56 8 ≠ 0 ∨ imageRefused h cs ∨ (done ≠ 0 ∧ pa = none) then
        .error (c.fault .badHandle 0 va)
      else pure (.ok s none none (if liveOn on [a.lanes] = 0 then [] else [.seqCfg c.blk.slot (h ++ cs.flatten) pa]))

/-- R169. `seq.go`. -/
def execSeqGo (s : State) : Host.Outcome State Fault Refusal :=
  fireMatrix s fun c M a x on =>
    if x ≠ 0 ∨ M.busy then c.fault .badHandle
    else .ok s none none (if liveOn on [a.lanes] = 0 then [] else [.seqGo c.blk.slot])

/-- The status of R172. -/
def Matrix.status (M : Matrix) : Nat :=
  M.reruns + M.queue.length % 32 * 2 ^ 8 + (if M.busy then 2 ^ 13 else 0)
    + (match M.pair, M.ask with
      | some (_, true), _ => 1 | some (_, false), _ => 2 | none, some _ => 3 | none, none => 0) * 2 ^ 14
    + (if M.timeout then 2 ^ 16 else 0) + M.tiles * 2 ^ 17

/-- R172. `mchk`. -/
def execMchk (s : State) : Host.Outcome State Fault Refusal :=
  fire s fun c => withOn c fun on =>
    withUniform c .a (null := .ok s (some (uniformVal 0 0)) (some (uniformVal 0 0)) []) fun a x =>
      if 2 ≤ x.toNat then c.fault .badHandle
      else
        let live := liveOn on [a.lanes]
        let v := uniformVal live (BitVec.ofNat 64 (match c.team.matrix with | some M => M.status | none => 0))
        .ok s (some v) (some v) (if live = 0 ∨ x = 0 then [] else [.mchk c.blk.slot])

/-! ### What the effects do at commit -/

/-- Free entries of a team's matrix queue (R156). -/
def Team.matrixRoom (T : Team) : Nat := match T.matrix with | some M => 16 - M.queue.length | none => 0

/-- A command enqueued (R156): it is numbered, it is marked as the buffers' last, and a transfer that a group has committed joins the
group's open batch (R258). -/
def State.doMatrix (s : State) (t g : Nat) (x : MatCmd) : State :=
  s.modTeam t fun T =>
    match T.matrix with
    | none => T
    | some M =>
      let seq := T.cmdSeq + 1
      let batch := ((T.groups[g]?).map (·.batches)).getD 0 + 1
      let x := { x with seq := seq, batch := batch }
      { T with
        cmdSeq := seq
        members := if x.transfer && x.source.isNone then T.members ++ [(g, batch, seq)] else T.members
        matrix := some { M.mark (M.eastAhead []) x with queue := M.queue ++ [x] } }

/-- Resources that a core's resident claims hold, but for one team: tiles, A buffers, B buffers (R153). -/
def State.claimed (s : State) (core t : Nat) : Nat × Nat × Nat :=
  s.teams.foldl (fun acc (k, T) =>
    if T.core = core ∧ T.place = .resident ∧ k ≠ t then
      match T.matrix with
      | some M => (acc.1 + M.tiles, acc.2.1 + M.depthA, acc.2.2 + M.depthB)
      | none => acc
    else acc) (0, 0, 0)

/-- Whether a claim fits beside the others of the core (R153). -/
def State.claimFits (s : State) (core t tiles a b : Nat) : Bool :=
  let (x, y, z) := s.claimed core t
  decide (x + tiles ≤ 4 ∧ y + a ≤ 8 ∧ z + b ≤ 8)

/-- Whether the partner's half of a paired `mma` still reads the team's node B (R171). -/
def State.readsB (s : State) (t : Nat) : Bool :=
  s.teams.any fun (u, U) => u != t && (match U.matrix with | some M => M.queue.any fun x => x.west == some t | none => false)

/-- Whether `seq.cfg` may commit (R168): the queue is empty, the sequencer idle, and the resources are free, which those
are not that a partner still reads. -/
def State.seqCfgReady (s : State) (t : Nat) (image : RecWords) : Bool :=
  match s.team? t with
  | none => true
  | some T =>
    let f := fieldOf image
    (match T.matrix with | some M => M.queue.isEmpty && !M.busy | none => true) && !s.readsB t && s.claimFits T.core t (f 0 3) (f 3 4) (f 7 4)

/-- The claim that an image makes (R153, R168). -/
def claimOf (image : RecWords) (done : Option Nat) : Matrix :=
  let f := fieldOf image
  { tiles := f 0 3, depthA := f 3 4, depthB := f 7 4, root := f 16 4, done := done
    controllers := (List.range (f 11 5)).map fun i => { words := (image.drop (8 + 4 * i)).take 4 } }

/-- `seq.cfg` at commit (R168): a new claim; the rerun count and the timeout flag are the team's, and stay (R172). -/
def State.doSeqCfg (s : State) (t : Nat) (image : RecWords) (done : Option Nat) : State :=
  s.modTeam t fun T =>
    let old := T.matrix.getD {}
    { T with matrix := some { claimOf image done with reruns := old.reruns, timeout := old.timeout } }

/-- `seq.go` at commit (R169): the root receives an enable token. -/
def State.doSeqGo (s : State) (t : Nat) : State :=
  s.modMatrix t fun M =>
    { M with
      busy := !M.controllers.isEmpty
      controllers := modifyAt M.controllers M.root fun c => { c with enables := c.enables + 1 } }

def State.doMchk (s : State) (t : Nat) : State := s.modMatrix t fun M => { M with reruns := 0, timeout := false }

/-- Whether the effects of a commit find what they wait for at the matrix engine, in slot order: a command a free entry (R156), and each
`seq.cfg` an empty queue, an idle sequencer and its resources (R168), after what the block's earlier effects leave. -/
def State.matrixFlows (s : State) (t g : Nat) : List Effect → Bool
  | [] => true
  | .matrix _ x :: rest =>
    (match s.team? t with | some T => decide (0 < T.matrixRoom) | none => true) && (s.doMatrix t g x).matrixFlows t g rest
  | .seqCfg _ image done :: rest => s.seqCfgReady t image && (s.doSeqCfg t image done).matrixFlows t g rest
  | .seqGo _ :: rest => (s.doSeqGo t).matrixFlows t g rest
  | _ :: rest => s.matrixFlows t g rest

/-! ### Command faults -/

/-- A fault of a matrix command (R157): it and the later commands are discarded, and the record is written. -/
def State.matrixFault (s : State) (t : Nat) (x : MatCmd) (code : FaultCode) (level : Nat) (store : Bool) (addr : W64)
    (iter : List Nat) (extra : W64) : State :=
  match s.team? t with
  | none => s
  | some T =>
    (s.discardFrom t x.seq).commandFault t (s.commandRecord T code level store addr x.op x.seq iter extra)

/-- A transfer stalls on a PAGE fault of a data address and goes on once it is served (R164, R443); any other fault is a command
fault. -/
def State.transferFault (s : State) (t : Nat) (x : MatCmd) (k : Nat) (code : FaultCode) (level : Nat) (store : Bool)
    (addr : W64) : State :=
  match s.team? t with
  | none => s
  | some T =>
    let iter := (recOf x.record).indices (if store then 0 else k)
    let extra := if code = .memData then Config.errorStatus s.tick else 0
    if code = .page then
      (s.modMatrix t fun M =>
        { M with queue := M.queue.map fun y =>
            if y.seq = x.seq then { y with stalled := some (addr, s.clk (dieOf T.core)) } else y }).stallRecord t
        (s.commandRecord T code level store addr x.op x.seq iter extra)
    else s.matrixFault t x code level store addr iter extra

/-- A command is complete: it leaves the queue, its batch and its controller's open commands (R156, R169). -/
def State.matrixDone (s : State) (t seq : Nat) : State :=
  (s.completeMember t seq).modMatrix t fun M =>
    { M with
      queue := M.queue.filter fun y => y.seq ≠ seq
      controllers := M.controllers.map fun c => { c with outstanding := c.outstanding.filter (· ≠ seq) } }

def State.setCmd (s : State) (t : Nat) (x : MatCmd) : State :=
  s.modMatrix t fun M => { M with queue := M.queue.map fun y => if y.seq = x.seq then x else y }

/-! ### Start of a command -/

/-- Whether a command is the first of its stream that is not complete, and the commands on its tile let it start (R156). -/
def Matrix.inOrder (M : Matrix) (x : MatCmd) : Bool :=
  let earlier := M.queue.filter fun y => y.seq < x.seq
  !(earlier.any fun y => y.transfer == x.transfer)
    && !(earlier.any fun y => y.transfer != x.transfer && x.tile?.isSome && y.tile? == x.tile?)

/-- The team's `mma` that occupies the array (R156). -/
def Matrix.running (M : Matrix) : Option MatCmd := M.queue.find? fun y => y.isMma && y.started

/-- Whether the buffers of an `mma` are full: of both nodes, but for the east core of a pair of its own node A (R155, R171). -/
def Matrix.ready (M : Matrix) (x : MatCmd) : Bool :=
  let east := match M.pair with | some (_, e) => !e | none => false
  (x.spanA M).all (fun i => (M.buf false i).full)
    && ((x.paired && east) || (x.spanB M).all fun i => (M.buf true i).full)

/-- The cycle S at which a pair that holds both requests starts (R170). -/
def PairAsk.start (a : PairAsk) : Option Nat := a.other.map fun b => Nat.max a.sent b + 32

/-- An `mma` of the team that could take the array at a cycle: one that is ready, or a paired one from its start S on (R156, R171). -/
def Team.wantsArray (T : Team) (now : Nat) : Bool :=
  T.place = .resident && (match T.matrix with
    | some M => (T.taken.isNone && M.queue.any fun x => x.isMma && !x.paired && !x.started && M.inOrder x && M.ready x)
        || (M.running.isSome && match M.ask.bind PairAsk.start with | some n => decide (n ≤ now) | none => false)
    | none => false)

/-- Whether an `mma` of a team occupies the array (R156): one that makes its handshake does not yet. -/
def Team.holdsArray (T : Team) : Bool :=
  T.place = .resident && (match T.matrix with | some M => M.running.isSome && M.ask.isNone | none => false)

/-- Whether the array of a core is free and the turn is the team's: the first in ascending order after the team that had it last
(R156). -/
def State.arrayTurn (s : State) (core t : Nat) : Bool :=
  let here := s.teams.filter fun (_, T) => T.core = core
  let taken := here.any fun (_, T) => T.holdsArray
  let wanting := (here.filter fun (_, T) => T.wantsArray (s.clk (dieOf core))).map (·.1)
  let last := (s.core core).arrayLast
  let turn : Option Nat := match wanting.find? (fun k => last < k) with | some k => some k | none => wanting.head?
  !taken && decide (turn = some t)

/-- The neighbour's team in the same cluster (R170): none beyond the mesh edge or where no team of the cluster stands there. -/
def State.neighbour (s : State) (T : Team) (east : Bool) : Option Nat :=
  let x := T.core % 16
  if (east ∧ x = 15) ∨ (¬east ∧ x = 0) then none
  else
    let c := if east then T.core + 1 else T.core - 1
    (s.teams.find? fun (_, U) => U.core = c && U.lead = T.lead && !U.gone).map (·.1)

/-- Tile elements replaced by those of a function of row and column (R159, R165). -/
def Matrix.setTile (M : Matrix) (tile : Nat) (f : Nat → Nat → W32) : Matrix :=
  let lo := tile * 16384
  let mid := (List.range 16384).filterMap fun k =>
    let v := f (k / 128) (k % 128)
    if v = 0 then none else some (lo + k, v)
  { M with acc := M.acc.filter (fun e => e.1 < lo) ++ mid ++ M.acc.filter fun e => lo + 16384 ≤ e.1 }

/-- The pairing handshake begins (R170 step 1, R171), or MATRIX_PAIR at the mesh edge or outside the cluster. -/
def State.askPair (s : State) (t : Nat) (T : Team) (x : MatCmd) (east : Bool) : State :=
  match s.neighbour T east with
  | none => s.matrixFault t x .matrixPair 0 false 0 [] 0
  | some u =>
    (s.setCmd t { x with started := true }).modMatrix t fun M =>
      { M with ask := some { sent := s.clk (dieOf T.core), partner := u, east := east } }

/-- R156, R165, R170, R171. MATRIX_COMMAND_START: the next command of a stream starts; `mzero`, `mwr` and the dissolving of a pair
are complete at once. -/
def State.matrixStart (s : State) (t seq : Nat) : Option State := do
  let T ← s.team? t
  let M ← T.matrix
  let x ← M.queue.find? fun x => x.seq = seq
  if T.place ≠ .resident ∨ T.taken.isSome ∨ x.started ∨ M.inOrder x = false then none
  else if x.op = 0x18F then
    if (M.buf x.nodeB x.buffer).full then none else some (s.setCmd t { x with started := true })
  else if x.op = 0x190 then some (s.setCmd t { x with started := true })
  else if x.op = 0x192 then
    some ((s.modMatrix t fun M => M.setTile (bitsOf x.a.toNat 0 2) fun _ _ => 0).matrixDone t seq)
  else if x.op = 0x1A3 then
    some ((s.modMatrix t fun M =>
      { M with acc := (List.range 16).foldl (fun acc l =>
          match (x.vals[l]?).join with | some v => PMap.set acc 0 (tileKey x.a.toNat l) v | none => acc) M.acc }).matrixDone
        t seq)
  else if x.op = 0x193 then
    if bitsOf x.a.toNat 0 2 = 3 then
      let s := match M.pair with | some (u, _) => s.modMatrix u fun N => { N with pair := none } | none => s
      some ((s.modMatrix t fun M => { M with pair := none }).matrixDone t seq)
    else some (s.askPair t T x (bitsOf x.a.toNat 0 2 = 1))
  else if x.paired ∧ M.pair = none then some (s.matrixFault t x .matrixPair 0 false 0 [] 0)
  else if M.ready x = false then none
  else
    match M.pair, x.paired with
    | some (_, east), true => some (s.askPair t T x east)
    | _, _ =>
      if s.arrayTurn T.core t = false then none
      else
        some (((s.modCore T.core fun C => { C with arrayLast := t }).setCmd t { x with started := true }).modMatrix t fun M =>
          { M with doneAt := s.clk (dieOf T.core) + 32 * 2 ^ x.n })

def execMatrixCommandStart (team seq : Nat) (s : State) : Host.Outcome State Fault Refusal :=
  occurs s (s.matrixStart team seq)

/-! ### The product -/

/-- The element format and width of an operand (R79, R158). -/
def mmaFmt (op : Nat) (variant : Bool) : Fmt :=
  match op with
  | 0x191 => if variant then fmtBf16 else fmtF16
  | 0x197 => if variant then fmtE5m2 else fmtE4m3
  | _ => fmtE2m1

/-- Elements of a chunk (R79). -/
def mmaChunk (op : Nat) : Nat := match op with | 0x191 => 16 | 0x198 => 64 | _ => 32

/-- The raw elements of chunk q of a row over the spanned buffers, with their scale bytes (R154). -/
def chunkElems (bufs : List MatBuffer) (chunk row q : Nat) : List (Nat × Nat) :=
  let w := 256 / chunk
  let b := bufs.getD (q / 8) {}
  let x := sramRead b.data (256 * row + 32 * (q % 8)) 32
  (List.range chunk).map fun kk =>
    (bitsOf x (w * kk) w, sramRead b.scale (16 * row + (q % 8 * chunk + kk) / 32) 1)

/-- An element's value, with its block's scale under `scaled` (R159). -/
def scaledVal (t : Fmt) (scaled : Bool) (x : Nat × Nat) : FVal :=
  if scaled then
    if x.2 = 255 then .nan
    else match t.value x.1 with
      | .fin n m e => .fin n m (e + x.2 - 127)
      | v => v
  else t.value x.1

/-- The exact sum of a chunk's products (R94, R159). -/
def exactSum (ps : List FVal) : FVal :=
  let pos := ps.any fun p => p == .inf false
  let neg := ps.any fun p => p == .inf true
  if ps.any (· == .nan) || (pos && neg) then .nan
  else if pos then .inf false
  else if neg then .inf true
  else
    let fins : List (Int × Int) := ps.filterMap fun p =>
      match p with | .fin n m e => if m = 0 then none else some (if n then -(m : Int) else m, e) | _ => none
    let low : Int := fins.foldl (fun a p => if p.2 < a then p.2 else a) (match fins with | p :: _ => p.2 | [] => 0)
    let total : Int := (fins.map fun p => p.1 * 2 ^ (p.2 - low).toNat).sum
    if total = 0 then .fin (ps.all fun p => match p with | .fin n m _ => n && decide (m = 0) | _ => false) 0 0
    else .fin (decide (total < 0)) total.natAbs low

/-- One element of the product over floating chunks (R159). -/
def floatDot (rowA rowB : List (List FVal)) (c0 : Nat) : W32 :=
  BitVec.ofNat 32 ((rowA.zip rowB).foldl (fun c (q : List FVal × List FVal) =>
    fmtF32.addVal .rne (fmtF32.value c) (exactSum ((q.1.zip q.2).map fun p => mulVal p.1 p.2))) c0)

/-- One element of the product over i8 chunks (R160). -/
def intDot (rowA rowB : List (List Nat)) (c0 : Nat) : W32 :=
  BitVec.ofInt 32 ((c0 : Int) + ((rowA.zip rowB).map fun (q : List Nat × List Nat) =>
    ((q.1.zip q.2).map fun p => signed 8 p.1 * signed 8 p.2).sum).sum)

/-- The tile after an `mma` (R159, R160). -/
def mmaTile (x : MatCmd) (bufsA bufsB : List MatBuffer) (old : Nat → Nat → W32) : Nat → Nat → W32 :=
  let chunk := mmaChunk x.op
  let qs := List.range (2 ^ x.n)
  let scaled := x.a.getLsbD 9
  let acc := x.a.getLsbD 2
  if x.op = 0x199 then
    let rows (bufs : List MatBuffer) := (List.range 128).map fun i => qs.map fun q => (chunkElems bufs chunk i q).map (·.1)
    let ra := rows bufsA
    let rb := rows bufsB
    fun i j => intDot (ra.getD i []) (rb.getD j []) (if acc then (old i j).toNat else 0)
  else
    let rows (bufs : List MatBuffer) (t : Fmt) := (List.range 128).map fun i =>
      qs.map fun q => (chunkElems bufs chunk i q).map (scaledVal t scaled)
    let ra := rows bufsA (mmaFmt x.op (bitsOf x.ext 3 1 = 1))
    let rb := rows bufsB (mmaFmt x.op (bitsOf x.ext 4 1 = 1))
    fun i j => floatDot (ra.getD i []) (rb.getD j []) (if acc then (old i j).toNat else 0x80000000)

/-- Whether a chunk has only finite elements, scales and products, so that it is checked (R162). -/
def chunkChecked (x : MatCmd) (bufsA bufsB : List MatBuffer) (q : Nat) : Bool :=
  let fine (bufs : List MatBuffer) (t : Fmt) : Bool := (List.range 128).all fun i =>
    (chunkElems bufs (mmaChunk x.op) i q).all fun e =>
      match scaledVal t (x.a.getLsbD 9) e with | .fin .. => true | _ => false
  decide (q < 2 ^ x.n) && (x.op == 0x199
    || (fine bufsA (mmaFmt x.op (bitsOf x.ext 3 1 = 1)) && fine bufsB (mmaFmt x.op (bitsOf x.ext 4 1 = 1))))

/-- The team whose node B an `mma` reads: its own, or that of the west core of a pair (R171). -/
def westOf (t : Nat) (x : MatCmd) : Nat := x.west.getD t

/-- A buffer of a claim that has gone with its team while its partner's half ran: its bytes are open (R171). -/
def lostBuffer (tick i : Nat) : MatBuffer :=
  { data := (List.range 32768).map fun o => (o, Config.lostByte tick (65536 * i + o))
    scale := (List.range 2048).map fun o => (o, Config.lostByte tick (65536 * i + 32768 + o)) }

/-- The B buffers that an `mma` reads (R154, R171): those of a team that has ended hold nothing that the manual states. -/
def State.operandsB (s : State) (M : Matrix) (x : MatCmd) : List MatBuffer :=
  match x.west with
  | none => (x.spanB M).map (M.buf true)
  | some w =>
    match (s.team? w).bind (·.matrix) with
    | some W => W.span.map (W.buf true)
    | none => (x.spanB M).map fun i => lostBuffer s.tick i

/-- The B buffers of an `mma` are consumed: of a pair, once both halves have completed (R171). -/
def State.consumeB (s : State) (t : Nat) (x : MatCmd) : State :=
  let w := westOf t x
  s.modMatrix w fun M =>
    if x.paired then M.halfEnds (decide (w = t)) else M.empty true (x.spanB M)

/-- R159 to R162, R171. MMA_COMPLETE: the tile is written once and the buffers are set empty; a mismatch of checksums reruns the
command once, and a second one is MATRIX_DATA. -/
def State.mmaComplete (s : State) (t : Nat) : Option State := do
  let T ← s.team? t
  let M ← T.matrix
  let x ← M.running
  if M.ask.isSome ∨ s.clk (dieOf T.core) < M.doneAt then none
  else
    let bufsA := (x.spanA M).map (M.buf false)
    let bufsB := s.operandsB M x
    let tile := bitsOf x.a.toNat 0 2
    match (Config.checksumMismatch s.tick).filter (chunkChecked x bufsA bufsB) with
    | some q =>
      if x.rerun then
        some (s.matrixFault t x .matrixData 0 false 0 [] (BitVec.ofNat 64 (tile + 4 * q)))
      else
        some ((s.setCmd t { x with rerun := true }).modMatrix t fun M =>
          { M with doneAt := s.clk (dieOf T.core) + 32 * 2 ^ x.n })
    | none =>
      let old (i j : Nat) : W32 := PMap.getD M.acc (tile * 16384 + 128 * i + j) 0
      let s := s.modMatrix t fun M =>
        { (M.setTile tile (mmaTile x bufsA bufsB old)).empty false (x.spanA M) with
          reruns := if x.rerun then Nat.min 255 (M.reruns + 1) else M.reruns }
      some ((s.consumeB t x).matrixDone t x.seq)

def execMmaComplete (team : Nat) (s : State) : Host.Outcome State Fault Refusal := occurs s (s.mmaComplete team)

/-! ### Transfers -/

/-- The transfer of a stream under way. -/
def Matrix.moving (M : Matrix) (op : Nat) : Option MatCmd := M.queue.find? fun y => y.op = op && y.started && y.stalled.isNone

/-- The agent of a transfer (R404). -/
def MatCmd.agent (x : MatCmd) (t : Nat) (T : Team) : Agent := { asid := T.asid, sup := x.sup, team := t }

/-- The elements of an `mld`, through the bank units where the record is fused (R164, R324): each element's value where it has one,
or the fault of the first that meets one. -/
def State.mldElements (s : State) (t : Nat) (x : MatCmd) (agent : Agent) (r : Rec) (m : MacRun) :
    Nat → Nat → Except (Nat × FaultCode × Nat × W64) (State × MacRun × List (Option Nat))
  | _, 0 => .ok (s, m, [])
  | k, n + 1 =>
    let step : ElementStep :=
      if r.fused ≠ 0 then s.fusedRead (.copy t x.seq) agent r m k
      else match s.readElement agent r k with
        | .ok v => .taken s (some v) m
        | .error f => .faulted f.code f.level false (addrOfBit (r.bitAddr k))
    match step with
    | .faulted code d _ addr => .error (k, code, d, addr)
    | .taken s v m =>
      match s.mldElements t x agent r m (k + 1) n with
      | .error e => .error e
      | .ok (s, m, vs) => .ok (s, m, v :: vs)

/-- Rows of elements as the bytes of a node (R90, R154): the bytes beyond a row's elements are zero. -/
def rowBytes (width cols rows size : Nat) (vs : List (Option Nat)) : List Host.Cell :=
  (List.range rows).foldl (fun m i =>
    let x := ((vs.drop (i * cols)).take cols).foldr (fun v acc => v.getD 0 % 2 ^ width + 2 ^ width * acc) 0
    sramWrite m (size * i) size x) []

/-- R154, R155, R164. MLD_COMPLETE: the buffer or its scale strip is filled from the record; a data fill sets the full bit. -/
def State.mldComplete (s : State) (t : Nat) : Option State := do
  let T ← s.team? t
  let M ← T.matrix
  let x ← M.moving 0x18F
  let r := recOf x.record
  match s.mldElements t x (x.agent t T) r {} 0 r.elements with
  | .error (k, code, d, addr) => some (s.transferFault t x k code d false addr)
  | .ok (s, m, vs) =>
    let s := (if r.fused = 0 then s.passElements (x.agent t T) r 0 r.elements else s).commitMac m.pending
    let s := if r.fused = 3 ∧ r.combine ≠ 0 then s.combineAll r.combine (m.ended 1).reached else s
    let s := (s.freeUnits (.copy t x.seq)).modMatrix t fun M => M.modBuf x.nodeB x.buffer fun b =>
      if x.scalePart then { b with scale := rowBytes (typeWidth r.type) r.cols r.rows 16 vs }
      else { b with data := rowBytes (typeWidth r.type) r.cols r.rows 256 vs, full := true }
    some (s.matrixDone t x.seq)

def execMldComplete (team : Nat) (s : State) : Host.Outcome State Fault Refusal := occurs s (s.mldComplete team)

/-- A tile element as `mst` stores it (R164). -/
def mstValue (type : Nat) (v : W32) : Nat :=
  if type = 7 then (convertOf fmtF32 fmtF16 .rne false (v.setWidth 64)).toNat
  else if type = 8 then (convertOf fmtF32 fmtBf16 .rne false (v.setWidth 64)).toNat
  else v.toNat

/-- R164. MST_COMPLETE: the tile's elements are stored at the record's destination. -/
def State.mstComplete (s : State) (t : Nat) : Option State := do
  let T ← s.team? t
  let M ← T.matrix
  let x ← M.moving 0x190
  let r := recOf x.record
  let tile := bitsOf x.a.toNat 0 2
  let vs := (List.range r.elements).map fun k =>
    mstValue r.type (PMap.getD M.acc (tile * 16384 + 128 * (k / r.cols) + k % r.cols) 0)
  match s.firstBad (x.agent t T) r 0 vs with
  | some (k, code, d) => some (s.transferFault t x k code d true (addrOfBit (r.bitAddr k)))
  | none => some ((s.storeTile (.copy t x.seq) (x.agent t T) r 0 (vs.map some)).matrixDone t x.seq)

def execMstComplete (team : Nat) (s : State) : Host.Outcome State Fault Refusal := occurs s (s.mstComplete team)

/-! ### Pairing -/

/-- The command of a handshake under way. -/
def Matrix.asking (M : Matrix) : Option MatCmd := M.queue.find? fun y => y.started && (y.op == 0x193 || y.paired)

/-- The request of a team's partner, where it has asked for this team: the cycle of its flit (R170). -/
def State.request? (s : State) (t : Nat) (a : PairAsk) : Option Nat :=
  match ((s.team? a.partner).bind (·.matrix)).bind (·.ask) with
  | some b => if b.partner = t ∧ b.east = !a.east then some b.sent else none
  | none => none

/-- Whether a request sent at a cycle arrives within the time that the own one waits (R170 steps 1 and 4). -/
def PairAsk.inTime (a : PairAsk) (sent : Nat) : Bool := decide (sent + 16 ≤ a.sent + 65536)

/-- R170 step 2. PAIR_REQ: the partner's request arrives, 16 cycles after it was sent; it takes the place of one that the partner has given
up. -/
def State.pairReq (s : State) (t : Nat) : Option State := do
  let T ← s.team? t
  let M ← T.matrix
  let a ← M.ask
  let sent ← s.request? t a
  if T.place = .resident ∧ a.other ≠ some sent ∧ a.inTime sent ∧ sent + 16 ≤ s.clk (dieOf T.core) then
    some (s.modMatrix t fun M => { M with ask := some { a with other := some sent } })
  else none

def execPairReq (team : Nat) (s : State) : Host.Outcome State Fault Refusal := occurs s (s.pairReq team)

/-- R170 step 3, R171. PAIR_FORMED: at S both pairing commands complete and the engines are paired, or the paired `mma` of both
start once both arrays are free; commands that differ raise MATRIX_PAIR on both sides. -/
def State.pairFormed (s : State) (t : Nat) : Option State := do
  let T ← s.team? t
  let M ← T.matrix
  let a ← M.ask
  let u := a.partner
  let U ← s.team? u
  let N ← U.matrix
  let b ← N.ask
  let start ← a.start
  let x ← M.asking
  let y ← N.asking
  let taken (core : Nat) : Bool := s.teams.any fun (_, V) => V.core = core && V.holdsArray
  if a.other ≠ s.request? t a ∨ b.other ≠ s.request? u b ∨ s.clk (dieOf T.core) < start ∨ T.place ≠ .resident ∨ U.place ≠ .resident
      ∨ (x.isMma ∧ y.isMma ∧ (taken T.core ∨ taken U.core)) then none
  else
    let clear (s : State) : State :=
      (s.modMatrix t fun M => { M with ask := none }).modMatrix u fun N => { N with ask := none }
    if x.op ≠ y.op ∨ x.ext ≠ y.ext then
      some (((clear s).matrixFault t x .matrixPair 0 false 0 [] 0).matrixFault u y .matrixPair 0 false 0 [] 0)
    else if x.op = 0x193 then
      let s := ((clear s).modMatrix t fun M => { M with pair := some (u, a.east) }).modMatrix u fun N =>
        { N with pair := some (t, b.east) }
      some ((s.matrixDone t x.seq).matrixDone u y.seq)
    else
      let stop := s.clk (dieOf T.core) + 32 * 2 ^ x.n
      let west := if a.east then (t, x.spanB M) else (u, y.spanB N)
      let s := ((clear s).setCmd t { x with west := some west.1 }).setCmd u { y with west := some west.1 }
      let s := (s.modCore T.core fun C => { C with arrayLast := t }).modCore U.core fun C => { C with arrayLast := u }
      let s := (s.modMatrix t fun M => { M with doneAt := stop }).modMatrix u fun N => { N with doneAt := stop }
      some (s.modMatrix west.1 fun W => { W with span := west.2, westDone := false, eastDone := false })

def execPairFormed (team : Nat) (s : State) : Host.Outcome State Fault Refusal := occurs s (s.pairFormed team)

/-- R170 step 4, R171, R173. PAIR_TIMEOUT: the partner's request has not arrived 65,536 cycles after the own one, while the team is on its
core. -/
def State.pairTimeout (s : State) (t : Nat) : Option State := do
  let T ← s.team? t
  let M ← T.matrix
  let a ← M.ask
  let x ← M.asking
  let comes : Bool := match s.request? t a with | some sent => a.inTime sent | none => false
  if T.place = .resident ∧ comes = false ∧ a.sent + 65536 ≤ s.clk (dieOf T.core) then
    some ((s.modMatrix t fun M => { M with ask := none, timeout := true }).matrixFault t x .matrixPair 0 false 0 [] 0)
  else none

def execPairTimeout (team : Nat) (s : State) : Host.Outcome State Fault Refusal := occurs s (s.pairTimeout team)

/-! ### The sequencer -/

def Controller.f (c : Controller) (lo n : Nat) : Nat := fieldOf c.words lo n

/-- Iterations of a controller (R167). -/
def Controller.iterations (c : Controller) : Nat := c.f 12 20 + 1

/-- A leaf emits a command; a loop sends enable tokens (R169). -/
def Controller.leaf (c : Controller) : Bool := c.f 9 3 ≠ 0

/-- The children of a controller, in index order. -/
def Matrix.children (M : Matrix) (k : Nat) : List Nat :=
  (List.range M.controllers.length).filter fun i =>
    decide (i ≠ k) && (match M.controllers[i]? with | some c => c.f 2 4 = k | none => false)

/-- The iterations of a controller that are complete (R169): a loop's when every child has returned done, a leaf's when its
command has completed. -/
def Matrix.completed (M : Matrix) (k : Nat) (c : Controller) : Nat :=
  if c.leaf then c.begun - c.outstanding.length
  else (M.children k).foldl (fun n i => Nat.min n (PMap.getD c.dones i 0)) c.begun

/-- Whether the next iteration may start (R169). -/
def Matrix.mayIterate (M : Matrix) (k : Nat) (c : Controller) : Bool :=
  let open_ := c.begun - M.completed k c
  decide (c.begun < c.iterations) && (match c.f 0 2 with
    | 0 => decide (open_ = 0)
    | 1 => decide (open_ ≤ c.f 6 3)
    | _ => true)

/-- The command that a leaf emits in its iteration i, for iteration p of its parent: the opcode, the control word, the extension word
and the record's address (R167, R169). -/
def Controller.emit (c : Controller) (M : Matrix) (i p : Nat) : MatCmd × W64 :=
  let ctl := c.f 32 32
  let ring := c.f 192 1 = 1
  let at_ (lo n depth : Nat) : Nat :=
    let x := bitsOf ctl lo n
    let y := if ring then (x + i) % depth else x
    ctl - x * 2 ^ lo + y * 2 ^ lo
  let va := BitVec.ofInt 64 ((c.f 64 56 : Int) + i * signed 32 (c.f 128 32) + p * signed 32 (c.f 160 32))
  let low := BitVec.ofNat 64 (bitsOf va.toNat 6 50 * 64)
  match c.f 9 3 with
  | 1 =>
    let depth := if bitsOf ctl 0 1 = 1 then M.depthB else M.depthA
    ({ op := 0x18F, a := low ||| BitVec.ofNat 64 (at_ 1 3 depth % 64) }, va)
  | 2 =>
    let x := ctl % 2 ^ 3 + (at_ 3 3 M.depthA / 8 % 8) * 8 + (at_ 6 3 M.depthB / 64 % 8) * 64 + ctl / 2 ^ 9 * 2 ^ 9
    let a := if c.f 193 1 = 1 then x - bitsOf x 2 1 * 4 + (if i = 0 then 0 else 4) else x
    ({ op := match c.f 125 3 with | 0 => 0x191 | 1 => 0x197 | 2 => 0x198 | _ => 0x199
       a := BitVec.ofNat 64 a, ext := c.f 120 5 }, 0)
  | 3 => ({ op := 0x190, a := low ||| BitVec.ofNat 64 (ctl % 64) }, va)
  | _ => ({ op := 0x192, a := BitVec.ofNat 64 ctl }, 0)

/-- A generated command checked as its instruction is (R158, R164, R165, R169): its record, or the fault with its level and address. -/
def State.checkEmitted (s : State) (t : Nat) (T : Team) (M : Matrix) (x : MatCmd) (va : W64) :
    Except (FaultCode × Nat × W64) MatCmd :=
  let east := M.eastAhead []
  let calibrated := (s.die (dieOf T.core)).calibrated
  if x.isMma then
    if mmaRefused M east x.op x.n x.a.toNat ∨ M.inTurn east x = false
        ∨ ((x.op = 0x198 ∨ x.op = 0x199) ∧ 8 ≤ x.ext) ∨ ((x.op = 0x197 ∨ x.op = 0x198) ∧ calibrated = false) then
      .error (.badHandle, 0, 0)
    else .ok x
  else if x.op = 0x192 then
    if 4 ≤ x.a.toNat ∨ M.tiles ≤ x.a.toNat then .error (.badHandle, 0, 0) else .ok x
  else if transferRefused M x.op x.a.toNat ∨ va.toNat % 64 ≠ 0 ∨ 2 ^ 56 ≤ va.toNat then .error (.badHandle, 0, va)
  else
    match s.translate T.asid T.sup .r Window.isScratchpad va with
    | .error f => .error (f.code, f.level, va)
    | .ok p =>
      if s.spoiled p.pa 64 then .error (.memData, 1, va)
      else
        let ws := s.readWords 0 p.pa 8
        let r := recOf ws
        let agent : Agent := { asid := T.asid, sup := T.sup, team := t }
        let need : Perm := if x.op = 0x18F then .r else .w
        let hbm := match s.sideWindow agent r need with | some .hbm | none => r.space == 0 | _ => false
        match Rec.check ws T.sharedSize, transferRecFault x.op x.a.toNat false r hbm with
        | some code, _ => .error (code, 0, va)
        | none, some code => .error (code, 0, va)
        | none, none =>
          let x := { x with record := ws, traffic := s.sideTraffic agent r need }
          if M.inTurn east x then .ok x else .error (.badHandle, 0, va)

/-- The charge of a generated command (R76, R79, R80). -/
def MatCmd.charge (x : MatCmd) : Nat := if x.isMma then 2 ^ x.n else if x.transfer then 1 else 4

/-- Every group of the team has ended: its queues and its sequencer drain (R392). -/
def Team.draining (T : Team) : Bool := T.groups.all fun G => G.phase = .ended

/-- A leaf's iteration: its command is charged and enters the queue, once there is room and budget; the drain is never held back
(R169, R392). -/
def State.emit (s : State) (t k : Nat) (T : Team) (M : Matrix) (c : Controller) : Option State :=
  if 16 ≤ M.queue.length then none
  else
    let (x, va) := c.emit M c.begun (c.taken - 1)
    let seq := T.cmdSeq + 1
    match s.checkEmitted t T M x va with
    | .error (code, level, addr) =>
      some ((s.modTeam t fun T => { T with cmdSeq := seq }).matrixFault t { x with seq := seq } code level (x.op == 0x190) addr []
        (if code = .memData then Config.errorStatus s.tick else 0))
    | .ok x =>
      if T.draining = false ∧ (T.ibud < x.charge ∨ T.tbud < x.traffic) then none
      else
        let s := (s.modTeam t fun T => { T with ibud := T.ibud - x.charge, tbud := T.tbud - x.traffic }).doMatrix t 0
          { x with source := some k, sup := T.sup }
        some (s.modMatrix t fun M =>
          { M with controllers := modifyAt M.controllers k fun c =>
              { c with begun := c.begun + 1, outstanding := c.outstanding ++ [seq] } })

/-- R169. SEQUENCER_ENABLE_TOKEN: a controller takes an enable token, or runs its next iteration: a loop enables its children, a
leaf emits its command. -/
def State.sequencerStep (s : State) (t k : Nat) : Option State := do
  let T ← s.team? t
  let M ← T.matrix
  let c ← M.controllers[k]?
  if T.place ≠ .resident ∨ T.taken.isSome ∨ M.busy = false then none
  else if c.active = false then
    if c.enables = 0 then none
    else
      some (s.modMatrix t fun M =>
        let kids := M.children k
        { M with
          controllers := ((List.range M.controllers.length).zip (modifyAt M.controllers k fun c =>
              { c with enables := c.enables - 1, active := true, begun := 0, taken := c.taken + 1, dones := [] })).map
            fun (i, c) => if kids.contains i then { c with taken := 0 } else c })
  else if M.mayIterate k c = false then none
  else if c.leaf then s.emit t k T M c
  else
    some (s.modMatrix t fun M =>
      let kids := M.children k
      { M with
        controllers := ((List.range M.controllers.length).zip (modifyAt M.controllers k fun c =>
            { c with begun := c.begun + 1 })).map
          fun (i, c) => if kids.contains i then { c with enables := c.enables + 1 } else c })

def execSequencerEnableToken (team controller : Nat) (s : State) : Host.Outcome State Fault Refusal :=
  occurs s (s.sequencerStep team controller)

/-- R169, R173. SEQUENCER_DONE: a controller of a resident team whose iterations are complete sends done to its parent; the root's done makes the sequencer
idle and arrives on the done word. -/
def State.sequencerDone (s : State) (t k : Nat) : Option State := do
  let T ← s.team? t
  let M ← T.matrix
  let c ← M.controllers[k]?
  if T.place ≠ .resident ∨ c.active = false ∨ M.completed k c < c.iterations then none
  else
    let s := s.modMatrix t fun M => { M with controllers := modifyAt M.controllers k fun c => { c with active := false } }
    if k = M.root then
      let s := s.modMatrix t fun M =>
        { M with
          busy := decide (0 < c.enables)
          controllers := modifyAt M.controllers k fun c => { c with taken := 0 } }
      some (match M.done with | some pa => s.arriveAt 0 pa | none => s)
    else
      some (s.modMatrix t fun M =>
        { M with controllers := modifyAt M.controllers (c.f 2 4) fun p =>
            { p with dones := PMap.insert p.dones k (PMap.getD p.dones k 0 + 1) } })

def execSequencerDone (team controller : Nat) (s : State) : Host.Outcome State Fault Refusal :=
  occurs s (s.sequencerDone team controller)

end Sys2Proof.Machine
end

