-- ==== Sys2Proof/Machine/Diverge.lean ====
section
/-! DEFINITION. Divergence and packing (R359 to R369): what a commit's exits do to a group's masks and stacks, rotation, and the
events that pack a team's threads and return them. -/
namespace Sys2Proof.Machine

/-! ### Lanes and their next blocks -/

/-- A lane that runs on: its next block and the path by which it enters it. -/
structure Going where
  lane : Nat
  target : W64
  path : EntryPath
  deriving DecidableEq, Repr

/-- The mask of lanes that run on. -/
def goingMask (xs : List Going) : W16 := maskOf fun l => xs.any fun x => x.lane = l

/-- The path of lanes that enter a block together: a call where some lane calls it, since that path admits the fewest kinds (R31). -/
def joinPath (xs : List Going) : EntryPath :=
  if xs.any fun x => x.path = .call then .call
  else if xs.any fun x => x.path = .reconverge then .reconverge
  else if xs.any fun x => x.path = .ret then .ret
  else .jump

/-- The distinct targets of lanes, in order of first appearance. -/
def targetsOf : List Going → List W64
  | [] => []
  | x :: rest => x.target :: (targetsOf rest).filter (· ≠ x.target)

/-- Sub-groups before others (R362): more lanes first, then the lower target. -/
def subBefore (x y : Nat × W64) : Bool := decide (y.1 < x.1) || (decide (x.1 = y.1) && decide (x.2.toNat ≤ y.2.toNat))

/-- An element put before the first that does not come before it. -/
def insertBy {α : Type} (before : α → α → Bool) (x : α) : List α → List α
  | [] => [x]
  | y :: rest => if before x y then x :: y :: rest else y :: insertBy before x rest

def sortBy {α : Type} (before : α → α → Bool) : List α → List α
  | [] => []
  | x :: rest => insertBy before x (sortBy before rest)

/-- The sub-groups of lanes, in the order in which they run (R362). -/
def subGroups (xs : List Going) : List (List Going) :=
  let sized := (targetsOf xs).map fun t => ((xs.filter fun x => x.target = t).length, t)
  (sortBy subBefore sized).map fun st => xs.filter fun x => x.target = st.2

/-- A waiting entry for a sub-group (R360). -/
def waitingEntry (stamp : Nat) (xs : List Going) : ReconEntry :=
  { kind := .waiting, addr := (xs.head?.map (·.target)).getD 0, mask := goingMask xs, path := joinPath xs, stamp := stamp }

def ReconEntry.isJoin (e : ReconEntry) : Bool := e.kind = .join || e.kind = .joinFree

/-- Whether an entry is the join point of a lane at an address. -/
def ReconEntry.joins (e : ReconEntry) (l : Nat) (a : W64) : Bool := e.kind = .join && e.addr = a && laneBit e.mask l

/-- A mask with one lane. -/
def oneLane (l : Nat) : W16 := maskOf fun i => decide (i = l)

def ReconEntry.without (e : ReconEntry) (m : W16) : ReconEntry :=
  { e with mask := e.mask &&& ~~~m, arrived := e.arrived &&& ~~~m }

def CallEntry.without (e : CallEntry) (m : W16) : CallEntry :=
  { e with mask := e.mask &&& ~~~m, returned := e.returned &&& ~~~m }

/-! ### Arrival, returns, split and resumption -/

/-- A lane's arrival at the innermost join entry of its target (R362 step 1, R363), or none. -/
def Group.arrive? (G : Group) (x : Going) : Option Group :=
  match findIdx? (fun e => e.joins x.lane x.target) G.recon with
  | none => none
  | some i =>
    match G.recon[i]? with
    | none => none
    | some e =>
      let m := oneLane x.lane
      some { G with
        recon := ((G.recon.take i).map fun y => if y.isJoin then { y with mask := y.mask &&& ~~~m } else y)
          ++ { e with arrived := e.arrived ||| m } :: G.recon.drop (i + 1)
        calls := G.calls.map fun y => if e.stamp < y.stamp then y.without m else y }

/-- The lanes that do not arrive, after those that do have arrived. -/
def Group.arrivals_ (G : Group) : List Going → Group × List Going
  | [] => (G, [])
  | x :: rest =>
    match G.arrive? x with
    | some G => G.arrivals_ rest
    | none => let r := G.arrivals_ rest; (r.1, x :: r.2)

/-- Call entries whose lanes have all returned are popped, and their lanes run on at the return address; an entry without lanes is
popped at once (R59, R363). -/
def releaseCalls (exited : W16) : List CallEntry → List CallEntry × List Going
  | [] => ([], [])
  | e :: rest =>
    let r := releaseCalls exited rest
    let live := e.mask &&& ~~~exited
    if live &&& ~~~e.returned = 0 then
      (r.1, ((lanesOf (e.returned &&& live)).map fun l => ⟨l, e.ret, .ret⟩) ++ r.2)
    else (e :: r.1, r.2)

/-- Arrivals and releases until neither adds a lane. -/
def Group.settle (G : Group) : Nat → List Going → Group × List Going
  | 0, xs => (G, xs)
  | fuel + 1, xs =>
    let (G, left) := G.arrivals_ xs
    let (calls, released) := releaseCalls G.exited G.calls
    let G := { G with calls := calls }
    if released = [] then (G, left)
    else
      let r := G.settle fuel released
      (r.1, left ++ r.2)

/-- Lanes run as the running sub-group. -/
def Group.run (G : Group) (xs : List Going) : Group :=
  { G with mask := goingMask xs, pc := (xs.head?.map (·.target)).getD 0, path := joinPath xs }

/-- The split of R362 step 2. -/
def Group.split (G : Group) (J : Option W64) (xs : List Going) : Group :=
  match subGroups xs with
  | [] => { G with mask := 0 }
  | first :: others =>
    let G := G.run first
    if others = [] then G
    else
      let waits := others.map (waitingEntry (G.stamp + 1))
      let join : List ReconEntry :=
        match J with
        | some a => [{ kind := .join, addr := a, mask := goingMask xs, stamp := G.stamp + 1 }]
        | none =>
          if G.recon.any (·.isJoin) then []
          else [{ kind := .joinFree, addr := 0, mask := goingMask xs, stamp := G.stamp + 1 }]
      { G with recon := waits ++ join ++ G.recon, stamp := G.stamp + 1 }

/-- The first join entry of a stack restarts its count (R362 step 3). -/
def restartCount : List ReconEntry → List ReconEntry
  | [] => []
  | e :: rest => if e.isJoin then { e with count := 0 } :: rest else e :: restartCount rest

/-- Entries are popped until a sub-group runs or the stack is empty (R362 step 3). -/
def Group.resume (G : Group) : List ReconEntry → Group
  | [] => { G with recon := [], mask := 0 }
  | e :: rest =>
    let lanes := (if e.kind = .waiting then e.mask else e.arrived) &&& ~~~G.exited
    if lanes = 0 then G.resume rest
    else
      { G with
        recon := if e.kind = .waiting then restartCount rest else rest
        mask := lanes, pc := e.addr, path := if e.kind = .waiting then e.path else .reconverge }

/-! ### Rotation -/

/-- The entries above a join entry that are its own: the waiting entries up to the next join entry, counted from below. The list
is given from the entry upward. -/
def ownWaiting : List ReconEntry → List ReconEntry
  | [] => []
  | e :: rest => if e.kind = .waiting then e :: ownWaiting rest else []

/-- The lanes of removed entries at their next addresses (R364 step 2). -/
def removedLanes (exited : W16) (es : List ReconEntry) : List Going :=
  es.flatMap fun e =>
    let m := (if e.kind = .waiting then e.mask else e.arrived) &&& ~~~exited
    (lanesOf m).map fun l => ⟨l, e.addr, if e.kind = .waiting then e.path else .reconverge⟩

/-- Rotation (R364) over a stack given from the bottom up, with the entries below the one examined. -/
def Group.rotateFrom (G : Group) (below : List ReconEntry) : List ReconEntry → Group
  | [] => G
  | e :: above =>
    let own := ownWaiting above
    if e.isJoin ∧ e.count = 256 ∧ own ≠ [] then
      let running := (lanesOf G.mask).map fun l => (⟨l, G.pc, G.path⟩ : Going)
      let loose := running ++ removedLanes G.exited (above.drop own.length)
      let fresh := (subGroups loose).reverse.map (waitingEntry (G.stamp + 1))
      let stack := below ++ { e with count := 0 } :: fresh ++ own
      { G with stamp := G.stamp + 1 }.resume stack.reverse
    else G.rotateFrom (below ++ [e]) above

/-- The lowest expired join entry rotates (R364). -/
def Group.rotate (G : Group) : Group := G.rotateFrom [] G.recon.reverse

/-! ### A commit's exits -/

/-- The commit counts in every join entry (R364). -/
def countCommit (e : ReconEntry) : ReconEntry := if e.isJoin then { e with count := Nat.min 256 (e.count + 1) } else e

/-- Lanes by a kind of exit. -/
def exitLanes (xs : List (Nat × ExitKind × W64)) (k : ExitKind) : W16 := maskOf fun l => xs.any fun x => x.1 = l && x.2.1 = k

/-- A call entry pushed for the lanes of one `call` (R58). -/
def Group.pushCall (next : W64) (G : Group) (m : W16) : Group :=
  { G with calls := { ret := next, mask := m, stamp := G.stamp + 1 } :: G.calls, stamp := G.stamp + 1 }

/-- Returning lanes wait in the top call entry, and leave every reconvergence entry pushed after it (R59, R363). -/
def Group.returning (G : Group) (back : W16) : Group :=
  match G.calls with
  | [] => G
  | e :: rest =>
    if back = 0 then G
    else { G with
      calls := { e with returned := e.returned ||| back } :: rest
      recon := G.recon.map fun r => if e.stamp < r.stamp then r.without back else r }

/-- The group after its lanes have left a block (R40, R42, R58 to R60, R363): exited lanes leave every entry, returning lanes wait in
the top call entry, and each call pushes an entry for its lanes, in slot order. -/
def Group.leave (G : Group) (next : W64) (xs : List (Nat × ExitKind × W64)) (calls : List W16) : Group :=
  let out := exitLanes xs .exit
  let G : Group := { G with
    exited := G.exited ||| out
    recon := G.recon.map fun e => countCommit (e.without out)
    calls := G.calls.map fun e => e.without out }
  calls.foldl (Group.pushCall next) (G.returning (exitLanes xs .ret))

/-- The lanes that go on by `br`, `bri` and calls. -/
def goingOf (xs : List (Nat × ExitKind × W64)) : List Going :=
  xs.filterMap fun x =>
    match x.2.1 with
    | .br => some ⟨x.1, x.2.2, .jump⟩
    | .call => some ⟨x.1, x.2.2, .call⟩
    | _ => none

/-- The steps of R362, and R364 where the commit may rotate. -/
def Group.course (G : Group) (J : Option W64) (rotates : Bool) (xs : List Going) : Group :=
  let (G, left) := G.settle (G.calls.length + 1) xs
  let G := G.split J left
  let G := if G.mask = 0 then G.resume G.recon else G
  if rotates then G.rotate else G

/-! ### Spilled entries -/

/-- The 16 bytes of a call entry (R58). -/
def CallEntry.image (e : CallEntry) : Nat := e.ret.toNat % 2 ^ 56 + 2 ^ 56 + e.mask.toNat * 2 ^ 64

/-- The 16 bytes of a reconvergence entry (R360). -/
def ReconEntry.image (e : ReconEntry) : Nat :=
  e.addr.toNat % 2 ^ 56 + (match e.kind with | .join => 2 | .joinFree => 3 | .waiting => 4) * 2 ^ 56 + e.mask.toNat * 2 ^ 64
    + e.arrived.toNat * 2 ^ 80 + e.count * 2 ^ 96

/-- The entries beyond those that the core holds, in push order (R58, R360): stamp with image. -/
def Group.spilledEntries (G : Group) : List (Nat × Nat) :=
  let cs := (G.calls.drop 8).reverse.map fun e => (e.stamp, e.image)
  let rs := (G.recon.drop 32).reverse.map fun e => (e.stamp, e.image)
  sortBy (fun x y => decide (x.1 ≤ y.1)) (cs ++ rs)

/-- Images written to the top of a spill stack of a size, growing downward. -/
def spillImages (size : Nat) : Nat → List Host.Cell → List (Nat × Nat) → List Host.Cell
  | _, m, [] => m
  | k, m, (_, x) :: rest => spillImages size (k + 1) (sramWrite m (size - 16 * (k + 1)) 16 x) rest

/-- The group with its spilled entries in its spill stack. -/
def Group.spillEntries (G : Group) (size : Nat) : Group := { G with spill := spillImages size 0 G.spill G.spilledEntries }

/-! ### Packing -/

/-- A gathered thread: home group, lane column and target. -/
structure Thread where
  home : Nat
  lane : Nat
  target : W64
  deriving DecidableEq, Repr

/-- The threads that a team's groups have recorded, by ascending home group. -/
def Team.threads (T : Team) : List Thread :=
  (List.range T.groups.length).flatMap fun h =>
    match T.groups[h]? with
    | some G => if G.phase = .gathered then G.targets.map fun (l, t) => ⟨h, l, t⟩ else []
    | none => []

/-- The places of one target's threads from a base on: home, lane and packed group (R367). -/
def placeTarget (base : Nat) (xs : List Thread) : List (Nat × Nat × Nat) :=
  (List.range 16).flatMap fun l =>
    let col := xs.filter fun x => x.lane = l
    (List.range col.length).zip col |>.map fun (i, x) => (x.home, x.lane, base + i)

/-- The largest count of a lane column. -/
def columnMax (xs : List Thread) : Nat := ((List.range 16).map fun l => (xs.filter fun x => x.lane = l).length).foldl Nat.max 0

/-- The targets of threads, by thread count descending, then by lower address (R367). -/
def packOrder (xs : List Thread) : List W64 :=
  let ts := targetsOf (xs.map fun x => ⟨0, x.target, .jump⟩)
  (sortBy subBefore (ts.map fun t => ((xs.filter fun x => x.target = t).length, t))).map (·.2)

/-- The packing of threads target by target. -/
def placeAll (xs : List Thread) : Nat → List W64 → List (Nat × Nat × Nat)
  | _, [] => []
  | base, t :: rest =>
    let ys := xs.filter fun x => x.target = t
    placeTarget base ys ++ placeAll xs (base + columnMax ys) rest

/-- The packing of R367: home, lane and packed group of each thread; every thread at home where the groups do not suffice. -/
def packPlan (ng : Nat) (xs : List Thread) : List (Nat × Nat × Nat) :=
  let need := ((packOrder xs).map fun t => columnMax (xs.filter fun x => x.target = t)).sum
  if ng < need then xs.map fun x => (x.home, x.lane, x.home) else placeAll xs 0 (packOrder xs)

/-- The group to which a plan moves the thread of a group and lane. -/
def planOf (plan : List (Nat × Nat × Nat)) (h l : Nat) : Option Nat :=
  (plan.find? fun x => x.1 = h ∧ x.2.1 = l).map (·.2.2)

/-- The groups from which the lanes of a group take their threads under a plan: lane and group. -/
def planSources (groups : List Group) (plan : List (Nat × Nat × Nat)) (g : Nat) : List (Nat × Group) :=
  (List.range 16).filterMap fun l =>
    ((plan.find? fun x => x.2.1 = l ∧ x.2.2 = g).bind fun x => groups[x.1]?).map fun G => (l, G)

/-- A group with the lane registers, mask bits and generator states of a plan's threads (R368): each thread's state moves with it, and a
lane that takes no thread keeps what it holds. -/
def Group.moved (G : Group) (groups : List Group) (plan : List (Nat × Nat × Nat)) (g : Nat) : Group :=
  let xs := planSources groups plan g
  let takes (l : Nat) : Bool := xs.any fun x => x.1 = l
  { G with
    v := xs.foldl (fun m (l, H) => H.v.foldl (fun m (k, x) => if k % 16 = l then PMap.insert m k x else m) m)
      (G.v.filter fun (k, _) => !takes (k % 16))
    p := (List.range 8).foldl (fun m n => PMap.set m 0 n (maskOf fun l =>
      match xs.find? fun x => x.1 = l with
      | some (_, H) => laneBit (PMap.getD H.p n 0) l
      | none => laneBit (PMap.getD G.p n 0) l)) G.p
    gens := xs.foldl (fun m (l, H) => PMap.set m 0 l (PMap.getD H.gens l 0)) G.gens }

/-- A physical group after the packing (R367): its columns hold the plan's threads, which start at their targets. -/
def packedGroup (groups : List Group) (xs : List Thread) (plan : List (Nat × Nat × Nat)) (g : Nat) (G : Group) : Group :=
  let here := xs.filter fun x => planOf plan x.home x.lane = some g
  let G : Group := { G.moved groups plan g with
    seats := if G.phase = .ended then 0 else G.launched, launched := maskOf fun l => here.any fun x => x.lane = l, exited := 0, recon := [], calls := []
    home := here.foldl (fun m x => PMap.insert m x.lane x.home) [], targets := [], paths := [], joinAt := none }
  if here = [] then { G with phase := if G.phase = .ended then .ended else .parked, mask := 0 }
  else
    let J := (groups[g]?).bind (·.joinAt)
    { G with phase := .running }.course J false (here.map fun (x : Thread) => (⟨x.lane, x.target, .jump⟩ : Going))

/-- Every group has ended or waits at the pack block. -/
def Team.allGathered (T : Team) : Bool := T.groups.all fun G => G.phase = .gathered || G.phase = .ended

/-- The plan that a pack record's body gives (R191, R197). -/
def recordPlan (units : List W16) : List (Nat × Nat × Nat) :=
  let bs := bytesOfUnits units
  (List.range 512).filterMap fun i =>
    let b := (bs.getD i 0).toNat
    if 128 ≤ b then some (b % 32, i % 16, i / 16) else none

/-- Whether a recorded plan names exactly the threads given (R197). -/
def planFits (plan : List (Nat × Nat × Nat)) (xs : List (Nat × Nat)) (ng : Nat) : Bool :=
  decide (plan.length = xs.length) && xs.all (fun x => (planOf plan x.1 x.2).isSome) && plan.all fun x => decide (x.2.2 < ng)

/-- The pack record that a reversing tape gives next: the team chain's latest (R197). -/
def State.packRecord? (s : State) (T : Team) : Except (XlatFault × Nat) (Option (List W16 × Nat × Nat × Nat)) :=
  let (pos, taken) := PMap.getD T.tape.cursors 32 (T.tape.finish, 0)
  match s.tapePop T T.tape.base 32 5 pos taken with
  | .error f => .error f
  | .ok (.body units p k low) => .ok (some (units, p, k, low))
  | .ok (.status _) => .ok none

/-- R367, R197. PACK: once every live group has committed the pack block, the threads are repacked by target, or as the record of a
reversing tape gives, whose transfers are charged (R193). -/
def State.pack (s : State) (t : Nat) : Option State := do
  let T ← s.team? t
  let P ← T.packing
  if P.open_ ∨ T.place ≠ .resident ∨ T.allGathered = false then none
  else
    let xs := T.threads
    let reversed := T.tape.mode = .reversing ∧ P.tape
    let (plan, tape, units) ← (if reversed then
        match s.packRecord? T with
        | .ok (some (units, p, k, low)) =>
          some (recordPlan units,
            { T.tape with cursors := PMap.insert T.tape.cursors 32 (p, k), flushed := Nat.min T.tape.flushed (halfStart low) },
            T.tape.popUnits low)
        | _ => none
      else some (packPlan T.groups.length xs, T.tape, 0))
    some (s.modTeam t fun T =>
      { T with
        tape := tape, tbud := T.tbud - units
        packing := some { P with open_ := true }
        groups := ((List.range T.groups.length).zip T.groups).map fun (g, G) => packedGroup T.groups xs plan g G })

def execPack (team : Nat) (s : State) : Host.Outcome State Fault Refusal := occurs s (s.pack team)

/-- The units of a pack record (R191): byte 16g + L tells the home group of the live thread there. -/
def packUnits (groups : List Group) : List W16 :=
  unitsOfBytes ((List.range 512).map fun i =>
    match groups[i / 16]? with
    | some G =>
      let l := i % 16
      if laneBit (G.launched &&& ~~~G.exited) l then BitVec.ofNat 8 (128 + PMap.getD G.home l 0 % 32) else 0
    | none => 0)

/-- A thread that returns home: packed group, lane, home group, and where it goes on (R369). -/
structure Homing where
  packed : Nat
  lane : Nat
  home : Nat
  target : W64
  path : EntryPath
  deriving DecidableEq, Repr

/-- The live threads of a packed team. -/
def Team.packedThreads (T : Team) : List Homing :=
  (List.range T.groups.length).flatMap fun g =>
    match T.groups[g]? with
    | some G => (lanesOf (G.launched &&& ~~~G.exited)).map fun l =>
        ⟨g, l, PMap.getD G.home l 0, PMap.getD G.targets l 0, PMap.getD G.paths l .jump⟩
    | none => []

/-- Every packed group that holds a live thread has committed its `rejoin` block. -/
def Team.allRejoined (T : Team) : Bool := T.groups.all fun G => G.phase != .running && G.phase != .gathered

/-- A group that has ended (R60, R262): it keeps no stack, no binding and no arrival. -/
def Group.atEnd (G : Group) : Group :=
  { G with phase := .ended, mask := 0, recon := [], calls := [], eyelets := [], latches := [], arrivals := [], barWait := [] }

/-- A home group after the return (R369): its live threads run on at their targets, split under R362; without any it has ended. Its
call stack, which stays with the physical group, is the one that it had (R368). -/
def returnedGroup (groups : List Group) (xs : List Homing) (J : Option W64) (h : Nat) (G : Group) : Group :=
  let here := xs.filter fun x => x.home = h
  let plan := xs.map fun x => (x.packed, x.lane, x.home)
  let live := maskOf fun l => here.any fun x => x.lane = l
  let G : Group := { G.moved groups plan h with
    launched := G.seats, exited := G.seats &&& ~~~live, recon := [], home := [], targets := [], paths := [], joinAt := none, seats := 0 }
  if here = [] then G.atEnd
  else { G with phase := .running }.course J false (here.map fun (x : Homing) => (⟨x.lane, x.target, x.path⟩ : Going))

/-- R369, R191. REJOIN_RETURN: once every packed group has committed its `rejoin` block, the threads return home, and a recording tape
gains the pack record. -/
def State.rejoinReturn (s : State) (t : Nat) : Option State := do
  let T ← s.team? t
  let P ← T.packing
  if P.open_ = false ∨ T.place ≠ .resident ∨ T.allRejoined = false ∨ (T.tape.mode = .recording ∧ T.tape.stalled.isSome) then none
  else
    let xs := T.packedThreads
    let J (h : Nat) : Option W64 := match xs.find? fun x => x.home = h with
      | some x => (T.groups[x.packed]?).bind (·.joinAt)
      | none => none
    let groups := ((List.range T.groups.length).zip T.groups).map fun (h, G) => returnedGroup T.groups xs (J h) h G
    let tape := T.tape.packRecord (packUnits T.groups)
    let T' := { T with packing := none, groups := groups, tape := tape, tbud := T.tbud - (tape.traffic - T.tape.traffic) }
    let s := { s with teams := PMap.insert s.teams t T' }
    let s := s.tapeRun t
    some (s.barGroupsEnded T' (T.live - T'.live))

def execRejoinReturn (team : Nat) (s : State) : Host.Outcome State Fault Refusal := occurs s (s.rejoinReturn team)

end Sys2Proof.Machine
end

