-- ==== Sys2Proof/Machine/Tasks.lean ====
section
/-! DEFINITION. Tasks, join records and budgets (R371 to R392): the meanings of `spawn`, `steal`, `jcnt.init`, `retire`, `cont` and the
budget instructions, what they do at commit, and the retirement of a team. -/
namespace Sys2Proof.Machine

/-! ### Tasks -/

/-- A task token (R378): the descriptor's words, the spawning lane, its argument and the grants. -/
def taskToken (desc : RecWords) (lane : Nat) (arg : W64) (ib tb : Nat) : Token :=
  let f := fieldOf desc
  let two (x : Nat) : List W32 := wordsOfNat 2 x
  let data := two arg.toNat ++ two (f 64 56) ++ [BitVec.ofNat 32 (lane + f 144 1 * 2 ^ 8 + 2 ^ 31)] ++ two ib ++ two tb
    ++ wordsOfNat 5 (f 192 160) ++ [0, 0]
  dataToken data 0xFFFF (BitVec.ofNat 16 (f 128 16))

/-- R382. `spawn`: the descriptor is read and checked at fire; the tokens are enqueued at commit. -/
def execSpawn (s : State) : Host.Outcome State Fault Refusal :=
  fire s fun c => withOn c fun on => withPort c .b fun b =>
    withUniform c .a (null := .ok s none none []) fun a x => Fired.ofExcept do
      let ws ← c.readObject s x 8 64
      let f := fieldOf ws
      let queue : W64 := BitVec.ofNat 64 (f 0 56)
      if f 56 8 ≠ 0 ∨ f 120 8 ≠ 0 ∨ f 145 47 ≠ 0 ∨ f 352 160 ≠ 0 then .error (c.fault .badHandle 0 x)
      else if queue.toNat % 4096 ≠ 0 then .error (c.fault .align 0 x)
      else
        let q ← c.queueAt s .w true queue
        if f 64 6 ≠ 0 then .error (c.fault .align 0 x)
        else if f 144 1 = 1 ∧ c.team.topup = false then .error (c.fault .priv 0 x)
        else
          let live := liveOn on [a.lanes, b.lanes]
          let lanes := (lanesOf live).map fun l => (l, (laneAt b.lanes l).getD 0)
          pure (.ok s none none (if live = 0 then [] else [.spawn c.blk.slot q ws lanes]))

/-- R384. `steal`: reserves the newest entry at fire and removes it at commit. -/
def execStealInstr (s : State) : Host.Outcome State Fault Refusal :=
  fireQueue s .rw true fun c q _ on => c.pop s q true on

/-- The tokens of a `spawn` enqueued as one, in ascending lane order (R382). -/
def State.doSpawn (s : State) (q : Nat) (desc : RecWords) (ib tb : Nat) : List (Nat × W64) → State
  | [] => s
  | (l, x) :: rest => State.doSpawn (s.enqueue q (taskToken desc l x ib tb)) q desc ib tb rest

/-! ### Join records -/

/-- Where join records lie (R380). -/
def Window.isJoin : Window → Bool
  | .hbm | .scratchpad _ _ => true
  | _ => false

/-- The two halves of a join record, translated (R380). -/
def State.joinRecord (s : State) (asid : W16) (sup : Bool) (va : W64) : Except XlatFault (Phys × Phys) := do
  let lo ← s.translate asid sup .rw Window.isJoin va
  let hi ← s.translate asid sup .rw Window.isJoin (va + 64)
  pure (lo, hi)

/-- R385. `jcnt.init`. -/
def execJcntInit (s : State) : Host.Outcome State Fault Refusal :=
  fire s fun c => withTwo c fun a b live => Fired.ofExcept do
    let record ← a.checked fun x =>
      match s.joinRecord c.team.asid c.sup x with
      | .error f => .error (c.fault f.code 0 x f.level)
      | .ok (lo, _) => if x.toNat % 64 ≠ 0 then .error (c.fault .align 0 x) else .ok lo
    let count ← b.checked fun n => if n = 0 then .error (c.fault .badHandle 0 (a.uniform?.getD 0)) else .ok n
    match record, count with
    | some lo, some n => pure (.ok s none none (if live = 0 then [] else [.jcntInit c.blk.slot lo.pa lo.key n]))
    | _, _ => pure (.ok s none none [])

/-- The generation of the keys under which the bytes at a physical address stand, through a key slot that is bound: where nothing is
enciphered there are none (R411, R412). -/
def State.genFor (s : State) (pa key : Nat) : Option Nat := if keyed pa then s.keyGen key else some 0

/-- `jcnt.init` at commit (R385): count is set and both returns are cleared, through the keys that its slot then has (R420). -/
def State.doJcntInit (s : State) (pa key : Nat) (n : W64) : State :=
  let gen := (s.genFor pa key).getD 0
  ((s.writeNat gen pa 8 n.toNat).writeNat gen (pa + 8) 6 0).writeNat gen (pa + 16) 6 0

/-- Whether a keep-0 `retire` of a block has fired (R386). -/
def Flight.retires (F : Flight) : Bool := F.allEffects.any fun e => match e with | .retire _ keep _ => !keep | _ => false

/-- Whether a keep-0 `retire` of the team has fired already, in this block, in one that another group executes, or in one that has
committed (R386). -/
def Ctx.retireRecorded (c : Ctx) : Bool :=
  c.team.retire.isSome || c.blk.retires || c.team.groups.any fun G => G.blk.any Flight.retires

/-- The fire of a `retire` whose operand must name keep as given (R386). -/
def fireRetire (s : State) (keep : Bool) : Host.Outcome State Fault Refusal :=
  fire s fun c => withOn c fun on =>
    withUniform c .a (null := .ok s none none []) fun a x =>
      let va := recordAddress x
      match s.joinRecord c.team.asid c.sup va with
      | .error f => c.fault f.code 0 va f.level
      | .ok (lo, hi) =>
        if bitsOf x.toNat 1 5 ≠ 0 ∨ bitsOf x.toNat 56 8 ≠ 0 ∨ x.getLsbD 0 ≠ keep then c.fault .badHandle 0 va
        else if liveOn on [a.lanes] = 0 then .ok s none none []
        else if keep = false ∧ c.retireRecorded then c.fault .badHandle 0 va
        else if s.spoiled lo.pa 64 ∨ s.spoiled hi.pa 64 then
          c.memData s (if (windowOf lo.pa).isScratchpad then 1 else 0) 0 va
        else .ok s none none [.retire c.blk.slot keep va]

def execRetireKeep0 (s : State) : Host.Outcome State Fault Refusal := fireRetire s false
def execRetireKeep1 (s : State) : Host.Outcome State Fault Refusal := fireRetire s true

/-- The record of a continuation queue that cannot be reached, or of a join record that cannot be at the team's retirement (R386). -/
def State.retireRecord (s : State) (t : Nat) (T : Team) (f : XlatFault) (va : W64) : State :=
  let r := s.commandRecord T f.code f.level true va 0x1D6 0 [] 0
  match s.fatalFor t r.asid, s.writeRecord r with
  | true, _ | _, none => s.fatalEnd t r
  | false, some s => s

/-- The continuation token of a join record (R386): ctok with the task mark and both returns. -/
def continuationToken (data : List W32) (tag : W16) (ib tb : Nat) : Token :=
  let d := data.take 4 ++ [(data.getD 4 0) ||| 0x80000000] ++ wordsOfNat 2 ib ++ wordsOfNat 2 tb ++ data.drop 9
  dataToken d 0xFFFF tag

/-- The read-modify-write of a `retire` on a join record (R386). -/
def State.joinRetire (s : State) (t : Nat) (T : Team) (sup : Bool) (va : W64) (ib tb : Nat) : State :=
  match s.joinRecord T.asid sup va with
  | .error f => s.retireRecord t T f va
  | .ok (lo, hi) =>
    let w := s.readWords lo.gen lo.pa 8
    let f := fieldOf w
    let ibret := addBudget (f 64 48) ib
    let tbret := addBudget (f 128 48) tb
    let put (s : State) (count x y : Nat) : State :=
      ((s.writeNat lo.gen lo.pa 8 count).writeNat lo.gen (lo.pa + 8) 6 x).writeNat lo.gen (lo.pa + 16) 6 y
    let count := f 0 64
    if count = 1 then
      let cq : W64 := BitVec.ofNat 64 (f 192 56)
      if cq = 0 then put s 0 ibret tbret
      else
        match s.translate T.asid T.sup .w Window.isQueue cq with
        | .error e => (put s 0 ibret tbret).retireRecord t T e cq
        | .ok p =>
          match windowOf p.pa with
          | .queue q _ =>
            let data := (List.range 16).map fun i => BitVec.ofNat 32 (s.readNat hi.gen (hi.pa + 4 * i) 4)
            (put s 0 0 0).engineEnqueue q (continuationToken data (BitVec.ofNat 16 (f 256 16)) ibret tbret)
          | _ => (put s 0 ibret tbret).retireRecord t T ⟨.access, 0⟩ cq
    else put s (count - 1) ibret tbret

/-- `retire` at commit (R386): keep 0 is recorded for the team's retirement, keep 1 acts at once. -/
def State.doRetire (s : State) (t g : Nat) (keep : Bool) (va : W64) : State :=
  match s.team? t with
  | none => s
  | some T =>
    let sup := T.sup || ((T.groups[g]?).bind (·.sup)).isSome
    if keep then s.joinRetire t T sup va 0 0
    else s.modTeam t fun T => { T with retire := match T.retire with | some r => some r | none => some (va, sup) }

/-! ### Continuation and budgets -/

/-- R387. `cont`. -/
def execCont (s : State) : Host.Outcome State Fault Refusal :=
  fire s fun c => withBlockAddress c fun x on =>
    match x with
    | none => .ok s none none []
    | some v =>
      if v.toNat / 2 ^ 56 ≠ 0 then c.fault .badHandle
      else .ok s none none (if on = 0 then [] else [.cont c.blk.slot v])

/-- IBUD and TBUD as a slot reads them at its fire (R38, R388): one without a guard fires at block start, after the fetch charge. -/
def Ctx.budgets (c : Ctx) : Nat × Nat :=
  let old (r : CtlReg) : Nat := (PMap.getD c.blk.regs (ctlNumber r) 0).toNat
  if c.node.guard = .always then (old .ibud - c.blk.paid, old .tbud) else (c.team.ibud, c.team.tbud)

/-- R388. `bud.get`: IBUD on t0, TBUD on t1. -/
def execBudGet (s : State) : Host.Outcome State Fault Refusal :=
  fire s fun c => withOn c fun on =>
    .ok s (some (uniformVal on (BitVec.ofNat 64 c.budgets.1))) (some (uniformVal on (BitVec.ofNat 64 c.budgets.2))) []

/-- R383. `bud.give`. -/
def execBudGive (s : State) : Host.Outcome State Fault Refusal :=
  fire s fun c => withTwo c fun a b live => Fired.ofExcept do
    let grant (x : W64) : Except Fired Nat := if 2 ^ 48 ≤ x.toNat then .error (c.fault .badHandle) else .ok x.toNat
    let ib ← a.checked grant
    let tb ← b.checked grant
    match ib, tb with
    | some ib, some tb => pure (.ok s none none (if live = 0 then [] else [.give c.blk.slot ib tb]))
    | _, _ => pure (.ok s none none [])

/-- The live team that a handle names (R389). -/
def State.teamOfHandle (s : State) (h : W32) : Option Nat :=
  (s.teams.find? fun (_, T) => T.handle = h ∧ T.gone = false).map (·.1)

/-- The residency that an id names: its stack and slot (R293). -/
def State.residencyOf (s : State) (id : W32) : Option (Nat × Nat) :=
  s.hbmStacks.findSome? fun (n, S) => (S.residencies.find? fun (_, R) => R.id = id).map fun (k, _) => (n, k)

def State.residency? (s : State) (stack slot : Nat) : Option Residency := PMap.get? (s.stack stack).residencies slot

def State.modResidency (s : State) (stack slot : Nat) (f : Residency → Residency) : State :=
  s.modStack stack fun S => { S with residencies := PMap.update S.residencies slot f }

/-- What a `bud.add` names (R389). -/
inductive BudTarget where
  | team (t : Nat) (asid : W16)
  | residency (stack slot : Nat) (asid : W16)
  | none_
  deriving DecidableEq, Repr

/-- The live target of a `bud.add` word (R389). -/
def Ctx.budTarget (c : Ctx) (s : State) (x : W64) : BudTarget :=
  let id : W32 := x.setWidth 32
  match bitsOf x.toNat 62 2 with
  | 0 => if id = 0 then .team c.t c.team.asid else .none_
  | 1 =>
    (match s.teamOfHandle id with
      | some t => (match s.team? t with | some T => .team t T.asid | none => .none_)
      | none => .none_)
  | 2 =>
    (match s.residencyOf id with
      | some (n, k) =>
        (match s.residency? n k with
          | some R => if R.state = .ended then .none_ else .residency n k R.asid
          | none => .none_)
      | none => .none_)
  | _ => .none_

/-- Whether the target lies in another ASID. -/
def BudTarget.foreign (b : BudTarget) (asid : W16) : Bool :=
  match b with
  | .team _ a | .residency _ _ a => a ≠ asid
  | .none_ => false

/-- R389. `bud.add`. -/
def execBudAdd (s : State) : Host.Outcome State Fault Refusal :=
  fire s fun c => withTwo c fun a b live =>
    if c.sup = false ∧ c.team.topup = false then c.fault .priv
    else Fired.ofExcept do
      let target ← a.checked fun x =>
        let target := c.budTarget s x
        if c.sup = false ∧ target.foreign c.team.asid then .error (c.fault .priv)
        else if bitsOf x.toNat 32 30 ≠ 0 ∨ target = .none_ then .error (c.fault .badHandle)
        else .ok x
      match target, b.uniform? with
      | some x, some y => pure (.ok s none none (if live = 0 then [] else [.budAdd c.blk.slot x y]))
      | _, _ => pure (.ok s none none [])

/-- A group of a yielded team as it resumes (R375): at the continuation block, or at the block that its g62 names. -/
def Group.continued (cont : W64) (G : Group) : Group :=
  if G.phase ≠ .running then G
  else if cont = 0 then { G with pc := PMap.getD G.g 62 0, path := .refetch }
  else { G with pc := cont, path := .resume }

/-- A team that `bud.add` names: its budgets grow, and a yielded team is ready (R375, R389). -/
def Team.topUp (T : Team) (now ib tb : Nat) : Team :=
  let T := { T with ibud := addBudget T.ibud ib, tbud := addBudget T.tbud tb }
  if T.place = .yielded then { T with place := .out true, age := now, groups := T.groups.map (Group.continued T.cont) } else T

/-- `bud.add` at commit (R389): a target that has ended since the fire takes nothing. -/
def State.doBudAdd (s : State) (t : Nat) (x y : W64) : State :=
  let ib := bitsOf y.toNat 0 32
  let tb := bitsOf y.toNat 32 32
  let id : W32 := x.setWidth 32
  let up (s : State) (t : Nat) : State :=
    match s.team? t with
    | some T => s.modTeam t fun U => U.topUp (s.clk (dieOf T.core)) ib tb
    | none => s
  match bitsOf x.toNat 62 2 with
  | 0 => up s t
  | 1 => match s.teamOfHandle id with | some u => up s u | none => s
  | _ =>
    match s.residencyOf id with
    | some (n, k) => s.modResidency n k fun R =>
        if R.state = .ended then R
        else { R with fbud := addBudget R.fbud ib, tbud := addBudget R.tbud tb, awaitsBudget := false }
    | none => s

/-! ### Retirement -/

/-- The running streams of a team are cancelled: completed tiles stand (R263). -/
def Team.cancelStreams (T : Team) : Team :=
  { T with streams := T.streams.map fun (k, x) =>
      (k, if x.running then { x with running := false, state := 3, code := 4, pending := [] } else x) }

/-- Whether the queues of a team have drained and its sequencer is idle (R60, R392). -/
def Team.drained (T : Team) : Bool :=
  T.copies.isEmpty && (match T.matrix with | some M => M.queue.isEmpty && !M.busy | none => true)

/-- The resources of a team are released (R392, R246): while other members of its cluster live, its shared memory stays. -/
def State.release (s : State) (t : Nat) : State :=
  match s.team? t with
  | none => s
  | some T =>
    if s.teams.any fun (k, U) => k ≠ t && U.lead = T.lead && !U.gone then
      ((s.releaseBars T true).freeUnitsOfTeam t).modTeam t fun T =>
        { T with gone := true, groups := [], matrix := none, streams := [], tape := {}, place := .out false }
    else s.dropTeam t

/-- R392. TEAM_RETIREMENT: once the last group has ended and the queues have drained, a recording tape is closed, a keep-0 `retire`
acts, and the team's resources are released. -/
def State.retireTeam (s : State) (t : Nat) : Option State := do
  let T ← s.team? t
  if T.gone ∨ T.place ≠ .resident ∨ T.draining = false ∨ T.drained = false ∨ T.tape.stalled.isSome then none
  else
    let s := s.modTeam t fun T => T.cancelStreams
    if T.tape.mode = .recording then
      let s := s.modTeam t fun T => { T with tape := T.tape.close, tbud := T.tbud - (T.tape.close.traffic - T.tape.traffic) }
      some (s.tapeRun t)
    else
      let s := s.monitorEvent (dieOf T.core) 2 (some T.asid) T.ibud
      let s := match T.retire with
        | some (va, sup) => s.joinRetire t T sup va T.ibud T.tbud
        | none => s
      some (s.release t)

def execTeamRetirement (team : Nat) (s : State) : Host.Outcome State Fault Refusal := occurs s (s.retireTeam team)

end Sys2Proof.Machine
end

