-- ==== Sys2Proof/Machine/System.lean ====
section
/-! DEFINITION. The system instructions (R420 to R424): key slots, invalidation of translations, the kill of an ASID, and the capture
units; their fires, their checks at commit, and what they do there. -/
namespace Sys2Proof.Machine

/-! ### Key slots -/

/-- Whether a key slot is bound (R410). -/
def State.keyBound (s : State) (k : Nat) : Bool :=
  match PMap.get? s.keys k with
  | some (.bound _ _) => true
  | _ => false

/-- R420. `keyset`: slot in a, tenant in b. -/
def execKeyset (s : State) : Host.Outcome State Fault Refusal :=
  fire s fun c => withTwo c fun a b live => Fired.ofExcept do
    let slot ← a.checked fun x =>
      if x = 0 ∨ 2 ^ 12 ≤ x.toNat ∨ s.keyBound x.toNat then .error (c.fault .badHandle) else .ok x.toNat
    let tenant ← b.checked fun y => if 2 ^ 16 ≤ y.toNat then .error (c.fault .badHandle) else .ok (y.setWidth 16 : W16)
    match slot, tenant with
    | some k, some tenant => pure (.ok s none none (if live = 0 then [] else [.keyset c.blk.slot k tenant]))
    | _, _ => pure (.ok s none none [])

/-- R421. `keydrop`: slot in a. -/
def execKeydrop (s : State) : Host.Outcome State Fault Refusal :=
  fire s fun c => withOn c fun on =>
    withUniform c .a (null := .ok s none none []) fun a x =>
      if x = 0 ∨ 2 ^ 12 ≤ x.toNat ∨ s.keyBound x.toNat = false then c.fault .badHandle
      else .ok s none none (if liveOn on [a.lanes] = 0 then [] else [.keydrop c.blk.slot x.toNat])

/-- `keyset` at commit (R420): a fresh pair of keys is drawn and the slot is bound. -/
def State.doKeyset (s : State) (k : Nat) (tenant : W16) : State :=
  { s with keys := PMap.insert s.keys k (.bound tenant (s.draws + 1)), draws := s.draws + 1 }

/-- The rows of a stack without what a key slot owns (R330). -/
def Stack.dropKey (S : Stack) (k : Nat) : Stack :=
  { S with banks := S.banks.map fun (n, R) => (n, if R.owner = k then { R.cleared with keyed := false } else R) }

/-- `keydrop` at commit (R330, R421). -/
def State.doKeydrop (s : State) (k : Nat) : State :=
  { s with keys := PMap.insert s.keys k .dropped, hbmStacks := s.hbmStacks.map fun (n, S) => (n, S.dropKey k) }

/-- The first slot of a block whose change of a key slot's state fails its check at commit, the block's own earlier changes having
been made (R420, R421). -/
def State.keyFailure (s : State) : List Effect → Option Nat
  | [] => none
  | .keyset slot k tenant :: rest =>
    if s.keyBound k then some slot else (s.doKeyset k tenant).keyFailure rest
  | .keydrop slot k :: rest => if s.keyBound k then (s.doKeydrop k).keyFailure rest else some slot
  | _ :: rest => s.keyFailure rest

/-! ### Invalidation of translations -/

/-- The fire of a `tlbinv` whose operand must give the mode (R422). -/
def fireTlbinv (s : State) (mode : Nat) : Host.Outcome State Fault Refusal :=
  fire s fun c => withOn c fun on =>
    withUniform c .a (null := .ok s none none []) fun a x =>
      if bitsOf x.toNat 58 6 ≠ 0 ∨ bitsOf x.toNat 0 2 ≠ mode then c.fault .badHandle
      else .ok s none none (if liveOn on [a.lanes] = 0 then [] else [.tlbinv c.blk.slot x])

def execTlbinvAsid (s : State) : Host.Outcome State Fault Refusal := fireTlbinv s 0
def execTlbinvVa (s : State) : Host.Outcome State Fault Refusal := fireTlbinv s 1
def execTlbinvAsidEntry (s : State) : Host.Outcome State Fault Refusal := fireTlbinv s 2
def execTlbinvAll (s : State) : Host.Outcome State Fault Refusal := fireTlbinv s 3

/-- The fields of a `tlbinv` operand: mode, ASID and address (R422). -/
structure TlbInv where
  mode : Nat
  asid : W16
  va : Nat
  deriving DecidableEq, Repr

def tlbInvOf (x : W64) : TlbInv where
  mode := bitsOf x.toNat 0 2
  asid := BitVec.ofNat 16 (bitsOf x.toNat 2 16)
  va := bitsOf x.toNat 18 40 * 2 ^ 16

/-- Whether a cached translation is removed (R422). -/
def TlbInv.removes (i : TlbInv) (e : TlbEntry) : Bool :=
  match i.mode with
  | 0 => e.asid = i.asid
  | 1 => e.asid = i.asid && decide (e.va ≤ i.va ∧ i.va < e.va + e.size)
  | 2 => false
  | _ => true

/-- Whether a cached ASID entry is removed. -/
def TlbInv.removesEntry (i : TlbInv) (asid : Nat) : Bool :=
  match i.mode with
  | 0 | 2 => asid = i.asid.toNat
  | 1 => false
  | _ => true

/-- Whether a stall on an address of an ASID walks again (R443): mode 01 covers the page that holds the address. -/
def TlbInv.covers (i : TlbInv) (s : State) (asid : W16) (va : W64) : Bool :=
  match i.mode with
  | 0 | 2 => asid = i.asid
  | 1 => asid = i.asid && (match s.walk asid va.toNat with
    | .ok e => decide (e.va ≤ i.va ∧ i.va < e.va + e.size)
    | .error _ => decide (va.toNat / 2 ^ 16 = i.va / 2 ^ 16))
  | _ => true

/-- A transfer of a team that stands on a stall goes on, but not while its record waits at the queue engine (R438, R443). -/
def State.wakeTeam (s : State) (i : TlbInv) (t : Nat) : State :=
  match s.team? t with
  | none => s
  | some T =>
    let wakes (st : Option (W64 × Nat)) : Bool :=
      match st with | some (va, _) => i.covers s T.asid va && !s.recordWaits T.handle va | none => false
    let clear (st : Option (W64 × Nat)) : Option (W64 × Nat) := if wakes st then none else st
    let s := s.modTeam t fun T =>
      { T with
        copies := T.copies.map fun x => { x with stalled := clear x.stalled }
        streams := T.streams.map fun (k, x) => (k, { x with stalled := clear x.stalled })
        matrix := T.matrix.map fun M => { M with queue := M.queue.map fun x => { x with stalled := clear x.stalled } } }
    if wakes T.tape.stalled then s.tapeRetry t else s

/-- The teams' stalls that an invalidation covers go on. -/
def State.wakeAll (s : State) (i : TlbInv) : State := (s.teams.map (·.1)).foldl (fun s t => s.wakeTeam i t) s

/-- `tlbinv` at commit (R422, R443). -/
def State.doTlbinv (s : State) (x : W64) : State :=
  let i := tlbInvOf x
  { s with
    tlb := s.tlb.filter fun e => !i.removes e
    asidCache := s.asidCache.filter fun (k, _) => !i.removesEntry k }.wakeAll i

/-- Whether a block holds a change of translations or keys and stands at its commit. -/
def Flight.invalidates (F : Flight) : Bool :=
  decide (F.hdr.count < F.slot) && F.effects.any fun e =>
    match e with
    | .tlbinv _ _ | .asidKill _ _ | .keyset _ _ _ | .keydrop _ _ => true
    | _ => false

/-- Whether a block of an ASID was translated under an entry that the invalidation removes: the page of a translation that it keeps holds the
address. -/
def TlbInv.holds (i : TlbInv) (asid : W16) (F : Flight) : Bool :=
  match i.mode with
  | 0 | 2 => asid = i.asid
  | 1 => asid = i.asid && F.pages.any fun x => decide (x.1 ≤ i.va ∧ i.va < x.1 + x.2)
  | _ => true

/-- The blocks in execution of other groups: team, group and block. -/
def State.otherBlocks (s : State) (t g : Nat) : List (Team × Flight) :=
  s.teams.flatMap fun (u, U) =>
    ((List.range U.groups.length).zip U.groups).filterMap fun (h, G) =>
      if u = t ∧ h = g then none else G.blk.map fun F => (U, F)

/-- Whether the commit of a `tlbinv` may go on (R422): no other block is translated under a removed entry. Blocks that stand at
their own commit of such a change do not hold each other. -/
def State.tlbinvReady (s : State) (t g : Nat) (x : W64) : Bool :=
  (s.otherBlocks t g).all fun (U, F) => !(tlbInvOf x).holds U.asid F || F.invalidates

/-! ### The kill of an ASID -/

/-- R423. `asid.kill`. -/
def execAsidKill (s : State) : Host.Outcome State Fault Refusal :=
  fire s fun c => withOn c fun on =>
    withUniform c .a (null := .ok s none none []) fun a x =>
      let asid : W16 := x.setWidth 16
      if 2 ^ 16 ≤ x.toNat ∨ asid = c.team.asid ∨ (s.asidEntryInTable asid).state ≠ .live then c.fault .badHandle
      else .ok s none none (if liveOn on [a.lanes] = 0 then [] else [.asidKill c.blk.slot asid])

/-- The ASID entry's state written in the table (R423). -/
def State.writeAsidState (s : State) (asid : W16) (state : Nat) : State :=
  match s.asidBase with
  | none => s
  | some base =>
    let a := base + 64 * asid.toNat
    let b := s.readNat s.rootGen a 1
    s.writeNat s.rootGen a 1 (b % 2 + state * 2 + b / 8 * 8)

/-- Whether the commit of an `asid.kill` may go on (R41, R422, R423): every block of the ASID that does not wait has committed. -/
def State.killReady (s : State) (t g : Nat) (asid : W16) : Bool :=
  (s.otherBlocks t g).all fun (U, F) => U.asid ≠ asid || F.wait.isSome

/-! ### Capture units -/

/-- The fields of a `mon.cfg` operand: unit, die and operation (R424). -/
def monUnit (x : W64) : Nat × Nat × Nat := (bitsOf x.toNat 0 6, bitsOf x.toNat 6 2, bitsOf x.toNat 8 2)

/-- The fire of a `mon.cfg` whose operand a must give the operation (R424): what b must hold depends on that operation, so b is checked
where both operands stand. -/
def fireMon (s : State) (op : Nat) (check : Ctx → W64 → Except Fired (List Nat)) (act : Nat → W64 → W64 → List Nat → Effect) :
    Host.Outcome State Fault Refusal :=
  fire s fun c => withTwo c fun a b live => Fired.ofExcept do
    let unit ← a.checked fun x => if 2 ^ 10 ≤ x.toNat ∨ (monUnit x).2.2 ≠ op then .error (c.fault .badHandle) else .ok x
    match unit, b.uniform? with
    | some x, some y =>
      let lines ← check c y
      pure (.ok s none none (if live = 0 then [] else [act c.blk.slot x y lines]))
    | _, _ => pure (.ok s none none [])

/-- R424. `mon.cfg` configure. -/
def execMonCfgConfigure (s : State) : Host.Outcome State Fault Refusal :=
  fireMon s 0 (fun c y => if 5 < bitsOf y.toNat 0 4 ∨ bitsOf y.toNat 59 5 ≠ 0 then .error (c.fault .badHandle) else .ok [])
    fun slot x y _ => .monCfg slot x y

/-- R424. `mon.cfg` stop. -/
def execMonCfgStop (s : State) : Host.Outcome State Fault Refusal :=
  fireMon s 1 (fun c y => if y ≠ 0 then .error (c.fault .badHandle) else .ok []) fun slot x y _ => .monCfg slot x y

/-- The scratchpad lines of a dump, translated for their commit (R231, R424). -/
def Ctx.dumpLines (c : Ctx) (s : State) (y : W64) : List Nat → Except Fired (List Nat)
  | [] => .ok []
  | i :: rest =>
    match c.resolve s .spad .w 64 0 (y + BitVec.ofNat 64 (64 * i)) with
    | .error f => .error (c.accessFault f)
    | .ok pa =>
      match c.dumpLines s y rest with
      | .error f => .error f
      | .ok pas => .ok (pa :: pas)

/-- R424. `mon.cfg` dump. -/
def execMonCfgDump (s : State) : Host.Outcome State Fault Refusal :=
  fireMon s 2 (fun c y => c.dumpLines s y (List.range 5)) fun slot x _ pas => .monDump slot x pas

/-- `mon.cfg` configure and stop at commit. -/
def State.doMonCfg (s : State) (x y : W64) : State :=
  let (unit, die, op) := monUnit x
  s.modDie die fun D =>
    { D with monitors := if op = 0 then PMap.insert D.monitors unit { running := true, config := y }
        else PMap.update D.monitors unit fun M => { M with running := false } }

/-- The 36 words of a dump (R424). -/
def Monitor.words (M : Monitor) : List W64 :=
  [M.min, M.max, M.events, 0] ++ (List.range 32).map fun i => PMap.getD M.bins i 0

/-- `mon.cfg` dump at commit: the words go to their lines. -/
def State.doMonDump (s : State) (x : W64) (pas : List Nat) : State :=
  let (unit, die, _) := monUnit x
  let ws := (PMap.getD (s.die die).monitors unit {}).words
  ((List.range ws.length).zip ws).foldl (fun s (i, w) => s.writeNat 0 (pas.getD (i / 8) 0 + 8 * (i % 8)) 8 w.toNat) s

/-! ### Walks -/

/-- An access of an engine or a group that a walk may serve. R409. TRANSLATION_WALK: the walk of an address completes, and its mapping
and the ASID entry stand in the caches. -/
def State.walkInto (s : State) (asid : W16) (va : W64) : Option State :=
  let entry := s.asidEntry asid
  if (s.cached asid va.toNat).isSome ∨ entry.state = .dying then none
  else
    match s.walk asid va.toNat with
    | .error _ => none
    | .ok e => some { s with tlb := s.tlb ++ [e], asidCache := PMap.insert s.asidCache asid.toNat entry }

def execTranslationWalk (asid : W16) (va : W64) (s : State) : Host.Outcome State Fault Refusal :=
  occurs s (s.walkInto asid va)

end Sys2Proof.Machine
end

