-- ==== Sys2Proof/Machine/TwillOps.lean ====
section
/-! DEFINITION. Twill operators (R300 to R319): the instructions marked T as elements run them, the fabric operators, control
tokens and fault-stall tokens, and the firing of an element context (R276, R277). -/
namespace Sys2Proof.Machine

/-! ### Instructions marked T -/

/-- The instruction of a T value as a lane operation in its 32-bit form, and none for an instruction or a form that an element
does not run (R71 to R76, R81, R104, R122). -/
def tOperator : Instr → Option LaneOp
  | .addB32 => some opAddB32
  | .addSatI32 => some opAddSatI32
  | .addSatN32 => some opAddSatN32
  | .subB32 => some opSubB32
  | .subSatI32 => some opSubSatI32
  | .subSatN32 => some opSubSatN32
  | .mulB32 => some opMulB32
  | .mulhiI32 => some opMulhiI32
  | .mulhiN32 => some opMulhiN32
  | .madB32 => some opMadB32
  | .divI32 => some opDivI32
  | .divN32 => some opDivN32
  | .remI32 => some opRemI32
  | .remN32 => some opRemN32
  | .bsel => some opBsel
  | .shl .b32 => some (opShl .b32)
  | .popc .b32 => some (opPopc .b32)
  | .clz .b32 => some (opClz .b32)
  | .brev .b32 => some (opBrev .b32)
  | .bfi .b32 => some (opBfi .b32)
  | .sel .b32 => some (opSel .b32)
  | .shr .i32 => some (opShr .i32)
  | .shr .n32 => some (opShr .n32)
  | .min .i32 => some (opMin .i32)
  | .min .n32 => some (opMin .n32)
  | .max .i32 => some (opMax .i32)
  | .max .n32 => some (opMax .n32)
  | .bfe .i32 => some (opBfe .i32)
  | .bfe .n32 => some (opBfe .n32)
  | .abs sat .b32 => some (opAbs sat .b32)
  | .bitwiseB32 op => some (opBitwiseB32 op)
  | .cmpI32 cc => some (opCmpI32 cc)
  | .cmpN32 cc => some (opCmpN32 cc)
  | .faddF32 rm => some (opFaddF32 rm)
  | .faddF16 rm => some (opFaddF16 rm)
  | .faddBf16 rm => some (opFaddBf16 rm)
  | .faddF16x2 rm => some (opFaddF16x2 rm)
  | .faddBf16x2 rm => some (opFaddBf16x2 rm)
  | .fsubF32 rm => some (opFsubF32 rm)
  | .fsubF16 rm => some (opFsubF16 rm)
  | .fsubBf16 rm => some (opFsubBf16 rm)
  | .fsubF16x2 rm => some (opFsubF16x2 rm)
  | .fsubBf16x2 rm => some (opFsubBf16x2 rm)
  | .fmulF32 rm => some (opFmulF32 rm)
  | .fmulF16 rm => some (opFmulF16 rm)
  | .fmulBf16 rm => some (opFmulBf16 rm)
  | .fmulF16x2 rm => some (opFmulF16x2 rm)
  | .fmulBf16x2 rm => some (opFmulBf16x2 rm)
  | .fmaF32 rm => some (opFmaF32 rm)
  | .fmaF16 rm => some (opFmaF16 rm)
  | .fmaBf16 rm => some (opFmaBf16 rm)
  | .fmaF16x2 rm => some (opFmaF16x2 rm)
  | .fmaBf16x2 rm => some (opFmaBf16x2 rm)
  | .fminF32 => some opFminF32
  | .fminF16 => some opFminF16
  | .fminBf16 => some opFminBf16
  | .fminF16x2 => some opFminF16x2
  | .fminBf16x2 => some opFminBf16x2
  | .fmaxF32 => some opFmaxF32
  | .fmaxF16 => some opFmaxF16
  | .fmaxBf16 => some opFmaxBf16
  | .fmaxF16x2 => some opFmaxF16x2
  | .fmaxBf16x2 => some opFmaxBf16x2
  | .fcmpF32 cc => some (opFcmpF32 cc)
  | .fclassF32 => some opFclassF32
  | .fcmpF16 cc => some (opFcmpF16 cc)
  | .fclassF16 => some opFclassF16
  | .fcmpBf16 cc => some (opFcmpBf16 cc)
  | .fclassBf16 => some opFclassBf16
  | .cvtF32F16 => some opCvtF32F16
  | .cvtF32Bf16 => some opCvtF32Bf16
  | .cvtF32E4m3 => some opCvtF32E4m3
  | .cvtF32E5m2 => some opCvtF32E5m2
  | .cvtF32E2m1 => some opCvtF32E2m1
  | .cvtF16F32 rm sat => some (opCvtF16F32 rm sat)
  | .cvtBf16F32 rm sat => some (opCvtBf16F32 rm sat)
  | .cvtE4m3F32 rm sat => some (opCvtE4m3F32 rm sat)
  | .cvtE5m2F32 rm sat => some (opCvtE5m2F32 rm sat)
  | .cvtE2m1F32 rm sat => some (opCvtE2m1F32 rm sat)
  | .cvtSrE4m3F32 sat => some (opCvtSrE4m3F32 sat)
  | .cvtSrE5m2F32 sat => some (opCvtSrE5m2F32 sat)
  | .cvtSrE2m1F32 sat => some (opCvtSrE2m1F32 sat)
  | .cvtF32I32 rm => some (opCvtF32I32 rm)
  | .cvtF32N32 rm => some (opCvtF32N32 rm)
  | .cvtI32F32 rm => some (opCvtI32F32 rm)
  | .cvtN32F32 rm => some (opCvtN32F32 rm)
  | .cvtE8m0F32 rm => some (opCvtE8m0F32 rm)
  | .cvtF32E8m0 rm => some (opCvtF32E8m0 rm)
  | .ext src .b32 => some (opExt src .b32)
  | .rcpF32 => some opRcpF32
  | .rsqF32 => some opRsqF32
  | .sqrtF32 => some opSqrtF32
  | .exp2F32 => some opExp2F32
  | .log2F32 => some opLog2F32
  | .sinpiF32 => some opSinpiF32
  | .cospiF32 => some opCospiF32
  | .frndF32 rm => some (opFrndF32 rm)
  | .ldexpF32 rm => some (opLdexpF32 rm)
  | .leaShort sc => some (opLeaShort 32 sc)
  | .permB32 => some opPermB32
  | .xlaneB32 form rot => some (opXlaneB32 form rot)
  | .vote form => some (opVote form)
  | .matchB32 => some opMatchB32
  | .gscanAdd sat n => some (opGscanAdd sat n)
  | .gscanAddF32 => some opGscanAddF32
  | .gscanMax ty => some (opGscanMax ty)
  | .gscanMin ty => some (opGscanMin ty)
  | .gredAdd sat n => some (opGredAdd sat n)
  | .gredAddF32 => some opGredAddF32
  | .gredMax ty => some (opGredMax ty)
  | .gredMin ty => some (opGredMin ty)
  | .gredBitwise op => some (opGredBitwise op)
  | .pand op => some (opPand op)
  | .mpopc => some opMpopc
  | .mffs => some opMffs
  | .bcast => some opBcast
  | .gredSexp => some opGredSexp
  | .lid => some opLid
  | .lmask rel => some (opLmask rel)
  | .moviShort _ => some (.one id)
  | .moviLong .b32 _ => some (.one id)
  | .leaLong sc _ => some ⟨true, true, true, .follows, fun x l => leaOf 32 sc ((x.cAt l).setWidth 32) (x.aAt l) (x.bAt l)⟩
  | _ => none

/-- Whether the operator draws generator values (R97). -/
def drawsValues : Instr → Bool
  | .cvtSrE4m3F32 _ | .cvtSrE5m2F32 _ | .cvtSrE2m1F32 _ => true
  | _ => false

/-- Whether the operator is a fabric operator (R306). -/
def isFabric : Instr → Bool
  | .steer _ | .merge _ | .carry | .inv | .join | .win _ | .isect | .tredSum _ | .tredMax _ | .tredSexp _ | .welt _
  | .twillFence _ | .mbarvArrive | .mbarvEot | .mbarvWait _ | .sink | .iter _ => true
  | _ => false

/-! ### Sources -/

/-- The input port that a source names. -/
def portOf : Src → Option Nat
  | .i0 => some 0 | .i1 => some 1 | .i2 => some 2 | .i3 => some 3
  | _ => none

/-- The k register that a source names. -/
def constOf : Src → Option Nat
  | .k0 => some 0 | .k1 => some 1 | .k2 => some 2
  | _ => none

/-- The input ports that an operator word names, lowest first, each once (R300). -/
def namedPorts (w : OpWord) : List Nat :=
  (List.range 4).filter fun p => [w.a, w.b, w.c, w.p].any fun x => portOf x = some p

/-- The head of an input port. -/
def headOf (x : ElemCtx) (p : Nat) : Option Carried := (PMap.getD x.bufs p []).head?

/-- A source as a token: the head of its port, or the k register in all 16 elements (R300). -/
def srcToken (x : ElemCtx) (r : Src) : Option Token :=
  match portOf r, constOf r with
  | some p, _ => (headOf x p).map (·.tok)
  | none, some k => some (dataToken (List.replicate 16 (PMap.getD x.consts k 0)) 0xFFFF 0)
  | none, none => none

/-- The elements of a token as lanes: an element that is not valid is null (R151). -/
def elementsOf (tok : Token) : Lanes :=
  (List.range 16).map fun e => if laneBit tok.valid e then some ((tok.data.getD e 0).setWidth 64) else none

/-- The lanes of a source; none for a source that names nothing. -/
def srcLanes (x : ElemCtx) (r : Src) : Lanes := match srcToken x r with | some t => elementsOf t | none => []

/-- The tag of a result token (R279). -/
def resultTag (x : ElemCtx) (w : OpWord) : W16 :=
  if w.tagsel then (PMap.getD x.consts 2 0).setWidth 16
  else
    let p := match portOf w.a with | some p => some p | none => (namedPorts w).head?
    match p.bind (headOf x) with
    | some t => t.tok.tag
    | none => 0

/-- A data token of lanes. -/
def tokenOfLanes (v : Lanes) (tag : W16) : Token :=
  dataToken ((List.range 16).map fun e => ((laneAt v e).getD 0).setWidth 32) (presentMask v) tag

/-! ### Where tokens descend from -/

/-- What descends from both (R254). -/
def lineageJoin (x y : Lineage) : Lineage :=
  y.foldl (fun m p => PMap.insert m p.1 (match PMap.get? m p.1 with
    | some q => (Nat.min q.1 p.2.1, Nat.max q.2 p.2.2)
    | none => p.2)) x

/-- Whether something descends from a tile that a source sends again (R290). -/
def lineageReaches (x : Lineage) (starts : PMap Nat) : Bool :=
  x.any fun p => match PMap.get? starts p.1 with | some t => decide (t ≤ p.2.2) | none => false

/-- The tiles at which sources restart so that everything of the given descent comes again (R290). -/
def lineageLower (starts : PMap Nat) (x : Lineage) : PMap Nat :=
  x.foldl (fun m p => match PMap.get? m p.1 with
    | some t => PMap.insert m p.1 (Nat.min t p.2.1)
    | none => m) starts

/-- Whether a lineage names a tile beyond those of another. -/
def lineageBeyond (x seen : Lineage) : Bool :=
  x.any fun p => match PMap.get? seen p.1 with | some q => decide (q.2 < p.2.2) | none => true

/-- The tiles that follow those of external sources: what a `carry` begins at an end-of-tile belongs to them (R309). -/
def lineageNext (x : Lineage) : Lineage :=
  x.filterMap fun p => if p.1 < 64 then some (p.1, (p.2.2 + 1, p.2.2 + 1)) else none

/-- A tile of a source as a lineage. -/
def lineageOf (source tile : Nat) : Lineage := [(source, (tile, tile))]

/-- What an element context keeps of a tile (R97, R290). -/
def ElemCtx.mark (x : ElemCtx) : TileMark where
  gens := x.gens
  reg := x.reg
  regOrigin := x.regOrigin
  phase := x.phase
  tileMem := x.tileMem
  masks := x.masks
  pack := x.pack
  counts := (x.n0, x.n1, x.n2)
  last := (x.lastA, x.lastB)
  flag := x.flag
  held := x.held
  arrived := x.arrived

/-- A context as it stood at a mark (R97, R290). -/
def ElemCtx.backTo (x : ElemCtx) (m : TileMark) : ElemCtx :=
  { x with
    gens := m.gens, reg := m.reg, regOrigin := m.regOrigin, phase := m.phase, tileMem := m.tileMem, masks := m.masks, pack := m.pack
    n0 := m.counts.1, n1 := m.counts.2.1, n2 := m.counts.2.2, lastA := m.last.1, lastB := m.last.2, flag := m.flag
    held := m.held, arrived := m.arrived }

/-- Whether an operator keeps nothing of a tile in progress. -/
def ElemCtx.clear (x : ElemCtx) : Bool := x.n0 == 0 && x.n1 == 0 && x.n2 == 0 && x.pack.isEmpty && !x.flag

/-! ### Circuits -/

/-- Key of a context of an element: context × 256 + row × 32 + column. -/
def elemKey (ctx row col : Nat) : Nat := 256 * ctx + 32 * row + col

/-- A circuit that leads across the region's edge (R274). -/
def isExternal (c : Nat) : Bool := decide (192 ≤ c)

/-- The receivers of a circuit that an element's output drives: input ports, or the node at the outside end (R274). -/
def Fabric.receivers (F : Fabric) (c : Nat) : List Inlet :=
  if isExternal c then [.node (c - 192)]
  else F.elems.flatMap fun (e, x) => x.ins.filterMap fun (p, b) => if b.1 = c then some (.port e p) else none

/-- The input ports that an incoming circuit leads to. -/
def Fabric.inside (F : Fabric) (i : Nat) : List Inlet :=
  F.elems.flatMap fun (e, x) => x.ins.filterMap fun (p, b) => if b.1 = 192 + i then some (.port e p) else none

/-- The slots of a node's buffer of an outgoing circuit: the manual gives none, and the model takes four. -/
def nodeSlots : Nat := 4

/-- Whether a receiver has a free slot, those of tokens on their way being taken (R275). -/
def Fabric.hasSlot (F : Fabric) (i : Inlet) : Bool :=
  let coming := (F.flying.filter fun f => f.inlet = i).length
  match i with
  | .port e p =>
    (match PMap.get? F.elems e with
      | some x => decide ((PMap.getD x.bufs p []).length + coming < (PMap.getD x.ins p (0, 0)).2)
      | none => false)
  | .node c =>
    (match PMap.get? F.nodes c with
      | some n => decide (n.buf.length + coming < nodeSlots)
      | none => false)

/-- Whether every receiver of an output port's circuit has a free slot (R276). -/
def Fabric.canSend (F : Fabric) (x : ElemCtx) (o : Nat) : Bool :=
  match PMap.get? x.outs o with
  | some c => (F.receivers c).all F.hasSlot
  | none => true

/-- A token set on its way to receivers of a circuit. -/
def Fabric.put (F : Fabric) (circuit ctx : Nat) (inlets : List Inlet) (item : Carried) : Fabric :=
  let tok := { item.tok with chan := BitVec.ofNat 8 circuit, ctx := BitVec.ofNat 2 (F.slots.getD ctx 0) }
  let item := { item with tok := tok, anc := if F.fenced then item.anc else [] }
  { F with flying := F.flying ++ inlets.map fun i => ⟨item, circuit, i⟩, nextId := Nat.max F.nextId (item.id + 1) }

/-- A token sent by an element on an output port. -/
def Fabric.sendOn (F : Fabric) (e : Nat) (x : ElemCtx) (o : Nat) (item : Carried) : Fabric :=
  match PMap.get? x.outs o with
  | some c => F.put c (e / 256) (F.receivers c) item
  | none => F

/-- The tokens of a firing sent: one that goes to both outputs is the same token on either (R301, R315). -/
def Fabric.sendAll (F : Fabric) (e : Nat) (x : ElemCtx) (origin : Lineage) (anc : List Nat) (send : List (Nat × Token)) : Fabric :=
  let first := F.nextId
  send.foldl (fun G m => G.sendOn e x m.1 ⟨m.2, origin, first + send.findIdx (·.2 == m.2), anc⟩) F

/-- The port that leads to a circuit driven by o0 of a `carry` (R304). -/
def Fabric.carriedPort (F : Fabric) (x : ElemCtx) (p : Nat) : Bool :=
  match PMap.get? x.ins p with
  | none => false
  | some b => F.elems.any fun (_, y) => (match y.op with | some (.carry, _) => true | _ => false) && PMap.get? y.outs 0 = some b.1

/-! ### Firings -/

/-- A firing of an element (R276): the ports whose heads it consumes, the tokens it sends, the output ports whose receivers need a
slot, the context after it, an arrival on an mbar word, and whether it charges. -/
structure Firing where
  take : List Nat
  send : List (Nat × Token)
  needs : List Nat
  after : ElemCtx
  arrive : Option Phys := none
  charge : Bool := true
  deriving DecidableEq, Repr

/-- What an element's operator comes to: it is not enabled, it fires, or the tile ends with a fault. -/
inductive Attempt where
  | idle
  | fires (f : Firing)
  | bad (code : FaultCode) (detail : Nat) (addr : W64)
  deriving DecidableEq, Repr

/-- An element context that acts: where it is, its fabric and its operator. -/
structure Elem where
  stack : Nat
  slot : Nat
  key : Nat
  res : Residency
  fab : Fabric
  x : ElemCtx
  op : Instr
  w : OpWord

/-- An element context that runs an operator. -/
def State.elem? (s : State) (stack slot e : Nat) : Option Elem := do
  let R ← s.residency? stack slot
  let F ← R.fab
  let x ← PMap.get? F.elems e
  let (op, w) ← x.op
  if R.state = .running ∧ F.started ∧ x.passed = false then
    some { stack := stack, slot := slot, key := e, res := R, fab := F, x := x, op := op, w := w }
  else none

/-- Whether an attempt can go on: its receivers have free slots, and the budget has a firing left or the residency drains (R276,
R391). -/
def Elem.enabled (E : Elem) (a : Attempt) : Bool :=
  match a with
  | .idle => false
  | .bad _ _ _ => true
  | .fires f => f.needs.all (E.fab.canSend E.x) && (!f.charge || decide (0 < E.res.fbud) || E.res.drain.isSome)

/-- Heads of the named ports. -/
def Elem.heads (E : Elem) : List (Nat × Option Carried) := (namedPorts E.w).map fun p => (p, headOf E.x p)

/-- Every named port holds a data token (R304). -/
def Elem.allData (E : Elem) : Bool :=
  E.heads.all fun h => match h.2 with | some t => t.tok.kind == .data | none => false

/-- A firing that consumes every named head and sends the tokens on the output ports that the operator word names. -/
def Elem.fireAll (E : Elem) (send : List (Nat × Token)) (after : ElemCtx) : Attempt :=
  let send := send.filter fun m => if m.1 = 0 then E.w.o0 else E.w.o1
  .fires { take := namedPorts E.w, send := send, needs := send.map (·.1), after := after }

/-- The same token on o0 and on o1. -/
def both (tok : Token) : List (Nat × Token) := [(0, tok), (1, tok)]

/-- Kinds that R304 treats as control tokens. -/
def isControl (k : TokKind) : Bool := k == .endOfTile || k == .endOfStream || k == .endOfStreamError

/-- The control token that R304 sends for consumed ones, by port: none where both kinds of end meet. -/
def controlSent (plain : List (Nat × Token)) : Option Token :=
  match plain.find? fun t => t.2.kind = .endOfStreamError with
  | some t => some t.2
  | none =>
    match plain with
    | [] => none
    | t :: rest => if rest.all fun u => u.2.kind = t.2.kind then some t.2 else none

/-- Whether a token counts at the head of a carried port in a control firing: a fault-stall token has its own way (R304, R305). -/
def heldAt (x : ElemCtx) (p : Nat) : Bool := match headOf x p with | some t => t.tok.kind != .faultStall | none => false

/-- The rule of R304 for tokens that are not data, over some of the named ports; `after` is what the firing leaves of the context
by the kind of token that it sends. -/
def Elem.control (E : Elem) (ports : List Nat) (after : TokKind → ElemCtx) : Attempt :=
  let plain := ports.filter fun p => !E.fab.carriedPort E.x p
  let kinds := plain.map fun p => (headOf E.x p).map (·.tok.kind)
  let some_ := kinds.any fun k => match k with | some k => isControl k | none => false
  if some_ = false then .idle
  else if kinds.contains (some .data) then .bad .badHandle 0 0
  else if (kinds.all fun k => match k with | some k => isControl k | none => false) = false
      ∨ (ports.all (heldAt E.x)) = false then .idle
  else
    match controlSent (plain.filterMap fun p => (headOf E.x p).map fun t => (p, t.tok)) with
    | none => .bad .badHandle 0 0
    | some tok =>
      let outs := E.x.outs.map (·.1)
      .fires { take := ports, send := outs.map fun o => (o, tok), needs := outs, after := after tok.kind }

/-! ### T operators -/

/-- Where the guard of an operator word holds (R279, R300). -/
def Elem.guarded (E : Elem) : W16 :=
  if E.w.p = .none then 0xFFFF
  else maskOf fun e => guardHolds (if E.w.sense then .unless else .when) (laneAt (srcLanes E.x E.w.p) e)

/-- The operands of a T operator. -/
def Elem.laneIn (E : Elem) (gens : PMap W32) : LaneIn where
  view := { dead := 0, content := [] }
  on := E.guarded
  a := srcLanes E.x E.w.a
  b := if E.op = .permB32 then
      List.replicate 16 (some (((PMap.getD E.x.consts 1 0).setWidth 64 <<< 32) ||| (PMap.getD E.x.consts 0 0).setWidth 64))
    else srcLanes E.x E.w.b
  c := srcLanes E.x E.w.c
  draw l := PMap.getD gens l 0

/-- `gred.sexp` in an element (R151): the tree over the eight pairs. -/
def pairsReduced (x : LaneIn) : Lanes :=
  let v := x.contributing
  let leaf (i : Nat) : W64 := match laneAt v (2 * i), laneAt v (2 * i + 1) with
    | some m, some n => m ||| (n <<< 32)
    | _, _ => sexpIdentity
  let r := treeRoot sexpOf sexpIdentity 3 ((List.range 8).map leaf)
  (List.range 16).map fun e => if e = 0 then some (r &&& 0xFFFFFFFF) else if e = 1 then some (r >>> 32) else none

/-- The result of a T operator (R301): a uniform result fills every element. -/
def LaneOp.elements (op : LaneOp) (i : Instr) (x : LaneIn) : Lanes :=
  if i = .gredSexp then pairsReduced x
  else match op.shape with
    | .uniform => List.replicate 16 (some (op.lane x 0))
    | _ => op.result x

/-- The data firing of a T operator (R300 to R303). -/
def Elem.tFire (E : Elem) : Attempt :=
  if E.allData = false then .idle
  else
    let tag := resultTag E.x E.w
    match E.op with
    | .bpenc =>
      match srcToken E.x E.w.a with
      | none => .idle
      | some a =>
        let (t0, mask) := planesOf (laneWords (maskLanes E.guarded (elementsOf a)))
        let valid := a.valid &&& E.guarded
        let m : Token := dataToken (mask :: valid.setWidth 32 :: List.replicate 14 0) 0x0003 tag
        E.fireAll [(0, dataToken t0 valid tag), (1, m)] E.x
    | .bpdec =>
      match srcToken E.x E.w.a with
      | none => .idle
      | some a => E.fireAll (both (dataToken (planesBack (laneWords (maskLanes E.guarded (elementsOf a)))) (a.valid &&& E.guarded) tag)) E.x
    | i =>
      match tOperator i with
      | none => .idle
      | some op =>
        let gens := if drawsValues i then E.x.gens.map fun (l, g) => (l, genStep g) else E.x.gens
        E.fireAll (both (tokenOfLanes (op.elements i (E.laneIn gens)) tag)) { E.x with gens := gens }

/-! ### Fabric operators -/

/-- Bit 0 of an element. -/
def decides (tok : Token) (e : Nat) : Bool := (tok.data.getD e 0).getLsbD 0

/-- R307. `steer`. -/
def Elem.steer (E : Elem) (drop : Bool) : Attempt :=
  match srcToken E.x E.w.a, srcToken E.x E.w.b with
  | some a, some b =>
    if E.allData = false then .idle
    else
      let side (want : Bool) : Token :=
        { a with valid := maskOf fun e => laneBit a.valid e && laneBit b.valid e && (decides b e == want) }
      let send := [(0, side false), (1, side true)].filter fun m => !drop || m.2.valid ≠ 0
      .fires { take := namedPorts E.w, send := send, needs := [0, 1], after := E.x }
  | _, _ => .idle

/-- R308. `merge` in lane mode. -/
def Elem.mergeLanes (E : Elem) : Attempt :=
  match srcToken E.x E.w.a, srcToken E.x E.w.b, srcToken E.x E.w.c with
  | some a, some b, some c =>
    if E.allData = false then .idle
    else
      let pick (e : Nat) : Token := if decides c e then b else a
      let data := (List.range 16).map fun e => (pick e).data.getD e 0
      let valid := maskOf fun e => laneBit c.valid e && laneBit (pick e).valid e
      E.fireAll (both (dataToken data valid (resultTag E.x { E.w with tagsel := false }))) E.x
  | _, _, _ => .idle

/-- R308. `merge.sel`: the choice, and the head that it sends on. -/
def Elem.mergeSelect (E : Elem) : Attempt :=
  match srcToken E.x E.w.c with
  | none => .idle
  | some c =>
    if c.kind ≠ .data then .idle
    else
      let src := if laneBit c.valid 0 && decides c 0 then E.w.b else E.w.a
      match srcToken E.x src with
      | none => .idle
      | some t =>
        if t.kind ≠ .data ∧ isControl t.kind = false then .idle
        else
          match E.fireAll (both t) E.x with
          | .fires f => .fires { f with take := f.take.filter fun p => portOf E.w.c = some p || portOf src = some p }
          | r => r

/-- Whether a source is a carried port (R304). -/
def Elem.carried (E : Elem) (r : Src) : Bool := (portOf r).any (E.fab.carriedPort E.x)

/-- R308. `merge.sel` with a control token at c: b is not consulted, but for a carried one, whose head is discarded (R319). -/
def Elem.mergeControl (E : Elem) : Attempt :=
  match srcToken E.x E.w.c with
  | some c =>
    if isControl c.kind then
      E.control ((List.range 4).filter fun p =>
        portOf E.w.c = some p || portOf E.w.a = some p || (portOf E.w.b = some p && E.carried E.w.b)) fun _ => E.x
    else .idle
  | none => .idle

/-- The initial token of a `carry` (R309). -/
def initialToken (x : ElemCtx) (w : OpWord) : Token :=
  dataToken (List.replicate 16 (match constOf w.a with | some k => PMap.getD x.consts k 0 | none => 0)) 0xFFFF 0

/-- R309. `carry`. -/
def Elem.carry (E : Elem) : Attempt :=
  match srcToken E.x E.w.b with
  | some t => if t.kind = .data then E.fireAll [(0, t)] { E.x with reg := some t } else .idle
  | none => .idle

def Elem.carryControl (E : Elem) : Attempt :=
  match srcToken E.x E.w.b with
  | some t =>
    if t.kind = .endOfTile then E.fireAll [(0, initialToken E.x E.w)] { E.x with reg := some (initialToken E.x E.w) }
    else if isControl t.kind then E.fireAll [] { E.x with reg := none }
    else .idle
  | none => .idle

/-- R310. `inv`. -/
def Elem.inv (E : Elem) : Attempt :=
  match srcToken E.x E.w.a, srcToken E.x E.w.b with
  | some a, some b =>
    if b.kind ≠ .data then .idle
    else if isControl a.kind then (if E.carried E.w.b then .idle else .bad .badHandle 0 0)
    else if a.kind ≠ .data then .idle
    else
      match E.fireAll (both { a with tag := b.tag }) E.x with
      | .fires f => .fires { f with take := f.take.filter fun p => portOf E.w.b = some p }
      | r => r
  | _, _ => .idle

/-- R310. `inv` with a control token: that of b is sent, whatever a holds; a carried b is discarded with a control token at a
(R319). -/
def Elem.invControl (E : Elem) : Attempt :=
  if E.carried E.w.b then E.control (namedPorts E.w) fun _ => E.x
  else
    match srcToken E.x E.w.a, srcToken E.x E.w.b with
    | some a, some b =>
      if isControl b.kind = false ∨ (a.kind ≠ .data ∧ isControl a.kind = false) then .idle
      else
        let outs := E.x.outs.map (·.1)
        .fires { take := namedPorts E.w, send := outs.map fun o => (o, b), needs := outs, after := E.x }
    | _, _ => .idle

/-- The oldest pairs of the buffer of `join` or `isect` sent as dense tokens, 16 or all that there are (R311, R313). -/
def Elem.emit (E : Elem) (count : Nat) : Attempt :=
  let ps := E.x.pack.take 16
  let tok (f : W32 × W32 → W32) : Token :=
    dataToken (padWords (ps.map f)) (maskOf fun e => decide (e < ps.length)) (BitVec.ofNat 16 count)
  .fires { take := [], send := [(0, tok (·.1)), (1, tok (·.2))], needs := [0, 1], after := { E.x with pack := E.x.pack.drop 16 } }

/-- The valid elements of a token with their indices (R311). -/
def indexed (tok : Token) (second : Bool) : List (W32 × W32) :=
  (lanesOf tok.valid).map fun e =>
    (tok.data.getD e 0, BitVec.ofNat 32 (16 * tok.tag.toNat + e) ||| (if second then 0x80000000 else 0))

/-- A full emitting firing where its receivers have room, and otherwise a consuming one while the buffer holds at most so many: the
emitting firing goes first (R311, R313). -/
def Elem.emitOr (E : Elem) (most : Nat) (emit consume : Attempt) : Attempt :=
  if 16 ≤ E.x.pack.length ∧ E.enabled emit then emit
  else if E.x.pack.length ≤ most then consume else .idle

/-- R311. An emitting firing of `join`: n0 numbers the dense tokens of the tile. -/
def Elem.joinEmit (E : Elem) : Attempt :=
  match E.emit E.x.n0 with
  | .fires f => .fires { f with after := { f.after with n0 := E.x.n0 + 1 } }
  | r => r

/-- R311. `join`. -/
def Elem.join (E : Elem) : Attempt :=
  E.emitOr 16 E.joinEmit <|
  if E.allData = false then .idle
  else
    match srcToken E.x E.w.a with
    | none => .idle
    | some a =>
      let more := match srcToken E.x E.w.b with | some b => indexed b true | none => []
      E.fireAll [] { E.x with pack := E.x.pack ++ indexed a false ++ more }

def Elem.joinControl (E : Elem) : Attempt :=
  match E.control (namedPorts E.w) (fun _ => { E.x with n0 := 0 }) with
  | .fires f =>
    if E.x.pack = [] then .fires f else E.joinEmit
  | r => r

/-- A word of an element's tile memory whose reading meets an uncorrectable error (R446). -/
def State.tileSpoiled (s : State) (E : Elem) (first n : Nat) : Bool :=
  s.poison.any fun p => match p with
    | .tile st sl e word => st = E.stack && sl = E.slot && e = E.key && decide (first ≤ word ∧ word < first + n)
    | _ => false

/-- R312. `win`: n0 counts the tokens that the tile has consumed, n1 the emitting firings for the present one. -/
def Elem.win (E : Elem) (s : State) (k : WinKind) : Attempt :=
  match srcToken E.x E.w.a with
  | none => .idle
  | some t =>
    if t.kind ≠ .data then .idle
    else
      let n := k.n.toNat + 1
      let d := k.d.toNat + 1
      let rows := k.k.toNat * d
      let y := E.x.n0 / n
      let col := E.x.n0 % n
      let place (row : Nat) : Nat := row % rows * n + col
      let store (x : ElemCtx) : ElemCtx :=
        if rows = 0 then { x with n0 := x.n0 + 1, n1 := 0 }
        else
          { x with
            n0 := x.n0 + 1, n1 := 0
            masks := PMap.set x.masks 0 (place y) t.valid
            tileMem := (List.range 16).foldl (fun m e => PMap.set m 0 (16 * place y + e) (t.data.getD e 0)) x.tileMem }
      if y < rows ∨ (y - rows) % (k.s.toNat + 1) ≠ 0 then E.fireAll [] (store E.x)
      else
        let j := E.x.n1
        let row := y - rows + j * d
        let tag := (t.tag &&& 0x1FFF) ||| BitVec.ofNat 16 (j * 2 ^ 13)
        if j = k.k.toNat then E.fireAll (both { t with tag := tag }) (store E.x)
        else if s.tileSpoiled E (16 * place row) 16 then .bad .memData 4 0
        else
          let data := (List.range 16).map fun e => PMap.getD E.x.tileMem (16 * place row + e) 0
          match E.fireAll (both (dataToken data (PMap.getD E.x.masks (place row) 0) tag)) { E.x with n1 := j + 1 } with
          | .fires f => .fires { f with take := [] }
          | r => r

/-- The context of `win` with its delay lines cleared (R312). -/
def clearedWin (x : ElemCtx) : ElemCtx := { x with tileMem := [], masks := [], n0 := 0, n1 := 0 }

/-- The coordinates of a token, each above the one before it, or none (R313). -/
def rising : Option W32 → List W32 → Bool
  | _, [] => true
  | none, x :: rest => rising (some x) rest
  | some p, x :: rest => decide (p.toNat < x.toNat) && rising (some x) rest

/-- The position of a coordinate in fibre B (R313). -/
def positionOf (m : PMap W32) (n : Nat) (x : W32) : Option Nat := (List.range n).find? fun i => PMap.getD m i 0 = x

/-- The pairs that coordinates of A make from a position on (R313). -/
def matchesOf (m : PMap W32) (n : Nat) : Nat → List W32 → List (W32 × W32)
  | _, [] => []
  | i, x :: rest =>
    (match positionOf m n x with
      | some j => [(BitVec.ofNat 32 i, BitVec.ofNat 32 j)]
      | none => []) ++ matchesOf m n (i + 1) rest

/-- The valid elements of a token in ascending order. -/
def validWords (tok : Token) : List W32 := (lanesOf tok.valid).map fun e => tok.data.getD e 0

/-- The firing of one port alone. -/
def Elem.takeOne (_ : Elem) (src : Src) (send : List (Nat × Token)) (after : ElemCtx) : Attempt :=
  .fires { take := (portOf src).toList, send := send, needs := send.map (·.1), after := after }

/-- R313. An emitting firing of `isect`: n2 numbers the tokens of the tile. -/
def Elem.isectEmit (E : Elem) : Attempt :=
  match E.emit E.x.n2 with
  | .fires f => .fires { f with after := { f.after with n2 := E.x.n2 + 1 } }
  | r => r

/-- Coordinates of fibre B that the window holds beside the match buffer of 48 pairs of two words (R313). -/
def fibreRoom (w : OpWord) : Nat := 256 * w.tsize.toNat - 96

/-- R313. `isect`: fibre B first, then the tokens of A against it; a full set of pairs goes first. -/
def Elem.isect (E : Elem) (s : State) : Attempt :=
  let x := E.x
  E.emitOr 32 E.isectEmit <|
  if x.flag = false then
    match srcToken x E.w.b with
    | none => .idle
    | some t =>
      if t.kind ≠ .data then .idle
      else
        let ws := validWords t
        if rising x.lastB ws = false ∨ fibreRoom E.w < x.n0 + ws.length then .bad .badHandle 0 0
        else
          let put (m : PMap W32) (p : Nat × W32) : PMap W32 := PMap.set m 0 (x.n0 + p.1) p.2
          E.takeOne E.w.b [] { x with
            n0 := x.n0 + ws.length, lastB := match ws.getLast? with | some w => some w | none => x.lastB
            tileMem := ((List.range ws.length).zip ws).foldl put x.tileMem }
  else
    match srcToken x E.w.a with
    | none => .idle
    | some t =>
      if t.kind ≠ .data then .idle
      else
        let ws := validWords t
        if rising x.lastA ws = false then .bad .badHandle 0 0
        else if s.tileSpoiled E 0 x.n0 then .bad .memData 4 0
        else
          E.takeOne E.w.a [] { x with
            n1 := x.n1 + ws.length, lastA := match ws.getLast? with | some w => some w | none => x.lastA
            pack := x.pack ++ matchesOf x.tileMem x.n0 x.n1 ws }

/-- The context of `isect` at the start of a tile. -/
def clearedIsect (x : ElemCtx) : ElemCtx :=
  { x with tileMem := [], n0 := 0, n1 := 0, n2 := 0, lastA := none, lastB := none, flag := false }

/-- A control token at A once fibre B is whole (R313): the pairs that are left go first. -/
def Elem.isectEnd (E : Elem) (a : Option Token) : Attempt :=
  match a with
  | none => .idle
  | some t =>
    if isControl t.kind = false then .idle
    else if E.x.pack ≠ [] then E.isectEmit
    else if t.kind = .endOfStream then .bad .badHandle 0 0
    else E.takeOne E.w.a [(0, t), (1, t)] (clearedIsect E.x)

/-- R313. The ends of the fibres: that of B opens the tile's tokens of A, that of A ends the tile. A carried head at a is discarded with
the control token at b (R304, R319). -/
def Elem.isectControl (E : Elem) : Attempt :=
  let x := E.x
  match srcToken x E.w.a, srcToken x E.w.b with
  | a, some b =>
    if x.flag = false ∧ isControl b.kind then
      if E.carried E.w.a then
        if b.kind ≠ .endOfTile then E.control (namedPorts E.w) fun _ => clearedIsect x
        else if a.isNone then .idle
        else .fires { take := namedPorts E.w, send := [], needs := [], after := { x with flag := true } }
      else if b.kind = .endOfTile then E.takeOne E.w.b [] { x with flag := true }
      else match a with
        | none => .idle
        | some t =>
          if t.kind = .data ∨ t.kind = .endOfTile then .bad .badHandle 0 0
          else if isControl t.kind then E.control (namedPorts E.w) fun _ => clearedIsect x
          else .idle
    else if x.flag = false then .idle
    else E.isectEnd a
  | a, none => if x.flag then E.isectEnd a else .idle

/-- R314. `tred` over single elements: the operator and its identity. -/
def Elem.tredOne (E : Elem) (elt : Bool) (op : W64 → W64 → W64) (unit : W64) : Attempt :=
  if E.allData = false then .idle
  else
    let a := srcLanes E.x .i0
    let b := srcLanes E.x .i1
    let leaf (v : Lanes) (e : Nat) : W64 := (laneAt v e).getD unit
    let v : Lanes :=
      if elt then (List.range 16).map fun e =>
        if (laneAt a e).isSome || (laneAt b e).isSome then some (op (leaf a e) (leaf b e)) else none
      else
        let root (v : Lanes) : W64 := treeRoot op unit 4 ((List.range 16).map (leaf v))
        [some (op (root a) (root b))]
    E.fireAll (both (tokenOfLanes v (resultTag E.x { E.w with tagsel := false }))) E.x

/-- R314. `tred.sexp` over pairs of elements. -/
def Elem.tredPairs (E : Elem) (elt : Bool) : Attempt :=
  if E.allData = false then .idle
  else
    let pair (r : Src) (i : Nat) : Option W64 :=
      let v := srcLanes E.x r
      match laneAt v (2 * i), laneAt v (2 * i + 1) with
      | some m, some n => some (m ||| (n <<< 32))
      | _, _ => none
    let leaf (r : Src) (i : Nat) : W64 := (pair r i).getD sexpIdentity
    let split (x : Option W64) : List (Option W64) :=
      match x with | some v => [some (v &&& 0xFFFFFFFF), some (v >>> 32)] | none => [none, none]
    let v : Lanes :=
      if elt then (List.range 8).flatMap fun i =>
        split (if (pair .i0 i).isSome || (pair .i1 i).isSome then some (sexpOf (leaf .i0 i) (leaf .i1 i)) else none)
      else
        let root (r : Src) : W64 := treeRoot sexpOf sexpIdentity 3 ((List.range 8).map (leaf r))
        split (some (sexpOf (root .i0) (root .i1)))
    E.fireAll (both (tokenOfLanes v (resultTag E.x { E.w with tagsel := false }))) E.x

/-- Whether a circuit ends at a memory node (R225). -/
def Fabric.memoryNode (F : Fabric) (i : Nat) : Bool := match PMap.get? F.nodes i with | some n => n.role != .link | none => false

/-- The tokens that memory nodes of the fabric still have work on: on their way to a node, in its buffer, or held for a tile that has
not been performed (R225). -/
def Fabric.atNodes (F : Fabric) : List Nat :=
  (F.flying.filterMap fun f => match f.inlet with | .node i => if F.memoryNode i then some f.item.id else none | _ => none)
    ++ F.nodes.flatMap fun (i, n) => if F.memoryNode i then n.buf.map (·.id) ++ n.pendIds else []

/-- A token at the head of a port passes unchanged (R315). -/
def Elem.pass (E : Elem) (ok : TokKind → Bool) : Attempt :=
  match srcToken E.x E.w.a with
  | some t =>
    if ok t.kind then E.fireAll (both t) E.x else .idle
  | none => .idle

/-- Whether a `fence` lets its head token pass: no memory node holds a token from which it descends (R225, R315). -/
def Elem.fenceOpen (E : Elem) : Bool :=
  match (portOf E.w.a).bind (headOf E.x) with
  | some t =>
    let busy := E.fab.atNodes
    !((t.id :: t.anc).any fun i => busy.contains i)
  | none => false

/-- The address of an mbar word (R316). -/
def Elem.mbarWord (E : Elem) : W64 :=
  let k (r : Src) : Nat := match constOf r with | some n => (PMap.getD E.x.consts n 0).toNat | none => 0
  BitVec.ofNat 64 (bitsOf (k E.w.c) 0 24 * 2 ^ 32 + k E.w.b)

/-- The mbar word's place (R316). -/
def Elem.mbarPlace (E : Elem) (s : State) (need : Perm) : Except XlatFault Phys :=
  s.translate E.res.asid E.res.sup need Window.isJoin E.mbarWord

/-- Whether every store of the tiles that have ended is performed (R316). -/
def Fabric.storesDone (F : Fabric) : Bool := F.nodes.all fun (_, n) => !n.tileDue

/-- The head token passes with an arrival on the mbar word (R316). -/
def Elem.arriveAndPass (E : Elem) (s : State) (kind : TokKind) : Attempt :=
  match srcToken E.x E.w.a with
  | some t =>
    if t.kind ≠ kind ∨ E.fab.storesDone = false then .idle
    else match E.mbarPlace s .rw with
      | .error f => .bad f.code f.level E.mbarWord
      | .ok p =>
        if s.spoiled p.pa 8 then .bad .memData (if (windowOf p.pa).isScratchpad then 1 else 0) E.mbarWord
        else
          match E.fireAll (both t) E.x with
          | .fires f => .fires { f with arrive := some p, after := { f.after with arrived := f.after.arrived + 1 } }
          | r => r
  | none => .idle

/-- R316. `mbarv.wait`: the trigger passes once the word's phase differs from the one kept. -/
def Elem.mbarvWait (E : Elem) (s : State) : Attempt :=
  match srcToken E.x E.w.a with
  | some t =>
    if t.kind ≠ .data then .idle
    else match E.mbarPlace s .r with
      | .error f => .bad f.code f.level E.mbarWord
      | .ok p =>
        if s.spoiled p.pa 8 then .bad .memData (if (windowOf p.pa).isScratchpad then 1 else 0) E.mbarWord
        else
          let w := s.readNat p.gen p.pa 8
          let phase : W8 := BitVec.ofNat 8 (bitsOf w 48 8)
          if bitsOf w 63 1 = 0 then .bad .badHandle 0 0
          else if phase = E.x.phase then .idle
          else E.fireAll (both t) { E.x with phase := phase }
  | none => .idle

/-- R317. `sink` takes one token from every named port, of the kinds that the test lets pass. -/
def Elem.sink (E : Elem) (data : Bool) : Attempt :=
  let ok (h : Nat × Option Carried) : Bool := match h.2 with
    | some t => t.tok.kind == .data || isControl t.tok.kind
    | none => false
  if E.heads.all ok ∧ E.allData = data then E.fireAll [] E.x else .idle

/-- R318. `iter`: the next token of the sequence; n0 counts the tokens that it has sent. -/
def Elem.iter (E : Elem) (c : BitVec 3) : Attempt :=
  let triggered := E.w.a ≠ .none
  let last := PMap.getD E.fab.counters (64 * (E.key / 256) + 8 * (E.key % 256 / 32) + c.toNat) 0
  let tokens := last / 16 + 1
  let ready := if triggered then (match srcToken E.x E.w.a with | some t => t.kind == .data | none => false) else !E.x.flag
  if ready = false then .idle
  else if E.x.n0 < tokens then
    let t := E.x.n0
    let data := (List.range 16).map fun e => BitVec.ofNat 32 (16 * t + e)
    let tok := dataToken data (maskOf fun e => decide (16 * t + e ≤ last)) (BitVec.ofNat 16 t)
    .fires { take := [], send := [(0, tok), (1, tok)].filter fun m => if m.1 = 0 then E.w.o0 else E.w.o1
             needs := [0, 1], after := { E.x with n0 := t + 1 } }
  else .idle

/-- R318. The end-of-tile token that ends the sequence of an `iter`, the end-of-stream after the one sequence of an `iter` without a
trigger, and control tokens at the trigger, which are sent on. -/
def Elem.iterControl (E : Elem) (c : BitVec 3) : Attempt :=
  let last := PMap.getD E.fab.counters (64 * (E.key / 256) + 8 * (E.key % 256 / 32) + c.toNat) 0
  let tokens := last / 16 + 1
  let outs := E.x.outs.map (·.1)
  let eot := controlToken .endOfTile [BitVec.ofNat 32 last] 0
  let send (tok : Token) (take : List Nat) (after : ElemCtx) : Attempt :=
    .fires { take := take, send := outs.map fun o => (o, tok), needs := outs, after := after }
  if E.w.a = .none then
    if E.x.flag then .idle
    else if E.x.n0 = tokens then send eot [] { E.x with n0 := tokens + 1 }
    else if E.x.n0 = tokens + 1 then send (controlToken .endOfStream [] 0) [] { E.x with flag := true }
    else .idle
  else match srcToken E.x E.w.a with
    | some t =>
      if t.kind = .data ∧ E.x.n0 = tokens then send eot (namedPorts E.w) { E.x with n0 := 0 }
      else if t.kind ≠ .data then E.control (namedPorts E.w) fun _ => E.x
      else .idle
    | none => .idle

/-! ### Firing -/

/-- The data firing of an element's operator (R276). -/
def Elem.data (E : Elem) (s : State) : Attempt :=
  match E.op with
  | .steer drop => E.steer drop
  | .merge false => E.mergeLanes
  | .merge true => E.mergeSelect
  | .carry => E.carry
  | .inv => E.inv
  | .join => E.join
  | .win k => E.win s k
  | .isect => E.isect s
  | .tredSum elt => E.tredOne elt (faddOf tyF32 .rne) 0x80000000
  | .tredMax elt => E.tredOne elt (fmaxOf tyF32) 0x7FC00000
  | .tredSexp elt => E.tredPairs elt
  | .welt _ => E.pass fun k => k == .data
  | .twillFence _ => if E.fenceOpen then E.pass fun k => k == .data else .idle
  | .mbarvArrive => E.arriveAndPass s .data
  | .mbarvEot => E.pass fun k => k == .data
  | .mbarvWait _ => E.mbarvWait s
  | .sink => E.sink true
  | .iter c => E.iter c
  | _ => E.tFire

/-- The firing of an element's operator on control tokens (R304). -/
def Elem.ctl (E : Elem) (s : State) : Attempt :=
  let all := namedPorts E.w
  match E.op with
  | .merge true => E.mergeControl
  | .carry => E.carryControl
  | .inv => E.invControl
  | .join => E.joinControl
  | .win _ => E.control all fun k => if k = .endOfTile then clearedWin E.x else E.x
  | .isect => E.isectControl
  | .welt _ => E.pass isControl
  | .twillFence _ => if E.fenceOpen then E.pass isControl else .idle
  | .mbarvEot =>
    (match E.arriveAndPass s .endOfTile with
      | .idle => E.pass fun k => isControl k && k != .endOfTile
      | r => r)
  | .sink => E.sink false
  | .iter c => E.iterControl c
  | _ => E.control all fun _ => E.x

/-- A fault-stall token at the head of a named port is consumed and sent on every circuit that the element drives; it charges nothing
(R305). -/
def Elem.stall (E : Elem) : Attempt :=
  match E.heads.find? fun h => match h.2 with | some t => t.tok.kind == .faultStall | none => false with
  | some (p, some t) =>
    let outs := E.x.outs.map (·.1)
    .fires { take := [p], send := outs.map fun o => (o, t.tok), needs := outs, after := E.x, charge := false }
  | _ => .idle

end Sys2Proof.Machine
end

