-- ==== Sys2Proof/Machine/TwillCfg.lean ====
section
/-! DEFINITION. Configuration images (R278 to R288): fetch through the configuration cache, layout, the loader's checks and the fabric
that an image describes; the residency instructions `cfg.launch`, `cfg.bind`, `cfg.signal` and `cfg.evict` (R293 to R298). -/
namespace Sys2Proof.Machine

/-! ### Fetching an image -/

/-- A line of an image through the configuration cache (R285): a cached line that memory still holds is used as it stands, and any
other is fetched; an uncorrectable error in either raises MEM_DATA (R446). -/
def State.cacheLine (s : State) (stack : Nat) (p : Phys) : Except XlatFault (State × List W64) :=
  let now := s.readWords p.gen p.pa 8
  let here (i : Nat) : Spot := .cache stack (p.pa + 8 * i)
  if PMap.get? (s.stack stack).cache p.pa = some now then
    if (List.range 8).any fun i => s.poison.contains (here i) then .error ⟨.memData, 5⟩ else .ok (s, now)
  else if s.spoiled p.pa 64 then .error ⟨.memData, if (windowOf p.pa).isScratchpad then 1 else 0⟩
  else
    let s := { s with poison := s.poison.filter fun x => !((List.range 8).any fun i => x = here i) }
    .ok (s.modStack stack fun S =>
      { S with cache := PMap.insert (if S.cache.length < 65536 then S.cache else S.cache.tail) p.pa now }, now)

/-- Lines of an image from an address on, or the fault at one of them with the line's number. -/
def State.imageLines (s : State) (R : Residency) (va : Nat) : Nat → Nat → Except (Nat × XlatFault) (State × List W64)
  | _, 0 => .ok (s, [])
  | i, n + 1 =>
    match (s.translate R.asid R.sup .r Window.isStore (BitVec.ofNat 64 (va + 64 * i))).bind (s.cacheLine R.stack) with
    | .error f => .error (i, f)
    | .ok (s, ws) =>
      match s.imageLines R va (i + 1) n with
      | .error f => .error f
      | .ok (s, rest) => .ok (s, ws ++ rest)

/-! ### The header -/

/-- Rows and columns of a shape code (R281). -/
def shapeOf : Nat → Option (Nat × Nat)
  | 0 => some (4, 4) | 1 => some (4, 8) | 2 => some (8, 4) | 3 => some (8, 8) | 4 => some (8, 16) | 5 => some (8, 32)
  | _ => none

/-- The header's fields; none for a reserved code or bit, more words than the rows can hold, or an outgoing circuit that is not used
(R281, R286). -/
def imageHead (ws : RecWords) : Option ImageHead :=
  let f := fieldOf ws
  match shapeOf (f 0 3) with
  | none => none
  | some (rows, cols) =>
    let h : ImageHead :=
      { rows := rows, cols := cols, contexts := f 3 2 + 1, words := f 8 24, extused := f 64 64, extout := f 128 64 }
    if f 5 3 ≠ 0 ∨ f 32 32 ≠ 0 ∨ f 192 320 ≠ 0 ∨ 264 * rows * h.contexts < h.words ∨ h.extout &&& h.extused ≠ h.extout then none
    else some h

/-! ### Configuration words -/

/-- What the words of an element context say (R279, R280), with how many of each kind there are. -/
structure ElemSpec where
  op : Option (Instr × OpWord) := none
  switches : Nat := 0
  links : Nat := 0
  ks : Nat := 0
  outs : PMap Nat := []
  ins : PMap Nat := []
  slots : PMap Nat := []
  consts : PMap W32 := []
  deriving DecidableEq, Repr

/-- The loader in the course of an image: context, row, the words of the row so far, the column of the last one, and how many counter
words the row has. -/
structure Loader where
  ctx : Nat := 0
  row : Nat := 0
  count : Nat := 0
  hop : Nat := 0
  counted : Nat := 0
  done : Bool := false
  elems : PMap ElemSpec := []
  counters : PMap Nat := []
  deriving DecidableEq, Repr

/-- Whether an operator word names the sources and outputs that its operator takes (R279, R302, R306). -/
def sourcesOk (i : Instr) (w : OpWord) : Bool :=
  let no (r : Src) : Bool := r = .none
  let any (r : Src) : Bool := r ≠ .none
  let port (r : Src) : Bool := (portOf r).isSome
  let k (r : Src) : Bool := (constOf r).isSome
  let free (r : Src) : Bool := no r || port r
  let bare : Bool := no w.p
  let used (b : Bool) (r : Src) : Bool := if b then any r else no r
  let named : Bool := namedPorts w ≠ []
  match i with
  | .steer _ => any w.a && any w.b && no w.c && bare && w.o0 && w.o1 && named
  | .merge _ => any w.a && any w.b && any w.c && bare && named
  | .carry => (no w.a || k w.a) && port w.b && no w.c && bare && w.o0 && !w.o1
  | .inv => any w.a && any w.b && no w.c && bare && named
  | .join => port w.a && free w.b && no w.c && bare && w.o0 && w.o1
  | .win _ => port w.a && no w.b && no w.c && bare
  | .isect => port w.a && port w.b && no w.c && bare && w.o0 && w.o1
  | .tredSum _ | .tredMax _ | .tredSexp _ => decide (w.a = .i0 ∧ w.b = .i1) && no w.c && bare
  | .welt _ | .twillFence _ => port w.a && no w.b && no w.c && bare
  | .mbarvArrive | .mbarvEot | .mbarvWait _ => port w.a && k w.b && k w.c && bare
  | .sink => free w.a && free w.b && free w.c && bare && !w.o0 && !w.o1 && named
  | .iter _ => free w.a && no w.b && no w.c && bare
  | .moviShort _ | .moviLong .b32 _ => k w.a && no w.b && no w.c && port w.p
  | .lid | .lmask _ => no w.a && no w.b && no w.c && port w.p
  | .bpenc | .bpdec => any w.a && no w.b && no w.c && named
  | .permB32 => any w.a && no w.b && any w.c && named
  | .leaLong _ _ => any w.a && any w.b && k w.c && named
  | i =>
    match tOperator i with
    | none => false
    | some op => used op.useA w.a && used op.useB w.b && used op.useC w.c && named

/-- The tile memory that an operator needs, in KiB (R306, R312, R313). -/
def tileNeed : Instr → Nat
  | .win k => (64 * (k.n.toNat + 1) * k.k.toNat * (k.d.toNat + 1) + 1023) / 1024
  | .isect => 1
  | _ => 0

/-- An operator word as the loader takes it (R279, R286, R306). -/
def operatorWord (payload : BitVec 52) : Option (Instr × OpWord) :=
  match decodeOperator payload with
  | .error _ => none
  | .ok (i, w) =>
    if sourcesOk i w = false ∨ (w.p = .none ∧ w.sense) ∨ 32 < w.tbase.toNat + w.tsize.toNat ∨ w.tsize.toNat < tileNeed i then
      none
    else some (i, w)

/-- A switch entry taken into an element context (R280): none for a reserved code or a port that is bound already. -/
def ElemSpec.bindPort (x : ElemSpec) (entry : Nat) : Option ElemSpec :=
  let port := bitsOf entry 0 3
  let circuit := bitsOf entry 3 8
  if port = 6 then some x
  else if port = 7 then none
  else if port < 4 then
    if (PMap.get? x.ins port).isSome then none else some { x with ins := PMap.insert x.ins port circuit }
  else if (PMap.get? x.outs (port - 4)).isSome then none
  else some { x with outs := PMap.insert x.outs (port - 4) circuit }

/-- A link entry taken into an element context (R280). -/
def ElemSpec.linkPort (x : ElemSpec) (entry : Nat) : ElemSpec :=
  if bitsOf entry 5 1 = 1 then { x with slots := PMap.insert x.slots (bitsOf entry 0 2) (bitsOf entry 2 3 + 1) } else x

/-- An element word taken into its context (R279, R280). -/
def ElemSpec.word (x : ElemSpec) (kind payload : Nat) : Option ElemSpec :=
  match kind with
  | 0 =>
    if x.op.isSome then none
    else (operatorWord (BitVec.ofNat 52 payload)).map fun o => { x with op := some o }
  | 1 =>
    if 2 ≤ x.switches ∨ bitsOf payload 33 19 ≠ 0 then none
    else
      (((x.bindPort (bitsOf payload 0 11)).bind fun x => x.bindPort (bitsOf payload 11 11)).bind
        fun x => x.bindPort (bitsOf payload 22 11)).map fun x => { x with switches := x.switches + 1 }
  | 2 =>
    if 2 ≤ x.links ∨ bitsOf payload 12 40 ≠ 0 then none
    else some { (x.linkPort (bitsOf payload 0 6)).linkPort (bitsOf payload 6 6) with links := x.links + 1 }
  | 3 =>
    if 3 ≤ x.ks ∨ bitsOf payload 0 2 = 3 ∨ bitsOf payload 34 18 ≠ 0 then none
    else some { x with ks := x.ks + 1, consts := PMap.set x.consts 0 (bitsOf payload 0 2) (BitVec.ofNat 32 (bitsOf payload 2 32)) }
  | _ => none

/-- The next word of an image (R278 to R281, R286); none where the loader refuses it. The words of an element context stand together,
and a row's counter words, at most seven, behind them. -/
def Loader.word (h : ImageHead) (L : Loader) (w : W64) : Option Loader :=
  let f := bitsOf w.toNat
  let payload := f 0 52
  let kind := f 52 4
  let hop := f 58 6
  if L.done ∨ f 56 2 ≠ L.ctx then none
  else if kind < 4 then
    let key := elemKey L.ctx L.row hop
    if L.counted ≠ 0 ∨ h.cols ≤ hop ∨ ((PMap.get? L.elems key).isSome ∧ L.hop ≠ hop) then none
    else
      ((PMap.getD L.elems key {}).word kind payload).map fun x =>
        { L with elems := PMap.insert L.elems key x, count := L.count + 1, hop := hop }
  else if kind = 4 then
    if hop ≠ 0 ∨ f 0 3 = 7 ∨ f 35 17 ≠ 0 ∨ 7 ≤ L.counted then none
    else
      some { L with
        counters := PMap.insert L.counters (64 * L.ctx + 8 * L.row + f 0 3) (f 3 32), counted := L.counted + 1, count := L.count + 1 }
  else if kind = 5 then
    let lastRow := decide (L.row + 1 = h.rows)
    if hop ≠ 0 ∨ f 0 9 ≠ L.count ∨ decide (f 9 1 = 1) ≠ lastRow ∨ f 10 42 ≠ 0 then none
    else if lastRow then
      some { L with ctx := L.ctx + 1, row := 0, count := 0, counted := 0, done := decide (L.ctx + 1 = h.contexts) }
    else some { L with row := L.row + 1, count := 0, counted := 0 }
  else none

/-- A configuration word as a token (R24): elements 0 and 1 hold it. -/
def configToken (w : W64) : Token := { dataToken [w.setWidth 32, (w >>> 32).setWidth 32] 3 0 with kind := .config }

/-- The configuration word that a token holds (R24). -/
def configWordOf (tok : Token) : W64 := (tok.data.getD 1 0) ++ (tok.data.getD 0 0)

/-- A token of the loader reaches its row (R285). -/
def Loader.take (L : Loader) (h : ImageHead) (tok : Token) : Option Loader := L.word h (configWordOf tok)

/-- The words of an image in order, each sent as a token, or the number of the word that the loader refuses. -/
def Loader.words (h : ImageHead) (L : Loader) : Nat → List W64 → Except Nat Loader
  | n, [] => if L.done then .ok L else .error n
  | n, w :: rest =>
    match L.take h (configToken w) with
    | none => .error n
    | some L => L.words h (n + 1) rest

/-! ### The checks of an element context and of the circuits -/

/-- A port that the operator names and no switch entry binds, a port that is bound and the operator does not use (DEDUCED, log entry 81: R286's
"named" taken of switch entries as well), or a bound input without a link entry (R286); and an `iter` whose row
holds no counter (R318), an `mbarv` whose word is not aligned (R316). -/
def Loader.elemRefused (L : Loader) (key : Nat) (x : ElemSpec) : Bool :=
  (x.ins.any fun (p, _) => (PMap.get? x.slots p).isNone) ||
  match x.op with
  | none => false
  | some (i, w) =>
    (namedPorts w).any (fun p => (PMap.get? x.ins p).isNone)
      || x.ins.any (fun (p, _) => (namedPorts w).contains p = false)
      || x.outs.any (fun (p, _) => (if p = 0 then w.o0 else w.o1) = false)
      || (w.o0 && (PMap.get? x.outs 0).isNone) || (w.o1 && (PMap.get? x.outs 1).isNone)
      || (match i with
        | .iter c => (PMap.get? L.counters (64 * (key / 256) + 8 * (key % 256 / 32) + c.toNat)).isNone
        | .mbarvArrive | .mbarvEot | .mbarvWait _ =>
          (match constOf w.b with | some k => (PMap.getD x.consts k 0).toNat % 8 ≠ 0 | none => false)
        | _ => false)

/-- The contexts that drive a circuit, one for each output port that is bound to it. -/
def Loader.drivers (L : Loader) (c : Nat) : List Nat :=
  L.elems.flatMap fun (e, x) => x.outs.filterMap fun (_, d) => if d = c then some (e / 256) else none

/-- The contexts that a circuit leads to, one for each input port that is bound to it. -/
def Loader.readers (L : Loader) (c : Nat) : List Nat :=
  L.elems.flatMap fun (e, x) => x.ins.filterMap fun (_, d) => if d = c then some (e / 256) else none

/-- Whether a circuit breaks R274 or the header's bits (R286). -/
def Loader.circuitRefused (L : Loader) (h : ImageHead) (c : Nat) : Bool :=
  let ds := L.drivers c
  let rs := L.readers c
  if isExternal c then
    let used := h.extused.testBit (c - 192)
    let out := h.extout.testBit (c - 192)
    if used = false then decide (ds ≠ [] ∨ rs ≠ [])
    else if out then decide (ds.length ≠ 1 ∨ rs ≠ [])
    else decide (ds ≠ [] ∨ rs = []) || rs.any fun r => r ≠ rs.headD 0
  else if ds = [] ∧ rs = [] then false
  else decide (ds.length ≠ 1) || rs.any fun r => r ≠ ds.headD 0

/-- Whether the tile windows of one element overlap (R286). -/
def Loader.windowsOverlap (L : Loader) : Bool :=
  let win (e : Nat) : Nat × Nat := match (PMap.getD L.elems e {}).op with
    | some (_, w) => (w.tbase.toNat, w.tsize.toNat)
    | none => (0, 0)
  L.elems.any fun (e, _) => (List.range (e / 256)).any fun c =>
    let (a, n) := win e
    let (b, m) := win (256 * c + e % 256)
    decide (n ≠ 0 ∧ m ≠ 0 ∧ a < b + m ∧ b < a + n)

/-- The operator of an element context. -/
def Loader.opAt (L : Loader) (e : Nat) : Option Instr := ((PMap.getD L.elems e {}).op).map (·.1)

/-- The links that lead from an element context over internal circuits: the receiving context, its port and its slots (R287). -/
def Loader.linksFrom (L : Loader) (e : Nat) : List (Nat × Nat × Nat) :=
  let outs := ((PMap.getD L.elems e {}).outs.map (·.2)).filter fun c => !isExternal c
  L.elems.flatMap fun (r, x) => x.ins.filterMap fun (p, c) =>
    if outs.contains c then some (r, p, PMap.getD x.slots p 0) else none

/-- The element contexts that a number of links lead to. -/
def reachFrom (next : Nat → List Nat) : Nat → List Nat → List Nat → List Nat
  | 0, seen, _ => seen
  | n + 1, seen, frontier =>
    let new := ((frontier.flatMap next).eraseDups).filter fun e => !seen.contains e
    if new = [] then seen else reachFrom next n (seen ++ new) new

/-- Whether a `merge.sel` on a cycle, entered at a port, lets tokens enter the cycle: the other data input comes from off the cycle
(R287). -/
def Loader.opensCycle (L : Loader) (onCycle : List Nat) (e port : Nat) : Bool :=
  match (PMap.getD L.elems e {}).op with
  | some (.merge true, w) =>
    let off (r : Src) : Bool := match portOf r with
      | none => true
      | some q => decide (q ≠ port) && !(onCycle.any fun u => (L.linksFrom u).any fun l => l.1 = e && l.2.1 = q)
    if portOf w.a = some port then off w.b else if portOf w.b = some port then off w.a else false
  | _ => false

/-- Whether some cycle through `start` and later contexts, over the given links, has no `merge.sel` that opens it (R287). -/
def Loader.closedCycle (L : Loader) (next : Nat → List (Nat × Nat)) (start : Nat) : Nat → Nat → List (Nat × Nat) → Bool
  | 0, _, _ => false
  | n + 1, e, path => (next e).any fun (r, p) =>
    let path' := (r, p) :: path
    if r = start then !(path'.any fun (u, q) => L.opensCycle (path'.map (·.1)) u q)
    else if r < start ∨ path.any (fun u => u.1 = r) then false
    else L.closedCycle next start n r path'

/-- The loop check (R287). The free-slot count of a cycle is not above zero exactly where each of its elements is a `carry` and each
of its links has one slot. -/
def Loader.loopRefused (L : Loader) : Bool :=
  let keys := L.elems.map (·.1)
  let isCarry (e : Nat) : Bool := L.opAt e == some .carry
  let tight (e : Nat) : List Nat := if isCarry e then
      (L.linksFrom e).filterMap fun l => if isCarry l.1 && l.2.2 = 1 then some l.1 else none
    else []
  let plain (e : Nat) : List (Nat × Nat) := if isCarry e then []
    else (L.linksFrom e).filterMap fun l => if isCarry l.1 then none else some (l.1, l.2.1)
  let reach (e : Nat) : List Nat := reachFrom (fun u => (plain u).map (·.1)) keys.length [] [e]
  let table : PMap (List Nat) := keys.foldl (fun m e => PMap.insert m e (reach e)) []
  let looped (e : Nat) : Bool := (PMap.getD table e []).contains e
  let next (e : Nat) : List (Nat × Nat) := (plain e).filter fun l => looped l.1 && (PMap.getD table l.1 []).contains e
  keys.any (fun e => (reachFrom tight keys.length [] [e]).contains e)
    || keys.any fun e => looped e && L.closedCycle next e (keys.length + 1) e []

/-- The checks of R286 and R287 over a whole image. -/
def Loader.refused (L : Loader) (h : ImageHead) : Bool :=
  (L.elems.any fun (e, x) => L.elemRefused e x)
    || (List.range 256).any (L.circuitRefused h)
    || L.windowsOverlap
    || ((List.range 4).any fun c => 56 < (L.elems.filter fun (e, _) => e / 256 = c && L.opAt e == some .carry).length)
    || L.loopRefused

/-! ### The fabric of an image -/

/-- The generator states of an element context (R97). -/
def elemSeeds (key : Nat) : PMap W32 :=
  (List.range 16).map fun l =>
    (l, genSeed (key % 256 / 32 * 0x9E3779B9 + key % 32 * 0x85EBCA6B + (16 * (key / 256) + l) * 0xC2B2AE35 + 1))

/-- An element context as the loader sets it (R273, R285). -/
def ElemSpec.build (x : ElemSpec) (key : Nat) : ElemCtx where
  op := x.op
  consts := x.consts
  outs := x.outs
  ins := x.ins.map fun (p, c) => (p, (c, PMap.getD x.slots p 1))
  gens := match x.op with | some (i, _) => if drawsValues i then elemSeeds key else [] | none => []
  phase := match x.op with | some (.mbarvWait ph, _) => ph | _ => 0

/-- The registers of the `carry` elements placed in the links that they drive (R287, R309); one that leads across the region's edge is sent
where the receiver is to have it again. -/
def Fabric.placeInitial (F : Fabric) (again : Lineage → Bool) : Fabric :=
  F.elems.foldl (fun F (e, x) =>
    match x.op, x.reg, PMap.get? x.outs 0 with
    | some (.carry, _), some t, some c =>
      let tok := { t with chan := BitVec.ofNat 8 c, ctx := BitVec.ofNat 2 (F.slots.getD (e / 256) 0) }
      let item : Carried := ⟨tok, x.regOrigin, F.nextId, []⟩
      if isExternal c then (if again x.regOrigin then F.put c (e / 256) (F.receivers c) item else F)
      else { F with
        nextId := F.nextId + 1
        elems := F.elems.map fun (r, y) => (r, { y with
          bufs := y.ins.foldl (fun m (p, b) =>
            if b.1 = c then PMap.insert m p (PMap.getD m p [] ++ [item]) else m) y.bufs }) }
    | _, _, _ => F) F

/-- The fabric that the loader sets up from an image in the given slots (R283 to R286), or the number of the word that it refuses. -/
def fabricOf (image : Nat) (slots : List Nat) (h : ImageHead) (ws : List W64) : Except Nat Fabric :=
  match ({} : Loader).words h 0 (ws.take h.words) with
  | .error n => .error n
  | .ok L =>
    if L.refused h then .error h.words
    else
      let elems : PMap ElemCtx := L.elems.map fun (e, x) => (e, x.build e)
      .ok { image := image, slots := slots, loaded := true, rows := h.rows, cols := h.cols, elems := elems
            counters := L.counters, extused := h.extused, extout := h.extout
            fenced := L.elems.any fun (e, _) => (match L.opAt e with | some (.twillFence _) => true | _ => false) }

/-! ### The residency instructions -/

/-- Residency ids that launches under way have reserved (R293). -/
def State.launchingIds (s : State) : List W32 :=
  s.teams.flatMap fun (_, T) => T.groups.flatMap fun G => match G.blk with
    | some F => F.allEffects.filterMap fun e => match e with | .cfgLaunch _ id _ _ _ => some id | _ => none
    | none => []

/-- A residency id: stack [3:0], slot [15:4], generation [31:16] (R293). -/
def residencyId (stack slot gen : Nat) : W32 := BitVec.ofNat 32 (stack + 16 * slot + 2 ^ 16 * (gen % 2 ^ 16))

/-- The slot of a new id on a stack: the lowest that has never been used, or else the lowest whose residency has ended; none that a
launch under way has reserved. -/
def State.newResidencySlot (s : State) (stack : Nat) : Option Nat :=
  let S := s.stack stack
  let taken := s.launchingIds.filterMap fun id => if bitsOf id.toNat 0 4 = stack then some (bitsOf id.toNat 4 12) else none
  let ended (n : Nat) : Bool := match PMap.get? S.residencies n with | some R => R.state == .ended | none => false
  let fresh (n : Nat) : Bool := (PMap.get? S.residencies n).isNone
  let slots := (List.range 4096).filter fun n => !taken.contains n
  match slots.find? fresh with
  | some n => some n
  | none => slots.find? ended

/-- The id that a launch on a stack reserves. -/
def State.newResidencyId (s : State) (stack : Nat) : Option W32 :=
  (s.newResidencySlot stack).map fun n => residencyId stack n (PMap.getD (s.stack stack).gens n 0 + 1)

/-- The launch descriptor and the image list of a `cfg.launch`, read and checked (R231, R248, R293). -/
def Ctx.launchDescriptor (c : Ctx) (s : State) (x : W64) : Except Fired (RecWords × RecWords) := do
  let bad : Fired := c.fault .badHandle 0 x
  let d ← c.readObject s x 8 64
  let f := fieldOf d
  if f 59 5 ≠ 0 ∨ f 112 16 ≠ 0 ∨ f 176 16 ≠ 0 ∨ f 248 8 ≠ 0 ∨ f 312 8 ≠ 0 ∨ f 378 134 ≠ 0 then throw bad
  let images ← c.readObject s (BitVec.ofNat 64 (f 0 56)) (f 56 3 + 1) 8
  let entryBad (e : W64) : Bool := decide (bitsOf e.toNat 57 7 ≠ 0 ∨ bitsOf e.toNat 0 56 % 64 ≠ 0)
  let done : W64 := BitVec.ofNat 64 (f 192 56)
  let doneBad : Bool := decide (done ≠ 0) && (decide (done.toNat % 8 ≠ 0)
    || (match s.translate c.team.asid c.sup .rw Window.isScratchpad done with | .ok _ => false | .error _ => true))
  let saveBad : Bool := decide (f 256 56 % 4096 ≠ 0)
    || (match s.translate c.team.asid c.sup .rw (fun w => w == .hbm) (BitVec.ofNat 64 (f 256 56)) with
      | .ok _ => false | .error _ => true)
  if images.any entryBad ∨ (images.headD 0).getLsbD 56 ∨ doneBad ∨ saveBad then .error bad else .ok (d, images)

/-- R293. `cfg.launch`: the descriptor and its list are read and checked at fire, and an id is reserved. -/
def execCfgLaunch (s : State) : Host.Outcome State Fault Refusal :=
  fire s fun c => withTwo c fun a b live => Fired.ofExcept do
    let bad : Fired := c.fault .badHandle 0 (a.uniform?.getD 0)
    let launched ← a.checked (c.launchDescriptor s)
    let place ← b.checked fun y =>
      if 2 ^ 9 ≤ y.toNat ∨ (s.stack (bitsOf y.toNat 0 4)).inService = false then .error bad
      else match s.newResidencyId (bitsOf y.toNat 0 4) with
        | none => .error bad
        | some id => .ok (id, bitsOf y.toNat 4 5)
    match launched, place with
    | some (d, images), some (id, prio) =>
      let v := uniformVal live (id.setWidth 64)
      pure (.ok s (some v) (some v) (if live = 0 then [] else [.cfgLaunch c.blk.slot id d images prio]))
    | _, _ => pure (.ok s (some (uniformVal 0 0)) (some (uniformVal 0 0)) [])

/-- The residencies that wait in a stack's queue (R283, R391): those that await a budget stand outside it. -/
def Stack.queued (S : Stack) : List (Nat × Residency) :=
  S.residencies.filter fun (_, R) => R.state == .queued && !R.awaitsBudget

/-- Whether the stack's residency queue has room for another entry (R283, R293). -/
def State.launchRoom (s : State) (id : W32) : Bool := decide ((s.stack (bitsOf id.toNat 0 4)).queued.length < 256)

/-- The arrival number of the next residency of a stack (R283). -/
def Stack.nextArrival (S : Stack) : Nat := (S.residencies.foldl (fun n (_, R) => Nat.max n R.arrivedAt) 0) + 1

/-- `cfg.launch` at commit (R293): the residency enters its stack's queue at the privilege and ASID of the launching group. -/
def State.doCfgLaunch (s : State) (asid : W16) (sup : Bool) (id : W32) (desc : RecWords) (images : List W64) (prio : Nat) : State :=
  let stack := bitsOf id.toNat 0 4
  let slot := bitsOf id.toNat 4 12
  let f := fieldOf desc
  s.modStack stack fun S =>
    let R : Residency :=
      { id := id, stack := stack, asid := asid, sup := sup, topup := f 377 1 = 1, prio := prio, fbud := f 64 48, tbud := f 128 48
        images := images.map fun e => BitVec.ofNat 64 (bitsOf e.toNat 0 56)
        holds := images.map fun e => e.getLsbD 56
        held := f 376 1 = 1, done := BitVec.ofNat 64 (f 192 56), save := BitVec.ofNat 64 (f 256 56)
        yq := BitVec.ofNat 64 (f 320 56), arrivedAt := S.nextArrival }
    { S with residencies := PMap.insert S.residencies slot R, gens := PMap.insert S.gens slot (bitsOf id.toNat 16 16) }

/-- A residency of an ASID that has an id, with its stack and slot. -/
def State.residencyFor (s : State) (asid : W16) (id : W32) : Option (Nat × Nat × Residency) :=
  match s.residencyOf id with
  | none => none
  | some (n, k) => match s.residency? n k with
    | some R => if R.asid = asid then some (n, k, R) else none
    | none => none

/-- The binding that a word of `cfg.bind` names, or none for a reserved field (R296); `record` is what has been read for kind 00. -/
def bindingOf (b : W64) (record : RecWords) : Option Binding :=
  let f := bitsOf b.toNat
  match f 0 2 with
  | 0 => if f 2 4 ≠ 0 ∨ f 56 8 ≠ 0 then none else some (.record record (BitVec.ofNat 64 (f 6 50 * 64)))
  | 1 =>
    if f 36 28 ≠ 0 then none
    else (coreOfDest (f 10 10)).map fun core => .channel core (f 2 8) (BitVec.ofNat 16 (f 20 16))
  | 2 => if f 43 21 ≠ 0 then none else some (.peer (BitVec.ofNat 32 (f 2 32)) (f 34 6) (f 40 3))
  | _ => if f 19 45 ≠ 0 then none else some (.queue (f 2 17))

/-- The header of an image of a residency as an instruction reads it (R296). -/
def Ctx.readHead (c : Ctx) (s : State) (va : W64) : Except Fired RecWords :=
  match s.translate c.team.asid c.sup .r Window.isStore va with
  | .error f => .error (c.fault f.code 0 va f.level)
  | .ok p =>
    if s.spoiled p.pa 64 then .error (c.memData s (if (windowOf p.pa).isScratchpad then 1 else 0) 0 va)
    else .ok (s.readWords p.gen p.pa 8)

/-- Whether the image of a residency that port a of a `cfg.bind` names may have the circuit bound, and whether the circuit leaves the
image (R296). -/
def Ctx.boundCircuit (c : Ctx) (s : State) (x : W64) : Except Fired (W64 × Bool) :=
  let i := bitsOf x.toNat 32 6
  let k := bitsOf x.toNat 38 3
  match s.residencyFor c.team.asid (x.setWidth 32) with
  | none => .error (c.fault .badHandle)
  | some (_, _, R) =>
    if 2 ^ 41 ≤ x.toNat ∨ R.state = .ended ∨ R.images.length ≤ k ∨ (R.state = .running ∧ R.image = k) then .error (c.fault .badHandle)
    else do
      let h ← c.readHead s (R.images.getD k 0)
      if fieldOf h (64 + i) 1 = 0 then .error (c.fault .badHandle) else .ok (x, decide (fieldOf h (128 + i) 1 = 1))

/-- What port b of a `cfg.bind` binds to, read and checked, with the direction that the circuit must have where b settles one:
outgoing for a channel, against its own for a peer's circuit (R248, R252, R296). -/
def Ctx.bindingOperand (c : Ctx) (s : State) (y : W64) : Except Fired (W64 × RecWords × Option Bool) := do
  let ws ← if bitsOf y.toNat 0 2 = 0 ∧ (bindingOf y []).isSome then c.readRecord s (BitVec.ofNat 64 (bitsOf y.toNat 6 50 * 64)) else pure []
  match bindingOf y ws with
  | some (.record ws _) => if (recOf ws).space = 0 then pure (y, ws, none) else .error (c.fault .badHandle)
  | some (.channel _ _ _) => pure (y, ws, some true)
  | some (.peer id j m) =>
    (match s.residencyFor c.team.asid id with
      | some (_, _, P) =>
        if P.state = .ended ∨ P.images.length ≤ m then .error (c.fault .badHandle)
        else match c.readHead s (P.images.getD m 0) with
          | .ok g => if fieldOf g (64 + j) 1 = 1 then pure (y, ws, some (fieldOf g (128 + j) 1 != 1)) else .error (c.fault .badHandle)
          | .error _ => .error (c.fault .badHandle)
      | none => .error (c.fault .badHandle))
  | some (.queue _) => pure (y, ws, none)
  | none => .error (c.fault .badHandle)

/-- R296. `cfg.bind`: the image header, and the record for kind 00, are read and checked at fire. -/
def execCfgBind (s : State) : Host.Outcome State Fault Refusal :=
  fire s fun c => withTwo c fun a b live => Fired.ofExcept do
    let circuit ← a.checked (c.boundCircuit s)
    let binding ← b.checked (c.bindingOperand s)
    match circuit, binding with
    | some (x, out), some (y, ws, direction) =>
      if direction.any (· != out) then .error (c.fault .badHandle)
      else pure (.ok s none none (if live = 0 then [] else [.cfgBind c.blk.slot x y ws]))
    | _, _ => pure (.ok s none none [])

/-- `cfg.bind` at commit (R296): it replaces an earlier binding. -/
def State.doCfgBind (s : State) (x y : W64) (record : RecWords) : State :=
  match s.residencyOf (x.setWidth 32), bindingOf y record with
  | some (n, k), some b =>
    s.modResidency n k fun R => { R with bindings := PMap.insert R.bindings (64 * bitsOf x.toNat 38 3 + bitsOf x.toNat 32 6) b }
  | _, _ => s

/-- The state code of R295. -/
def ResState.code : ResState → Nat
  | .queued => 0 | .loading => 1 | .running => 2 | .ended => 3

/-- Whether a node has taken or sent its reconfiguration token: the region is on its way to the next image (R291). -/
def Residency.reconfiguring (R : Residency) : Bool := R.fab.any fun F => F.nodes.any fun (_, n) => n.sent

/-- Whether the residency runs its last image: the last of its list, or any image after a stop, unless the move to the next one is
under way (R292, R297). -/
def Residency.lastImage (R : Residency) : Bool :=
  decide (R.images.length ≤ R.image + 1) || (R.stopping && !R.reconfiguring)

/-- Whether a loader stands at a tile boundary: a codec load keeps what it has read (R271). -/
def AgNode.atBoundary (n : AgNode) : Bool :=
  !n.tileOpen && !n.eotDue && (n.part.isEmpty || (match n.binding with | .record ws _ => (recOf ws).codec != 0 | _ => false))

/-- Whether a loader has sent all of its record (R254, R291, R297): every element, or those up to a boundary at which it was
stopped; a codec load has written its status word (R271), and a `mac` stream has been combined (R325). -/
def AgNode.recordEnded (n : AgNode) (R : Residency) : Bool :=
  match n.binding with
  | .record ws _ =>
    let r := recOf ws
    n.atBoundary && (R.stopping || (if r.codec = 0 then decide (r.elements ≤ n.pos) else n.endDue ≠ 0))
      && (r.fused ≠ 3 || r.combine = 0 || n.mac.combined || n.mac.reached = [])
  | _ => n.stopped && n.atBoundary

/-- Whether a residency waits for a release or a step (R295): in the queue, held by its launch, or with a loader that has ended its
record and whose next image is held (R291). -/
def Residency.waitsRelease (R : Residency) : Bool :=
  match R.state with
  | .queued => R.held
  | .running => !R.lastImage && R.holds.getD (R.image + 1) false
      && (R.fab.any fun F => F.nodes.any fun (_, n) => n.role == .loader && !n.sent && !n.ended && n.recordEnded R)
  | _ => false

/-- The status word of a residency (R295). -/
def Residency.status (R : Residency) : W64 :=
  let bit (b : Bool) (n : Nat) : Nat := if b then 2 ^ n else 0
  let standby : Bool := match R.next with | some F => F.loaded | none => false
  BitVec.ofNat 64 (R.state.code + bit R.waitsRelease 2 + bit R.suspended 3 + bit R.error 4 + R.image * 2 ^ 5 + bit standby 8
    + R.fbud * 2 ^ 16)

/-- The fire of a `cfg.signal` whose operand must give the operation (R297): the status at fire is its result. -/
def fireSignal (s : State) (op : Nat) : Host.Outcome State Fault Refusal :=
  fire s fun c => withOn c fun on =>
    withUniform c .a (null := .ok s (some (uniformVal 0 0)) (some (uniformVal 0 0)) []) fun a x =>
      match s.residencyFor c.team.asid (x.setWidth 32) with
      | none => c.fault .badHandle
      | some (_, _, R) =>
        if 2 ^ 40 ≤ x.toNat ∨ bitsOf x.toNat 32 3 ≠ op then c.fault .badHandle
        else
          let live := liveOn on [a.lanes]
          let v := uniformVal live R.status
          .ok s (some v) (some v) (if live = 0 ∨ op = 0 then [] else [.cfgSignal c.blk.slot x])

def execCfgSignalStatus (s : State) : Host.Outcome State Fault Refusal := fireSignal s 0
def execCfgSignalRelease (s : State) : Host.Outcome State Fault Refusal := fireSignal s 1
def execCfgSignalStep (s : State) : Host.Outcome State Fault Refusal := fireSignal s 2
def execCfgSignalStop (s : State) : Host.Outcome State Fault Refusal := fireSignal s 3
def execCfgSignalPriority (s : State) : Host.Outcome State Fault Refusal := fireSignal s 4

/-- `cfg.signal` at commit (R297): a stopped residency runs no image after its current one. -/
def State.doCfgSignal (s : State) (x : W64) : State :=
  match s.residencyOf (x.setWidth 32) with
  | none => s
  | some (n, k) => s.modResidency n k fun R =>
    if R.state = .ended then R
    else match bitsOf x.toNat 32 3 with
      | 1 => { R with held := false }
      | 2 => { R with holds := modifyAt R.holds (R.image + 1) fun _ => false }
      | 3 => { R with stopping := true }
      | 4 => { R with prio := bitsOf x.toNat 35 5 }
      | _ => R

/-- The fire of a `cfg.evict` whose operand must give the mode (R298). -/
def fireEvict (s : State) (mode : Nat) : Host.Outcome State Fault Refusal :=
  fire s fun c => withOn c fun on =>
    withUniform c .a (null := .ok s none none []) fun a x =>
      if 2 ^ 33 ≤ x.toNat ∨ bitsOf x.toNat 32 1 ≠ mode ∨ (s.residencyOf (x.setWidth 32)).isNone then c.fault .badHandle
      else .ok s none none (if liveOn on [a.lanes] = 0 then [] else [.cfgEvict c.blk.slot x])

def execCfgEvictDrain (s : State) : Host.Outcome State Fault Refusal := fireEvict s 0
def execCfgEvictKill (s : State) : Host.Outcome State Fault Refusal := fireEvict s 1

end Sys2Proof.Machine
end

