-- ==== Sys2Proof/Machine/TwillRun.lean ====
section
/-! DEFINITION. Residencies in execution (R283 to R298, R391, R440 to R445): faults and ends, the firing of elements, circuits, loaders,
storers, requests and link port nodes. -/
namespace Sys2Proof.Machine

/-! ### Records, faults and ends -/

/-- The die below which a stack stands: stacks 4d to 4d + 3 are home stacks of die d (R9). -/
def dieOfStack (stack : Nat) : Nat := stack / 4

/-- The cycle count of a stack's base die (R70, R436). -/
def State.baseClk (s : State) (stack : Nat) : Nat := (s.stack stack).clk

/-- The record of a residency's fault (R436, R437). -/
def State.twillRecord (s : State) (R : Residency) (code : FaultCode) (source level : Nat) (place : Nat) (addr : W64)
    (iter : List Nat) : Record where
  code := code
  store := decide (source = 3)
  source := source
  asid := R.asid
  detail := level
  address := addr
  place := BitVec.ofNat 64 place
  agent := R.id
  iter := iter.map (BitVec.ofNat 32)
  extra := if code = .memData then Config.errorStatus s.tick else 0
  cycle := s.baseClk R.stack

/-- The field `where` of an AG node, of an element and of the configuration loader (R437). -/
def nodePlace (stack number : Nat) : Nat := stack + 2 ^ 4 * number
def elemPlace (stack key : Nat) : Nat := stack + 2 ^ 4 * (key % 256 / 32) + 2 ^ 7 * (key % 32)
def loaderPlace (image word : Nat) : Nat := image + 2 ^ 8 * word

/-- A residency ends (R292): its slots are free, bank units that its streams own are freed, and it arrives once on its done
word. -/
def State.endResidency (s : State) (stack slot : Nat) (error : Bool) : State :=
  match s.residency? stack slot with
  | none => s
  | some R =>
    let s := (s.freeUnitsOf fun | .node st sl _ => st == stack && sl == slot | _ => false).modResidency stack slot fun R =>
      { R with
        state := .ended, error := R.error || error, suspended := false, awaitsBudget := false, fab := none, next := none
        drain := none, halts := [], saved := none }
    if R.done = 0 then s
    else match s.translate R.asid R.sup .rw Window.isScratchpad R.done with
      | .ok p => s.arriveAt p.gen p.pa
      | .error _ => s

/-- A residency ends with its error bit set (R298, R423): a running one once its loaders stand at tile boundaries and the tiles that end
are performed, any other at once. -/
def State.killResidency (s : State) (stack slot : Nat) : State :=
  match s.residency? stack slot with
  | none => s
  | some R =>
    match R.state with
    | .ended => s
    | .running => s.modResidency stack slot fun R => { R with drain := some .killed }
    | _ => s.endResidency stack slot true

/-- A residency ends by a fault (R292, R445): the tile in progress is discarded and the record is written. -/
def State.endByFault (s : State) (stack slot : Nat) (r : Record) : State :=
  ((s.writeRecord { r with fatal := true }).getD s).endResidency stack slot true

/-- A fault of a residency that can wait for a RESUME (R440, R444): a resumable record, or the end of the residency where the fault
is fatal (R435). Until the queue engine has numbered the record its number is 0, which no RESUME matches (R438). -/
def State.resumable (s : State) (stack slot : Nat) (r : Record) (go : State → Outstanding → State) : State :=
  if s.fatalAsid r.asid then s.endByFault stack slot r
  else
    let seq := s.nextFaultSeq r.asid
    match s.writeRecord { r with resumable := true } with
    | none => s.endByFault stack slot r
    | some s => go s
        { record := { r with resumable := true }, seq := if seq < s.nextFaultSeq r.asid then seq else 0, node := none
          since := s.clk (dieOfStack stack) }

/-- Whether a residency waits at a place for the RESUME of a store-side fault (R444, R448). -/
def Residency.halted (R : Residency) (place : W64) : Bool := R.halts.any fun o => o.record.place == place

/-- A store-side PAGE fault of a node or an element begins a fault drain, or joins the drain that is under way: each place writes its own
record (R444, R448). A residency that ends discards the tile and writes none (R298). -/
def State.storeFault (s : State) (stack slot : Nat) (node : Option Nat) (r : Record) : State :=
  match s.residency? stack slot with
  | none => s
  | some R =>
    let stands (s : State) (o : Outstanding) : State := s.modResidency stack slot fun R =>
      { R with halts := R.halts ++ [{ o with node := node }], drain := if R.drain.isSome then R.drain else some .fault }
    if R.halted r.place then s
    else if R.drain = some .killed then stands s { record := r, seq := 0, node := node, since := s.clk (dieOfStack stack), resumed := true }
    else s.resumable stack slot { r with store := true } stands

def State.modFabric (s : State) (stack slot : Nat) (f : Fabric → Fabric) : State :=
  s.modResidency stack slot fun R => { R with fab := R.fab.map f }

def State.modNode (s : State) (stack slot i : Nat) (f : AgNode → AgNode) : State :=
  s.modFabric stack slot fun F => { F with nodes := PMap.update F.nodes i f }

/-- The running fabric of a residency. -/
def State.running? (s : State) (stack slot : Nat) : Option (Residency × Fabric) := do
  let R ← s.residency? stack slot
  let F ← R.fab
  if R.state = .running ∧ F.started then some (R, F) else none

/-- The logical context that an incoming circuit leads to. -/
def Fabric.contextOf (F : Fabric) (i : Nat) : Nat :=
  match F.inside i with | .port e _ :: _ => e / 256 | _ => 0

/-- A token that a node sends into the fabric on an incoming circuit, with the tiles that it belongs to or descends from. -/
def Fabric.feed (F : Fabric) (i : Nat) (tok : Token) (origin : Lineage := []) : Fabric :=
  F.put (192 + i) (F.contextOf i) (F.inside i) ⟨tok, origin, F.nextId, []⟩

/-- A token that comes into the fabric from outside its records, on an incoming circuit whose node keeps it: each is a tile of its
source (R290). -/
def Fabric.feedKept (F : Fabric) (i : Nat) (tok : Token) : Fabric :=
  match PMap.get? F.nodes i with
  | none => F
  | some n =>
    { F.feed i tok (lineageOf i n.tile) with
      nodes := PMap.insert F.nodes i
        { n with tile := n.tile + 1, log := if n.tile < n.log.length then n.log else n.log ++ [tok] } }

/-- A token that a replay sends again before new ones come (R290). -/
def AgNode.again (n : AgNode) : Option Token := n.log[n.tile]?

/-- The first index of the tile of a record that something descends from, for a fault record (R436, R445). -/
def Fabric.tileIndex (F : Fabric) (x : Lineage) : List Nat :=
  (x.findSome? fun (i, _, t) => (PMap.get? F.nodes i).bind fun n => match n.binding, n.role with
    | .record ws _, .loader =>
      let r := recOf ws
      some (r.indices (if r.eot then t * r.tileElems else if t = 0 then 0 else (n.cuts.getD (t - 1) (0, 0)).1))
    | _, _ => none).getD []

/-- Whether the receivers of an incoming circuit have free slots. -/
def Fabric.canFeed (F : Fabric) (i : Nat) : Bool := (F.inside i).all F.hasSlot

/-- A load-side PAGE fault of a node (R440, R441): it stalls, and a fault-stall token follows what it has sent. -/
def State.loadFault (s : State) (stack slot i out : Nat) (r : Record) : State :=
  s.resumable stack slot r fun s o =>
    let tok := controlToken .faultStall ((o.record.token o.seq).data.take 8) 0
    (s.modNode stack slot i fun n =>
        { n with fault := some { o with node := some i, since := n.stallFrom.getD o.since }, stallFrom := none }).modFabric stack slot fun F =>
      F.feed out tok

/-- The reconfiguration token as it is sent to a logical context (R291). -/
def Residency.reconfigToken (R : Residency) (F : Fabric) (ctx : Nat) : Token :=
  let slots := match R.next with | some G => G.slots | none => F.slots
  controlToken .reconfig [BitVec.ofNat 32 (slots.getD ctx 0), BitVec.ofNat 32 (R.image + 1)] 0

/-- The end of a stall is counted, in the cycles of the die whose home stack it is (R452). -/
def State.stallEnds (s : State) (stack : Nat) (asid : W16) (since : Nat) : State :=
  s.monitorEvent (dieOfStack stack) 1 (some asid) (s.clk (dieOfStack stack) - since)

/-! ### Elements -/

/-- An element context with what its operator may do now: its attempt on data and on control tokens. -/
def Elem.attempt (E : Elem) (s : State) : Attempt :=
  let a := E.data s
  if E.enabled a then a else E.ctl s

/-- Contexts of the stack that stand in the same physical element as one, with residency slot and key; that one among them. -/
def State.sharing (s : State) (stack row col : Nat) : List Elem :=
  (s.stack stack).residencies.flatMap fun (slot, R) =>
    (List.range 4).filterMap fun ctx =>
      if R.orow ≤ row ∧ row < R.orow + 8 ∧ R.ocol ≤ col ∧ col < R.ocol + 32 then
        s.elem? stack slot (elemKey ctx (row - R.orow) (col - R.ocol))
      else none

/-- The physical slot of a context (R283). -/
def Elem.phys (E : Elem) : Nat := E.fab.slots.getD (E.key / 256) 0

/-- The priority by which an element chooses (R277, R395): a draining residency goes first. -/
def Elem.prio (E : Elem) : Nat := if E.res.drain.isSome then 31 else E.res.prio

/-- The better of two contexts under the round-robin of R277 after a slot. -/
def better (last : Nat) (a b : Elem) : Elem :=
  let turn (x : Elem) : Nat := (x.phys + 3 - last) % 4
  if b.prio < a.prio then a else if a.prio < b.prio then b else if turn a ≤ turn b then a else b

/-- Whether a context is the one that its element chooses (R277): by priority and in turn, and at one choice in 64 the context that
has been enabled longest. -/
def State.chosen (s : State) (E : Elem) : Bool :=
  let row := E.res.orow + E.key % 256 / 32
  let col := E.res.ocol + E.key % 32
  let (count, last) := PMap.getD (s.stack E.stack).picks (32 * row + col) (0, 3)
  let able := (s.sharing E.stack row col).filter fun x => x.enabled (x.attempt s)
  let oldest (a b : Elem) : Elem := if b.x.since.getD s.tick < a.x.since.getD s.tick then b else a
  let pick := able.foldl (fun acc x => match acc with
    | none => some x
    | some y => some (if count % 64 = 63 then oldest y x else better last y x)) none
  match pick with
  | some x => decide (x.slot = E.slot ∧ x.key = E.key)
  | none => false

/-- The words of tile memory that a firing writes: the first and how many. -/
def Elem.written (E : Elem) (f : Firing) : Nat × Nat :=
  match E.op with
  | .win k =>
    let rows := k.k.toNat * (k.d.toNat + 1)
    let n := k.n.toNat + 1
    if f.after.n0 = E.x.n0 + 1 ∧ rows ≠ 0 then (16 * (E.x.n0 / n % rows * n + E.x.n0 % n), 16) else (0, 0)
  | .isect => if E.x.flag = false then (E.x.n0, f.after.n0 - E.x.n0) else (0, 0)
  | _ => (0, 0)

/-- What a firing descends from (R254, R315): the heads that it takes, the head that an `iter` or a `win` works on, or what the context
holds where it sends of that alone. The one sequence of an `iter` is a source of its own. -/
def Elem.descent (E : Elem) (f : Firing) : Lineage :=
  let of (ports : List Nat) : Lineage := (ports.filterMap (headOf E.x)).foldl (fun m t => lineageJoin m t.origin) []
  match E.op with
  | .iter _ => if E.w.a = .none then lineageOf (64 + E.key) 0 else of (namedPorts E.w)
  | .win _ => of (namedPorts E.w)
  | _ => if f.take = [] then E.x.held else of f.take

/-- What the tokens of a firing descend from: a `carry` begins the next tile at an end-of-tile (R309). -/
def Elem.sentDescent (E : Elem) (f : Firing) : Lineage :=
  let d := E.descent f
  match E.op with
  | .carry => if (srcToken E.x E.w.b).any (·.kind == .endOfTile) then lineageNext d else d
  | _ => d

/-- A context after a firing, with the tiles that the firing belongs to noted and what it held before the first of a tile (R97,
R290). -/
def Elem.noted (E : Elem) (f : Firing) : ElemCtx :=
  let d := E.descent f
  let x := f.after
  if f.charge = false then x
  else
    { x with
      seen := lineageJoin x.seen d
      held := if x.clear then [] else lineageJoin x.held d
      regOrigin := if E.op = .carry then E.sentDescent f else x.regOrigin
      marks := if lineageBeyond d x.seen then (d, E.x.mark) :: x.marks
        else match x.marks with | [] => [] | m :: rest => (lineageJoin m.1 d, m.2) :: rest }

/-- A firing carried out (R275, R276): heads consumed, tokens sent, one firing charged but in the drain that an exhausted budget has
begun (R391). A fault-stall token belongs to no tile, and a replay makes no arrival that has been made. -/
def State.applyFiring (s : State) (E : Elem) (f : Firing) : State :=
  let taken := f.take.filterMap (headOf E.x)
  let anc := (taken.flatMap fun t => t.id :: t.anc).eraseDups
  let noted := E.noted f
  let x : ElemCtx := { noted with
    bufs := f.take.foldl (fun m p => PMap.set m [] p (PMap.getD m p []).tail) noted.bufs
    since := none, performed := Nat.max noted.performed noted.arrived }
  let row := E.res.orow + E.key % 256 / 32
  let col := E.res.ocol + E.key % 32
  let (lo, n) := E.written f
  let s := { s with poison := s.poison.filter fun p => match p with
    | .tile st sl e w => !(st = E.stack && sl = E.slot && e = E.key && decide (lo ≤ w ∧ w < lo + n))
    | _ => true }
  let s := s.modResidency E.stack E.slot fun R =>
    { R with
      fab := R.fab.map fun F =>
        { F with elems := PMap.insert F.elems E.key x }.sendAll E.key x (if f.charge then E.sentDescent f else []) anc f.send
      fbud := if f.charge && R.drain ≠ some .firings then R.fbud - 1 else R.fbud }
  let s := if f.charge then s.modStack E.stack fun S =>
      { S with picks := PMap.insert S.picks (32 * row + col) ((PMap.getD S.picks (32 * row + col) (0, 3)).1 + 1, E.phys) }
    else s
  match f.arrive with
  | some p => if noted.arrived ≤ E.x.performed then s else s.arriveAt p.gen p.pa
  | none => s

/-- The heads of an element discarded in a fault drain (R444): their tiles come again. -/
def State.discardHeads (s : State) (E : Elem) : State :=
  let ports := namedPorts E.w
  let lost := (ports.filterMap (headOf E.x)).foldl (fun m t => lineageJoin m t.origin) E.x.lost
  s.applyFiring E { take := ports, send := [], needs := [], after := { E.x with lost := lost }, charge := false }

/-- An element's fault (R316, R444, R445), with the first index of the tile that its heads belong to: a translation or access fault on an
mbar word is of the store side. PAGE of an mbar word begins a fault drain, in which the element discards its tokens; any other ends the
residency. -/
def State.elementFault (s : State) (E : Elem) (code : FaultCode) (level : Nat) (addr : W64) : State :=
  let heads := ((namedPorts E.w).filterMap (headOf E.x)).foldl (fun m t => lineageJoin m t.origin) E.x.held
  let r := { s.twillRecord E.res code 4 level (elemPlace E.stack E.key) addr (E.fab.tileIndex heads) with
    store := decide (code = .page ∨ code = .access ∨ code = .key) }
  if code = .page then
    if E.res.halted r.place then s.discardHeads E else s.storeFault E.stack E.slot none r
  else s.endByFault E.stack E.slot r

/-- What an attempt that may go on comes to, once the element chooses it. -/
def State.attempted (s : State) (E : Elem) (a : Attempt) : Option State :=
  if E.enabled a = false ∨ s.chosen E = false then none
  else match a with
    | .idle => none
    | .fires f => some (s.applyFiring E f)
    | .bad code level addr => some (s.elementFault E code level addr)

/-- The firing of the element that acts, for a fabric operator (R306). -/
def fireOperator (s : State) (op : Instr) : Host.Outcome State Fault Refusal :=
  match s.curElem with
  | none => .fault .noContext
  | some (stack, slot, e) =>
    match s.elem? stack slot e with
    | none => .fault .noContext
    | some E =>
      let u := { s with curElem := none }
      if E.op = op then occurs u (u.attempted E (E.attempt s)) else .fault .noContext

/-- R307. -/
def execSteer (drop : Bool) (s : State) : Host.Outcome State Fault Refusal := fireOperator s (.steer drop)
/-- R308. -/
def execMerge (sel : Bool) (s : State) : Host.Outcome State Fault Refusal := fireOperator s (.merge sel)
/-- R309. -/
def execCarry (s : State) : Host.Outcome State Fault Refusal := fireOperator s .carry
/-- R310. -/
def execInv (s : State) : Host.Outcome State Fault Refusal := fireOperator s .inv
/-- R311. -/
def execJoin (s : State) : Host.Outcome State Fault Refusal := fireOperator s .join
/-- R312. -/
def execWin (k : WinKind) (s : State) : Host.Outcome State Fault Refusal := fireOperator s (.win k)
/-- R313. -/
def execIsect (s : State) : Host.Outcome State Fault Refusal := fireOperator s .isect
/-- R314. -/
def execTredSum (elt : Bool) (s : State) : Host.Outcome State Fault Refusal := fireOperator s (.tredSum elt)
def execTredMax (elt : Bool) (s : State) : Host.Outcome State Fault Refusal := fireOperator s (.tredMax elt)
def execTredSexp (elt : Bool) (s : State) : Host.Outcome State Fault Refusal := fireOperator s (.tredSexp elt)
/-- R315. -/
def execWelt (sc : WeltScope) (s : State) : Host.Outcome State Fault Refusal := fireOperator s (.welt sc)
def execTwillFence (sc : FabScope) (s : State) : Host.Outcome State Fault Refusal := fireOperator s (.twillFence sc)
/-- R316. -/
def execMbarvArrive (s : State) : Host.Outcome State Fault Refusal := fireOperator s .mbarvArrive
def execMbarvEot (s : State) : Host.Outcome State Fault Refusal := fireOperator s .mbarvEot
def execMbarvWait (ph : W8) (s : State) : Host.Outcome State Fault Refusal := fireOperator s (.mbarvWait ph)
/-- R317. -/
def execSink (s : State) : Host.Outcome State Fault Refusal := fireOperator s .sink
/-- R318. -/
def execIter (c : BitVec 3) (s : State) : Host.Outcome State Fault Refusal := fireOperator s (.iter c)

/-- R276, R300. ELEMENT_DATA_FIRING: the data firing of an element, whatever its operator. -/
def State.dataFiring (s : State) (stack slot e : Nat) : Option State := do
  let E ← s.elem? stack slot e
  s.attempted E (E.data s)

def execElementDataFiring (stack slot elem : Nat) (s : State) : Host.Outcome State Fault Refusal :=
  occurs s (s.dataFiring stack slot elem)

/-- R304. ELEMENT_CONTROL_FIRING. -/
def State.controlFiring (s : State) (stack slot e : Nat) : Option State := do
  let E ← s.elem? stack slot e
  if E.enabled (E.data s) then none else s.attempted E (E.ctl s)

def execElementControlFiring (stack slot elem : Nat) (s : State) : Host.Outcome State Fault Refusal :=
  occurs s (s.controlFiring stack slot elem)

/-- R305. FAULT_STALL_PASS: at once, outside the element's choice. -/
def State.stallPass (s : State) (stack slot e : Nat) : Option State := do
  let E ← s.elem? stack slot e
  match E.stall with
  | .fires f => if E.enabled (.fires f) then some (s.applyFiring E f) else none
  | _ => none

def execFaultStallPass (stack slot elem : Nat) (s : State) : Host.Outcome State Fault Refusal :=
  occurs s (s.stallPass stack slot elem)

/-- R277. CIRCUIT_TOKEN_ARRIVAL: a token reaches a receiver, in the order of its circuit; a context that is free takes nothing. A
damaged token ends the tile with MEM_DATA (R25). -/
def State.circuitArrival (s : State) (stack slot index : Nat) : Option State := do
  let R ← s.residency? stack slot
  let F ← R.fab
  let f ← F.flying[index]?
  if (F.flying.take index).any fun g => g.inlet = f.inlet then none
  else if (overLink (Config.linkError s.tick) f.item.tok).damaged then
    let r (source place : Nat) : Record := s.twillRecord R .memData source 3 place 0 (F.tileIndex f.item.origin)
    some (s.endByFault stack slot (match f.inlet with
      | .port e _ => r 4 (elemPlace stack e)
      | .node i => r 3 (nodePlace stack ((PMap.get? F.nodes i).map (·.number) |>.getD 0))))
  else
    some ((s.countCorrection (dieOfStack stack) (Config.linkError s.tick)).modFabric stack slot fun F =>
      let F : Fabric := { F with flying := F.flying.take index ++ F.flying.drop (index + 1) }
      match f.inlet with
      | .port e p =>
        { F with elems := PMap.update F.elems e fun x =>
            if x.passed then x else { x with bufs := PMap.insert x.bufs p (PMap.getD x.bufs p [] ++ [f.item]) } }
      | .node i => { F with nodes := PMap.update F.nodes i fun n => { n with buf := n.buf ++ [f.item] } })

def execCircuitTokenArrival (stack slot index : Nat) (s : State) : Host.Outcome State Fault Refusal :=
  occurs s (s.circuitArrival stack slot index)

/-! ### AG nodes -/

/-- The agents of a residency's loaders and storers (R214, R404). -/
def Residency.agent (R : Residency) : Agent := { asid := R.asid, sup := R.sup, team := 0, means := .loader }
def Residency.storerAgent (R : Residency) : Agent := { R.agent with means := .storer }

/-- The traffic of elements in units of 64 bytes (R257). -/
def unitsOf (n w : Nat) : Nat := (n * w + 511) / 512

/-- A fault of a node's record (R440, R445): a PAGE fault on a load stalls the node, any other ends the residency. -/
def State.nodeFault (s : State) (stack slot i out : Nat) (R : Residency) (n : AgNode) (r : Rec) (k : Nat) (f : XlatFault) : State :=
  let rec_ := s.twillRecord R f.code 2 f.level (nodePlace stack n.number) (addrOfBit (r.bitAddr k))
    (r.indices (if f.code = .page then k else r.tileStart k))
  if f.code = .page then s.loadFault stack slot i out rec_ else s.endByFault stack slot rec_

/-- A loader's tile has sent its last token: the end-of-tile token is due, and the accumulators of a `mac` take their moment (R254,
R325). -/
def AgNode.tileSent (n : AgNode) (r : Rec) : AgNode :=
  { n with
    tileOpen := false, eotDue := r.eot, tile := n.tile + 1, tileTok := 0, mac := n.mac.ended (n.tile + 1), cuts := n.cuts ++ [(n.pos, 0)] }

/-- The next token of a codec load (R271): each element is read once; once everything has been sent, the status word is written, and an
end with an error follows where the counts differ. -/
def State.codecIssue (s : State) (stack slot i : Nat) (R : Residency) (n : AgNode) (r : Rec)
    (send : State → Token → (AgNode → AgNode) → State) : Option State :=
  match r.codecStep n.part n.pos n.tile with
  | .read upto =>
    if r.fused ≠ 0 then none
    else
      let (s, xs, fault) := s.readRun R.agent r n.part.length (upto - n.part.length)
      let s := s.modNode stack slot i fun n => { n with part := n.part ++ xs.map some }
      some (match fault with
        | some (k, f) => s.nodeFault stack slot i i R n r k f
        | none => s)
  | .send part last =>
    let next (n : AgNode) : AgNode :=
      let n := { n with pos := n.pos + part.length }
      if last then n.tileSent r else { n with tileTok := n.tileTok + 1 }
    some (if part = [] then s.modNode stack slot i next else send s (partToken r.sentWidth part 0 n.tileTok) next)
  | .done c =>
    match s.statusPlace R.agent r.status with
    | .error f => some (s.nodeFault stack slot i i R n r r.elements f)
    | .ok place =>
      let s := s.writeStatus place c.word
      some (if c.equal then s.modNode stack slot i fun n => { n with endDue := 1 }
        else send s (controlToken .endOfStreamError (wordsOfNat 2 c.word.toNat) 0) fun n => { n with endDue := 2 })

/-- A loader's record has ended, with the token that says so or without one (R254): that is a tile of its own for a replay. -/
def AgNode.streamEnded (n : AgNode) : AgNode := { n with ended := true, tile := n.tile + 1, cuts := n.cuts ++ [(n.pos, 0)] }

/-- The traffic that a loader pays before the tile that it stands at (R257, R391), in units of 64 bytes; none where no tile is left. The
elements of a codec load with eot = 0 are paid with its first tile. -/
def AgNode.tileTraffic (n : AgNode) (r : Rec) : Option Nat :=
  let w := typeWidth r.type
  if r.codec = 0 then (if n.pos < r.elements then some (unitsOf (r.tileEnd n.pos - n.pos) w) else none)
  else match r.codecStep n.part n.pos n.tile with
    | .done _ => none
    | _ =>
      if r.eot then some (unitsOf (r.tileEnd (n.tile * r.tileElems) - n.tile * r.tileElems) w)
      else some (if n.tile = 0 then unitsOf r.elements w else 0)

/-- R254, R391. AG_LOADER_ISSUE: the next token of a loader, after the payment of a new tile's traffic; a short budget begins a
drain. -/
def State.loaderIssue (s : State) (stack slot i : Nat) : Option State := do
  let (R, F) ← s.running? stack slot
  let n ← PMap.get? F.nodes i
  match n.binding, n.role with
  | .record ws _, .loader =>
    let r := recOf ws
    let who := R.agent
    if n.fault.isSome ∨ n.ended ∨ n.sent ∨ n.stopped ∨ F.canFeed i = false then none
    else
      let send (s : State) (tok : Token) (f : AgNode → AgNode) : State :=
        (s.modNode stack slot i f).modFabric stack slot fun F =>
          F.feed i tok (lineageOf i (if tok.kind = .endOfTile then n.tile - 1 else n.tile))
      if n.eotDue then
        let first := (n.tile - 1) * r.tileElems
        some (send s (controlToken .endOfTile ((r.indices first).map (BitVec.ofNat 32)) 0) fun n => { n with eotDue := false })
      else if n.atBoundary ∧ R.drain.isSome then some (s.modNode stack slot i fun n => { n with stopped := true })
      else if n.recordEnded R then
        if R.lastImage then
          let s := s.freeUnits (.node stack slot i)
          some (if n.endDue = 2 then s.modNode stack slot i AgNode.streamEnded else send s (controlToken .endOfStream [] 0) AgNode.streamEnded)
        else none
      else
        match (if n.tileOpen then none else n.tileTraffic r) with
        | some units =>
          if R.tbud < units then
            some (s.modResidency stack slot fun R => { R with drain := some .traffic, shortfall := units })
          else
            some ((s.modResidency stack slot fun R => { R with tbud := R.tbud - units }).modNode stack slot i fun n =>
              { n with tileOpen := true })
        | none =>
          if r.codec ≠ 0 then s.codecIssue stack slot i R n r send
          else
            let stop := r.tileEnd (if n.part = [] then n.pos else n.pos - 1)
            let full := decide (n.part.length = r.perToken ∨ (n.pos = stop ∧ n.part ≠ []))
            let next (n : AgNode) : AgNode :=
              let n := { n with part := [] }
              if n.pos = stop then n.tileSent r else { n with tileTok := n.tileTok + 1 }
            if r.fused ≠ 0 then
              if full = false then none
              else
                let s := if n.pos = stop then s.commitMac n.mac.pending else s
                if r.fused = 3 then some (s.modNode stack slot i next)
                else some (send s (partToken (typeWidth r.type) n.part 0 n.tileTok) next)
            else
              let (s, xs, f) := s.readRun who r n.pos (Nat.min (r.perToken - n.part.length) (stop - n.pos))
              let took (n : AgNode) : AgNode := { n with part := n.part ++ xs.map some, pos := n.pos + xs.length }
              match f with
              | some (k, f) => some ((s.modNode stack slot i took).nodeFault stack slot i i R n r k f)
              | none =>
                some (send s (partToken (typeWidth r.type) (took n).part 0 n.tileTok) fun n => next (took n))
  | _, _ => none

/-- R452: the stall of a loader is over with its next issue. -/
def State.nodeIssued (s : State) (stack slot i : Nat) : State :=
  match s.residency? stack slot with
  | none => s
  | some R =>
    match R.fab.bind fun F => PMap.get? F.nodes i with
    | some n =>
      (match n.stallFrom, n.fault with
        | some since, none => (s.stallEnds stack R.asid since).modNode stack slot i fun n => { n with stallFrom := none }
        | _, _ => s)
    | none => s

def execAgLoaderIssue (stack slot node : Nat) (s : State) : Host.Outcome State Fault Refusal :=
  occurs s ((s.loaderIssue stack slot node).map fun s => s.nodeIssued stack slot node)

/-- The logical context that a physical slot holds. -/
def Fabric.logical (F : Fabric) (slot : Nat) : Nat := F.slots.findIdx (· == slot)

/-- The receiver in a logical context that a request's tag names, with the reply circuit that leads to it (R269). -/
def Fabric.consumer (F : Fabric) (replies : List Nat) (ctx : Nat) (tag : W16) : Option (Nat × Inlet) :=
  let named : Inlet := .port (elemKey ctx (bitsOf tag.toNat 0 3) (bitsOf tag.toNat 3 5)) (bitsOf tag.toNat 8 2)
  if tag.toNat / 2 ^ 10 ≠ 0 then none
  else replies.findSome? fun j => if (F.inside j).contains named then some (j, named) else none

/-- Whether another node that has not ended answers on a reply circuit too. -/
def Fabric.sharedReply (F : Fabric) (i j : Nat) : Bool :=
  F.nodes.any fun (k, n) => k != i && !n.ended && !n.sent && (match n.role with | .requests js => js.contains j | _ => false)

/-- What a request has been answered with so far, what a `mac` keeps, and the fault at the next element. -/
structure Answer where
  part : List (Option Nat)
  mac : MacRun
  fault : Option (Nat × XlatFault)
  deriving DecidableEq, Repr

/-- The elements of the lanes of a request that are left, each through its bank unit where the record is fused (R269, R324). -/
def State.requested (s : State) (who : Streamer) (agent : Agent) (r : Rec) (q : Token) : Nat → Answer → State × Answer
  | 0, a => (s, a)
  | n + 1, a =>
    let l := a.part.length
    let k := (q.data.getD l 0).toNat
    if laneBit q.valid l = false then s.requested who agent r q n { a with part := a.part ++ [none] }
    else if r.fused ≠ 0 then
      match s.fusedRead who agent r a.mac k with
      | .faulted code d _ _ => (s, { a with fault := some (k, ⟨code, d⟩) })
      | .taken s v m => s.requested who agent r q n { a with part := a.part ++ [v], mac := m }
    else
      match s.readElement agent r k with
      | .error f => (s, { a with fault := some (k, f) })
      | .ok v => (s.passElements agent r k 1).requested who agent r q n { a with part := a.part ++ [some v] }

/-- A node's tile of requests ends (R325): the accumulators of its `mac` take their moment, and after its last tile are combined. -/
def State.requestTileEnds (s : State) (stack slot i : Nat) (n : AgNode) (r : Rec) (last : Bool) : State :=
  let m := n.mac.ended 0
  let s := s.commitMac n.mac.pending
  (if last ∧ r.fused = 3 ∧ r.combine ≠ 0 then s.combineAll r.combine m.reached else s).modNode stack slot i fun n => { n with mac := m }

/-- R269. AG_LOADER_REQUEST: a node takes its next request and sends the elements, in order, to the consumer that the tag names, in the
request's context; other ends of the circuit pass to the reply circuits. A `mac` sends no data (R325), and requests that a replay brings
again do not pass its units again (R290). -/
def State.loaderRequest (s : State) (stack slot i : Nat) : Option State := do
  let (R, F) ← s.running? stack slot
  let n ← PMap.get? F.nodes i
  let q ← n.buf.head?
  match n.binding, n.role with
  | .record ws _, .requests replies =>
    let r := recOf ws
    if n.fault.isSome ∨ n.sent then none
    else
      let ctx := F.logical q.tok.ctx.toNat
      let mac := decide (r.fused = 3)
      let repeated := decide (n.taken.length < n.done)
      let bad (code : FaultCode) : State :=
        s.endByFault stack slot (s.twillRecord R code 2 0 (nodePlace stack n.number) 0 (F.tileIndex q.origin))
      let took (settled : Bool) (n : AgNode) : AgNode :=
        { n with
          buf := n.buf.tail, part := [], pos := 0, taken := q.origin :: n.taken
          done := if settled then Nat.max n.done (n.taken.length + 1) else n.done }
      let answer (s : State) (settled : Bool) (to_ : List (Nat × List Inlet)) (tok : Token) (f : AgNode → AgNode) : State :=
        (s.modNode stack slot i fun n => f (took settled n)).modFabric stack slot fun F =>
          to_.foldl (fun F c => F.put (192 + c.1) ctx c.2 ⟨tok, q.origin, F.nextId, q.id :: q.anc⟩) F
      match q.tok.kind with
      | .data =>
        match F.consumer replies ctx q.tok.tag with
        | none => some (bad .badHandle)
        | some (reply, inlet) =>
          if F.hasSlot inlet = false ∧ mac = false then none
          else if (lanesOf q.tok.valid).any fun l => r.elements ≤ (q.tok.data.getD l 0).toNat then some (bad .badHandle)
          else if typeWidth r.type = 64 then some (bad .badHandle)
          else if mac ∧ repeated then some (s.modNode stack slot i (took false))
          else
            let units := unitsOf (maskCount q.tok.valid) (typeWidth r.type)
            if n.tileOpen = false ∧ R.tbud < units then
              (if R.drain.isSome then none
                else some (s.modResidency stack slot fun R => { R with drain := some .traffic, shortfall := units }))
            else
              let s := if n.tileOpen then s else s.modResidency stack slot fun R => { R with tbud := R.tbud - units }
              let (s, a) := s.requested (.node stack slot i) R.agent r q.tok (16 - n.part.length) ⟨n.part, n.mac, none⟩
              match a.fault with
              | some (k, f) =>
                some ((s.modNode stack slot i fun n => { n with part := a.part, mac := a.mac, tileOpen := true }).nodeFault
                  stack slot i reply R n r k f)
              | none =>
                let kept (n : AgNode) : AgNode := { n with mac := a.mac, tileOpen := false }
                let tok := dataToken (a.part.map fun v => BitVec.ofNat 32 (v.getD 0)) (maskOf fun l => (a.part.getD l none).isSome) q.tok.tag
                some (if mac then s.modNode stack slot i fun n => kept (took false n) else answer s true [(reply, [inlet])] tok kept)
      | .endOfTile =>
        match F.consumer replies ctx q.tok.tag with
        | none => some (bad .badHandle)
        | some (reply, inlet) =>
          if F.hasSlot inlet then
            some (answer (if repeated then s else s.requestTileEnds stack slot i n r false) true [(reply, [inlet])] q.tok id)
          else none
      | .faultStall => some (s.modNode stack slot i fun n => { n with buf := n.buf.tail })
      | kind =>
        let to_ := replies.filter fun j => !F.sharedReply i j
        if (to_.all F.canFeed) = false then none
        else if kind = .reconfig then
          some (((s.modNode stack slot i fun n => { n with buf := n.buf.tail, sent := true }).modFabric stack slot fun F =>
            to_.foldl (fun F j => F.put (192 + j) ctx (F.inside j) ⟨q.tok, [], F.nextId, []⟩) F).freeUnits (.node stack slot i))
        else
          let s := if repeated then s else s.requestTileEnds stack slot i n r true
          some ((answer s true (to_.map fun j => (j, F.inside j)) q.tok fun n => { n with ended := true }).freeUnits (.node stack slot i))
  | _, _ => none

def execAgLoaderRequest (stack slot node : Nat) (s : State) : Host.Outcome State Fault Refusal :=
  occurs s ((s.loaderRequest stack slot node).map fun s => s.nodeIssued stack slot node)

/-- A storer's fault (R444, R445). -/
def State.storerFault (s : State) (stack slot i : Nat) (R : Residency) (n : AgNode) (r : Rec) (k : Nat) (code : FaultCode) (d : Nat)
    (addr : W64) : State :=
  let rec_ := s.twillRecord R code 3 d (nodePlace stack n.number) addr (r.indices (r.tileStart k))
  if code = .page then s.storeFault stack slot (some i) rec_ else s.endByFault stack slot rec_

/-- What a storer does with a token of its circuit: it takes it for the tile in progress, ends a tile or its stream with it, or discards
it. A token that leaves nothing for the tile's end has had its effect when nothing stood before it. -/
def AgNode.takes (n : AgNode) (q : Carried) (settled : Bool) : AgNode :=
  { n with
    buf := n.buf.tail, taken := q.origin :: n.taken
    done := if settled && n.tileTok = 0 && n.done = n.taken.length then n.done + 1 else n.done }

/-- R254. AG_STORER_TOKEN: a storer takes its next token. Positions past the tile, or past the record's last element, are discarded.
With eot = 0 a tile ends after 4,096 tokens, and the last one with the stream. A storer whose fault is being drained discards what
comes (R444), and what a replay brings again beyond its restart has no second effect (R290). -/
def State.storerToken (s : State) (stack slot i : Nat) : Option State := do
  let (R, F) ← s.running? stack slot
  let n ← PMap.get? F.nodes i
  let q ← n.buf.head?
  match n.binding, n.role with
  | .record ws _, .storer _ =>
    let r := recOf ws
    let repeated := decide (n.taken.length < n.done)
    if n.tileDue ∨ n.sent ∨ (n.ended ∧ repeated = false) then none
    else
      let take (settled : Bool) (f : AgNode → AgNode) : State := s.modNode stack slot i fun n => f (n.takes q settled)
      let held (n : AgNode) : AgNode :=
        { n with
          pendIds := if F.fenced then n.pendIds ++ [q.id] else n.pendIds
          tileTok := n.tileTok + 1, tileDue := !r.eot && decide (n.tileTok + 1 = 4096) }
      if q.tok.kind = .faultStall then some (s.modNode stack slot i fun n => { n with buf := n.buf.tail })
      else if (R.halts.any fun o => o.node == some i) ∨ repeated then some (take false id)
      else match q.tok.kind with
        | .data =>
          if r.codec ≠ 0 then some (take false fun n => held { n with coded := n.coded ++ [tokenWords q.tok] })
          else
            let xs := tokenElements (typeWidth r.type) q.tok
            let stop := if r.eot then r.tileEnd (if n.eotDue then n.pos - 1 else n.pos) else r.elements
            let fit := if n.eotDue then [] else xs.take (stop - n.pos)
            match s.firstBad R.storerAgent r n.pos fit with
            | some (k, code, d) => some (s.storerFault stack slot i R n r k code d (addrOfBit (r.bitAddr k)))
            | none =>
              some (take false fun n =>
                let pos := n.pos + fit.length
                held { n with
                  pos := pos, eotDue := r.eot && (n.eotDue || decide (pos = stop ∧ fit ≠ []))
                  pending := ((List.range fit.length).zip fit).foldl (fun m p => PMap.insert m (n.pos + p.1) p.2) n.pending })
        | .endOfTile => some (if r.eot then take false fun n => { n with tileDue := true } else take true id)
        | .endOfStream => some (take false fun n => { n with tileDue := true, endDue := 1 })
        | .endOfStreamError => some (take false fun n => { n with tileDue := true, endDue := 2, endData := q.tok.data })
        | .reconfig => some (s.modNode stack slot i fun n => { n with buf := n.buf.tail, tileDue := true, endDue := 3 })
        | _ => some (take true id)
  | _, _ => none

def execAgStorerToken (stack slot node : Nat) (s : State) : Host.Outcome State Fault Refusal :=
  occurs s (s.storerToken stack slot node)

/-- Whether a storer holds something that its tile's end performs: elements, what a codec transfer has taken and not yet written, or
the tile that an end-of-tile token ends. -/
def AgNode.holdsTile (n : AgNode) (r : Rec) : Bool :=
  n.endDue = 0 || !n.pending.isEmpty || n.tileTok ≠ 0 || (r.codec ≠ 0 && n.eotDue = false)

/-- The token with which a storer tells, on its circuit, of a tile whose stores are performed, or of its end (R220, R221). -/
def AgNode.tells (n : AgNode) (r : Rec) (R : Residency) (F : Fabric) (told : Nat) : Token :=
  if n.holdsTile r then controlToken .endOfTile ((r.indices (if r.eot then n.tile * r.tileElems else (n.cuts.getLast?.getD (0, 0)).1)).map (BitVec.ofNat 32)) 0
  else match n.endDue with
    | 1 => controlToken .endOfStream [] 0
    | 2 => controlToken .endOfStreamError n.endData 0
    | _ => R.reconfigToken F (F.contextOf told)

/-- R221, R254, R391. AG_TILE_END: the stores of a storer's tile take their moments, and its traffic is deducted; a storer that has
performed its last tile ends. Each is told on the storer's circuit, where it has one; what a drain has taken from that circuit is told
again first (R290). An element that can no longer be stored is a fault of the tile (R1). -/
def State.agTileEnd (s : State) (stack slot i : Nat) : Option State := do
  let (R, F) ← s.running? stack slot
  let n ← PMap.get? F.nodes i
  match n.binding, n.role with
  | .record ws _, .storer told =>
    let r := recOf ws
    let who : Streamer := .node stack slot i
    match told.bind fun j => ((PMap.get? F.nodes j).bind AgNode.again).map fun tok => (j, tok) with
    | some (j, tok) => if F.canFeed j then some (s.modFabric stack slot fun G => G.feedKept j tok) else none
    | none =>
    if n.tileDue = false ∨ (R.halts.any fun o => o.node == some i) ∨ told.any (fun j => F.canFeed j = false) then none
    else
      let tell (s : State) : State := match told with
        | some j => s.modFabric stack slot fun G => if n.endDue = 3 ∧ n.holdsTile r = false then G.feed j (n.tells r R F j) else G.feedKept j (n.tells r R F j)
        | none => s
      let done (s : State) (count pos : Nat) : State :=
        tell ((s.modResidency stack slot fun R => { R with tbud := R.tbud - unitsOf count (typeWidth r.type) }).modNode stack slot i fun n =>
          { n with
            pending := [], pendIds := [], tileTok := 0, pos := pos, tile := n.tile + 1, cuts := n.cuts ++ [(pos, n.coded.length)]
            done := n.taken.length, eotDue := r.codec ≠ 0 && n.endDue ≠ 0, tileDue := decide (n.endDue ≠ 0) })
      let fault (bad : FaultCode × Nat × W64) : State := s.storerFault stack slot i R n r (n.cuts.getLast?.getD (0, 0)).1 bad.1 bad.2.1 bad.2.2
      if n.holdsTile r = false then
        some (tell (s.modNode stack slot i fun n =>
          { n with
            done := n.taken.length, ended := decide (n.endDue = 1 ∨ n.endDue = 2), sent := decide (n.endDue = 3), tileDue := false, endDue := 0 }))
      else if r.codec ≠ 0 then
        let last := decide (n.endDue ≠ 0)
        let c := r.codedTokens n.coded
        let now := ((c.ready last).take r.elements).drop n.pos
        match s.storable R.storerAgent r n.pos now r.status last with
        | .error bad => some (fault bad)
        | .ok place =>
          some (done ((s.storeInOrder who R.storerAgent r n.pos now).writeStatus place c.word) now.length (n.pos + now.length))
      else
        match s.unstorable R.storerAgent r (n.pending.map fun p => (p.1, some p.2)) with
        | some bad => some (fault bad)
        | none =>
          let pos := if r.eot ∧ n.endDue = 0 ∧ n.eotDue = false then r.tileEnd n.pos else n.pos
          some (done (s.storePending R.storerAgent who r n.pending) n.pending.length pos)
  | _, _ => none

def execAgTileEnd (stack slot node : Nat) (s : State) : Host.Outcome State Fault Refusal :=
  occurs s (s.agTileEnd stack slot node)

/-! ### Link port nodes -/

/-- The token of a circuit as a core channel or a queue takes it. -/
def outside (tok : Token) (chan : Nat) (tag : W16) : Token := { tok with chan := BitVec.ofNat 8 chan, ctx := 0, tag := tag }

/-- The running peer of a binding, once the image that it names runs (R296): its stack, slot and fabric. -/
def State.peer? (s : State) (id : W32) (image : Nat) : Option (Nat × Nat × Fabric) := do
  let (n, k) ← s.residencyOf id
  let (_, F) ← s.running? n k
  if F.image = image then some (n, k, F) else none

/-- Whether an end of a circuit to a peer takes a token now: it runs and holds nothing that a replay sends first. -/
def Fabric.linkOpen (F : Fabric) (j : Nat) : Bool :=
  match PMap.get? F.nodes j with
  | some p => p.role == .link && !p.ended && !p.sent && !p.stopped && p.again.isNone
  | none => false

/-- The next token of an outgoing circuit goes to its channel, queue or peer circuit (R296); a fault-stall token is absorbed (R441), and
what a replay brings again is not sent again (R1). -/
def State.linkOut (s : State) (stack slot i : Nat) (n : AgNode) : Option State := do
  let q ← n.buf.head?
  let took (n : AgNode) : AgNode := { n with buf := n.buf.tail, taken := q.origin :: n.taken, done := Nat.max n.done (n.taken.length + 1) }
  let repeated := decide (n.taken.length < n.done)
  let gone := s.modNode stack slot i fun n =>
    let n := took n
    if q.tok.kind = .endOfStream ∨ q.tok.kind = .endOfStreamError then { n with ended := true } else n
  if n.sent ∨ (n.ended ∧ repeated = false) then none
  else match q.tok.kind with
    | .faultStall => some (s.modNode stack slot i fun n => { n with buf := n.buf.tail })
    | .reconfig => some (s.modNode stack slot i fun n => { n with buf := n.buf.tail, sent := true })
    | kind =>
      if repeated then some gone
      else match n.binding with
        | .channel core chan tag =>
          if s.channelRoom core chan = 0 then none else some (gone.send core chan (.linkPort stack slot i) (outside q.tok chan tag))
        | .queue qn => if (s.queue qn).takes 1 then some (gone.enqueue qn (outside q.tok 0 q.tok.tag)) else none
        | .peer id j m =>
          match s.peer? id m with
          | none => none
          | some (st, sl, G) =>
            if G.linkOpen j = false then none
            else if kind = .endOfStream ∨ kind = .endOfStreamError then
              some (gone.modNode st sl j fun p => { p with stopped := true })
            else if G.canFeed j then some (gone.modFabric st sl fun G => G.feedKept j q.tok)
            else none
        | .record _ _ => none

/-- The next token of an incoming circuit: what a replay sends again, or else the head of its queue (R296). A damaged entry is not
consumed (R25). -/
def State.linkIn (s : State) (stack slot i : Nat) (R : Residency) (F : Fabric) (n : AgNode) : Option State :=
  if n.sent ∨ n.ended ∨ R.drain.isSome ∧ (R.stopping = false ∧ n.stopped = false ∨ n.again.isSome) then none
  else match n.again with
  | some tok => if F.canFeed i then some (s.modFabric stack slot fun F => F.feedKept i tok) else none
  | none =>
    if n.stopped ∨ R.stopping then
      if R.lastImage ∧ F.canFeed i then
        some ((s.modNode stack slot i AgNode.streamEnded).modFabric stack slot fun F =>
          F.feed i (controlToken .endOfStream [] 0) (lineageOf i n.tile))
      else none
    else
      match n.binding with
      | .queue qn => do
        let Q := s.queue qn
        let at_ ← Q.popIndex false
        let e ← Q.entries[at_]?
        if F.canFeed i = false then none
        else if e.tok.damaged then
          some (s.endByFault stack slot (s.twillRecord R .memData 2 3 (nodePlace stack n.number) 0 []))
        else
          let s := s.modQueue qn fun Q => Q.remove at_
          some (match e.tok.kind with
            | .endOfStream | .endOfStreamError => s.modNode stack slot i fun n => { n with stopped := true }
            | .config | .reconfig | .faultStall => s
            | _ => s.modFabric stack slot fun F => F.feedKept i e.tok)
      | _ => none

/-- R296. LINK_PORT_NODE_TRANSFER: an outgoing circuit's next token goes to its channel, queue or peer circuit; an incoming circuit
takes the head of its queue. Ends of a stream that come from outside end the node's record; fault-stall and reconfiguration tokens
are absorbed (R441). -/
def State.linkTransfer (s : State) (stack slot i : Nat) : Option State := do
  let (R, F) ← s.running? stack slot
  let n ← PMap.get? F.nodes i
  if n.role ≠ .link then none
  else if F.extout.testBit i then s.linkOut stack slot i n
  else s.linkIn stack slot i R F n

def execLinkPortNodeTransfer (stack slot circuit : Nat) (s : State) : Host.Outcome State Fault Refusal :=
  occurs s (s.linkTransfer stack slot circuit)

end Sys2Proof.Machine
end

