-- ==== Sys2Proof/Machine/TwillPlace.lean ====
section
/-! DEFINITION. The Twill scheduler (R283 to R292, R391, R440 to R444): placement, loading, reconfiguration, drain-and-switch, the end of
a residency, and the notify registers of the AG nodes. -/
namespace Sys2Proof.Machine

/-! ### What an element context, a node and a fabric are at a start -/

/-- A context as it was loaded (R285): operator, constants, switch table and links, with no token and no state. -/
def ElemCtx.fresh (x : ElemCtx) (key : Nat) : ElemCtx where
  op := x.op
  consts := x.consts
  outs := x.outs
  ins := x.ins
  gens := match x.op with | some (i, _) => if drawsValues i then elemSeeds key else [] | none => []
  reg := match x.op with | some (.carry, w) => some (initialToken x w) | _ => none
  regOrigin := match x.op with | some (.carry, _) => lineageOf (64 + key) 0 | _ => []
  phase := match x.op with | some (.mbarvWait ph, _) => ph | _ => 0

/-- Whether a context runs an `iter` without a trigger, which sends one sequence (R318). -/
def ElemCtx.sequence (x : ElemCtx) : Bool := match x.op with | some (.iter _, w) => w.a == .none | _ => false

/-- The tile that each source of a fabric sends next: loaders, incoming circuits whose tokens the fabric keeps, and what contexts begin by
themselves. -/
def Fabric.sources (F : Fabric) : PMap Nat :=
  (F.nodes.filterMap fun (i, n) => if F.extout.testBit i then none else some (i, n.tile))
    ++ F.elems.filterMap fun (e, x) => match x.op with
      | some (.carry, _) => some (64 + e, 1)
      | _ => if x.sequence then some (64 + e, if x.n0 = 0 then 0 else 1) else none

/-- Whether a port keeps its head beyond the firing that uses it: that of an invariant, and one that a `carry` drives (R309, R310). -/
def Fabric.keepsHead (F : Fabric) (x : ElemCtx) (p : Nat) : Bool :=
  F.carriedPort x p || match x.op with | some (.inv, w) => portOf w.a == some p | _ => false

/-- Where everything descends from that a drain leaves without its effect (R290): tokens that wait, what contexts keep of a tile in
progress, and the tokens of tiles that nodes discard. -/
def Fabric.unsettled (F : Fabric) : List Lineage :=
  (F.nodes.flatMap fun (_, n) => n.buf.map (·.origin) ++ n.taken.take (n.taken.length - n.done))
    ++ F.elems.flatMap fun (_, x) => x.lost :: (if x.sequence then [] else x.held)
      :: x.bufs.flatMap fun (p, b) => if F.keepsHead x p then [] else b.map (·.origin)

/-- The marks of a context from the first on that a replay reaches, oldest first. -/
def ElemCtx.reached (x : ElemCtx) (starts : PMap Nat) : List (Lineage × TileMark) :=
  x.marks.reverse.dropWhile fun m => !lineageReaches m.1 starts

/-- Earlier starts for the sources of what contexts have consumed beside the tiles that come again: it comes again with them. -/
def Fabric.widen (F : Fabric) : Nat → PMap Nat → PMap Nat
  | 0, starts => starts
  | n + 1, starts =>
    let next := F.elems.foldl (fun m (_, x) => (x.reached starts).foldl (fun m y => lineageLower m y.1) m) starts
    if next = starts then starts else F.widen n next

/-- The first tile of each source that has not committed: there it restarts (R290, R444). -/
def Fabric.restartTiles (F : Fabric) : PMap Nat :=
  F.widen (F.elems.foldl (fun n (_, x) => n + x.marks.length) 1) (F.unsettled.foldl lineageLower F.sources)

/-- A context as it stood before the first tile that comes again (R97, R290, R444), with the head of an invariant that does not. -/
def Fabric.rewound (F : Fabric) (starts : PMap Nat) (x : ElemCtx) : ElemCtx :=
  let y := match x.reached starts with | [] => x | m :: _ => x.backTo m.2
  let marks := (x.marks.reverse.takeWhile fun m => !lineageReaches m.1 starts).reverse
  { y with
    marks := marks, seen := marks.foldl (fun d m => lineageJoin d m.1) [], lost := [], since := none, passed := false
    bufs := x.bufs.filterMap fun (p, b) =>
      if F.keepsHead x p && !F.carriedPort x p then some (p, b.filter fun t => !lineageReaches t.origin starts) else none }

/-- A rewound context in a fabric that has been loaded again (R290): its tokens have the context tag of the slot that it stands in. -/
def Fabric.resumed (F : Fabric) (v : Saved) (key : Nat) (x : ElemCtx) : ElemCtx :=
  match PMap.get? v.contexts key with
  | none => x
  | some o =>
    if o.op ≠ x.op then x
    else
      { o with
        consts := x.consts, outs := x.outs, ins := x.ins
        bufs := o.bufs.map fun (p, b) => (p, b.map fun t =>
          { t with tok := { t.tok with ctx := BitVec.ofNat 2 (F.slots.getD (key / 256) 0) } }) }

/-- A node restarted at its first tile that has not committed (R290, R444), from what it was before: a loader at the tile of its own, a
storer or an outgoing link node behind what has had its effect, an incoming one with the tokens that it sends again. -/
def AgNode.restarted (n o : AgNode) (i : Nat) (starts : PMap Nat) : AgNode :=
  let fresh : AgNode := { role := n.role, binding := n.binding, number := n.number }
  let t := PMap.getD starts i o.tile
  let kept := (o.taken.reverse.takeWhile fun d => !lineageReaches d starts).reverse
  let mac : MacRun := { o.mac with pending := [] }
  let codec : Bool := match o.binding with | .record ws _ => (recOf ws).codec != 0 | _ => false
  if o.binding ≠ n.binding ∨ o.role ≠ n.role then fresh
  else match n.role with
    | .loader =>
      let cuts := o.cuts.take t
      { fresh with
        pos := (cuts.getLast?.getD (0, 0)).1, cuts := cuts, tile := t, mac := mac, part := if codec then o.part else []
        endDue := if t = o.tile then o.endDue else 0, ended := o.ended && decide (t = o.tile) }
    | .storer _ | .requests _ =>
      let (pos, coded) := o.cuts.getLast?.getD (0, 0)
      { fresh with
        pos := pos, coded := o.coded.take coded, cuts := o.cuts, tile := o.tile, mac := mac, taken := kept, done := o.done, ended := o.ended }
    | .reply => { fresh with tile := t, log := o.log }
    | .link =>
      { fresh with
        tile := t, log := o.log, taken := kept, done := o.done, stopped := o.stopped
        ended := o.ended && (o.taken ≠ [] || decide (t = o.tile)) }

/-- A fabric at the start of its image, or at the tiles at which what was saved of it restarts. -/
def Fabric.startAt (F : Fabric) (saved : Option Saved) : Fabric :=
  let elems := F.elems.map fun (e, x) =>
    let x := x.fresh e
    (e, match saved with | some v => F.resumed v e x | none => x)
  let nodes := F.nodes.map fun (i, n) => (i, match saved with
    | some v => (match PMap.get? v.nodes i with
      | some o => n.restarted o i v.starts
      | none => n)
    | none => n)
  let G : Fabric := { F with elems := elems, flying := [], loaded := true, started := true, nodes := nodes }
  G.placeInitial fun d => match saved with | some v => lineageReaches d v.starts | none => true

/-! ### What a drain saves -/

/-- What drain-and-switch keeps of a residency (R290, R97). -/
def Fabric.save (F : Fabric) : Saved :=
  let starts := F.restartTiles
  { image := F.image, starts := starts, contexts := F.elems.map fun (e, x) => (e, F.rewound starts x), nodes := F.nodes }

/-- Bytes that a save writes from a virtual address on, where its page can be written (R290): the manual gives no layout. -/
def State.writeSaved (s : State) (R : Residency) (n : Nat) : State :=
  (List.range ((n + 4095) / 4096)).foldl (fun s i =>
    match s.translate R.asid R.sup .rw (fun w => w == .hbm) (R.save + BitVec.ofNat 64 (4096 * i)) with
    | .ok p => s.writeBytes p.gen p.pa ((List.range (Nat.min 4096 (n - 4096 * i))).map fun k => Config.savedByte s.tick (4096 * i + k))
    | .error _ => s) s

/-! ### Placement -/

/-- Whether a fabric of a residency lies in a region, by its origin and size. -/
def Residency.meets (R : Residency) (F : Fabric) (row col rows cols : Nat) : Bool :=
  decide (R.orow < row + rows ∧ row < R.orow + F.rows ∧ R.ocol < col + cols ∧ col < R.ocol + F.cols)

/-- The slots that a residency takes in a region. -/
def Residency.slotsIn (R : Residency) (row col rows cols : Nat) : List Nat :=
  let of (F : Option Fabric) : List Nat := match F with
    | some F => if R.meets F row col rows cols then F.slots else []
    | none => []
  of R.fab ++ of R.next

/-- The slots that are free in every element of a region, lowest first (R283). -/
def Stack.freeSlots (S : Stack) (row col rows cols : Nat) : List Nat :=
  (List.range 4).filter fun k => S.residencies.all fun (_, R) => !(R.slotsIn row col rows cols).contains k

/-- The origins of regions of a shape, lowest row first, then lowest column (R283). -/
def origins (rows cols : Nat) : List (Nat × Nat) :=
  (List.range (8 / rows)).flatMap fun i => (List.range (32 / cols)).map fun j => (rows * i, cols * j)

/-- The candidate at which a residency is placed (R283): origin and slots. -/
def Stack.candidate (S : Stack) (h : ImageHead) : Option (Nat × Nat × List Nat) :=
  (origins h.rows h.cols).findSome? fun (row, col) =>
    let free := S.freeSlots row col h.rows h.cols
    if h.contexts ≤ free.length then some (row, col, free.take h.contexts) else none

/-- The sets of n slots, lowest first. -/
def slotSets : Nat → List Nat → List (List Nat)
  | 0, _ => [[]]
  | _, [] => []
  | n + 1, k :: rest => (slotSets n rest).map (k :: ·) ++ slotSets (n + 1) rest

/-- The residencies that a candidate of R289 would displace: highest priority, number and slots in the residency table; none where one
of them is not below the given priority. -/
def Stack.occupants (S : Stack) (prio row col : Nat) (h : ImageHead) (slots : List Nat) : Option (Nat × Nat × List Nat) :=
  let who := S.residencies.filter fun (_, R) => (R.slotsIn row col h.rows h.cols).any slots.contains
  if who.any fun (_, R) => prio ≤ R.prio then none
  else some (who.foldl (fun m (_, R) => Nat.max m R.prio) 0, who.length, who.map (·.1))

/-- The residencies that drain for the head residency (R289). -/
def Stack.displaced (S : Stack) (prio : Nat) (h : ImageHead) : List Nat :=
  let all := (origins h.rows h.cols).flatMap fun (row, col) =>
    (slotSets h.contexts [0, 1, 2, 3]).filterMap fun ks => S.occupants prio row col h ks
  let best := all.foldl (fun acc x => match acc with
    | none => some x
    | some y => if x.1 < y.1 ∨ (x.1 = y.1 ∧ x.2.1 < y.2.1) then some x else some y) none
  match best with
  | some (_, _, who) => who
  | none => []

/-- The order of the residency queue: by priority, then by arrival; held residencies are not in it (R283). -/
def Stack.order (S : Stack) : List (Nat × Residency) :=
  let before (a b : Residency) : Bool := decide (b.prio < a.prio ∨ (a.prio = b.prio ∧ a.arrivedAt ≤ b.arrivedAt))
  let rec into (x : Nat × Residency) : List (Nat × Residency) → List (Nat × Residency)
    | [] => [x]
    | y :: rest => if before x.2 y.2 then x :: y :: rest else y :: into x rest
  (S.queued.filter fun (_, R) => !R.held).foldr into []

/-- The header of an image of a residency, or the end of the residency by a fault of the configuration loader (R286, R437, R445). -/
def State.loadHead (s : State) (stack slot image : Nat) (R : Residency) : Except State (State × ImageHead) :=
  let fault (code : FaultCode) (level : Nat) (addr : W64) : State :=
    s.endByFault stack slot (s.twillRecord R code 7 level (loaderPlace image 0) addr [])
  let va := R.images.getD image 0
  match s.imageLines R va.toNat 0 1 with
  | .error (_, f) => .error (fault f.code f.level va)
  | .ok (s', ws) => match imageHead ws with
    | none => .error (fault .linkConfig 0 0)
    | some h => .ok (s', h)

/-- A fabric whose load is under way. -/
def loadingFabric (image : Nat) (h : ImageHead) (slots : List Nat) : Fabric :=
  { image := image, slots := slots, rows := h.rows, cols := h.cols, extused := h.extused, extout := h.extout }

/-- The tile-memory windows of a fabric by physical element, with the row and column of its residency's origin (R273). -/
def Fabric.windows (F : Fabric) (row col : Nat) : List (Nat × Nat × Nat) :=
  F.elems.filterMap fun (e, x) => x.op.bind fun (_, w) =>
    if w.tsize = 0 then none else some (32 * (row + e % 256 / 32) + (col + e % 32), w.tbase.toNat, w.tsize.toNat)

/-- Whether a fabric has a tile-memory window that overlaps one of the others that stand in the same physical elements (R273, R286). -/
def Stack.windowsMeet (S : Stack) (R : Residency) (F : Fabric) : Bool :=
  let others := S.residencies.flatMap fun (_, Q) =>
    (Q.fab.toList ++ Q.next.toList).flatMap fun G =>
      if Q.id = R.id ∧ (G.image = F.image ∨ G.loaded = false) then [] else G.windows Q.orow Q.ocol
  (F.windows R.orow R.ocol).any fun a => others.any fun b =>
    decide (a.1 = b.1 ∧ a.2.1 < b.2.1 + b.2.2 ∧ b.2.1 < a.2.1 + a.2.2)

/-- The fabric that an image gives in the slots of a load, or the end of the residency (R273, R285, R286): a reload finds the shape, the
contexts and the external circuits of the first load. -/
def State.loadImage (s : State) (stack slot : Nat) (R : Residency) (L : Fabric) : Except State (State × Fabric) :=
  let fault (s : State) (code : FaultCode) (level word : Nat) (addr : W64) : State :=
    s.endByFault stack slot (s.twillRecord R code 7 level (loaderPlace L.image word) addr [])
  let va := (R.images.getD L.image 0).toNat
  let form (h : ImageHead) : ImageHead := { h with words := 0 }
  match s.loadHead stack slot L.image R with
  | .error s => .error s
  | .ok (s, h) =>
    if (h.rows, h.cols, h.contexts, h.extused, h.extout) ≠ (L.rows, L.cols, L.slots.length, L.extused, L.extout)
        ∨ (PMap.get? R.heads L.image).any (fun h' => form h ≠ form h') then .error (fault s .linkConfig 0 0 0)
    else
      match s.imageLines R (va + 64) 0 ((h.words + 7) / 8) with
      | .error (i, f) => .error (fault s f.code f.level (8 * i) (BitVec.ofNat 64 (va + 64 + 64 * i)))
      | .ok (s, ws) =>
        let s := (List.range h.words).foldl (fun u n => u.countCorrection (dieOfStack stack) (Config.configError s.tick n)) s
        match (List.range h.words).find? fun n => (overLink (Config.configError s.tick n) (configToken (ws.getD n 0))).damaged with
        | some n => .error (fault s .memData 3 n 0)
        | none =>
        match fabricOf L.image L.slots h ws with
        | .error n => .error (fault s .linkConfig 0 n 0)
        | .ok F =>
          if (s.stack stack).windowsMeet R F then .error (fault s .linkConfig 0 h.words 0)
          else .ok (s.modResidency stack slot fun R => { R with heads := PMap.insert R.heads L.image h }, F)

/-- The residency of the queue's head priority that is placed next, or that ends because its header cannot be read (R283). -/
def State.placeFirst (s : State) (stack : Nat) : List (Nat × Residency) → Option State
  | [] => none
  | (slot, R) :: rest =>
    match s.loadHead stack slot R.image R with
    | .error s => some s
    | .ok (s', h) =>
      match (s'.stack stack).candidate h with
      | some (row, col, slots) =>
        some (s'.modResidency stack slot fun R =>
          { R with state := .loading, suspended := false, orow := row, ocol := col, fab := some (loadingFabric R.image h slots) })
      | none => s.placeFirst stack rest

/-- The residencies that drain for the head of the queue (R289). -/
def State.displaceFor (s : State) (stack slot : Nat) (R : Residency) : Option State :=
  match s.loadHead stack slot R.image R with
  | .error s => some s
  | .ok (s', h) =>
    let who := ((s'.stack stack).displaced R.prio h).filter fun k =>
      match s'.residency? stack k with | some Q => Q.drain.isNone | none => false
    if who = [] then none
    else some (who.foldl (fun s k => s.modResidency stack k fun Q => { Q with drain := some .displaced }) s')

/-- Whether the fabric that an image comes to has windows that meet those of others (R273). -/
def State.windowsTaken (s : State) (R : Residency) (L : Fabric) (h : ImageHead) : Bool :=
  let va := (R.images.getD L.image 0).toNat
  match s.imageLines R (va + 64) 0 ((h.words + 7) / 8) with
  | .error _ => false
  | .ok (_, ws) => match fabricOf L.image L.slots h ws with
    | .error _ => false
    | .ok F => (s.stack R.stack).windowsMeet R F

/-- A standby load that can begin (R291): the next image of a running residency, in free slots of its region, where the windows of its
contexts are free too (R273). -/
def State.standby (s : State) (stack slot : Nat) (R : Residency) : Option State := do
  let F ← R.fab
  if R.state ≠ .running ∨ F.started = false ∨ R.next.isSome ∨ R.lastImage ∨ R.reconfiguring ∨ R.drain.isSome then none
  else
    match s.loadHead stack slot (R.image + 1) R with
    | .error _ => none
    | .ok (s', h) =>
      let free := (s'.stack stack).freeSlots R.orow R.ocol F.rows F.cols
      let L := loadingFabric (R.image + 1) h (free.take h.contexts)
      if h.rows ≠ F.rows ∨ h.cols ≠ F.cols ∨ free.length < h.contexts ∨ s'.windowsTaken R L h then none
      else some (s'.modResidency stack slot fun R => { R with next := some L })

/-- R283, R289, R291. RESIDENCY_PLACEMENT: the scheduler of a stack places the head residency or one of its priority behind it,
or drains the occupants of a candidate for it, or begins a standby load. -/
def State.placement (s : State) (stack : Nat) : Option State :=
  let order := (s.stack stack).order
  let standby := (s.stack stack).residencies.findSome? fun (slot, R) => s.standby stack slot R
  match order with
  | [] => standby
  | (slot, R) :: _ =>
    match s.placeFirst stack (order.filter fun x => x.2.prio = R.prio) with
    | some s => some s
    | none => match s.displaceFor stack slot R with
      | some s => some s
      | none => standby

def execResidencyPlacement (stack : Nat) (s : State) : Host.Outcome State Fault Refusal := occurs s (s.placement stack)

/-! ### Loading and starting -/

/-- The scope that the outside end of a circuit needs of the `welt` at its inside end (R288): 0 none, 1 stack, 2 device. -/
def scopeNeeded (stack : Nat) : Binding → Nat
  | .record _ _ => 0
  | .peer id _ _ => if bitsOf id.toNat 0 4 = stack then 1 else 2
  | .channel _ _ _ | .queue _ => 2

/-- The scope of the `welt` that an element runs, 0 where it runs none. -/
def ElemCtx.weltScope (x : ElemCtx) : Nat :=
  match x.op with
  | some (.welt .stack, _) => 1
  | some (.welt .device, _) => 2
  | _ => 0

/-- The element contexts at the inside end of a circuit. -/
def Fabric.insideElems (F : Fabric) (i : Nat) : List ElemCtx :=
  F.elems.filterMap fun (_, x) =>
    if (x.ins.any fun (_, b) => b.1 = 192 + i) || (x.outs.any fun (_, c) => c = 192 + i) then some x else none

/-- The external circuits that an image uses. -/
def Fabric.used (F : Fabric) : List Nat := (List.range 64).filter F.extused.testBit

/-- The number of the AG node that serves a record: the pseudo-channel of its first element (R15, R254). -/
def State.nodeNumber (s : State) (R : Residency) (r : Rec) : Nat :=
  let find (need : Perm) := s.locateBits R.agent 0 need (r.bitAddr 0) (typeWidth r.type)
  let found : Except XlatFault (List Loc) := match find .r with | .ok xs => .ok xs | .error _ => find .w
  match found with
  | .ok (.mem pa _ :: _) => if windowOf pa = .hbm then bitsOf (s.bankOf pa) 4 6 else 0
  | .ok (.row pa _ :: _) => (match windowOf pa with | .controlRow _ pc _ _ => pc | _ => 0)
  | _ => 0

/-- The logical contexts at the inside end of a circuit. -/
def Fabric.contextsAt (F : Fabric) (i : Nat) : List Nat :=
  F.elems.filterMap fun (e, x) =>
    if (x.ins.any fun (_, b) => b.1 = 192 + i) || (x.outs.any fun (_, c) => c = 192 + i) then some (e / 256) else none

/-- The node of a used circuit (R254, R269, R296); none where a request circuit has no reply circuit in its context (R269). An incoming
circuit that is bound to the record of a storer, whose destination is memory, is the one on which the storer tells of its tiles (R220,
R221). -/
def State.nodeOf (s : State) (R : Residency) (F : Fabric) (bound : Nat → Option Binding) (i : Nat) (b : Binding) : Option AgNode :=
  let same (va : W64) (out : Bool) (kind : Nat) (j : Nat) : Bool :=
    decide (j ≠ i) && (F.extout.testBit j == out)
      && (match bound j with | some (.record ws va') => decide (va' = va ∧ (kind = 4 ∨ (recOf ws).dkind = kind)) | _ => false)
  match b with
  | .record ws va =>
    let r := recOf ws
    let n := s.nodeNumber R r
    if F.extout.testBit i then
      if r.dkind = 1 then
        (match F.used.filter fun j => same va false 4 j && (F.contextsAt j).any (F.contextsAt i).contains with
          | [] => none
          | replies => some { role := .requests replies, binding := b, number := n })
      else some { role := .storer (F.used.find? (same va false 0)), binding := b, number := n }
    else if F.used.any (same va true 1) ∨ (r.dkind = 0 ∧ F.used.any (same va true 0)) then some { role := .reply, binding := b, number := n }
    else some { role := .loader, binding := b, number := n }
  | _ => some { role := .link, binding := b }

/-- The nodes of an image at its start; none where R269, R288 or R296 refuses it. -/
def State.nodesOf (s : State) (R : Residency) (F : Fabric) : Option (PMap AgNode) :=
  let bound (i : Nat) : Option Binding := PMap.get? R.bindings (64 * F.image + i)
  F.used.mapM fun i => do
    let b ← bound i
    let n ← s.nodeOf R F bound i b
    if (F.insideElems i).any fun x => x.weltScope < scopeNeeded R.stack b then none else some (i, n)

/-- An image starts (R285, R291, R296): its nodes and elements, at its beginning or as they were saved; LINK_CONFIG where a
binding is missing or does not fit. -/
def State.startImage (s : State) (stack slot : Nat) (R : Residency) (F : Fabric) : State :=
  match s.nodesOf R F with
  | none => s.endByFault stack slot (s.twillRecord R .linkConfig 7 0 (loaderPlace F.image 0) 0 [])
  | some nodes =>
    let saved := match R.saved with | some v => if v.image = F.image then some v else none | none => none
    s.modResidency stack slot fun R =>
      { R with state := .running, image := F.image, fab := some ({ F with nodes := nodes }.startAt saved), next := none, saved := none }

/-- A suspended residency re-enters the residency queue (R290). -/
def State.requeue (s : State) (stack slot : Nat) (saved : Option Saved) : State :=
  let n := (s.stack stack).nextArrival
  s.modResidency stack slot fun R =>
    { R with state := .queued, suspended := true, fab := none, next := none, drain := none, halts := [], saved := saved, arrivedAt := n }

/-- R285, R291. CONFIG_LOAD_COMPLETE: the load of an image ends; a drain that came during it takes effect. -/
def State.loadComplete (s : State) (stack slot : Nat) : Option State := do
  let R ← s.residency? stack slot
  match R.state, R.fab, R.next with
  | .loading, some L, _ =>
    if R.drain.isSome then some (s.requeue stack slot R.saved)
    else
      match s.loadImage stack slot R L with
      | .error s => some s
      | .ok (s, F) => some (s.startImage stack slot R F)
  | .running, some _, some L =>
    if L.loaded then none
    else if R.drain.isSome then some (s.modResidency stack slot fun R => { R with next := none })
    else
      match s.loadImage stack slot R L with
      | .error s => some s
      | .ok (s, F) => some (s.modResidency stack slot fun R => { R with next := some F })
  | _, _, _ => none

def execConfigLoadComplete (stack slot : Nat) (s : State) : Host.Outcome State Fault Refusal := occurs s (s.loadComplete stack slot)

/-! ### Reconfiguration -/

/-- Whether the move to the next image may go on (R291): there is one, its list entry is released, its standby load is complete if
there is one, and no drain is under way. -/
def Residency.mayReconfigure (R : Residency) : Bool :=
  !R.lastImage && !R.holds.getD (R.image + 1) false && R.drain.isNone
    && (match R.next with | some F => F.loaded | none => true)

/-- R291. RECONFIGURATION_TOKEN_SEND: a loader whose record has ended, or a link port node whose source has, sends the token. -/
def State.reconfigSend (s : State) (stack slot i : Nat) : Option State := do
  let (R, F) ← s.running? stack slot
  let n ← PMap.get? F.nodes i
  let ready : Bool := match n.role with
    | .loader => n.recordEnded R
    | .link => !F.extout.testBit i && n.stopped
    | _ => false
  if ready = false ∨ n.fault.isSome ∨ n.sent ∨ n.ended ∨ R.mayReconfigure = false ∨ F.canFeed i = false then none
  else some (((s.freeUnits (.node stack slot i)).modNode stack slot i fun n => { n with sent := true }).modFabric stack slot fun G =>
    G.feed i (R.reconfigToken F (F.contextOf i)))

def execReconfigurationTokenSend (stack slot node : Nat) (s : State) : Host.Outcome State Fault Refusal :=
  occurs s (s.reconfigSend stack slot node)

/-- Whether an `iter` without a trigger still has tokens to send. -/
def ElemCtx.iterating (x : ElemCtx) : Bool :=
  match x.op with
  | some (.iter _, w) => w.a == .none && !x.flag
  | _ => false

/-- R291. RECONFIGURATION_TOKEN_PASS: a context whose plain inputs all have the token at their heads sends it on every circuit that it
drives and is free; a context that binds no plain input has it from its row entry. -/
def State.reconfigPass (s : State) (stack slot e : Nat) : Option State := do
  let (R, F) ← s.running? stack slot
  let x ← PMap.get? F.elems e
  let plain := (x.ins.map (·.1)).filter fun p => !F.carriedPort x p
  let arrived (p : Nat) : Option Token := match headOf x p with
    | some t => if t.tok.kind = .reconfig then some t.tok else none
    | none => none
  let sources := F.nodes.all fun (i, n) => match n.role with
    | .loader => n.sent
    | .link => F.extout.testBit i || n.sent
    | _ => true
  let ready : Bool := match plain with
    | [] => sources && R.mayReconfigure && !x.iterating
    | _ => plain.all fun p => (arrived p).isSome
  if x.passed ∨ ready = false ∨ (x.outs.any fun (o, _) => !F.canSend x o) then none
  else
    let tok := match plain with
      | [] => R.reconfigToken F (e / 256)
      | p :: _ => (arrived p).getD (R.reconfigToken F (e / 256))
    some (s.modFabric stack slot fun F =>
      let F : Fabric := { F with elems := PMap.insert F.elems e { x with passed := true, bufs := [] } }
      F.sendAll e x [] [] (x.outs.map fun (o, _) => (o, tok)))

def execReconfigurationTokenPass (stack slot elem : Nat) (s : State) : Host.Outcome State Fault Refusal :=
  occurs s (s.reconfigPass stack slot elem)

/-- R291. RECONFIGURATION_START: once every element and every node has taken the token, the standby image starts, or the load of the
next image into the freed slots begins. -/
def State.reconfigStart (s : State) (stack slot : Nat) : Option State := do
  let (R, F) ← s.running? stack slot
  let taken := F.elems.all (fun (_, x) => x.passed) && F.nodes.all (fun (_, n) => n.sent || n.ended || n.role == .reply)
  if taken = false ∨ F.flying ≠ [] ∨ R.lastImage ∨ R.drain.isSome then none
  else
    match R.next with
    | some G => if G.loaded then some (s.startImage stack slot R G) else none
    | none =>
      match s.loadHead stack slot (R.image + 1) R with
      | .error s => some s
      | .ok (s', h) =>
        if h.rows ≠ F.rows ∨ h.cols ≠ F.cols then
          some (s'.endByFault stack slot (s'.twillRecord R .linkConfig 7 0 (loaderPlace (R.image + 1) 0) 0 []))
        else
          let free := (s'.stack stack).freeSlots R.orow R.ocol F.rows F.cols
          let slots := (List.range 4).filter fun k => F.slots.contains k || free.contains k
          if slots.length < h.contexts then none
          else some (s'.modResidency stack slot fun R =>
            { R with state := .loading, image := R.image + 1, fab := some (loadingFabric (R.image + 1) h (slots.take h.contexts)) })

def execReconfigurationStart (stack slot : Nat) (s : State) : Host.Outcome State Fault Refusal := occurs s (s.reconfigStart stack slot)

/-! ### Drain-and-switch -/

/-- Whether an outgoing link port node still has a token that it can pass on. -/
def AgNode.sending (n : AgNode) (s : State) : Bool :=
  n.role == .link && n.buf ≠ []
    && (match n.binding with | .peer id _ m => (s.peer? id m).isSome | _ => true)

/-- Whether nothing of a residency can go on (R290): every loader has stopped at a boundary or can issue nothing, the tokens in flight
have drained, the storers have performed every tile that ends, and no node stands at a fault. A residency that ends waits neither for a
RESUME nor for a receiver that takes nothing (R298, R442). -/
def State.quiet (s : State) (stack slot : Nat) (R : Residency) (F : Fabric) : Bool :=
  F.flying.isEmpty
    && (F.nodes.all fun (i, n) =>
        (if R.drain = some .killed then (s.linkTransfer stack slot i).isNone else n.fault.isNone && !n.sending s)
        && (s.loaderIssue stack slot i).isNone && (s.loaderRequest stack slot i).isNone
        && (s.storerToken stack slot i).isNone && (s.agTileEnd stack slot i).isNone)
    && F.elems.all fun (e, _) => match s.elem? stack slot e with
      | some E => !E.enabled (E.attempt s) && !E.enabled E.stall
      | none => true

/-- The yield record of a residency whose budget is exhausted (R374, R391). -/
def State.yieldResidency (s : State) (R : Residency) (cause : Nat) : State :=
  let x := R.id.toNat + 2 ^ 32 * (cause + 2 ^ 8 * R.prio + 2 ^ 16 * R.asid.toNat) + 2 ^ 128 * R.fbud + 2 ^ 192 * R.tbud
    + 2 ^ 256 * R.shortfall
  if R.yq = 0 then s
  else match s.translate R.asid R.sup .w Window.isQueue R.yq with
    | .ok p => (match windowOf p.pa with
      | .queue q 0 => s.engineEnqueue q (dataToken (wordsOfNat 16 x) 0xFFFF 0)
      | _ => s)
    | .error _ => s

/-- R290, R298, R391, R444. DRAIN_AND_SWITCH: the drain of a residency is complete. What it needs is saved and its slots are freed; after
a budget it is suspended and not queued. A fault drain restarts in place once its fault has been resumed, and an evicted residency of
mode 1 ends. -/
def State.drainAndSwitch (s : State) (stack slot : Nat) : Option State := do
  let (R, F) ← s.running? stack slot
  let cause ← R.drain
  if s.quiet stack slot R F = false then none
  else
    let v := F.save
    let draws := (F.elems.filter fun (_, x) => x.gens ≠ []).length
    if cause = .killed then some (s.endResidency stack slot true)
    else if R.halts.any fun o => !o.resumed then none
    else match cause with
    | .fault =>
      let s := R.halts.foldl (fun s o => s.stallEnds stack R.asid o.since) s
      some (s.modResidency stack slot fun R => { R with drain := none, halts := [], fab := some (F.startAt (some v)) })
    | .firings | .traffic =>
      let s' := (s.writeSaved R (4096 + 64 * draws)).requeue stack slot (some v)
      some ((s'.yieldResidency R (if cause = .firings then 3 else 4)).modResidency stack slot fun R => { R with awaitsBudget := true })
    | _ => some ((s.writeSaved R (4096 + 64 * draws)).requeue stack slot (some v))

def execDrainAndSwitch (stack slot : Nat) (s : State) : Host.Outcome State Fault Refusal := occurs s (s.drainAndSwitch stack slot)

/-- R391. FBUD_EXHAUSTED: drain-and-switch begins when no firing is left. -/
def State.fbudExhausted (s : State) (stack slot : Nat) : Option State := do
  let (R, _) ← s.running? stack slot
  if R.fbud = 0 ∧ R.drain.isNone then some (s.modResidency stack slot fun R => { R with drain := some .firings, shortfall := 1 })
  else none

def execFbudExhausted (stack slot : Nat) (s : State) : Host.Outcome State Fault Refusal := occurs s (s.fbudExhausted stack slot)

/-- R292. RESIDENCY_END: the last image has run, every storer has taken the end of its stream, and every circuit is empty. -/
def State.residencyEnd (s : State) (stack slot : Nat) : Option State := do
  let (R, F) ← s.running? stack slot
  let empty := F.elems.all fun (_, x) => x.bufs.all fun (p, b) => b.isEmpty || F.carriedPort x p
  if R.lastImage && F.flying.isEmpty && empty && (F.nodes.all fun (_, n) => n.role == .reply || n.ended)
      && (F.elems.all fun (_, x) => !x.iterating) then
    some (s.endResidency stack slot false)
  else none

def execResidencyEnd (stack slot : Nat) (s : State) : Host.Outcome State Fault Refusal := occurs s (s.residencyEnd stack slot)

/-- `cfg.evict` at commit (R298): mode 0 drains and switches, in place of a fault drain too; mode 1 ends the residency with its error bit
set. -/
def State.doCfgEvict (s : State) (x : W64) : State :=
  match s.residencyOf (x.setWidth 32) with
  | none => s
  | some (n, k) =>
    match s.residency? n k with
    | none => s
    | some R =>
      if R.state = .ended then s
      else if x.getLsbD 32 then s.killResidency n k
      else if R.state = .queued ∨ (R.drain.isSome ∧ R.drain ≠ some .fault) then s
      else s.modResidency n k fun R => { R with drain := some .evicted }

/-! ### The notify registers of the AG nodes -/

/-- A fault that stands on a stack, with its residency slot: a node's of that number, or one of a fault drain. None where its record still
waits for a number (R438), or where the residency is ending (R423, R448). -/
def State.outstanding? (s : State) (stack node seq : Nat) : Option (Nat × Residency × Option Nat × Outstanding) :=
  if seq = 0 then none
  else (s.stack stack).residencies.findSome? fun (slot, R) =>
    match (if R.drain = some .killed then none else R.fab) with
    | none => none
    | some F =>
      match F.nodes.findSome? (fun (i, n) => match n.fault with
        | some o => if n.number = node ∧ o.seq = seq then some (i, o) else none
        | none => none) with
      | some (i, o) => some (slot, R, some i, o)
      | none => (R.halts.find? fun o =>
          (match o.node with
            | some i => (match PMap.get? F.nodes i with | some n => n.number == node | none => false)
            | none => true) && o.seq == seq && !o.resumed).map fun o => (slot, R, none, o)

/-- R440, R442, R444. RESUME: a loader walks again and goes on, or faults again under a new number; a fault drain restarts its nodes
once it is complete. -/
def State.agResume (s : State) (stack node seq : Nat) : State :=
  match s.outstanding? stack node seq with
  | none => s
  | some (slot, R, some i, o) =>
    (match s.translate R.asid R.sup .r Means.loader.reaches o.record.address with
      | .error ⟨.page, level⟩ =>
        s.resumable stack slot { o.record with detail := level, cycle := s.baseClk stack } fun s o' =>
          s.modNode stack slot i fun n => { n with fault := some { o' with node := some i, since := o.since } }
      | _ => s.modNode stack slot i fun n => { n with fault := none, stallFrom := some o.since })
  | some (slot, _, none, o) =>
    s.modResidency stack slot fun R =>
      { R with halts := R.halts.map fun x => if x = o then { x with resumed := true } else x }

/-- R442. ABORT: the residency ends as by `cfg.evict` mode 1, with a fatal record. -/
def State.agAbort (s : State) (stack node seq : Nat) : State :=
  match s.outstanding? stack node seq with
  | none => s
  | some (slot, _, _, o) =>
    let r : Record := { o.record with resumable := false, fatal := true, cycle := s.baseClk stack }
    ((s.writeRecord r).getD s).killResidency stack slot

/-- R442. A write to a notify register of an AG node; other offsets, other commands and reserved bits are ignored. -/
def State.agNotify (s : State) (stack node offset : Nat) (v : W64) : State :=
  let seq := bitsOf v.toNat 32 32
  if offset ≠ 0 ∨ bitsOf v.toNat 4 28 ≠ 0 then s
  else match bitsOf v.toNat 0 4 with
    | 1 => s.agResume stack node seq
    | 2 => s.agAbort stack node seq
    | _ => s

/-- R442. RESUME and ABORT written by the host through BAR2. -/
def execResume (stack node : Nat) (seq : W32) (s : State) : Host.Outcome State Fault Refusal :=
  occurs s (if stack < 16 ∧ node < 64 ∧ s.hub.phase = .full then some (s.agNotify stack node 0 (BitVec.ofNat 64 (1 + 2 ^ 32 * seq.toNat))) else none)
def execAbort (stack node : Nat) (seq : W32) (s : State) : Host.Outcome State Fault Refusal :=
  occurs s (if stack < 16 ∧ node < 64 ∧ s.hub.phase = .full then some (s.agNotify stack node 0 (BitVec.ofNat 64 (2 + 2 ^ 32 * seq.toNat))) else none)

end Sys2Proof.Machine
end

