-- ==== Sys2Proof/Machine/Banks.lean ====
section
/-! DEFINITION. Bank units in execution (R320 to R331): the elements of fused transfers, the combining trees, stores to bank control rows
and all-bank mode. -/
namespace Sys2Proof.Machine

/-! ### Elements of fused transfers -/

/-- The slot of the load stream that a command number belongs to. -/
def Team.streamOf (T : Team) (seq : Nat) : Option (Nat × Stream) :=
  T.streams.find? fun (_, x) => x.running && !x.store && x.stalled.isNone && x.seq == seq

/-- The element of a fused load that passes its unit next (R254, R324), where the token or the tile in progress takes one: by the next
element, the elements already taken, and whether an end-of-tile token is due. A codec load takes them all (R271). -/
def Rec.unitNext (r : Rec) (pos : Nat) (part : List (Option Nat)) (eotDue : Bool) : Option Nat :=
  if r.fused = 0 then none
  else if r.codec ≠ 0 then (if part.length < r.elements then some part.length else none)
  else if eotDue ∨ r.elements ≤ pos ∨ part.length = r.perToken ∨ (part ≠ [] ∧ pos = r.tileStart pos) then none
  else some pos

/-- The next element of a fused load stream. -/
def State.streamUnit (s : State) (t n : Nat) (T : Team) (x : Stream) : Option State := do
  let r := recOf x.record
  let k ← r.unitNext x.pos x.part x.eotDue
  match s.fusedRead (.copy t x.seq) (x.agent T t) r x.mac k with
  | .faulted code d store addr => some (s.streamFault t n k code d store addr)
  | .taken s v m => some (s.modStream t n fun x =>
      let x := { x with part := x.part ++ [v], mac := m }
      if r.codec = 0 then { x with pos := x.pos + 1, elements := x.elements + 1 } else x)

/-- The next element of a fused loader. -/
def State.nodeUnit (s : State) (stack slot i : Nat) : Option State := do
  let (R, F) ← s.running? stack slot
  let n ← PMap.get? F.nodes i
  match n.binding, n.role with
  | .record ws _, .loader =>
    let r := recOf ws
    if n.fault.isSome ∨ n.ended ∨ n.sent ∨ n.stopped ∨ n.tileOpen = false ∨ F.canFeed i = false then none
    else
      let k ← r.unitNext n.pos n.part false
      match s.fusedRead (.node stack slot i) R.agent r n.mac k with
      | .faulted code d _ _ => some (s.nodeFault stack slot i i R n r k ⟨code, d⟩)
      | .taken s v m => some (s.modNode stack slot i fun n =>
          { n with pos := if r.codec = 0 then n.pos + 1 else n.pos, part := n.part ++ [v], mac := m })
  | _, _ => none

/-- R320, R324, R325. BANK_UNIT_ELEMENT: the next element of a fused transfer passes the unit of its bank. -/
def State.unitElement (s : State) : Streamer → Option State
  | .copy t seq =>
    match s.activeCopy t seq with
    | some x =>
      if x.fusedRec?.isNone ∨ x.total ≤ x.pos then none
      else match s.copyOne t x with
        | .error s => some s
        | .ok (s, x) => some (s.setCopy t x)
    | none => (s.team? t).bind fun T => (T.streamOf seq).bind fun (n, x) => s.streamUnit t n T x
  | .node stack slot i => s.nodeUnit stack slot i

def execBankUnitElement (who : Streamer) (s : State) : Host.Outcome State Fault Refusal := occurs s (s.unitElement who)

/-- Whether a `mac` transfer of a record at a position has ended its last tile and is still to be combined (R325). -/
def combineDue (r : Rec) (pos : Nat) (part : List (Option Nat)) (m : MacRun) : Bool :=
  r.fused == 3 && r.combine != 0 && decide (r.elements ≤ pos) && part.isEmpty && !m.combined && m.pending.isEmpty

/-- R177, R325. MAC_COMBINE: the trees of the pseudo-channels that a `mac` transfer reached combine its accumulators. -/
def State.macCombine (s : State) : Streamer → Option State
  | .copy t seq =>
    match s.activeCopy t seq with
    | some x =>
      match x.fusedRec? with
      | some r =>
        if combineDue r x.pos x.outs x.mac then
          some ((s.combineAll r.combine x.mac.reached).setCopy t { x with mac := { x.mac with combined := true } })
        else none
      | none => none
    | none => (s.team? t).bind fun T => (T.streamOf seq).bind fun (n, x) =>
      if combineDue (recOf x.record) x.pos x.part x.mac then
        some ((s.combineAll (recOf x.record).combine x.mac.reached).modStream t n fun x => { x with mac := { x.mac with combined := true } })
      else none
  | .node stack slot i =>
    (s.running? stack slot).bind fun (_, F) => (PMap.get? F.nodes i).bind fun n =>
      match n.binding, n.role with
      | .record ws _, .loader =>
        if combineDue (recOf ws) n.pos n.part n.mac && n.fault.isNone then
          some ((s.combineAll (recOf ws).combine n.mac.reached).modNode stack slot i fun n => { n with mac := { n.mac with combined := true } })
        else none
      | _, _ => none

def execMacCombine (who : Streamer) (s : State) : Host.Outcome State Fault Refusal := occurs s (s.macCombine who)

/-! ### Control rows -/

/-- A row as a store through a key slot finds it (R330): one whose owner is another slot is cleared and re-owned. A key slot that has
been bound anew differs from the owner of every row (R336): what a dropped slot has owned is no longer keyed. -/
def BankRow.ownedBy (R : BankRow) (k : Nat) : BankRow :=
  if R.owner = k ∧ (R.keyed ∨ k = 0) then R else { R.cleared with owner := k, keyed := true }

/-- A row with bytes stored from an offset on, each but for the bits that are kept (R323). -/
def BankRow.writeBytes (R : BankRow) (o : Nat) : List W8 → List W8 → BankRow
  | b :: rest, keep :: keeps => BankRow.writeBytes (R.writeByte o b keep) (o + 1) rest keeps
  | _, _ => R

/-- The bytes of a store to a control row take their moment (R323, R330). -/
def State.rowStored (s : State) (x : RowStore) : State :=
  match windowOf x.pa with
  | .controlRow st pc b o => s.modBankRow st (16 * pc + b) fun R => (R.ownedBy x.key).writeBytes o x.bytes x.keeps
  | _ => s

/-- The next store to a control row, with the state in which it has been taken, where its event is the given one. -/
def State.nextRowStore (s : State) (event : Instr) : Option (State × RowStore) :=
  match s.rowStores with
  | [] => none
  | x :: rest => if rowStoreEvent x = event then some ({ s with rowStores := rest }.rowStored x, x) else none

/-- R323, R330. CONTROL_ROW_STORE. -/
def execControlRowStore (s : State) : Host.Outcome State Fault Refusal :=
  occurs s ((s.nextRowStore .controlRowStore).map (·.1))

/-! ### All-bank mode -/

/-- Pseudo-channels of a stack that hold a place under the ceiling (R328). -/
def Stack.places (S : Stack) : Nat :=
  (S.allBank.filter fun (_, a) => match a with | .granted _ | .active | .leaving => true | _ => false).length

/-- The earliest request that waits on a stack: pseudo-channel, its cycle and its ASID (R328). -/
def Stack.firstWaiting (S : Stack) : Option (Nat × Nat × W16) :=
  S.allBank.foldl (fun acc (pc, a) => match a, acc with
    | .waiting t asid, none => some (pc, t, asid)
    | .waiting t asid, some b => if t < b.2.1 then some (pc, t, asid) else some b
    | _, _ => acc) none

def State.setAllBank (s : State) (stack pc : Nat) (a : AllBank) : State :=
  s.modStack stack fun S => { S with allBank := PMap.set S.allBank .off pc a }

/-- The ASID of a transfer. -/
def State.streamerAsid (s : State) : Streamer → W16
  | .copy t _ => match s.team? t with | some T => T.asid | none => 0
  | .node stack slot _ => match s.residency? stack slot with | some R => R.asid | none => 0

/-- R328. ABM_REQUEST: a store that sets the request bit. It is granted at once below the ceiling of 16, and waits otherwise. -/
def State.abmRequest (s : State) : Option State :=
  (s.nextRowStore .abmRequest).map fun (s, x) =>
    match windowOf x.pa with
    | .controlRow st pc _ _ =>
      let now := s.clk (dieOfStack st)
      (match s.allBank st pc with
        | .off | .leaving =>
          let s := s.setAllBank st pc .off
          let S := s.stack st
          s.setAllBank st pc (if S.places < 16 ∧ S.firstWaiting.isNone then .granted now else .waiting now (s.streamerAsid x.who))
        | _ => s)
    | _ => s

def execAbmRequest (s : State) : Host.Outcome State Fault Refusal := occurs s s.abmRequest

/-- R328. ABM_LEAVE: a store that clears the request bit. A request that waits, or that is granted and not yet active, is removed. -/
def State.abmLeave (s : State) : Option State :=
  (s.nextRowStore .abmLeave).map fun (s, x) =>
    match windowOf x.pa with
    | .controlRow st pc _ _ =>
      (match s.allBank st pc with
        | .waiting _ _ | .granted _ => s.setAllBank st pc .off
        | .active => s.setAllBank st pc .leaving
        | _ => s)
    | _ => s

def execAbmLeave (s : State) : Host.Outcome State Fault Refusal := occurs s s.abmLeave

/-- R328, R452. ALL_BANK_GRANT: the earliest waiting request of a stack takes a free place. -/
def State.allBankGrant (s : State) (stack : Nat) : Option State :=
  let S := s.stack stack
  match S.firstWaiting with
  | some (pc, since, asid) =>
    if S.places < 16 then
      let d := dieOfStack stack
      some ((s.setAllBank stack pc (.granted (s.clk d))).monitorEvent d 3 (some asid) (s.clk d - since))
    else none
  | none => none

def execAllBankGrant (stack : Nat) (s : State) : Host.Outcome State Fault Refusal := occurs s (s.allBankGrant stack)

/-- R328. ALL_BANK_ACTIVE: 128 cycles after the grant. -/
def State.allBankActive (s : State) (stack pc : Nat) : Option State :=
  match s.allBank stack pc with
  | .granted at_ => if at_ + 128 ≤ s.clk (dieOfStack stack) then some (s.setAllBank stack pc .active) else none
  | _ => none

def execAllBankActive (stack pc : Nat) (s : State) : Host.Outcome State Fault Refusal := occurs s (s.allBankActive stack pc)

/-- R328. ALL_BANK_EXIT: the mode ends once the beats in flight have passed. -/
def State.allBankExit (s : State) (stack pc : Nat) : Option State :=
  if s.allBank stack pc = .leaving then some (s.setAllBank stack pc .off) else none

def execAllBankExit (stack pc : Nat) (s : State) : Host.Outcome State Fault Refusal := occurs s (s.allBankExit stack pc)

end Sys2Proof.Machine
end

