-- ==== Sys2Proof/Machine/Teardown.lean ====
section
/-! DEFINITION. The teardown of an ASID (R423): its start at the commit of `asid.kill`, and its end. -/
namespace Sys2Proof.Machine

/-- Every cache drops an ASID (R423). -/
def State.dropCaches (s : State) (asid : W16) : State :=
  { s with tlb := s.tlb.filter fun e => e.asid ≠ asid, asidCache := PMap.erase s.asidCache asid.toNat }

/-- Handler entries of the ASID are masked (R423), and so no longer runnable (R345). -/
def State.maskHandlers (s : State) (asid : W16) : State :=
  { s with cores := s.cores.map fun (k, C) =>
      (k, { C with handlers := C.handlers.map fun (i, H) =>
        (i, if H.valid ∧ H.asid = asid then { H with masked := true, age := none } else H) }) }

/-- Seam bindings to the ASID are removed (R423). -/
def State.dropSeamBindings (s : State) (asid : W16) : State :=
  { s with hub := { s.hub with seam := s.hub.seam.map fun (p, P) => (p, { P with bindings := P.bindings.filter fun b => b.2.2 ≠ asid }) } }

/-- A team of a killed ASID (R423): one that is not resident is discarded; a resident one loses the blocks in which it waits, and its
stalled transfers walk again and fault. -/
def State.killTeam (s : State) (t : Nat) : State :=
  match s.team? t with
  | none => s
  | some T =>
    if T.place ≠ .resident then s.dropTeam t
    else
      (s.abandonAll t T.groups.length).modTeam t fun T =>
        { T with
          taken := none
          copies := T.copies.map fun x => { x with stalled := none }
          streams := T.streams.map fun (k, x) => (k, { x with stalled := none })
          matrix := T.matrix.map fun M => { M with queue := M.queue.map fun x => { x with stalled := none } }
          tape := { T.tape with stalled := none } }

/-- `asid.kill` at commit (R423): the entry is dying, every cache drops it, and the teardown begins. -/
def State.doAsidKill (s : State) (asid : W16) : State :=
  let s := ((((s.writeAsidState asid 2).dropCaches asid).maskHandlers asid).dropSeamBindings asid)
  let s := { s with dying := s.dying ++ [asid] }
  let s := (s.teams.filter fun (_, T) => T.asid = asid ∧ T.gone = false).foldl (fun s (t, _) => s.killTeam t) s
  s.hbmStacks.foldl (fun s (n, S) => S.residencies.foldl (fun s (k, R) =>
    if R.asid = asid then s.killResidency n k else s) s) s

/-- Whether a team or a residency of an ASID remains (R423). -/
def State.remains (s : State) (asid : W16) : Bool :=
  (s.teams.any fun (_, T) => T.asid = asid && !T.gone)
    || s.hbmStacks.any fun (_, S) => S.residencies.any fun (_, R) => R.asid = asid && R.state != .ended

/-- R423. ASID_TEARDOWN_END: the entry is free again, and killmb is arrived on once. -/
def State.teardownEnd (s : State) (asid : W16) : Option State :=
  if s.dying.contains asid = false ∨ s.remains asid then none
  else
    let e := s.asidEntryInTable asid
    let s := (({ s with dying := s.dying.filter (· ≠ asid) }).writeAsidState asid 0).dropCaches asid
    some (if e.killmb = 0 then s
      else match s.translate 0 true .rw Window.isScratchpad e.killmb with
        | .ok p => s.arriveAt p.gen p.pa
        | .error _ => s)

def execAsidTeardownEnd (asid : W16) (s : State) : Host.Outcome State Fault Refusal := occurs s (s.teardownEnd asid)

end Sys2Proof.Machine
end

