-- ==== Sys2Proof/Machine/Handlers.lean ====
section
/-! DEFINITION. The handler entries of a core (R342 to R346): their words, the check of a write, when an entry is runnable, and
the filling of frames. -/
namespace Sys2Proof.Machine

/-! ### Entries -/

/-- The entry that two words describe (R342): read-only fields start clear. -/
def handlerOf (w0 w1 : W64) : Handler :=
  let f := bitsOf w0.toNat
  { valid := w0.getLsbD 0, masked := w0.getLsbD 1, channel := f 2 8, prio := f 10 5, frame := w0.getLsbD 15
    grid := w0.getLsbD 16, sup := w0.getLsbD 17, slots := f 18 3, fbase := f 21 13, asid := BitVec.ofNat 16 (f 34 16)
    template := bitsOf w1.toNat 0 50 * 64 }

/-- The slots of a frame entry (R342). -/
def Handler.slotCount (H : Handler) : Nat := H.slots + 1

/-- The channels of an entry (R342). -/
def Handler.channels (H : Handler) : List Nat :=
  (List.range (if H.frame then H.slotCount else 1)).map fun i => H.channel + i

/-- The first byte of a frame in the core's shared memory, and the byte after its last (R342, R346). -/
def Handler.frameStart (H : Handler) : Nat := 64 * H.fbase
def Handler.frameEnd (H : Handler) : Nat := 64 * H.fbase + 64 * H.slotCount

/-- Whether two frames share a byte (R343). -/
def framesMeet (H K : Handler) : Bool :=
  H.frame && K.frame && decide (H.frameStart < K.frameEnd ∧ K.frameStart < H.frameEnd)

/-- Bytes of the core's shared memory that frames take (R343). -/
def Core.frameBytes (C : Core) : Nat :=
  (C.handlers.map fun (_, H) => if H.valid && H.frame then 64 * H.slotCount else 0).sum

/-- What the check of an entry's write comes to (R343). -/
inductive EntryVerdict where
  | pass | refused (check : EntryCheck) | busy
  deriving DecidableEq, Repr

/-- The check of a write to an entry of a core (R343); `bound` tells the channels that input eyelets of its groups take. An entry that
is not valid binds no channel. -/
def Core.entryVerdict (C : Core) (bound : Nat → Bool) (index : Nat) (H : Handler) : EntryVerdict :=
  let others := (C.handlers.filter fun x => x.1 ≠ index).map (·.2)
  if H.frame ∧ H.slots = 0 then .refused .slots
  else if H.frame ∧ 393216 < H.frameEnd then .refused .extent
  else if H.valid ∧ others.any (fun K => K.valid && framesMeet H K) then .refused .extent
  else if H.valid ∧ H.channels.any (fun c => bound c || others.any fun K => K.binds c) then .refused .channel
  else if (PMap.getD C.handlers index {}).present ≠ 0 then .busy
  else .pass

/-! ### Runnable entries -/

/-- The head of a channel's receive buffer (R261). -/
def Core.head? (C : Core) (chan : Nat) : Option Token := (PMap.getD C.channels chan []).head?

/-- Whether an entry is runnable (R345): a damaged token is not consumed (R25). -/
def Handler.runnable (H : Handler) (C : Core) : Bool :=
  H.valid && !H.masked &&
    (if H.frame then decide (H.present = 2 ^ H.slotCount - 1)
      else match C.head? H.channel with | some tok => !tok.damaged | none => false)

/-- Whether what the core's selector keeps of a candidate still concerns one: a handler is a candidate while it is runnable (R347). -/
def Core.stands (C : Core) : Candidate → Bool
  | .handler i => match PMap.get? C.handlers i with | some H => H.age.isSome | none => false
  | .team _ => true

/-- The core without the block and the overdue state of handlers that are candidates no longer (R347, R353). -/
def Core.dropStale (C : Core) : Core :=
  { C with
    blocked := match C.blocked with | some (who, n) => if C.stands who then some (who, n) else none | none => none
    overdue := C.overdue.filter C.stands }

/-- The entries of a core with the cycle at which each last became runnable (R345). -/
def Core.refresh (C : Core) (now : Nat) : Core :=
  let D : Core := { C with handlers := C.handlers.map fun (i, H) =>
      (i, { H with age :=
        if H.runnable C then some (H.age.getD (if 0 < H.gridDone then H.gridAge else now)) else none }) }
  D.dropStale

/-- The core without the head token of a channel. -/
def Core.takeHead (C : Core) (chan : Nat) : Core :=
  { C with channels := PMap.set C.channels [] chan (PMap.getD C.channels chan []).tail }

/-- The bytes of a token as a frame slot takes them: elements that are not valid are zero (R346). -/
def frameBytesOf (tok : Token) : List W8 :=
  (List.range 16).flatMap fun l => wordBytes (if laneBit tok.valid l then tok.data.getD l 0 else 0)

/-- An entry with a token in slot s (R346). -/
def Handler.fill (H : Handler) (s : Nat) (tok : Token) : Handler :=
  { H with
    present := H.present + 2 ^ s, bytes := sramWriteBytes H.bytes (64 * s) (frameBytesOf tok)
    first := if s = 0 then some tok else H.first }

/-- The head of a channel goes to its frame slot while that slot is empty (R346): a masked entry leaves it in the channel, and so does a
damaged token. -/
def Core.fillFrom (C : Core) (index chan : Nat) : Core :=
  match PMap.get? C.handlers index, C.head? chan with
  | some H, some tok =>
    let s := tok.tag.toNat % H.slotCount
    if H.valid && H.frame && !H.masked && !tok.damaged && !H.present.testBit s then
      { C.takeHead chan with handlers := PMap.insert C.handlers index (H.fill s tok) }
    else C
  | _, _ => C

/-- Every frame entry takes what its empty slots admit: a channel holds at most four tokens (R346). -/
def Core.fillFrames (C : Core) : Core :=
  let pairs := C.handlers.flatMap fun (i, H) => if H.valid && H.frame then H.channels.map fun c => (i, c) else []
  (List.range 4).foldl (fun C _ => pairs.foldl (fun C p => C.fillFrom p.1 p.2) C) C

/-- A core after tokens or entries have changed: frames take their tokens, and runnable entries have their ages (R345, R346). -/
def State.settleCore (s : State) (core : Nat) : State :=
  s.modCore core fun C => C.fillFrames.refresh (s.clk (dieOf core))

/-! ### Writes -/

/-- What a new entry keeps of the old one: while the same token stands at its head, its age and the teams that the token has placed
(R345, R351). -/
def Handler.keeps (H old : Handler) : Handler :=
  if old.valid && H.valid && !old.frame && !H.frame && decide (old.channel = H.channel) then
    { H with age := old.age, gridDone := old.gridDone, gridAge := old.gridAge }
  else H

/-- The core with an entry written (R342): both words change as one. -/
def Core.writeEntry (C : Core) (index : Nat) (H : Handler) : Core :=
  { C with handlers := PMap.insert C.handlers index (H.keeps (PMap.getD C.handlers index {})) }.dropStale

/-- What the check of a write to HENT0 comes to on a core (R343). -/
def State.hent0Verdict (s : State) (core : Nat) (C : Core) (v : W64) : EntryVerdict :=
  C.entryVerdict (s.eyeletOn core) (C.hsel.toNat % 64) (handlerOf v C.hent1)

/-- A write to HENT0 (R342, R343). Frames take their tokens once the whole commit is done, which is one moment (R39). -/
def State.doHent0 (s : State) (core : Nat) (v : W64) : State :=
  s.modCore core fun C => C.writeEntry (C.hsel.toNat % 64) (handlerOf v C.hent1)

/-- The first slot of a block at whose write to HENT0 the check does not pass, each write meeting what the block's earlier effects leave,
bindings of eyelets and the kill of an ASID among them (R343). -/
def State.hent0Failure (s : State) (t g core : Nat) : List Effect → Option (Nat × EntryVerdict)
  | [] => none
  | .srw slot r v :: rest =>
    let C := s.core core
    (match r with
      | .hsel => (s.modCore core fun C => { C with hsel := v }).hent0Failure t g core rest
      | .hent1 => (s.modCore core fun C => { C with hent1 := v }).hent0Failure t g core rest
      | .hent0 =>
        (match s.hent0Verdict core C v with
          | .pass => (s.doHent0 core v).hent0Failure t g core rest
          | x => some (slot, x))
      | _ => s.hent0Failure t g core rest)
  | .bind _ n w :: rest =>
    (s.modGroup t g fun G => { G with eyelets := PMap.insert G.eyelets n (eyeletOf core w) }).hent0Failure t g core rest
  | .unbind _ n :: rest => (s.modGroup t g fun G => { G with eyelets := PMap.erase G.eyelets n }).hent0Failure t g core rest
  | .asidKill _ asid :: rest => (s.doAsidKill asid).hent0Failure t g core rest
  | _ :: rest => s.hent0Failure t g core rest

/-- R343. HENT0_WRITE: the acting group's block writes the entry that HSEL selects; a refused write is the block's fault, and one to a
frame with a full slot waits. -/
def execHent0Write (v : W64) (s : State) : Host.Outcome State Fault Refusal :=
  match s.ctx? with
  | none => .fault .noContext
  | some c =>
    let core := c.team.core
    match s.hent0Verdict core (s.core core) v with
    | .pass => .next ((s.doHent0 core v).settleCore core)
    | .refused _ => .next (s.takeFault c.t c.g c.blk.head { code := .badHandle, slot := c.blk.slot })
    | .busy => .next (s.waitOn c .room)

end Sys2Proof.Machine
end

