-- ==== Sys2Proof/Machine/Taking.lean ====
section
/-! DEFINITION. Taking a team from its core (R41, R173, R352, R355, R372 to R375): the exhaustion of a budget, the groups' last blocks,
the saved context and the yield record. -/
namespace Sys2Proof.Machine

/-- The team begins to be taken (R352, R355); a yield that is under way goes on. -/
def State.beginTake (s : State) (t : Nat) (why : Taking) : State :=
  s.modTeam t fun T => { T with taken := match T.taken with | some x => some x | none => some why }

/-- The teams of a cluster that have not retired (R246). -/
def State.clusterOf (s : State) (lead : Nat) : List (Nat × Team) := s.teams.filter fun (_, U) => U.lead = lead && !U.gone

/-- Those of them that are resident. -/
def State.residentsOf (s : State) (lead : Nat) : List (Nat × Team) := (s.clusterOf lead).filter fun (_, U) => U.place = .resident

/-- A yield takes the team's cluster as a victim's is taken (R352, R373): the other resident members are pre-empted with it. -/
def State.takeCluster (s : State) (t : Nat) : State :=
  match s.team? t with
  | none => s
  | some T => ((s.residentsOf T.lead).filter fun (u, _) => u ≠ t).foldl (fun s (u, _) => s.beginTake u .victim) s

/-- The team begins to be taken for a yield of a group (R61, R373), and its cluster with it. A yield that is already under way keeps its
cause. -/
def State.beginYield (s : State) (t g cause shortfall : Nat) : State :=
  (s.modTeam t fun T =>
    { T with taken := match T.taken with
        | some (.yield c h n) => some (.yield c h n)
        | _ => some (.yield cause g shortfall) }).takeCluster t

/-- The team is exhausted (R373): the failing group's block, if it has started, is given up with its charge returned, and the group's g62
names the block. -/
def State.exhaust (s : State) (t g : Nat) (head : W64) (cause shortfall : Nat) : State :=
  ((s.giveUp t g).modGroup t g fun G => { G with g := PMap.set G.g 0 62 head }).beginYield t g cause shortfall

/-- Whether a group has no started block, or waits in it (R41). -/
def Group.still (G : Group) : Bool := match G.blk with | none => true | some F => F.wait.isSome

/-- Whether the matrix engine works for the team: an `mma` in the array, or a transfer in flight (R173). -/
def Matrix.working (M : Matrix) : Bool :=
  (M.running.isSome && M.ask.isNone) || M.queue.any fun x => x.transfer && x.started

/-- Whether a team that is being taken can leave (R41, R173). -/
def Team.mayLeave (T : Team) : Bool :=
  T.groups.all Group.still && (match T.matrix with | some M => !M.working | none => true)

/-- The context is saved to the core's swap area (R352): its bytes there have no layout that the manual gives. -/
def State.saveContext (s : State) (T : Team) : State :=
  match PMap.get? s.hub.swapAreas T.core with
  | none => s
  | some base => s.writeBytes s.rootGen base ((List.range T.contextBytes).map (Config.savedByte s.tick))

/-- The address at which a group goes on (R373): its given-up block's or the next one's, where it still runs. -/
def Group.nextBlock (G : Group) : W64 := match G.blk with | some F => F.head | none => G.pc

/-- A yielding team's groups with the address of their next block in g62 (R373); the failing group has its own. -/
def yieldGroups (failing : Nat) (gs : List Group) : List Group :=
  ((List.range gs.length).zip gs).map fun (g, G) =>
    if g = failing ∨ G.phase ≠ .running then G else { G with g := PMap.set G.g 0 62 G.nextBlock }

/-- A yield record (R374). -/
def yieldToken (T : Team) (cause failing shortfall : Nat) : Token :=
  let at62 := match T.groups[failing]? with | some G => (PMap.getD G.g 62 0).toNat | none => 0
  let x := T.handle.toNat + 2 ^ 32 * (cause + 2 ^ 8 * T.prio + 2 ^ 16 * T.asid.toNat) + 2 ^ 64 * at62 + 2 ^ 128 * T.ibud
    + 2 ^ 192 * T.tbud + 2 ^ 256 * (shortfall % 2 ^ 64) + 2 ^ 320 * T.teamid.toNat
  dataToken (wordsOfNat 16 x) 0xFFFF 0

/-- The yield record goes to the yield queue of the team's ASID, where it has one (R373, R405). -/
def State.yieldRecord (s : State) (T : Team) (cause failing shortfall : Nat) : State :=
  match s.supervisorQueue (s.asidEntry T.asid).yq with
  | some q => s.engineEnqueue q (yieldToken T cause failing shortfall)
  | none => s

/-- Waiting blocks of groups 0 to n − 1 are given up. -/
def State.giveUpAll (s : State) (t : Nat) : Nat → State
  | 0 => s
  | n + 1 => (s.giveUpAll t n).giveUp t n

/-- The team leaves its core (R41, R352, R373): the blocks that wait are abandoned, the context is saved, its half of the tape buffer among
it (R199), and a yield writes its record. -/
def State.finishTake (s : State) (t : Nat) : State :=
  match s.team? t with
  | none => s
  | some T =>
    let s := match T.taken with
      | some (.yield _ failing _) => s.modTeam t fun T => { T with groups := yieldGroups failing T.groups }
      | _ => s
    let s := s.giveUpAll t T.groups.length
    let s := s.modCore T.core fun C => { C with tapeTeam := if C.tapeTeam = some t then none else C.tapeTeam }
    let s := (s.saveContext T).modTeam t fun U =>
      { U with
        taken := none, waitCount := 0
        place := match T.taken with | some (.yield _ _ _) => .yielded | some .longWait => .out false | _ => .out true }
    match T.taken, s.team? t with
    | some (.yield cause failing shortfall), some U =>
      (s.yieldRecord U cause failing shortfall).monitorEvent (dieOf U.core) 2 (some U.asid) U.ibud
    | _, _ => s

end Sys2Proof.Machine
end

