-- ==== Sys2Proof/Machine/Fetch.lean ====
section
/-! DEFINITION. The fetch of a block (R29 to R36, R44 to R47, R80 to R83, R372, R415, R435): charges and ports of the opcodes, the
decode of a whole block, and the meaning of BLOCK_FETCH. -/
namespace Sys2Proof.Machine

/-! ### The table of opcodes -/

/-- Whether a number lies in one of the ranges, both ends included. -/
def within (ranges : List (Nat × Nat)) (op : Nat) : Bool := ranges.any fun r => decide (r.1 ≤ op ∧ op ≤ r.2)

/-- The opcodes that charge 16 units (R69 to R76). -/
def charge16 : List (Nat × Nat) :=
  [(0x00E, 0x00E), (0x014, 0x015), (0x054, 0x05B), (0x0E4, 0x0E5), (0x10D, 0x10D), (0x111, 0x111), (0x164, 0x164),
    (0x193, 0x194), (0x19A, 0x19B), (0x19D, 0x19D), (0x1A0, 0x1A0), (0x1CF, 0x1D2), (0x1DB, 0x1DF)]

/-- The opcodes that charge 4 units. -/
def charge4 : List (Nat × Nat) :=
  [(0x00A, 0x00D), (0x010, 0x010), (0x013, 0x013), (0x04D, 0x04D), (0x050, 0x051), (0x053, 0x053), (0x080, 0x080),
    (0x086, 0x086), (0x08C, 0x08C), (0x092, 0x092), (0x0DD, 0x0E3), (0x105, 0x10C), (0x10E, 0x110), (0x116, 0x116),
    (0x146, 0x163), (0x165, 0x168), (0x181, 0x182), (0x185, 0x186), (0x188, 0x18E), (0x192, 0x192), (0x195, 0x196),
    (0x19C, 0x19C), (0x19E, 0x19F), (0x1A2, 0x1A3), (0x1D3, 0x1D6), (0x1D8, 0x1DA)]

/-- The charge of an instruction (R80): by its opcode, or 2^n for an `mma` by its extension word (R79). -/
def chargeOf (op : Nat) (ext : W32) : Nat :=
  if within [(0x191, 0x191), (0x197, 0x199)] op then 2 ^ bitsOf ext.toNat 0 3
  else if within charge16 op then 16
  else if within charge4 op then 4
  else 1

/-- The opcodes below class 7 that use no port a (R69 to R76). -/
def withoutA : List (Nat × Nat) :=
  [(0x000, 0x004), (0x006, 0x008), (0x00A, 0x00A), (0x00C, 0x00D), (0x010, 0x012), (0x014, 0x018), (0x117, 0x117),
    (0x157, 0x157), (0x164, 0x164), (0x181, 0x181), (0x186, 0x186), (0x19B, 0x19B), (0x19E, 0x19F), (0x1A1, 0x1A1),
    (0x1D8, 0x1D8)]

/-- The opcodes that use port b; the unary form of 0x05E and 0x05F does not. -/
def withB : List (Nat × Nat) :=
  [(0x040, 0x065), (0x06A, 0x06F), (0x080, 0x0A7), (0x0E7, 0x0E7), (0x100, 0x103), (0x112, 0x112), (0x115, 0x115),
    (0x141, 0x141), (0x143, 0x143), (0x145, 0x156), (0x15B, 0x15B), (0x15F, 0x15F), (0x161, 0x162), (0x165, 0x167),
    (0x184, 0x184), (0x188, 0x188), (0x18A, 0x18A), (0x1A3, 0x1A3), (0x1CF, 0x1D0), (0x1D3, 0x1D3), (0x1D5, 0x1D5),
    (0x1D9, 0x1DA), (0x1DD, 0x1DE)]

/-- The opcodes that use port c. -/
def withC : List (Nat × Nat) :=
  [(0x052, 0x053), (0x06B, 0x06D), (0x092, 0x097), (0x100, 0x103), (0x14F, 0x14F), (0x15F, 0x15F)]

/-- The ports that an opcode with a modifier uses, apart from p (R68 to R76). -/
def portsOf (op m : Nat) : List Port :=
  let unaryNot := decide ((op = 0x05E ∨ op = 0x05F) ∧ m = 6)
  (if within withoutA op then [] else [.a]) ++ (if within withB op && !unaryNot then [.b] else [])
    ++ (if within withC op then [.c] else []) ++ (if op = 0x002 then [.w] else [])

/-! ### Decode of a block -/

/-- The header's fields (R30). -/
def headerOf (w : W32) : Header :=
  let f := bitsOf w.toNat
  { count := f 0 6, exits := f 6 2, tape := w.getLsbD 8, pack := w.getLsbD 9, writes := f 10 6, charge := f 16 8, kind := f 24 4
    reserved := f 28 4 }

/-- The control registers that a tenant may neither read nor write, and those that it may only read while a supervisor writes them
(R415). -/
def supRegs : List Nat := [0x042, 0x043, 0x044, 0x050, 0x051, 0x052]
def supWritten : List Nat := [0x010, 0x011, 0x040, 0x041]

/-- Whether decode raises PRIV at a slot (R82, R415): by the Priv column, or by the number of a control register. -/
def denied (sup : Bool) (op number : Nat) : Bool :=
  if op = 0x012 then !sup && supRegs.contains number
  else if op = 0x013 then decide (number = 0x012) || (!sup && (supRegs.contains number || supWritten.contains number))
  else !sup && isSupOpcode op

/-- What the slots decoded so far come to: the targets of each, the eyelets read and written, and what R33, R47, R61, R361 and
R381 count. -/
structure Scan where
  targets : List Dest := []
  reads : List Nat := []
  pushes : List Nat := []
  writes : Nat := 0
  charge : Nat := 0
  exits : List Nat := []
  jsets : Nat := 0
  spawns : Nat := 0
  gives : List Nat := []
  yields : Bool := false
  traps : Bool := false
  deriving DecidableEq, Repr

/-- The exit number of an exit instruction (R40). -/
def Instr.exitNumber? (i : Instr) : Option Nat :=
  match i with
  | .br e _ | .bri e | .call e _ | .callInd e | .ret e | .exit e | .yield e => some e.toNat
  | _ => none

/-- Whether an instruction names an allocated register (R45): with k units, v(16k) to v247 do not exist. -/
def registerExists (k : Nat) (i : Instr) : Bool :=
  match i with
  | .rd (.lane n _) | .wr (.lane n _) => decide (n.toNat < 16 * k ∨ 248 ≤ n.toNat)
  | _ => true

/-- The scan with an instruction's own counts. -/
def Scan.add (x : Scan) (slot : Nat) (i : Instr) (charge : Nat) : Scan :=
  let x := { x with charge := x.charge + charge, exits := x.exits ++ (Instr.exitNumber? i).toList }
  match i with
  | .rd (.lane n _) => if 248 ≤ n.toNat then { x with reads := x.reads ++ [n.toNat] } else x
  | .wr (.lane n _) => { x with writes := x.writes + 1, pushes := if 248 ≤ n.toNat then x.pushes ++ [n.toNat] else x.pushes }
  | .wr _ => { x with writes := x.writes + 1 }
  | .jset _ => { x with jsets := x.jsets + 1 }
  | .spawn => { x with spawns := x.spawns + 1 }
  | .budGive => { x with gives := x.gives ++ [slot] }
  | .yield _ => { x with yields := true }
  | .trap _ | .eret => { x with traps := true }
  | _ => x

/-- Whether an instruction may stand after the slots scanned (R45, R47, R61, R361, R381, R419). -/
def Scan.admits (x : Scan) (k : Nat) (i : Instr) : Bool :=
  registerExists k i &&
    match i with
    | .rd (.lane n _) => !x.reads.contains n.toNat
    | .wr (.lane n _) => !x.pushes.contains n.toNat
    | .jset _ => decide (x.jsets = 0)
    | .spawn => decide (x.spawns = 0)
    | .budGive => x.gives.isEmpty
    | .yield _ => !x.traps
    | .trap _ | .eret => !x.yields
    | _ => true

/-- Whether a target field of a slot is sound at its producer (R35); the port code and the slot bits of an empty target are checked with
the word. -/
def targetFits (count slot : Nat) (d : Option Dest) : Bool :=
  match d with
  | none => true
  | some d => decide (d.slot.toNat ≤ count ∧ slot < d.slot.toNat)

/-- Whether each port that a slot uses is named once and no other is named (R35, R36). -/
def portsNamed (targets : List Dest) (slot : Nat) (used : List Port) : Bool :=
  [Port.a, .b, .c, .p, .w].all fun p =>
    decide ((targets.filter fun d => d.slot.toNat = slot ∧ d.port = p).length = if used.contains p then 1 else 0)

/-- What decode knows of the group whose block it is: its privilege, its units of registers, and whether the die's matrix engines are
calibrated, before which 0x197 and 0x198 are unassigned (R449). -/
structure DecodeFor where
  sup : Bool
  k : Nat
  calibrated : Bool
  deriving DecidableEq, Repr

/-- The checks of R82 at one slot, in their order, with the scan after it. -/
def scanSlot (who : DecodeFor) (count slot : Nat) (w : W32) (next : Option W32) (x : Scan) : Except FaultCode Scan :=
  let f := Fields.ofWord w
  let op := f.op.toNat
  if isBlockOpcode op = false ∨ (who.calibrated = false ∧ (op = 0x197 ∨ op = 0x198)) then .error .illegalOpcode
  else if denied who.sup op (bitsOf w.toNat 9 12) then .error .priv
  else
    match decodeSlot w next with
    | .error .illegalOpcode => .error .illegalOpcode
    | .error _ => .error .blockForm
    | .ok n =>
      let targets := x.targets ++ nodeDests n
      let used := portsOf op f.m.toNat ++ (if n.guard = .always then [] else [.p])
      if x.admits who.k n.instr = false then .error .blockForm
      else if targetFits count slot n.t0 = false ∨ targetFits count slot n.t1 = false then .error .blockForm
      else if isExtended op ∧ targets.any (fun d => d.slot.toNat = slot + 1) then .error .blockForm
      else if portsNamed x.targets slot used = false then .error .blockForm
      else .ok { x.add slot n.instr (chargeOf op (next.getD 0)) with targets := targets }

/-- Decode of the slots of a block in slot order (R82): the fault with its slot, or what they come to. -/
def scanSlots (who : DecodeFor) (count : Nat) : Nat → Scan → List W32 → Except (FaultCode × Nat) Scan
  | _, x, [] => .ok x
  | slot, x, [w] =>
    match scanSlot who count slot w none x with
    | .error c => .error (c, slot)
    | .ok x => .ok x
  | slot, x, w :: next :: rest =>
    match scanSlot who count slot w (some next) x with
    | .error c => .error (c, slot)
    | .ok x =>
      if isExtended (Fields.ofWord w).op.toNat then scanSlots who count (slot + 2) x rest
      else scanSlots who count (slot + 1) x (next :: rest)

/-- The slot of a `bud.give` that stands in a block without a `spawn` (R381); DEDUCED (log entry 25) that the fault names it and that the
check precedes those of R33. -/
def Scan.lonelyGive? (x : Scan) : Option Nat := if x.spawns = 0 then x.gives.head? else none

/-- The checks of R33 on the header. -/
def headerFits (h : Header) (x : Scan) : Bool :=
  decide (h.reserved = 0 ∧ h.kind ≤ 4 ∧ h.charge = x.charge ∧ h.writes = x.writes ∧ x.exits.length = h.exits + 1)
    && (List.range (h.exits + 1)).all fun e => decide ((x.exits.filter (· = e)).length = 1)

/-- Whether a block of a kind may be entered by a path (R31, R198). -/
def pathAdmitted (kind : Nat) (path : EntryPath) (reversing : Bool) : Bool :=
  match path with
  | .refetch => true
  | .launch | .trapEntry => kind = 1
  | .resume => kind = 2
  | .jump | .ret => kind = 0 || kind = 3 || (kind = 4 && reversing)
  | .call => kind = 0 || (kind = 4 && reversing)
  | .reconverge => kind = 3 || (kind = 4 && reversing)
  | .reverse => kind = 4 && reversing

/-! ### The fetch -/

/-- One 32-bit word of code (R32, R446). -/
def State.codeWord (s : State) (asid : W16) (sup : Bool) (va : W64) : Except Trap W32 :=
  match s.translate asid sup .x Window.isScratchpad va with
  | .error f => .error { code := f.code, addr := va, detail := f.level }
  | .ok p =>
    if va.toNat % 16 ≠ 0 ∧ va.toNat % 4 ≠ 0 then .error { code := .align, addr := va }
    else if s.spoiled p.pa 4 then .error { code := .memData, addr := va, detail := 1, extra := Config.errorStatus s.tick }
    else .ok (BitVec.ofNat 32 (s.readNat p.gen p.pa 4))

/-- Words of code from an address on. -/
def State.codeWords (s : State) (asid : W16) (sup : Bool) (va : W64) : Nat → Except Trap (List W32)
  | 0 => .ok []
  | n + 1 =>
    match s.codeWord asid sup va with
    | .error x => .error x
    | .ok w =>
      match State.codeWords s asid sup (va + 4) n with
      | .error x => .error x
      | .ok ws => .ok (w :: ws)

/-- The header and the slots of the block at H, after the checks of steps 1 to 4 of R32. -/
def State.blockAt (s : State) (T : Team) (G : Group) (H : W64) : Except Trap (Header × List W32) :=
  let sup := T.sup || G.sup.isSome
  match s.translate T.asid sup .x Window.isScratchpad H with
  | .error f => .error { code := f.code, addr := H, detail := f.level }
  | .ok _ =>
    if H.toNat % 16 ≠ 0 then .error { code := .align, addr := H }
    else
      match s.codeWord T.asid sup H with
      | .error x => .error x
      | .ok w =>
        let h := headerOf w
        match s.codeWords T.asid sup (H + 4) (h.count + 1) with
        | .error x => .error x
        | .ok ws =>
          match scanSlots ⟨sup, T.k, (s.die (dieOf T.core)).calibrated⟩ h.count 0 {} ws with
          | .error (c, slot) => .error { code := c, slot := slot }
          | .ok x =>
            match x.lonelyGive? with
            | some slot => .error { code := .blockForm, slot := slot }
            | none =>
            if headerFits h x = false then .error { code := .blockForm, header := true }
            else if pathAdmitted h.kind G.path (decide (T.tape.mode = .reversing)) = false then .error { code := .blockForm }
            else .ok (h, ws)

/-- Whether a group may fetch its next block: it runs, none of its blocks is started, its team is resident and not being taken,
and the barrier that it waits for is complete (R243). A dying ASID lets nothing wait (R423). -/
def State.mayFetch (s : State) (T : Team) (G : Group) : Bool :=
  decide (T.place = .resident) && T.taken.isNone && !T.gone && G.blk.isNone && decide (G.phase = .running) && decide (G.mask ≠ 0)
    && ((s.asidEntry T.asid).state == .dying
      || !G.awaitsBar)

/-- A pending command fault taken at a block fetch, before any check of R32 (R157, R435). -/
def State.takeCommandFault (s : State) (t g : Nat) (T : Team) (G : Group) (r : Record) : State :=
  if s.isFatal T G then s.fatalEnd t r
  else
    (s.modTeam t fun T => { T with cmdFault := none }).enterSupervisor t g G.pc (fltinfoOf r.code false 0 r.slot r.lane r.header)
      r.address

/-- A group starts its block (R372): in supervisor mode nothing is charged (R419). -/
def State.startBlock (s : State) (t g : Nat) (T : Team) (G : Group) (h : Header) (ws : List W32) : State :=
  let paid := if G.sup.isSome then 0 else h.charge
  let F : Flight :=
    { head := G.pc, hdr := h, words := ws, mask := G.mask, start := s.clk (dieOf T.core), regs := s.ctlValues T g G, paid := paid
      pages := [G.pc.toNat, G.pc.toNat + 4 * h.count + 4].filterMap (s.pageOf T.asid) }
  (s.modTeam t fun T => { T with ibud := T.ibud - paid, waitCount := 0 }).modGroup t g fun G =>
    { G with blk := some F, path := .refetch, barWait := [], waited := none }

/-- R32, R157, R373. BLOCK_FETCH: the acting group takes a pending command fault, or a `trap` that a packing has put off, or fetches its
next block: a check that fails is the block's fault, and a charge that IBUD does not hold exhausts the team. A team that is being taken
fetches nothing: it leaves once its groups stand still. -/
def State.blockFetch (s : State) (t g : Nat) : Option State :=
  match s.team? t, s.group? t g with
  | some T, some G =>
    if T.taken.isSome then (if T.mayLeave then some (s.finishTake t) else none)
    else if s.mayFetch T G = false then none
    else
      match T.cmdFault, G.trapDue with
      | some r, _ => some (s.takeCommandFault t g T G r)
      | none, some (slot, imm) => some ((s.modGroup t g fun G => { G with trapDue := none }).takeTrap t g G.pc slot imm)
      | none, none =>
        match s.blockAt T G G.pc with
        | .error x => some (s.takeFault t g G.pc x)
        | .ok (h, ws) =>
          if G.sup.isNone ∧ T.ibud < h.charge then some (s.exhaust t g G.pc 0 h.charge)
          else some (s.startBlock t g T G h ws)
  | _, _ => none

def execBlockFetch (s : State) : Host.Outcome State Fault Refusal :=
  match s.cur with
  | none => .fault .noContext
  | some (t, g) => occurs s (s.blockFetch t g)

end Sys2Proof.Machine
end

