-- ==== Sys2Proof/Machine/Commit.lean ====
section
/-! DEFINITION. The commit of a block (R39 to R42, R48, R49, R53, R257, R366, R369, R373, R383, R417, R419): its checks and waits, its
effects in slot order, and where its lanes go. -/
namespace Sys2Proof.Machine

/-! ### What a block holds at its commit -/

/-- The lanes of a block's exits: lane, slot, kind and target (R40). -/
def Flight.exitLanes (F : Flight) : List (Nat × Nat × ExitKind × W64) :=
  F.effects.flatMap fun e =>
    match e with
    | .exit slot _ k lanes => lanes.map fun x => (x.1, slot, k, x.2)
    | _ => []

/-- The exits by lane, kind and target. -/
def Flight.exits (F : Flight) : List (Nat × ExitKind × W64) := F.exitLanes.map fun x => (x.1, x.2.2.1, x.2.2.2)

/-- The lanes of each call of the block that is not null in every lane, in slot order (R58). -/
def Flight.callMasks (F : Flight) : List W16 :=
  F.effects.filterMap fun e =>
    match e with
    | .exit _ _ .call (x :: lanes) => some (maskOf fun l => (x :: lanes).any fun y => y.1 = l)
    | _ => none

/-- The join address that a `jset` of the block names (R361). -/
def Flight.joinName (F : Flight) : Option W64 :=
  F.effects.findSome? fun e => match e with | .jset _ a => some a | _ => none

/-- The lanes of each `rejoin` of the block (R369). -/
def Flight.rejoins (F : Flight) : List W16 :=
  F.effects.filterMap fun e => match e with | .rejoin _ m => some m | _ => none

/-- The slot and immediate of a `trap` that is not null (R419). -/
def Flight.trapOf (F : Flight) : Option (Nat × Nat) :=
  F.effects.findSome? fun e => match e with | .trap slot n => some (slot, n) | _ => none

/-- The slot of an `eret` that is not null (R419). -/
def Flight.eretOf (F : Flight) : Option Nat :=
  F.effects.findSome? fun e => match e with | .eret slot => some slot | _ => none

/-- The address that a `yield` asks to resume at (R61). -/
def Flight.yieldAt (F : Flight) : Option W64 :=
  F.exits.findSome? fun x => match x.2.1 with | .yield => some x.2.2 | _ => none

/-- The value on a port of a slot. -/
def portAt (ports : List PortVal) (slot : Nat) (p : Port) : Option Val :=
  (ports.find? fun v => v.slot = slot ∧ v.port = p).map (·.val)

/-- The lanes in which a `wr` is not null: those of its value, or of the atomic whose old values it will take (R237). -/
def Flight.wrLanes (F : Flight) (slot : Nat) : W16 :=
  match portAt F.ports slot .w with
  | some v => maskOf fun l => (laneAt v.lanes l).isSome
  | none =>
    F.effects.foldl (fun m e =>
      match e with
      | .atomic _ _ _ _ lanes dests =>
        if dests.any fun d => d.slot.toNat = slot then m ||| maskOf fun l => lanes.any fun x => x.lane = l else m
      | _ => m) 0

/-- The registers that a reference names, by file and number. -/
def RegRefCells : RegRef → List (Nat × Nat)
  | .lane n true => [(0, n.toNat), (0, n.toNat + 1)]
  | .lane n false => [(0, n.toNat)]
  | .uniform n => [(1, n.toNat)]
  | .mask n _ => [(2, n.toNat)]
  | .kind _ => []

/-- The block's `wr` instructions: slot, registers and lanes. -/
def Flight.writes (F : Flight) : List (Nat × List (Nat × Nat) × W16) :=
  F.effects.filterMap fun e => match e with | .wr slot r => some (slot, RegRefCells r, F.wrLanes slot) | _ => none

/-- The first of the writes that names a register of an earlier one with a lane in common: slot and lane (R40). -/
def doubleWrite : List (Nat × List (Nat × Nat) × W16) → Option (Nat × Nat)
  | [] => none
  | (_, cells, m) :: rest =>
    match rest.find? fun y => y.2.1.any cells.contains && decide (m &&& y.2.2 ≠ 0) with
    | some y => some (y.1, (lanesOf (m &&& y.2.2)).headD 0)
    | none => doubleWrite rest

/-- The lanes that leave a block by `exit`. -/
def Flight.leaving (F : Flight) : W16 := Sys2Proof.Machine.exitLanes F.exits .exit

/-- Whether a packing of the team is open (R366). -/
def Team.packed (T : Team) : Bool := match T.packing with | some P => P.open_ | none => false

/-- Whether a commit ends the packing of its team (R186, R369): the other packed groups have committed their `rejoin` blocks or hold no live
thread, and so does this group with it. -/
def Team.endsPacking (T : Team) (g : Nat) (G : Group) (F : Flight) : Bool :=
  T.packed && (F.rejoins.any (· ≠ 0) || decide ((G.launched &&& ~~~G.exited) &&& ~~~F.leaving = 0))
    && ((List.range T.groups.length).zip T.groups).all fun (h, H) => h == g || (H.phase != .running && H.phase != .gathered)

/-! ### Faults at commit -/

/-- The checks of R40, R59 and R61 on a block's exits: each lane leaves by one exit, each `yield` is not null in every lane of the block
or null in all of them, and a lane returns from an entry that holds it. -/
def exitFault (G : Group) (F : Flight) : Option Trap :=
  let xs := F.exitLanes
  let byAll (slot : Nat) : Bool := (lanesOf F.mask).all fun l => xs.any fun x => x.1 = l && x.2.1 = slot
  match (lanesOf F.mask).find? fun l => decide ((xs.filter fun x => x.1 = l).length ≠ 1) with
  | some l => some { code := .blockExit, lane := l }
  | none =>
    match xs.find? fun x => x.2.2.1 == .yield && !byAll x.2.1 with
    | some y => some { code := .blockExit, slot := y.2.1, lane := y.1 }
    | none =>
      match xs.find? fun x => x.2.2.1 == .ret && (match G.calls with | [] => true | e :: _ => !laneBit e.mask x.1) with
      | some x => some { code := .blockExit, slot := x.2.1, lane := x.1 }
      | none => none

/-- A pack block's conditions (R366). -/
def packRefused (T : Team) (G : Group) (F : Flight) : Bool :=
  F.hdr.pack &&
    (!G.recon.isEmpty || !G.calls.isEmpty
      || (match T.packing with | some P => P.open_ || decide (P.addr ≠ F.head) | none => false)
      || F.exits.any fun x => x.2.1 = .call || x.2.1 = .ret || x.2.1 = .yield)

/-- A `rejoin` block's conditions (R369). -/
def rejoinRefused (T : Team) (G : Group) (F : Flight) : Bool :=
  T.packed && !F.rejoins.isEmpty && (!G.recon.isEmpty || F.rejoins.any fun m => decide (m ≠ 0) && decide (m ≠ F.mask))

/-- The address of the next block in memory (R29). -/
def nextInMemory (head : W64) (count : Nat) : W64 := head + BitVec.ofNat 64 (16 * ((8 + 4 * count + 15) / 16))

/-- The group after its lanes have left the block. -/
def Group.left (G : Group) (F : Flight) : Group := G.leave (nextInMemory F.head F.hdr.count) F.exits F.callMasks

/-- The group after the commit of a block that neither packs, rejoins, yields nor returns from a trap (R42, R362, R364). -/
def Group.afterExits (G : Group) (F : Flight) : Group := (G.left F).course F.joinName true (goingOf F.exits)

/-- Whether a push of the commit finds the group's spill stack full (R58, R360): the call entries, the entries of the split, and what
stands after a rotation. -/
def spillFull (T : Team) (G : Group) (F : Flight) : Bool :=
  let full (G : Group) : Bool := decide (T.spillSize < G.spilledBytes)
  full (G.left F) || (!F.hdr.pack && (full ((G.left F).course F.joinName false (goingOf F.exits)) || full (G.afterExits F)))

/-- The first effect of a block that cannot be performed at its commit, with the address that it names: a read-modify-write whose reading
meets an uncorrectable error (R446), or a store through a key slot that has been dropped since its fire (R421). -/
def State.updateFault (s : State) (t g : Nat) (F : Flight) : Option Trap :=
  F.effects.findSome? fun e => match e with
    | .atomic slot _ sp wide xs _ =>
      xs.findSome? fun x => (s.spoiledIn sp t g x.addr (if wide then 8 else 4)).map fun place =>
        { code := .memData, slot := slot, lane := x.lane, detail := place, extra := Config.errorStatus s.tick
          addr := namedAddress sp (((portAt F.ports slot .a).map (·.lanes)).getD []) x.lane x.addr }
    | .mbarArrive slot pa =>
      if s.spoiled pa 8 then
        some { code := .memData, slot := slot, detail := 1, extra := Config.errorStatus s.tick
               addr := mbarAddress (((portAt F.ports slot .a).bind Val.uniform?).getD 0) }
      else none
    | .jcntInit slot pa key _ =>
      if (s.genFor pa key).isNone then
        some { code := .key, slot := slot, addr := ((portAt F.ports slot .a).bind Val.uniform?).getD 0 }
      else none
    | _ => none

/-- The fault that a block raises at its commit, if any: a pack block's conditions, the exits, the registers, then the conditions that the
instructions name, room, and the tape (R40, R58, R194, R242, R343, R366, R369, R419 to R421, R446). -/
def State.commitFault (s : State) (t g : Nat) (T : Team) (G : Group) (F : Flight) : Option Trap :=
  if packRefused T G F then some { code := .badHandle }
  else match exitFault G F, doubleWrite F.writes with
  | some x, _ => some x
  | none, some (slot, lane) => some { code := .blockForm, slot := slot, lane := lane }
  | none, none =>
    if rejoinRefused T G F then some { code := .badHandle }
    else
      match F.eretOf, G.sup, s.keyFailure F.effects, s.hent0Failure t g T.core F.effects with
      | some slot, none, _, _ => some { code := .badHandle, slot := slot }
      | _, _, some slot, _ => some { code := .badHandle, slot := slot }
      | _, _, none, some (slot, .refused _) => some { code := .badHandle, slot := slot }
      | _, _, none, _ =>
        match s.spilledArrival t T F.effects, s.updateFault t g F with
        | some slot, _ => some { code := .barrierSpill, slot := slot }
        | none, some x => some x
        | none, none =>
          if F.eretOf.isNone ∧ spillFull T G F then some { code := .access }
          else if T.tape.overflows g F (T.endsPacking g G F) then
            some { code := .tapeFull, addr := T.tape.base + BitVec.ofNat 64 T.tape.limit }
          else none

/-! ### Budgets at commit -/

/-- The task tokens that the block spawns (R382). -/
def spawned (F : Flight) : Nat :=
  (F.effects.map fun e => match e with | .spawn _ _ _ lanes => lanes.length | _ => 0).sum

/-- The grants of the block's last `bud.give` (R383). -/
def grantOf (F : Flight) : Nat × Nat :=
  F.effects.foldl (fun acc e => match e with | .give _ ib tb => (ib, tb) | _ => acc) (0, 0)

/-- What an effect takes from IBUD and TBUD at its place in slot order (R39, R257, R383), what the tape takes apart. -/
def effectCost (F : Flight) : Effect → Nat × Nat
  | .give _ ib tb => (spawned F * ib, spawned F * tb)
  | .copy _ _ n | .sbind _ _ _ _ n => (0, n)
  | .matrix _ x => (0, x.traffic)
  | _ => (0, 0)

/-- What the block takes from IBUD and TBUD at its commit (R257, R383). -/
def commitCost (T : Team) (g : Nat) (G : Group) (F : Flight) : Nat × Nat :=
  ((F.effects.map fun e => (effectCost F e).1).sum,
    (F.effects.map fun e => (effectCost F e).2).sum + tapeTraffic T.tape g F (T.endsPacking g G F))

/-- The budgets of a team less what an effect takes. -/
def State.pay (s : State) (t : Nat) (cost : Nat × Nat) : State :=
  s.modTeam t fun T => { T with ibud := T.ibud - cost.1, tbud := T.tbud - cost.2 }

/-- The cause and the shortfall of a budget that the commit exhausts (R373, R383). -/
def shortfall (T : Team) (cost : Nat × Nat) : Option (Nat × Nat) :=
  if T.ibud < cost.1 then some (0, cost.1) else if T.tbud < cost.2 then some (1, cost.2) else none

/-! ### Waits at commit -/

/-- The tokens that the block enqueues, by queue. -/
def enqueues (F : Flight) : List (Nat × Nat) :=
  F.effects.filterMap fun e =>
    match e with
    | .enq _ q _ => some (q, 1)
    | .spawn _ q _ lanes => some (q, lanes.length)
    | _ => none

/-- Whether every queue has room for the block's tokens (R268, R382). -/
def State.queuesReady (s : State) (F : Flight) : Bool :=
  (enqueues F).all fun x => (s.queue x.1).takes ((enqueues F).map fun y => if y.1 = x.1 then y.2 else 0).sum

/-- Whether the residency queues have room for the block's launches (R293). -/
def State.launchesReady (s : State) (F : Flight) : Bool :=
  let asked := F.effects.filterMap fun e => match e with | .cfgLaunch _ id _ _ _ => some (bitsOf id.toNat 0 4) | _ => none
  asked.all fun n => decide ((s.stack n).queued.length + (asked.filter (· = n)).length ≤ 256)

/-- Whether the copy queue has room (R255), and a `fence.sc` finds the copies that the group has issued complete, its matrix and tape
transfers among them (R217, R223). -/
def copiesReady (T : Team) (g : Nat) (F : Flight) : Bool :=
  let n := (F.effects.filter fun e => match e with | .copy _ _ _ => true | _ => false).length
  let sc := F.effects.any fun e => match e with | .fence _ sc => sc | _ => false
  let stream (seq : Nat) : Bool := T.streams.any fun (_, x) => x.seq = seq
  (n == 0 || decide (T.copies.length + n ≤ 32)) && !(sc && T.members.any fun m => decide (m.1 = g) && !stream m.2.2)

/-- Whether the block's changes of translations may take effect (R422, R423). -/
def State.changesReady (s : State) (t g : Nat) (F : Flight) : Bool :=
  F.effects.all fun e =>
    match e with
    | .tlbinv _ x => s.tlbinvReady t g x
    | .asidKill _ asid => s.killReady t g asid
    | _ => true

/-- The cycle to which a `spin` holds the commit (R70). -/
def spinUntil (F : Flight) : Nat :=
  F.effects.foldl (fun m e => match e with | .spin _ n => Nat.max m (F.start + n) | _ => m) 0

/-- What the commit waits for, if anything (R41). -/
def State.commitWait (s : State) (t g : Nat) (T : Team) (G : Group) (F : Flight) : Option WaitKind :=
  if s.clk (dieOf T.core) < spinUntil F then some (.until (spinUntil F))
  else if s.queuesReady F = false ∨ s.launchesReady F = false ∨ copiesReady T g F = false ∨ s.changesReady t g F = false
      ∨ s.hent0Failure t g T.core F.effects ≠ none then some .room
  else if s.matrixFlows t g F.effects = false then some .matrix
  else if T.tape.stalled.isSome ∧ usesTape T.tape F (T.endsPacking g G F) then some .tape
  else none

/-! ### A pack block in reverse -/

/-- What the pack of a reversing tape comes to at the commit of one group's block (R197). -/
inductive PackGate where
  /-- The pack goes on, with the traffic of its record in units of 64 bytes (R193). -/
  | go (units : Nat)
  /-- An uncorrectable error in the record (R446). -/
  | spoiled (x : Trap)
  | wait (s : State) (k : WaitKind)
  | refused

/-- Whether a group stands at the commit of the block at an address. -/
def Group.atCommit (G : Group) (head : W64) : Bool :=
  match G.blk with | some F => F.head = head && decide (F.hdr.count < F.slot) | none => false

/-- The threads that a group brings to the pack at an address: those gathered, or those that its block does not end. -/
def Group.brings (G : Group) : W16 :=
  (G.launched &&& ~~~G.exited) &&& ~~~(match G.phase, G.blk with | .running, some F => F.leaving | _, _ => 0)

/-- Whether a reversing tape stands in a section that a checkpoint dropped (R195, R208): a live group of the team would still be told of the
marker by its next pop (R196). -/
def Team.inDropped (T : Team) : Bool :=
  T.tape.marker && ((List.range T.groups.length).zip T.groups).any fun (h, G) => G.phase != .ended && !T.tape.told.contains h

/-- Every live group must stand at the block; the tape's pack record must then name exactly their threads (R197, R208). -/
def State.packGate (s : State) (t : Nat) (T : Team) (F : Flight) : PackGate :=
  if (F.hdr.pack && F.hdr.tape && T.tape.mode == .reversing) = false then .go 0
  else if (T.groups.all fun G => G.phase == .ended || G.phase == .gathered || G.atCommit F.head) = false then .wait s .room
  else if T.inDropped then .refused
  else if T.tape.stalled.isSome then .wait s .tape
  else
    match s.packRecord? T with
    | .error (f, pos) =>
      if f.code = .memData then .spoiled { code := f.code, addr := tapeAddr T.tape.base pos, detail := f.level, extra := Config.errorStatus s.tick }
      else .wait (s.tapeStall t T.tape.base pos false f) .tape
    | .ok none => .refused
    | .ok (some (units, _, _, low)) =>
      let threads := ((List.range T.groups.length).zip T.groups).flatMap fun (h, G) =>
        if G.phase = .ended then [] else (lanesOf G.brings).map fun l => (h, l)
      if planFits (recordPlan units) threads T.groups.length then .go (T.tape.popUnits low) else .refused

/-- Every group at the block raises BAD_HANDLE (R197). -/
def State.refusePack (s : State) (t : Nat) (head : W64) (n : Nat) : State :=
  (List.range n).foldl (fun s h =>
    match s.group? t h with
    | some G => if G.atCommit head then s.takeFault t h head { code := .badHandle } else s
    | none => s) s

/-! ### Effects -/

/-- The registers of a group with a value written (R53). -/
def Group.write (G : Group) (r : RegRef) (v : Val) : Group :=
  let lanes := (List.range 16).filterMap fun l => (laneAt v.lanes l).map fun x => (l, x)
  match r with
  | .lane n b64 =>
    { G with v := lanes.foldl (fun m (x : Nat × W64) =>
        let m := PMap.set m 0 (16 * n.toNat + x.1) (x.2.setWidth 32)
        if b64 then PMap.set m 0 (16 * (n.toNat + 1) + x.1) ((x.2 >>> 32).setWidth 32) else m) G.v }
  | .uniform n => match v.uniform? with | some x => { G with g := PMap.set G.g 0 n.toNat x } | none => G
  | .mask n false =>
    let on := maskOf fun l => (laneAt v.lanes l).isSome
    let ones := maskOf fun l => match laneAt v.lanes l with | some x => x.getLsbD 0 | none => false
    { G with p := PMap.set G.p 0 n.toNat ((PMap.getD G.p n.toNat 0 &&& ~~~on) ||| ones) }
  | .mask n true => match v.uniform? with | some x => { G with p := PMap.set G.p 0 n.toNat (x.setWidth 16) } | none => G
  | .kind _ => G

/-- The token that a push sends (R49). -/
def pushToken (e : Eyelet) (v : Val) : Token :=
  { dataToken ((List.range 16).map fun l => ((laneAt v.lanes l).getD 0).setWidth 32) (maskOf fun l => (laneAt v.lanes l).isSome)
      e.tag with chan := BitVec.ofNat 8 e.channel }

/-- A push at commit (R49): its reservation becomes the token's, or is released where every lane is null. -/
def State.doPush (s : State) (t g : Nat) (F : Flight) (G0 : Group) (n : Nat) (v : Val) : State :=
  match F.pushes.find? fun x => x.2.2 = n, PMap.get? G0.eyelets n with
  | some (core, chan, m), some e =>
    let s := s.returnPushes [(core, chan, m)]
    if v.lanes.all Option.isNone then s else s.send core chan (.eyelet t g n) (pushToken e v)
  | _, _ => s

/-- A `wr` at commit (R53): a register that is written holds no error any longer (R446). -/
def State.doWr (s : State) (t g : Nat) (F : Flight) (G0 : Group) (r : RegRef) (v : Val) : State :=
  match r with
  | .lane n _ =>
    if 248 ≤ n.toNat then s.doPush t g F G0 (n.toNat - 248) v
    else
      { s.modGroup t g (fun G => G.write r v) with
        poison := s.poison.filter fun q => !((RegRefCells r).any fun c => q = .register t g c.1 c.2) }
  | _ =>
    { s.modGroup t g (fun G => G.write r v) with
      poison := s.poison.filter fun q => !((RegRefCells r).any fun c => q = .register t g c.1 c.2) }

/-- A `srw` at commit (R343, R417). -/
def State.doSrw (s : State) (t g : Nat) (core : Nat) (r : CtlReg) (v : W64) : State :=
  match r with
  | .ibud => s.modTeam t fun T => { T with ibud := bitsOf v.toNat 0 48 }
  | .tbud => s.modTeam t fun T => { T with tbud := bitsOf v.toNat 0 48 }
  | .prio => s.modTeam t fun T => { T with prio := bitsOf v.toNat 0 5 }
  | .waitswap => s.modTeam t fun T => { T with waitswap := bitsOf v.toNat 0 32 }
  | .tapest => s.modTeam t fun T => { T with tape := T.tape.steered v }
  | .fltinfo => s.modGroup t g fun G => { G with fltinfo := v }
  | .fltaddr => s.modGroup t g fun G => { G with fltaddr := v }
  | .epc => s.modGroup t g fun G => { G with epc := v }
  | .ssca => s.modGroup t g fun G => { G with ssca := v }
  | .sscb => s.modGroup t g fun G => { G with sscb := v }
  | .hsel => s.modCore core fun C => { C with hsel := v }
  | .hent1 => s.modCore core fun C => { C with hent1 := v }
  | .hent0 => s.doHent0 core v
  | _ => s

/-- A new member of a group's open batch (R258): its number and its batch. -/
def Team.nextMember (T : Team) (g : Nat) : Nat × Nat := (T.cmdSeq + 1, ((T.groups[g]?).map (·.batches)).getD 0 + 1)

/-- The privilege of a group of a team (R404). -/
def Team.supOf (T : Team) (g : Nat) : Bool := T.sup || ((T.groups[g]?).bind (·.sup)).isSome

/-- A copy enters the team's queue (R255, R258). -/
def State.doCopy (s : State) (t g : Nat) (k : CopyKind) : State :=
  s.modTeam t fun T =>
    let (n, b) := T.nextMember g
    { T with
      cmdSeq := n, members := T.members ++ [(g, b, n)]
      copies := T.copies ++ [{ kind := k, group := g, batch := b, seq := n, sup := T.supOf g, asid := T.asid }] }

/-- A stream starts in its slot (R263). -/
def State.doSbind (s : State) (t g n : Nat) (store : Bool) (record : RecWords) : State :=
  (match s.team? t with
    | some T => if (PMap.getD T.streams n {}).running then s.endStream t n 4 else s
    | none => s).modTeam t fun T =>
    let (k, b) := T.nextMember g
    { T with
      cmdSeq := k, members := T.members ++ [(g, b, k)]
      streams := PMap.insert T.streams n
        { running := true, store := store, record := record, group := g, batch := b, seq := k, sup := T.supOf g, state := 1 } }

/-- A `notify` at commit (R268): a queue's NOTIFY, or an AG notify register (R442). -/
def State.doNotifyAt (s : State) (pa : Nat) (v : W64) : State :=
  match windowOf pa with
  | .queue q _ => s.doNotify q v
  | .notify stack node o => s.agNotify stack node o v
  | _ => s

/-- What a commit's effects act with: the team and group, the block, the group before the commit, and the team's core, lead and
ASID. -/
structure Doer where
  t : Nat
  g : Nat
  blk : Flight
  group : Group
  team : Team
  deriving DecidableEq, Repr

/-- One effect at commit, other than `wr` and the atomics: a store, a command, a change of a register. What the exits, traps and the
tape's records do stands elsewhere. -/
def State.doEffect (s : State) (d : Doer) (e : Effect) : State :=
  match e with
  | .store _ sp size lanes => s.doStore sp d.t d.g size lanes
  | .mcast _ members lanes => s.doMcast d.team.lead members d.g lanes
  | .barArrive _ w x wait => s.doArrive d.t d.g w x wait
  | .barWait _ w => s.doBarWait d.t d.g w
  | .barInval _ w => s.doBarInval d.t w
  | .mbarInit _ pa n => s.writeNat 0 pa 8 (mbarInitWord n)
  | .mbarArrive _ pa => s.arriveAt 0 pa
  | .mbarInval _ pa => s.writeNat 0 pa 8 0
  | .srw _ r v => s.doSrw d.t d.g d.team.core r v
  | .bind _ n w => s.modGroup d.t d.g fun G => { G with eyelets := PMap.insert G.eyelets n (eyeletOf d.team.core w) }
  | .unbind _ n => s.modGroup d.t d.g fun G => { G with eyelets := PMap.erase G.eyelets n }
  | .copy _ k _ => s.doCopy d.t d.g k
  | .batch _ => s.modGroup d.t d.g fun G => { G with batches := G.batches + 1 }
  | .sbind _ n store record _ => s.doSbind d.t d.g n store record
  | .enq _ q tok => s.enqueue q tok
  | .deq slot q newest => s.doDeq d.t d.g slot q newest
  | .notify _ pa v => s.doNotifyAt pa v
  | .qwaited _ q => s.doQwaited d.t d.g q
  | .spawn _ q desc lanes => s.doSpawn q desc (grantOf d.blk).1 (grantOf d.blk).2 lanes
  | .jcntInit _ pa key n => s.doJcntInit pa key n
  | .retire _ keep va => s.doRetire d.t d.g keep va
  | .cont _ v => s.modTeam d.t fun T => { T with cont := v }
  | .budAdd _ x y => s.doBudAdd d.t x y
  | .cfgLaunch _ id desc images prio => s.doCfgLaunch d.team.asid (d.team.supOf d.g) id desc images prio
  | .cfgBind _ x y record => s.doCfgBind x y record
  | .cfgSignal _ x => s.doCfgSignal x
  | .cfgEvict _ x => s.doCfgEvict x
  | .matrix _ x => s.doMatrix d.t d.g x
  | .seqCfg _ image done => s.doSeqCfg d.t image done
  | .seqGo _ => s.doSeqGo d.t
  | .mchk _ => s.doMchk d.t
  | .tapeRec _ _ | .tapeOpen _ _ | .tapeClose _ | .tapeRev _ _ _ _ _ _ _ _ | .tapePop _ _ | .tapeSeg _ _ =>
    s.doTape d.t d.g d.blk (d.team.endsPacking d.g d.group d.blk) e
  | .keyset _ k tenant => s.doKeyset k tenant
  | .keydrop _ k => s.doKeydrop k
  | .tlbinv _ x => s.doTlbinv x
  | .asidKill _ asid => s.doAsidKill asid
  | .monCfg _ x y => s.doMonCfg x y
  | .monDump _ x pas => s.doMonDump x pas
  | .exit _ _ .yield ((_, a) :: _) => s.modGroup d.t d.g fun G => { G with g := PMap.set G.g 0 62 a }
  | .wr _ _ | .atomic _ _ _ _ _ _ | .fence _ _ | .exit _ _ _ _ | .jset _ _ | .rejoin _ _ | .spin _ _ | .trap _ _ | .eret _
  | .give _ _ _ => s

/-- Old values delivered to the write ports that an atomic names (R237). -/
def oldPorts (dests : List Dest) (olds : PMap W64) : List PortVal :=
  dests.map fun d => ⟨d.slot.toNat, d.port, laneVal ((List.range 16).map fun l => PMap.get? olds l)⟩

/-- The commit-time effects in slot order (R39). -/
def State.doEffects (s : State) (d : Doer) : List PortVal → List Effect → State
  | _, [] => s
  | ports, .wr slot r :: rest =>
    State.doEffects (match portAt ports slot .w with | some v => s.doWr d.t d.g d.blk d.group r v | none => s) d ports rest
  | ports, .atomic _ op sp wide lanes dests :: rest =>
    let (s, olds) := s.doAtomic op sp wide d.t d.g lanes
    State.doEffects s d (ports ++ oldPorts dests olds) rest
  | ports, e :: rest => State.doEffects ((s.pay d.t (effectCost d.blk e)).doEffect d e) d ports rest

/-! ### Where the lanes go -/

/-- Eyelets that the block has read: the rule of R48 empties their latches at commit. -/
def readEyelets (ws : List W32) : List Nat :=
  ws.filterMap fun w =>
    let f := Fields.ofWord w
    if f.op = 0x001 then
      match RegRef.ofFields f with
      | .ok (.lane n _) => if 248 ≤ n.toNat then some (n.toNat - 248) else none
      | _ => none
    else none

/-- The group as its block ends (R48, R96): no block, the latches of the eyelets that were read empty, the generators advanced. -/
def Group.blockEnds (G : Group) (F : Flight) : Group :=
  { G with
    blk := none
    barSpill := if G.barSpill = some F.head then none else G.barSpill
    latches := (readEyelets (instructionWords F.words)).foldl (fun m n => PMap.erase m n) G.latches
    gens := (lanesOf F.mask).foldl (fun m l => PMap.set m 0 l (genSteps (drawCount F.words) (PMap.getD m l 0))) G.gens }

/-- The lanes that hold a live thread. -/
def Group.live (G : Group) : W16 := G.launched &&& ~~~G.exited

/-- A group whose lanes have all exited has ended, or waits for the return of a packing; its exit removes its bindings (R60, R262,
R366). -/
def Group.endIfEmpty (G : Group) (packed : Bool) : Group :=
  if G.live ≠ 0 then G
  else if packed then { G with phase := .parked, mask := 0 }
  else G.atEnd

/-- Where the lanes of a block that packs or rejoins go on (R366, R369): a `ret` goes to the return address of the top call entry, and a
`yield` to its operand. -/
def recordedExits (G : Group) (F : Flight) : List Going :=
  F.exits.filterMap fun x =>
    match x.2.1 with
    | .exit => none
    | .br => some ⟨x.1, x.2.2, .jump⟩
    | .call => some ⟨x.1, x.2.2, .call⟩
    | .ret => some ⟨x.1, (G.calls.head?.map (·.ret)).getD 0, .ret⟩
    | .yield => some ⟨x.1, x.2.2, .refetch⟩

/-- The lanes that wait in call entries, at their return addresses, and the entries without them (R59, R363): an entry without lanes is
popped. -/
def takeReturned (calls : List CallEntry) : List CallEntry × List Going :=
  (((calls.map fun e => e.without e.returned).filter fun e => e.mask ≠ 0),
    calls.flatMap fun e => (lanesOf e.returned).map fun l => ⟨l, e.ret, .ret⟩)

/-- The group after a block that packs, or rejoins, and starts no further block (R366, R369): each of its live lanes records where it goes
on. -/
def Group.gatherAt (G : Group) (F : Flight) (phase : GroupPhase) : Group :=
  let H := G.left F
  let (calls, waiting) := takeReturned H.calls
  let xs := recordedExits G F ++ waiting
  { H with
    calls := calls
    targets := xs.foldl (fun m x => PMap.insert m x.lane x.target) []
    paths := xs.foldl (fun m x => PMap.insert m x.lane x.path) []
    joinAt := F.joinName, phase := phase }

/-- The group after its block has committed, by what the block holds: an `eret` is taken after this. A yield goes on at the address that
g62 names (R61). -/
def Group.goOn (G : Group) (T : Team) (F : Flight) : Group :=
  if F.eretOf.isSome then { G with recon := G.recon.map countCommit }
  else
    (if F.hdr.pack then G.gatherAt F .gathered
      else if T.packed ∧ F.rejoins.any (· ≠ 0) then G.gatherAt F .rejoining
      else if F.yieldAt.isSome then { G.left F with pc := PMap.getD G.g 62 0, path := .refetch }
      else (G.afterExits F).spillEntries T.spillSize).endIfEmpty T.packed

/-- The packing that a pack block begins (R366). -/
def Team.gathering (T : Team) (F : Flight) : Team :=
  if F.hdr.pack ∧ F.eretOf.isNone ∧ T.packing.isNone then
    { T with packing := some { addr := F.head, open_ := false, tape := F.hdr.tape } }
  else T

/-- A `trap` after the commit (R419): none where every lane has exited; put off while the group waits in a packing. -/
def State.trapAfter (s : State) (t g : Nat) (F : Flight) : State :=
  match F.trapOf, s.group? t g with
  | some (slot, n), some G =>
    (match G.phase with
      | .running => s.takeTrap t g F.head slot n
      | .gathered | .rejoining => s.modGroup t g fun G => { G with trapDue := some (slot, n) }
      | .parked | .ended => s)
  | _, _ => s

/-- A yield begins at the commit of its block (R61, R390). -/
def State.yieldAfter (s : State) (t g : Nat) (F : Flight) : State :=
  if F.yieldAt.isSome then s.beginYield t g 2 0 else s

/-- An `eret` takes effect, unless a `trap` of the same block ends the team (R419). -/
def State.eretAfter (s : State) (t g : Nat) (F : Flight) : State :=
  if F.eretOf.isSome ∧ F.trapOf.isNone then s.returnFromTrap t g else s

/-- The barrier table and the bindings learn that a group has ended (R241). -/
def State.endedAfter (s : State) (t g : Nat) : State :=
  match s.team? t, s.group? t g with
  | some T, some G => if G.phase = .ended then s.barGroupsEnded T 1 else s
  | _, _ => s

/-- The block commits (R39, R42): the tape buffer serves the team, then the effects in slot order, the branch record, and where the lanes
go. -/
def State.commitBlock (s : State) (t g : Nat) (T : Team) (G : Group) (F : Flight) : State :=
  let s := s.tapeServes t F (T.endsPacking g G F)
  let s := s.doEffects { t := t, g := g, blk := F, group := G, team := T } F.ports F.effects
  let s := s.doBranch t g F (T.endsPacking g G F)
  let s := (s.unpin t g).modGroup t g fun G => G.blockEnds F
  let s := (s.modGroup t g fun G => G.goOn T F).modTeam t fun T => T.gathering F
  ((((s.eretAfter t g F).trapAfter t g F).yieldAfter t g F).endedAfter t g).settleCore T.core

/-- The block of the group waits (R41). -/
def State.holdCommit (s : State) (t g : Nat) (k : WaitKind) : State := s.modFlight t g fun F => { F with wait := some k }

/-- What the commit of the acting group's block comes to. -/
def State.commit (s : State) (t g : Nat) (T : Team) (G : Group) (F : Flight) : State :=
  match s.commitFault t g T G F with
  | some x => s.takeFault t g F.head x
  | none =>
    match shortfall T (commitCost T g G F) with
    | some (cause, n) => s.exhaust t g F.head cause n
    | none =>
      match s.packGate t T F with
      | .refused => s.refusePack t F.head T.groups.length
      | .wait s k => s.holdCommit t g k
      | .spoiled x => s.takeFault t g F.head x
      | .go units =>
        let traffic := (commitCost T g G F).2 + units
        if T.tbud < traffic then s.exhaust t g F.head 1 traffic
        else
        match s.commitWait t g T G F with
        | some k => s.holdCommit t g k
        | none => s.commitBlock t g T G F

/-- R39. BLOCK_COMMIT: once every instruction of the acting group's block has fired, the block commits, waits, faults, or exhausts a
budget; until then there is no commit. -/
def execBlockCommit (s : State) : Host.Outcome State Fault Refusal :=
  match s.ctx? with
  | none => .fault .noContext
  | some c =>
    if c.blk.slot ≤ c.blk.hdr.count then .next s
    else .next (s.commit c.t c.g c.team c.group c.blk)

end Sys2Proof.Machine
end

