-- ==== Sys2Proof/Machine/HostIo.lean ====
section
/-! DEFINITION. What comes to the part from outside while it serves (R16, R404, R425 to R430): settings of the platform, handler
entries through the mailbox, CXL.mem requests, Seam links with their remote enqueues and copies, and attestation. -/
namespace Sys2Proof.Machine

/-- Whether the host ports work (R449). -/
def State.serves (s : State) : Bool :=
  match s.hub.phase with
  | .early _ | .full => true
  | _ => false

/-- Whether the management controller runs (R429). -/
def State.managed (s : State) : Bool := s.serves || s.hub.phase == .bringUp

def State.modHub (s : State) (f : Hub → Hub) : State := { s with hub := f s.hub }

/-! ### The mailbox -/

/-- A port's table with an entry written, or emptied (R428). -/
def SeamPort.bind (P : SeamPort) (index : Nat) (sender : W16) (here : Option W16) : SeamPort :=
  { P with bindings := match here with | some a => PMap.insert P.bindings index (sender, a) | none => PMap.erase P.bindings index }

/-- The part with a setting made (R352, R404, R405, R425, R426, R428). -/
def State.setPlatform (s : State) (p : PlatformSetting) : State :=
  match p with
  | .asidTable base => { s with asidBase := some base }
  | .swapArea core base => s.modHub fun h => { h with swapAreas := PMap.insert h.swapAreas core base }
  | .seamBinding port index sender here =>
    s.modHub fun h => { h with seam := PMap.set h.seam {} port ((PMap.getD h.seam port {}).bind index sender here) }
  | .hostFunction function asid => s.modHub fun h => { h with functions := PMap.insert h.functions function asid }
  | .virtualWindows function base count => s.modHub fun h => { h with windows := PMap.insert h.windows function (base, count) }

/-- What a setting names exists: a table in HBM, a core, one of 24 ports with 64 bindings each, a function of the two ports. -/
def PlatformSetting.names (p : PlatformSetting) : Bool :=
  match p with
  | .asidTable base => decide (base % 64 = 0 ∧ windowOf base = .hbm ∧ windowOf (base + 2 ^ 22 - 1) = .hbm)
  | .swapArea core base => decide (core < 768 ∧ base % 4096 = 0 ∧ windowOf base = .hbm)
  | .seamBinding port index _ _ => decide (port < 24 ∧ index < 64)
  | .hostFunction function _ => decide (function < 128)
  | .virtualWindows function base count => decide (function < 126 ∧ base + count ≤ 131072)

/-- R404. PLATFORM_SET. -/
def execPlatformSet (setting : PlatformSetting) (s : State) : Host.Outcome State Fault Refusal :=
  occurs s (if s.managed = false then none
    else some (if PlatformSetting.names setting then (s.setPlatform setting).reply .done else s.reply .unsupported))

/-- R343. MAILBOX_HANDLER_ENTRY_WRITE: a refused write leaves the entry unchanged and names the check; one to a frame with a full slot
waits for its frame to fire. -/
def execMailboxHandlerEntryWrite (core index : Nat) (w0 w1 : W64) (s : State) : Host.Outcome State Fault Refusal :=
  occurs s (if s.serves = false ∨ 768 ≤ core ∨ 64 ≤ index then none
    else if 2 ^ 59 ≤ w0.toNat ∨ 2 ^ 50 ≤ w1.toNat then some (s.reply (.refused .reserved))
    else
      let H := handlerOf w0 w1
      match (s.core core).entryVerdict (s.eyeletOn core) index H with
      | .pass => some (((s.modCore core fun C => C.writeEntry index H).settleCore core).reply .done)
      | .refused c => some (s.reply (.refused c))
      | .busy => none)

/-- R451. EVENT_RING_SETUP: the next event goes to the first place of the ring. -/
def execEventRingSetup (base : W64) (records : Nat) (s : State) : Host.Outcome State Fault Refusal :=
  occurs s (if s.managed then some ((s.modHub fun h => { h with ring := some { base := base, records := records } }).reply .done) else none)

/-! ### Attestation -/

/-- The bytes of a tenant's live ASID entries, in ascending order (R430). -/
def State.liveEntries (s : State) (tenant : W16) : Nat → List W8
  | 0 => []
  | n + 1 =>
    let asid : W16 := BitVec.ofNat 16 n
    let e := s.asidEntryInTable asid
    s.liveEntries tenant n ++
      (match s.asidBase with
        | some base => if e.valid ∧ e.state = .live ∧ e.tenant = tenant then s.readBytes s.rootGen (base + 64 * n) 64 else []
        | none => [])

/-- The key slots bound to a tenant, in ascending order (R410). -/
def State.slotsOf (s : State) (tenant : W16) : List Nat :=
  (s.keys.filter fun (_, k) => match k with | .bound t _ => t = tenant | _ => false).map (·.1)

/-- The report (R430). -/
def State.attestation (s : State) (nonce : BitVec 384) (tenant : W16) : BitVec 1216 :=
  let slots := s.slotsOf tenant
  let state := sha384 (s.liveEntries tenant 65536 ++ slots.flatMap fun k => bytesOfNat 2 k)
  BitVec.ofNat 1216 (nonce.toNat + (sha384 s.hub.image).toNat * 2 ^ 384
    + (Config.imageVersion s.hub.image).toNat * 2 ^ 768 + tenant.toNat * 2 ^ 800 + slots.length % 2 ^ 16 * 2 ^ 816
    + state.toNat * 2 ^ 832)

/-- R430. ATTESTATION_REQUEST: the report, and the signature over its SHA-384. -/
def execAttestationRequest (nonce : BitVec 384) (tenant : W16) (s : State) : Host.Outcome State Fault Refusal :=
  occurs s (if s.managed then
      let r := s.attestation nonce tenant
      some (s.reply (.report r (Config.attestationSignature (sha384 (bytesOfNat 152 r.toNat)))))
    else none)

/-! ### Memory that is reached from outside -/

/-- Windows that a CXL.mem request reaches (R214). -/
def Window.isHbm : Window → Bool
  | .hbm => true
  | _ => false

/-- The bytes of an access from outside to windows that it reaches (R214), each translated under an ASID at tenant privilege (R408,
R426, R428). -/
def State.outside (s : State) (asid : W16) (need : Perm) (reach : Window → Bool) (va : W64) : Nat → Except XlatFault (List Phys)
  | 0 => .ok []
  | n + 1 =>
    match s.translate asid false need reach va with
    | .error f => .error f
    | .ok p =>
      match s.outside asid need reach (va + 1) n with
      | .error f => .error f
      | .ok ps => .ok (p :: ps)

/-- Bytes written where an access from outside has been translated. -/
def State.storeOutside (s : State) (ps : List Phys) (bytes : List W8) : State :=
  (ps.zip bytes).foldl (fun s (p, b) => s.writeByte p.gen p.pa b) s

/-- The answer to a CXL.mem request of a function under its ASID (R426). A read of a location with an uncorrectable error completes
with poison too. -/
def State.cxlMem (s : State) (asid : W16) (offset : W64) (request : HostAccess) : State :=
  match request with
  | .read n =>
    match s.outside asid .r Window.isHbm offset n with
    | .error _ => s.reply .poison
    | .ok ps =>
      if ps.any fun p => s.spoiled p.pa 1 then s.reply .poison
      else s.reply (.data (ps.map fun p => (s.readByte p.gen p.pa).getD 0))
  | .write data =>
    match s.outside asid .w Window.isHbm offset data.length with
    | .error _ => s.reply .poison
    | .ok ps => (s.storeOutside ps data).reply .done

/-- R426. CXL_MEM_REQUEST: a function without an ASID has no translation. -/
def execCxlMemRequest (function : Nat) (offset : W64) (request : HostAccess) (s : State) :
    Host.Outcome State Fault Refusal :=
  occurs s (if s.serves = false then none
    else match PMap.get? s.hub.functions function with
      | none => some (s.reply .poison)
      | some asid => some (s.cxlMem asid offset request))

/-! ### Seam links -/

def State.seam (s : State) (port : Nat) : SeamPort := PMap.getD s.hub.seam port {}

def State.modSeam (s : State) (port : Nat) (f : SeamPort → SeamPort) : State :=
  s.modHub fun h => { h with seam := PMap.set h.seam {} port (f (s.seam port)) }

/-- R428. SEAM_LINK_BRINGUP: the parts attest each other and agree keys; the ports come up only in full service (R449). -/
def execSeamLinkBringup (port : Nat) (s : State) : Host.Outcome State Fault Refusal :=
  occurs s (if s.hub.phase == .full && decide (port < 24) && !(s.seam port).up then
      some (s.modSeam port fun P => { P with up := true, flits := 0, keys := P.keys + 1 })
    else none)

/-- The flits that one pair of keys enciphers (R428). -/
def flitsPerKey : Nat := 2 ^ 32

/-- R428. SEAM_REKEY: the agreed keys are replaced. -/
def execSeamRekey (port : Nat) (s : State) : Host.Outcome State Fault Refusal :=
  occurs s (if (s.seam port).up && decide (flitsPerKey ≤ (s.seam port).flits) then
      some (s.modSeam port fun P => { P with flits := P.flits - flitsPerKey, keys := P.keys + 1 })
    else none)

/-- The local ASID to which a port's table maps a sender's (R428). -/
def SeamPort.here (P : SeamPort) (sender : W16) : Option W16 := (P.bindings.find? fun b => b.2.1 = sender).map (·.2.2)

/-- Whether a port takes a message: up, and with keys that have flits left. -/
def SeamPort.takes (P : SeamPort) : Bool := P.up && decide (P.flits < flitsPerKey)

/-- The state with the flits of a message counted. -/
def State.countFlits (s : State) (port n : Nat) : State := s.modSeam port fun P => { P with flits := P.flits + Config.seamFlits n }

/-- What a remote enqueue comes to (R228, R272, R428): refused with a code, held while its queue is full, or enqueued; a queue that is
not enabled loses it as it loses a host's (R265). -/
def State.remoteEnqueue (s : State) (port : Nat) (r : RemoteEnqueue) : Option State :=
  match (s.seam port).here r.sender with
  | none => some (s.reply (.remote .access))
  | some asid =>
    match s.translate asid false .w Window.isQueue r.va with
    | .error f => some (s.reply (.remote f.code))
    | .ok p =>
      match windowOf p.pa with
      | .queue q _ =>
        if (s.queue q).enable = false then some ((s.modQueue q fun Q => { Q with lost := true }).reply .done)
        else if (s.queue q).takes 1 then some ((s.enqueue q r.tok).reply .done)
        else none
      | _ => some (s.reply (.remote .access))

/-- R228. SEAM_REMOTE_ENQUEUE: a request that arrives, behind those that the link already holds; or, without one, the oldest held
request once its queue has room. The sender's earlier remote writes of the port have been performed, each in the step of its
arrival. -/
def State.seamEnqueue (s : State) (port : Nat) (request : Option RemoteEnqueue) : Option State :=
  let P := s.seam port
  match request, P.held with
  | some r, held =>
    if P.takes = false then none
    else
      let s := s.countFlits port 64
      let hold := s.modSeam port fun P => { P with held := P.held ++ [r] }
      some (if held.isEmpty then (s.remoteEnqueue port r).getD hold else hold)
  | none, r :: rest => (s.remoteEnqueue port r).map fun s => s.modSeam port fun P => { P with held := rest }
  | none, [] => none

def execSeamRemoteEnqueue (port : Nat) (request : Option RemoteEnqueue) (s : State) : Host.Outcome State Fault Refusal :=
  occurs s (s.seamEnqueue port request)

/-- R428. SEAM_REMOTE_COPY: a sender without a binding is refused with ACCESS. -/
def State.remoteCopy (s : State) (port : Nat) (sender : W16) (va : W64) (bytes : List W8) : State :=
  match (s.seam port).here sender with
  | none => s.reply (.remote .access)
  | some asid =>
    match s.outside asid .w Window.isMain va bytes.length with
    | .error f => s.reply (.remote f.code)
    | .ok ps => (s.storeOutside ps bytes).reply .done

def execSeamRemoteCopy (port : Nat) (sender : W16) (va : W64) (bytes : List W8) (s : State) :
    Host.Outcome State Fault Refusal :=
  occurs s (if (s.seam port).takes then some ((s.countFlits port bytes.length).remoteCopy port sender va bytes) else none)

end Sys2Proof.Machine
end

