-- ==== Sys2Proof/Machine/Bringup.lean ====
section
/-! DEFINITION. Firmware, bring-up, early and full service, the clock and its trip, and the samples of the monitors (R28, R429,
R449 to R452). -/
namespace Sys2Proof.Machine

/-! ### Firmware -/

/-- The checks of the root of trust on an image: its signature, and a security version no lower than that in the fuses (R429). -/
def imageAccepted (image : List W8) : Bool :=
  Config.imageSigned image && decide (Config.fusedVersion.toNat ≤ (Config.imageVersion image).toNat)

/-- An image is checked, and started or not (R429): the part then serves only the mailbox. -/
def State.start (s : State) (image : List W8) : State :=
  if imageAccepted image then
    s.modHub fun h => { h with phase := .bringUp, image := image, sampleAt := h.clk + Config.samplePeriod }
  else s.modHub fun h => { h with phase := .mailboxOnly }

/-- Every die is reset: of the part there remain what main memory holds, slot 0 under a fresh key, and what the host has been told (R451). -/
def State.resetDies (s : State) : State :=
  { State.reset with
    tick := s.tick
    agenda := s.agenda
    mem := s.mem.filter fun x => isMain x.1
    memTag := s.memTag
    poison := s.poison.filter fun p => match p with | .memory a => isMain a | _ => false
    keys := [(0, .bound 0 (s.draws + 1))]
    draws := s.draws + 1
    hub := { clk := s.hub.clk, ring := s.hub.ring, posted := s.hub.posted, replies := s.hub.replies } }

/-- R429. POWER_ON_RESET: the root of trust checks the image that the part holds. -/
def execPowerOnReset (s : State) : Host.Outcome State Fault Refusal :=
  occurs s (if s.hub.phase == .reset then some (s.start Config.storedImage) else none)

/-- R429, R451. FIRMWARE_LOAD: after an image that failed, the host loads one. -/
def execFirmwareLoad (image : List W8) (s : State) : Host.Outcome State Fault Refusal :=
  occurs s (if s.hub.phase == .mailboxOnly then some ((s.resetDies.start image).reply .done) else none)

/-- R451. FIRMWARE_RELOAD: after a thermal trip or an image that failed. -/
def execFirmwareReload (image : List W8) (s : State) : Host.Outcome State Fault Refusal :=
  occurs s (if s.hub.phase == .stopped || s.hub.phase == .mailboxOnly then some ((s.resetDies.start image).reply .done)
    else none)

/-! ### Bring-up -/

/-- Whether bring-up goes on: before full service. -/
def State.training (s : State) : Bool :=
  match s.hub.phase with
  | .bringUp | .early _ => true
  | _ => false

/-- The stack that is trained next (R449): the lowest number first, which puts the home stacks of die 0 first. -/
def State.nextStack (s : State) : Option Nat :=
  (List.range 16).find? fun n => !(s.stack n).trained && !(s.stack n).failed

/-- The part enters early service once stacks 0 to 3 are trained (R449). -/
def State.enterEarly (s : State) : State :=
  if s.hub.phase == .bringUp && (List.range 4).all (fun n => (s.stack n).trained) then
    (s.modHub fun h => { h with phase := .early false, mhz := 700 }).post 0x01 0 0
  else s

/-- R449. STACK_TRAINED: a stack that fails stays out, and event 0x05 names it (R450). -/
def execStackTrained (s : State) : Host.Outcome State Fault Refusal :=
  occurs s (if s.training = false then none
    else match s.nextStack with
      | none => none
      | some n =>
        some (if Config.trainingPasses s.tick n then (s.modStack n fun S => { S with trained := true }).enterEarly
          else (s.modStack n fun S => { S with failed := true }).post 0x05 0 n))

/-- R449. MATRIX_CALIBRATED. -/
def execMatrixCalibrated (die : Nat) (s : State) : Host.Outcome State Fault Refusal :=
  occurs s (if s.training && decide (die < 4) && !(s.die die).calibrated then
      some ((s.modDie die fun D => { D with calibrated := true }).post 0x02 die 0)
    else none)

/-- Every stack has been trained and every die calibrated (R450). -/
def State.allUp (s : State) : Bool :=
  (List.range 16).all (fun n => (s.stack n).trained) && (List.range 4).all fun d => (s.die d).calibrated

/-- R450. FULL_SERVICE_READY. -/
def execFullServiceReady (s : State) : Host.Outcome State Fault Refusal :=
  occurs s (match s.hub.phase with
    | .early _ => if s.allUp && !s.hub.ready then some ((s.modHub fun h => { h with ready := true }).post 0x03 0 0) else none
    | _ => none)

/-- R450. FULL_SERVICE_REQUEST: the host asks for full service; die 0 stops making decisions. -/
def execFullServiceRequest (s : State) : Host.Outcome State Fault Refusal :=
  occurs s (if s.hub.phase == .early false && s.hub.ready then
      some ((s.modHub fun h => { h with phase := .early true }).reply .done)
    else none)

/-- R450. FULL_SERVICE_MOVE: no team is left, and with the teams their copies are gone. -/
def execFullServiceMove (s : State) : Host.Outcome State Fault Refusal :=
  occurs s (if s.hub.phase == .early true && s.teams.isEmpty then
      some (((List.range 16).foldl (fun s n => s.modStack n fun S => { S with inService := true })
        (s.modHub fun h => { h with phase := .full, mhz := 1400 })).post 0x04 0 0)
    else none)

/-! ### Temperature, current and clock -/

/-- The core-rail current of the part (R26, R28). -/
def railTotal (tick : Nat) : Nat := ((List.range 4).map (Config.railCurrent tick)).sum

/-- The clock after a sample (R28): in early service it stays at 700 MHz (R449). -/
def State.clockAfter (s : State) : Nat :=
  let junctions := (List.range 4).map (Config.junction s.tick)
  let mhz := s.hub.mhz
  if junctions.any (420 ≤ ·) ∨ 12000 ≤ railTotal s.tick then Nat.max 700 (mhz - 100)
  else if junctions.all (· < 400) ∧ railTotal s.tick < 11400 ∧ s.hub.phase = .full then Nat.min 1400 (mhz + 100)
  else mhz

/-- A die's current and hottest junction are counted by the units of sources 4 and 5 (R452). -/
def State.sampleDie (s : State) (d : Nat) : State :=
  (s.monitorEvent d 4 none (Config.railCurrent s.tick d)).monitorEvent d 5 none (Config.junction s.tick d)

/-- The clock changes by a step, which is posted and counted (R28, R451, R452). -/
def State.stepClock (s : State) (mhz : Nat) : State :=
  if mhz = s.hub.mhz then s
  else (List.range 4).foldl (fun s d => if s.dieRuns d then s.sampleDie d else s)
    ((s.modHub fun h => { h with mhz := mhz }).post 0x10 0 mhz)

/-- R28. MC_SAMPLE. -/
def execMcSample (s : State) : Host.Outcome State Fault Refusal :=
  occurs s (if s.managed && decide (s.hub.sampleAt ≤ s.hub.clk) then
      some ((s.modHub fun h => { h with sampleAt := h.sampleAt + Config.samplePeriod }).stepClock s.clockAfter)
    else none)

/-- R452. MONITOR_SAMPLE. -/
def execMonitorSample (die : Nat) (s : State) : Host.Outcome State Fault Refusal :=
  occurs s (if s.dieRuns die && decide (die < 4) && decide ((s.die die).samples < s.clk die / 1024) then
      some ((s.modDie die fun D => { D with samples := D.samples + 1 }).sampleDie die)
    else none)

/-- The ASIDs that have a team or a residency. -/
def State.liveAsids (s : State) : List W16 :=
  ((s.teams.filter fun (_, T) => !T.gone).map (·.2.asid)
    ++ s.hbmStacks.flatMap fun (_, S) => (S.residencies.filter fun (_, R) => R.state != .ended).map (·.2.asid)).eraseDups

/-- An address space ends with all that it has (R28, R423), at once: with its clock stopped, nothing of it drains. -/
def State.tearDown (s : State) (asid : W16) : State :=
  let s := s.doAsidKill asid
  let s := (s.teams.filter fun (_, T) => T.asid = asid).foldl (fun s (t, _) => s.dropTeam t) s
  let s := s.hbmStacks.foldl (fun s (n, S) => S.residencies.foldl (fun s (k, R) =>
    if R.asid = asid ∧ R.state ≠ .ended then s.endResidency n k true else s) s) s
  (s.teardownEnd asid).getD s

/-- A die of which a junction is at 115 °C in this step (R28). -/
def State.hotDie (s : State) : Option Nat := (List.range 4).find? fun d => decide (460 ≤ Config.junction s.tick d)

/-- R28. THERMAL_TRIP: a junction at 115 °C stops the clock, every team and residency ends with the teardown of its address space,
and the event is posted. -/
def execThermalTrip (s : State) : Host.Outcome State Fault Refusal :=
  occurs s (if s.managed = false then none
    else (s.hub.hot.or s.hotDie).map fun d =>
      ((s.liveAsids.foldl (fun s a => s.tearDown a) s).modHub fun h => { h with phase := .stopped, ready := false, hot := none }).post
        0x11 d 0)

end Sys2Proof.Machine
end

