-- ==== Sys2Proof/Machine/Sched.lean ====
section
/-! DEFINITION. The scheduler of a core (R345 to R358, R379, R389): the arrival of tokens, selection, placement and resumption,
pre-emption, and the swap of long waits. -/
namespace Sys2Proof.Machine

/-! ### Tokens arrive -/

/-- Whether a token on its way is the first of its sender to its channel (R261). -/
def State.firstOf (s : State) (index : Nat) (x : NetToken) : Bool :=
  !((s.net.take index).any fun y => y.core = x.core ∧ y.chan = x.chan ∧ y.sender = x.sender)

/-- R261, R346. TOKEN_ARRIVAL: a token that was sent reaches its channel's receive buffer, in the slot reserved for it, as its link
leaves it (R25). Frames take what they can, and entries become runnable. -/
def State.tokenArrival (s : State) (index : Nat) : Option State := do
  let x ← s.net[index]?
  if s.firstOf index x = false then none
  else
    let e := Config.linkError s.tick
    let tok := overLink e x.tok
    let s := s.countCorrection (dieOf x.core) e
    let s := { s with net := s.net.take index ++ s.net.drop (index + 1) }
    let s := s.modCore x.core fun C =>
      { C with
        channels := PMap.set C.channels [] x.chan (PMap.getD C.channels x.chan [] ++ [tok])
        reservedSlots := PMap.set C.reservedSlots 0 x.chan (PMap.getD C.reservedSlots x.chan 0 - 1) }
    some (s.settleCore x.core)

def execTokenArrival (index : Nat) (s : State) : Host.Outcome State Fault Refusal := occurs s (s.tokenArrival index)

/-! ### Templates -/

/-- A team template (R344). -/
structure Template where
  entry : W64
  groups : Nat
  k : Nat
  shared : Nat
  spill : Nat
  cw : Nat
  ch : Nat
  ibud : Nat
  tbud : Nat
  cont : W64
  policy : Bool
  quota : Nat
  topup : Bool
  deriving DecidableEq, Repr

/-- The fields of a template (R344). -/
def templateOf (ws : List W64) : Template :=
  let f := fieldOf ws
  { entry := BitVec.ofNat 64 (f 0 52 * 16), groups := f 52 5 + 1, k := f 57 4 + 1, shared := 256 * f 64 11, spill := 1024 * (f 80 6 + 1)
    cw := f 88 4 + 1, ch := f 92 4 + 1, ibud := f 96 48, tbud := f 144 48, cont := BitVec.ofNat 64 (f 192 52 * 16)
    policy := f 244 1 = 1, quota := f 245 16, topup := f 261 1 = 1 }

/-- What a team takes of a core (R348), and its claim (R153). -/
structure Need where
  teams : Nat := 1
  groups : Nat
  regs : Nat
  shared : Nat
  spill : Nat
  tiles : Nat := 0
  bufsA : Nat := 0
  bufsB : Nat := 0
  deriving DecidableEq, Repr

def Need.add (x y : Need) : Need :=
  { teams := x.teams + y.teams, groups := x.groups + y.groups, regs := x.regs + y.regs, shared := x.shared + y.shared
    spill := x.spill + y.spill, tiles := x.tiles + y.tiles, bufsA := x.bufsA + y.bufsA, bufsB := x.bufsB + y.bufsB }

/-- The limits of R348, shared memory less the core's frames, and those of R153. -/
def Need.within (x : Need) (frames : Nat) : Bool :=
  decide (x.teams ≤ 8 ∧ x.groups ≤ 32 ∧ x.regs ≤ 512 ∧ x.shared + frames ≤ 393216 ∧ x.spill ≤ 262144 ∧ x.tiles ≤ 4
    ∧ x.bufsA ≤ 8 ∧ x.bufsB ≤ 8)

def Template.need (x : Template) : Need :=
  { groups := x.groups, regs := x.groups * x.k, shared := x.shared, spill := x.groups * x.spill }

/-- What a team takes: a retired member of a cluster keeps its shared memory only (R246). -/
def Team.need (T : Team) : Need :=
  if T.gone then { teams := 0, groups := 0, regs := 0, shared := T.sharedSize, spill := 0 }
  else
    let n := T.groups.length
    let (t, a, b) := match T.matrix with | some M => (M.tiles, M.depthA, M.depthB) | none => (0, 0, 0)
    { groups := n, regs := n * T.k, shared := T.sharedSize, spill := n * T.spillSize, tiles := t, bufsA := a, bufsB := b }

/-- What a core's teams take, without some of them. -/
def State.used (s : State) (core : Nat) (without : List Nat) : Need :=
  s.teams.foldl (fun n (t, T) =>
    if T.core = core ∧ (T.place = .resident ∨ T.gone) ∧ t ∉ without then n.add T.need else n)
    { teams := 0, groups := 0, regs := 0, shared := 0, spill := 0 }

/-- Whether a need fits beside what a core's teams take, without some of them (R348). -/
def State.fitsOn (s : State) (without : List Nat) (x : Nat × Need) : Bool :=
  ((s.used x.1 without).add x.2).within (s.core x.1).frameBytes

/-- The template of an entry, read in its ASID at supervisor privilege, or the failure of its placement: PAGE or ACCESS with the level,
or BAD_HANDLE (R348). -/
def State.readTemplate (s : State) (core : Nat) (H : Handler) : Except XlatFault Template :=
  let va : W64 := BitVec.ofNat 64 H.template
  match s.translate H.asid true .r Window.isScratchpad va with
  | .error f => .error f
  | .ok p =>
    let ws := s.readWords p.gen p.pa 8
    let f := fieldOf ws
    let T := templateOf ws
    let frame := if H.frame then 64 * H.slotCount else 0
    if s.spoiled p.pa 64 ∨ f 61 3 ≠ 0 ∨ f 75 5 ≠ 0 ∨ f 86 2 ≠ 0 ∨ f 262 250 ≠ 0 ∨ 393216 < T.shared ∨ 12 < T.cw * T.ch
        ∨ T.need.within (s.core core).frameBytes = false ∨ T.shared < frame then .error ⟨.badHandle, 0⟩
    else .ok T

/-! ### Candidates -/

/-- The members of a team's cluster that are away from their cores. -/
def State.awayOf (s : State) (lead : Nat) : List (Nat × Team) := (s.clusterOf lead).filter fun (_, U) => U.place ≠ .resident

/-- Whether a team is a candidate of a core (R347, R356): its cluster's members that are away are all ready, and it is the first of
them. -/
def State.readyOn (s : State) (core : Nat) (x : Nat × Team) : Bool :=
  let away := s.awayOf x.2.lead
  decide (x.2.core = core) && !x.2.gone && decide (x.2.place = .out true) && decide ((away.map (·.1)).head? = some x.1)
    && away.all fun (_, U) => decide (U.place = .out true)

/-- A candidate with its priority, its age and its place among equals. -/
structure Ranked where
  who : Candidate
  prio : Nat
  age : Nat
  order : Nat
  deriving DecidableEq, Repr

def Candidate.isTeam : Candidate → Bool
  | .team _ => true
  | .handler _ => false

/-- The candidates of a core (R347). -/
def State.candidates (s : State) (core : Nat) : List Ranked :=
  ((s.core core).handlers.filterMap fun (i, H) => H.age.map fun a => { who := .handler i, prio := H.prio, age := a, order := i })
    ++ (s.teams.filter (s.readyOn core)).map fun (t, T) => { who := .team t, prio := T.prio, age := T.age, order := T.placedAt }

/-- Whether a candidate is older: ties go to teams, then to the lower index or the earlier placement (R347). -/
def Ranked.older (x y : Ranked) : Bool :=
  decide (x.age < y.age) || (decide (x.age = y.age) &&
    ((x.who.isTeam && !y.who.isTeam) || (x.who.isTeam == y.who.isTeam && decide (x.order < y.order))))

/-- The oldest of some candidates. -/
def oldest : List Ranked → Option Ranked
  | [] => none
  | x :: rest => match oldest rest with | none => some x | some y => some (if y.older x then y else x)

/-- The candidate of the highest priority: a ready team before handlers, and among handlers the next index after the one last chosen
(R347). -/
def byPriority (last : PMap Nat) (xs : List Ranked) : Option Ranked :=
  let top := xs.foldl (fun n x => Nat.max n x.prio) 0
  let level := xs.filter fun x => x.prio = top
  match oldest (level.filter fun x => x.who.isTeam) with
  | some x => some x
  | none =>
    let above := level.filter fun x => match PMap.get? last top with | some i => i < x.order | none => true
    let pool := if above = [] then level else above
    pool.foldl (fun best x => match best with | some y => if x.order < y.order then some x else best | none => some x) none

/-! ### Where a candidate fits -/

/-- The cores of a rectangle of a die, in member order (R246, R349). -/
def rectangle (die row col w h : Nat) : List Nat :=
  (List.range (w * h)).map fun m => die * 192 + (row + m / w) * 16 + (col + m % w)

/-- The rectangles of a shape on a die, by ascending row and column of their north-west corner (R349). -/
def rectangles (die w h : Nat) : List (List Nat) :=
  (List.range (13 - h)).flatMap fun row => (List.range (17 - w)).map fun col => rectangle die row col w h

/-- The places of a candidate in the order in which they are tried: cores with what each must hold (R348, R349, R356). A placement of a
new team needs a free virtual id, of which there are 65,536 (R241). -/
def State.options (s : State) (core : Nat) (who : Candidate) : Except XlatFault (List (List (Nat × Need))) :=
  match who with
  | .team t =>
    (match s.team? t with
      | some T => .ok [(s.awayOf T.lead).map fun (_, U) => (U.core, U.need)]
      | none => .ok [])
  | .handler i =>
    match s.readTemplate core (PMap.getD (s.core core).handlers i {}) with
    | .error f => .error f
    | .ok T =>
      if T.cw * T.ch = 1 then .ok [[(core, T.need)]]
      else .ok ((rectangles (dieOf core) T.cw T.ch).map fun cs => cs.map fun c => (c, T.need))

/-- The virtual ids of a core's teams (R241). -/
def State.vids (s : State) (core : Nat) : List Nat := (s.teams.filter fun (_, T) => T.core = core).map fun (_, T) => T.vid

/-- The first place that fits. -/
def State.firstFit (s : State) (who : Candidate) (places : List (List (Nat × Need))) : Option (List (Nat × Need)) :=
  places.find? fun p => p.all fun x => s.fitsOn [] x && (who.isTeam || decide ((s.vids x.1).length < 65536))

/-! ### Placement -/

/-- The first number from 0 that a list does not hold. -/
def firstFree (xs : List Nat) (n : Nat) : Nat := ((List.range n).find? fun i => !xs.contains i).getD 0

/-- A free slot of a core: one that no resident team has (R389). -/
def State.freeSlot (s : State) (core : Nat) : Nat :=
  firstFree ((s.teams.filter fun (_, T) => T.core = core && decide (T.place = .resident) && !T.gone).map fun (_, T) => T.slot) 8

/-- A team's handle (R389). -/
def handleOf (core slot gen : Nat) : W32 := BitVec.ofNat 32 (destOfCore core + slot * 2 ^ 10 + gen % 2 ^ 19 * 2 ^ 13)

/-- The next generation of a slot: it skips the values that live teams' handles hold (R389). -/
def State.nextGen (s : State) (core slot : Nat) : Nat → Nat → Nat
  | 0, gen => gen
  | fuel + 1, gen =>
    let g := (gen + 1) % 2 ^ 19
    if s.teams.any fun (_, T) => !T.gone && decide (T.handle = handleOf core slot g) then s.nextGen core slot fuel g else g

/-- What a launch gives its team beyond the template (R350, R351, R379). -/
structure Launch where
  entry : Nat
  tok : Token
  /-- The bytes of a frame and its present mask; none for a plain entry. -/
  frame : Option (List Host.Cell × Nat)
  teamid : W32
  prio : Nat
  asid : W16
  sup : Bool
  deriving DecidableEq, Repr

/-- g56 at launch (R350). -/
def Launch.g56 (x : Launch) : W64 :=
  let valid := match x.frame with | some (_, present) => present | none => x.tok.valid.toNat
  BitVec.ofNat 64 (x.tok.tag.toNat + x.tok.chan.toNat * 2 ^ 16 + valid * 2 ^ 24 + kindNumber x.tok.kind * 2 ^ 40 + x.entry * 2 ^ 44
    + if x.frame.isSome then 2 ^ 50 else 0)

/-- g48 to g56 at launch (R350). -/
def Launch.uniforms (x : Launch) : PMap W64 :=
  let data (i : Nat) : W64 :=
    if x.frame.isSome then 0 else (x.tok.data.getD (2 * i + 1) 0) ++ (x.tok.data.getD (2 * i) 0)
  PMap.set ((List.range 8).foldl (fun m i => PMap.set m 0 (48 + i) (data i)) []) 0 56 x.g56

/-- A lane's generator state at launch (R96). -/
def launchSeed (teamid : W32) (g l : Nat) : W32 :=
  genSeed (teamid.toNat * 0x9E3779B9 + g * 0x85EBCA6B + l * 0xC2B2AE35 + 1)

/-- Group g of a team at launch (R43, R350). -/
def launchGroup (T : Template) (x : Launch) (g : Nat) : Group :=
  { g := x.uniforms, launched := 0xFFFF, mask := 0xFFFF, pc := T.entry, path := .launch
    gens := (List.range 16).foldl (fun m l => PMap.set m 0 l (launchSeed x.teamid g l)) [] }

/-- Member m of a launched cluster on its core (R348 to R350, R379): `lead` numbers member 0. -/
def State.launchTeam (s : State) (T : Template) (x : Launch) (lead m core : Nat) : State :=
  let slot := s.freeSlot core
  let gen := s.nextGen core slot (s.teams.length + 1) (PMap.getD (s.core core).slotGen slot 0)
  let task := if x.frame.isSome then none else grantsOf x.tok
  let vid := firstFree (s.vids core) 65536
  let first := s.team? lead
  let U : Team :=
    { id := s.nextTeam, core := core, handle := handleOf core slot gen, vid := vid, asid := x.asid, sup := x.sup
      topup := T.topup || (task.isSome && (x.tok.data.getD 4 0).getLsbD 8), teamid := x.teamid, lead := lead, member := m
      cw := T.cw, ch := T.ch, leadCore := match first with | some L => L.core | none => core
      leadVid := match first with | some L => L.vid | none => vid
      k := T.k, sharedSize := T.shared, spillSize := T.spill, entryPrio := x.prio, prio := x.prio
      ibud := match task with | some b => b.1 | none => T.ibud
      tbud := match task with | some b => b.2 | none => T.tbud
      cont := T.cont, waitswap := 32768, placedAt := s.clk (dieOf core), age := s.clk (dieOf core), slot := slot
      groups := (List.range T.groups).map (launchGroup T x)
      shared := match x.frame with | some (bytes, _) => bytes | none => []
      tape := { policy := T.policy, quota := T.quota } }
  let s := s.modCore core fun C => { C with slotGen := PMap.insert C.slotGen slot gen }
  { s with teams := PMap.insert s.teams s.nextTeam U, nextTeam := s.nextTeam + 1 }

/-- The teams of a launch on their cores, member 0 first (R19, R349). -/
def State.launchAll (s : State) (T : Template) (x : Launch) (lead : Nat) : Nat → List Nat → State
  | _, [] => s
  | m, core :: rest => (s.launchTeam T x lead m core).launchAll T x lead (m + 1) rest

/-- An entry whose token or frame has been consumed (R345, R350). -/
def Core.consume (C : Core) (i : Nat) (H : Handler) : Core :=
  let C := if H.frame then C else C.takeHead H.channel
  { C with handlers := PMap.insert C.handlers i { H with age := none, gridDone := 0, gridAge := 0, present := 0, bytes := [], first := none } }

/-- What an entry's launch takes from its token (R350, R351): `n` teams in all. -/
def Core.launchOf (C : Core) (i : Nat) (H : Handler) : Launch × Nat :=
  let tok := if H.frame then H.first.getD (dataToken [] 0 0) else (C.head? H.channel).getD (dataToken [] 0 0)
  let grid := H.grid && !H.frame
  ({ entry := i, tok := tok, frame := if H.frame then some (H.bytes, H.present) else none
     teamid := if grid then tok.data.getD 14 0 + BitVec.ofNat 32 H.gridDone else 0, prio := H.prio, asid := H.asid, sup := H.sup },
    if grid then (tok.data.getD 15 0).toNat + 1 else 1)

/-- The launch of an entry on its cores (R348 to R351): the token leaves with the last team of a grid. -/
def State.launch (s : State) (core i : Nat) (T : Template) (cores : List Nat) : State :=
  let C := s.core core
  let H := PMap.getD C.handlers i {}
  let (x, n) := C.launchOf i H
  let s := s.launchAll T x s.nextTeam 0 cores
  (s.modCore core fun C =>
    if H.gridDone + 1 < n then { C with handlers := PMap.insert C.handlers i { H with
        gridDone := H.gridDone + 1, gridAge := if H.gridDone = 0 then H.age.getD 0 else H.gridAge } }
    else C.consume i H).settleCore core

/-- A placement that fails (R348): the token or frame is consumed, the entry is masked, and a record goes to the entry's ASID. -/
def State.placementFails (s : State) (core i : Nat) (f : XlatFault) : State :=
  let H := PMap.getD (s.core core).handlers i {}
  let s := (s.modCore core fun C =>
    let C := C.consume i H
    { C with handlers := PMap.update C.handlers i fun K => { K with masked := true } }).settleCore core
  let r : Record :=
    { code := f.code, source := 5, asid := H.asid, detail := f.level, address := BitVec.ofNat 64 H.template
      place := BitVec.ofNat 64 (i + coreIdOf core * 2 ^ 6 + dieOf core * 2 ^ 14), cycle := s.clk (dieOf core) }
  (s.writeRecord r).getD s

/-- Ready teams resume on their cores (R356). -/
def State.resume (s : State) : List (Nat × Team) → State
  | [] => s
  | (t, T) :: rest =>
    State.resume (s.modTeam t fun U => { U with place := .resident, slot := s.freeSlot T.core, waitCount := 0 }) rest

/-- The launch or resumption of a candidate, where it fits or its placement fails; none where it does not fit. -/
def State.attempt (s : State) (core : Nat) (who : Candidate) : Option State :=
  match s.options core who, who with
  | .error f, .handler i => some (s.placementFails core i f)
  | .error _, .team _ => none
  | .ok places, _ =>
    match s.firstFit who places, who with
    | none, _ => none
    | some _, .team t => (match s.team? t with | some T => some (s.resume (s.awayOf T.lead)) | none => none)
    | some place, .handler i =>
      match s.readTemplate core (PMap.getD (s.core core).handlers i {}) with
      | .ok T => some (s.launch core i T (place.map (·.1)))
      | .error _ => none

/-! ### Decisions -/

/-- Whether a core makes decisions: its die runs, and no move to full service holds it back (R449, R450). -/
def State.decides (s : State) (core : Nat) : Bool :=
  s.dieRuns (dieOf core) && (match s.hub.phase with | .early true => false | _ => true)

/-- The core after a decision (R347): the unit is busy for 4 cycles. -/
def State.decided (s : State) (core : Nat) : State :=
  s.modCore core fun C => { C with decisions := C.decisions + 1, busyTo := s.clk (dieOf core) + 4 }

/-- The handler chosen at its level is noted for the round-robin (R347). -/
def State.noteChoice (s : State) (core : Nat) (x : Ranked) : State :=
  match x.who with
  | .handler i => s.modCore core fun C => { C with lastChosen := PMap.insert C.lastChosen x.prio i }
  | .team _ => s

/-- The overdue state of a placed candidate ends (R353). -/
def Core.placed (C : Core) (who : Candidate) : Core := { C with overdue := C.overdue.filter (· ≠ who) }

/-- The chosen candidate launches or resumes, or becomes the core's blocked candidate (R347). -/
def State.choose (s : State) (core : Nat) (x : Ranked) : State :=
  let s := s.noteChoice core x
  match s.attempt core x.who with
  | some s => s.modCore core fun C => C.placed x.who
  | none => s.modCore core fun C => { C with blocked := some (x.who, s.clk (dieOf core)) }

/-- The blocked candidate of a core, where it is a candidate still. -/
def State.blockedOf (s : State) (core : Nat) : Option Ranked :=
  match (s.core core).blocked with
  | some (who, _) => (s.candidates core).find? fun x => x.who = who
  | none => none

/-- R347 to R351, R356. SELECTOR_DECISION: the next decision of a core. The blocked candidate goes first when it fits; then the oldest
candidate at every 64th decision, and otherwise the first by priority, above the blocked one where there is one. -/
def State.decision (s : State) (core : Nat) : Option State :=
  let s := s.settleCore core
  let C := s.core core
  if s.decides core = false ∨ s.clk (dieOf core) < C.busyTo ∨ s.candidates core = [] then none
  else
    let guard := (C.decisions + 1) % 64 = 0
    match s.blockedOf core with
    | none =>
      let s := (s.decided core).modCore core fun C => { C with blocked := none }
      (if guard then oldest (s.candidates core) else byPriority C.lastChosen (s.candidates core)).map (s.choose core)
    | some b =>
      match s.attempt core b.who with
      | some s => some ((s.decided core).modCore core fun C => { C.placed b.who with blocked := none })
      | none =>
        let s := s.decided core
        let pool := (s.candidates core).filter fun x => x.who ≠ b.who ∧ b.prio < x.prio
        match (if guard then oldest (s.candidates core) else byPriority C.lastChosen pool) with
        | some x => some (if x.who = b.who then s else s.choose core x)
        | none => some s

def execSelectorDecision (core : Nat) (s : State) : Host.Outcome State Fault Refusal := occurs s (s.decision core)

/-! ### Pre-emption -/

/-- Teams that are leaving their cores. -/
def State.leaving (s : State) : List Nat := (s.teams.filter fun (_, T) => T.taken.isSome).map (·.1)

/-- Whether a resident team may be taken for a candidate of a priority, with its whole cluster (R352, R353). -/
def State.takeable (s : State) (prio : Nat) (overdue : Bool) (T : Team) : Bool :=
  decide (T.place = .resident) && T.taken.isNone && !T.gone && !s.dying.contains T.asid
    && (overdue || (s.residentsOf T.lead).all fun (_, U) => decide (U.prio < prio))

/-- Victims in the order in which they are taken: the lowest PRIO first, then the latest placement (R352). -/
def State.victims (s : State) (cores : List Nat) (prio : Nat) (overdue : Bool) : List (Nat × Team) :=
  sortBy (fun x y => decide (x.2.prio < y.2.prio) || (decide (x.2.prio = y.2.prio) && decide (y.2.placedAt ≤ x.2.placedAt)))
    (s.teams.filter fun (_, T) => cores.contains T.core && s.takeable prio overdue T)

/-- The resident teams of victims' clusters, taken in turn until the place fits. -/
def State.takeUntil (s : State) (place : List (Nat × Need)) (gone : List Nat) : List (Nat × Team) → List Nat
  | [] => gone
  | (_, T) :: rest =>
    if place.all (s.fitsOn gone) then gone
    else s.takeUntil place (gone ++ ((s.residentsOf T.lead).map (·.1)).filter fun u => !gone.contains u) rest

/-- A team begins to be taken, and leaves at once where nothing holds it (R41). -/
def State.take (s : State) (why : Taking) (t : Nat) : State :=
  let s := s.beginTake t why
  match s.team? t with
  | some T => if T.mayLeave then s.finishTake t else s
  | none => s

/-- R352, R353. PRE_EMPTION: for the core's blocked candidate, victims are taken until the first place that it could have fits; none where
all of them together would not make it fit. -/
def State.preEmption (s : State) (core : Nat) : Option State := do
  let b ← s.blockedOf core
  let places ← (s.options core b.who).toOption
  let place ← places.head?
  let leaving := s.leaving
  let vs := s.victims (place.map (·.1)) b.prio ((s.core core).overdue.contains b.who)
  let all := s.takeUntil place leaving vs
  if s.decides core = false ∨ place.all (s.fitsOn leaving) ∨ place.all (s.fitsOn all) = false then none
  else some ((all.filter fun t => !leaving.contains t).foldl (fun s t => s.take .victim t) s)

def execPreEmption (core : Nat) (s : State) : Host.Outcome State Fault Refusal := occurs s (s.preEmption core)

/-- R353. OVERDUE: a candidate that has been blocked for 1,048,576 cycles. -/
def State.overdue (s : State) (core : Nat) : Option State :=
  match s.blockedOf core, (s.core core).blocked with
  | some b, some (_, since) =>
    if (s.core core).overdue.contains b.who ∨ s.clk (dieOf core) < since + 1048576 then none
    else some (s.modCore core fun C => { C with overdue := C.overdue ++ [b.who] })
  | _, _ => none

def execOverdue (core : Nat) (s : State) : Host.Outcome State Fault Refusal := occurs s (s.overdue core)

/-! ### Long waits -/

/-- Whether a group has ended or stands in a counting wait (R355). -/
def Team.groupCounts (T : Team) (G : Group) : Bool :=
  G.phase == .ended ||
    match G.blk with
    | none => G.awaitsBar
    | some F =>
      match F.wait with
      | some (.mbar _ _) | some (.bar _ _) | some (.queueWait _) | some (.batch _) | some (.pop _) | some (.push _) => true
      | some .matrix => (match T.matrix with | some M => M.ask.isSome && M.asking.any MatCmd.paired | none => false)
      | _ => false

/-- Whether the team's wait count grows (R355). -/
def Team.counts (T : Team) : Bool :=
  decide (T.place = .resident) && !T.gone && T.taken.isNone && T.groups.all T.groupCounts

/-- Whether a team's wait count has reached its limit (R355). -/
def Team.waitedOut (T : Team) : Bool := T.counts && decide (T.waitswap ≠ 0 ∧ T.waitswap ≤ T.waitCount)

/-- R355. LONG_WAIT_SWAP: the team is swapped out, with its whole cluster once every member has waited long enough. -/
def State.longWait (s : State) (t : Nat) : Option State := do
  let T ← s.team? t
  let members := s.clusterOf T.lead
  if T.waitedOut = false ∨ members.all (fun (_, U) => U.waitedOut) = false then none
  else some (members.foldl (fun s (u, _) => s.take .longWait u) s)

def execLongWaitSwap (team : Nat) (s : State) : Host.Outcome State Fault Refusal := occurs s (s.longWait team)

/-- Whether the wait of a group's abandoned block, or the barrier that its next block waits for, is satisfied (R356). -/
def State.satisfied (s : State) (T : Team) (g : Nat) (G : Group) : Bool :=
  let chan (n : Nat) (f : Eyelet → Bool) : Bool := match PMap.get? G.eyelets n with | some e => f e | none => true
  match G.waited with
  | some (.pop n) => (PMap.get? G.latches n).isSome || chan n fun e => ((s.core T.core).head? e.channel).isSome
  | some (.push n) => chan n fun e => decide (s.channelRoom e.core e.channel ≠ 0)
  | some (.bar cluster id) => !G.pendingOn cluster id
  | some (.mbar pa phase) => let w := s.readNat 0 pa 8; decide (bitsOf w 63 1 = 0 ∨ bitsOf w 48 8 ≠ phase)
  | some (.queueWait q) =>
    decide (0 < (s.queue q).depth) || (match PMap.get? G.kept q with | some n => decide (n < (s.queue q).notifies) | none => false)
  | some (.batch n) => !T.members.any fun m => m.1 = g ∧ m.2.1 ≤ n
  | some .matrix => (match T.matrix with | some M => (match M.ask with | some a => a.other.isSome | none => true) | none => true)
  | some _ => true
  | none => !G.awaitsBar

/-- R356. SWAP_RETEST: a swapped team whose wait is satisfied in some group becomes ready, and so does one whose groups have all ended, which
waits for nothing. -/
def State.retest (s : State) (t : Nat) : Option State := do
  let T ← s.team? t
  let some_ := T.draining || ((List.range T.groups.length).zip T.groups).any fun (g, G) => G.phase != .ended && s.satisfied T g G
  if T.place ≠ .out false ∨ T.gone ∨ some_ = false then none
  else some (s.modTeam t fun T => { T with place := .out true, age := s.clk (dieOf T.core) })

def execSwapRetest (team : Nat) (s : State) : Host.Outcome State Fault Refusal := occurs s (s.retest team)

end Sys2Proof.Machine
end

