-- ==== Sys2Proof/Machine/Dispatch.lean ====
section
/-! DEFINITION. The dispatch of every instruction and device event to its meaning. -/
namespace Sys2Proof.Machine

/-- One instruction or event in a state: one arm for each row of the opcode table. -/
def exec (i : Instr) (s : State) : Host.Outcome State Fault Refusal :=
  match i with
  | .powerOnReset => Sys2Proof.Machine.execPowerOnReset s
  | .firmwareLoad image => Sys2Proof.Machine.execFirmwareLoad image s
  | .firmwareReload image => Sys2Proof.Machine.execFirmwareReload image s
  | .stackTrained => Sys2Proof.Machine.execStackTrained s
  | .matrixCalibrated die => Sys2Proof.Machine.execMatrixCalibrated die s
  | .fullServiceReady => Sys2Proof.Machine.execFullServiceReady s
  | .fullServiceRequest => Sys2Proof.Machine.execFullServiceRequest s
  | .fullServiceMove => Sys2Proof.Machine.execFullServiceMove s
  | .mcSample => Sys2Proof.Machine.execMcSample s
  | .thermalTrip => Sys2Proof.Machine.execThermalTrip s
  | .monitorSample die => Sys2Proof.Machine.execMonitorSample die s
  | .attestationRequest nonce tenant => Sys2Proof.Machine.execAttestationRequest nonce tenant s
  | .eventRingSetup base records => Sys2Proof.Machine.execEventRingSetup base records s
  | .platformSet setting => Sys2Proof.Machine.execPlatformSet setting s
  | .mailboxHandlerEntryWrite core index w0 w1 => Sys2Proof.Machine.execMailboxHandlerEntryWrite core index w0 w1 s
  | .enq f q data => Sys2Proof.Machine.execEnq f q data s
  | .deq f q => Sys2Proof.Machine.execDeq f q s
  | .steal f q => Sys2Proof.Machine.execSteal f q s
  | .notify f q v => Sys2Proof.Machine.execNotify f q v s
  | .config f q words => Sys2Proof.Machine.execConfig f q words s
  | .registerWrite f q offset access => Sys2Proof.Machine.execRegisterWrite f q offset access s
  | .hent0Write v => Sys2Proof.Machine.execHent0Write v s
  | .resume stack node seq => Sys2Proof.Machine.execResume stack node seq s
  | .abort stack node seq => Sys2Proof.Machine.execAbort stack node seq s
  | .cxlMemRequest function offset request => Sys2Proof.Machine.execCxlMemRequest function offset request s
  | .seamLinkBringup port => Sys2Proof.Machine.execSeamLinkBringup port s
  | .seamRekey port => Sys2Proof.Machine.execSeamRekey port s
  | .seamRemoteEnqueue port request => Sys2Proof.Machine.execSeamRemoteEnqueue port request s
  | .seamRemoteCopy port sender va bytes => Sys2Proof.Machine.execSeamRemoteCopy port sender va bytes s
  | .tokenArrival index => Sys2Proof.Machine.execTokenArrival index s
  | .queueDelivery q => Sys2Proof.Machine.execQueueDelivery q s
  | .queueEngineTokenRelease q => Sys2Proof.Machine.execQueueEngineTokenRelease q s
  | .selectorDecision core => Sys2Proof.Machine.execSelectorDecision core s
  | .preEmption core => Sys2Proof.Machine.execPreEmption core s
  | .overdue core => Sys2Proof.Machine.execOverdue core s
  | .longWaitSwap team => Sys2Proof.Machine.execLongWaitSwap team s
  | .swapRetest team => Sys2Proof.Machine.execSwapRetest team s
  | .teamRetirement team => Sys2Proof.Machine.execTeamRetirement team s
  | .blockFetch => Sys2Proof.Machine.execBlockFetch s
  | .blockCommit => Sys2Proof.Machine.execBlockCommit s
  | .pack team => Sys2Proof.Machine.execPack team s
  | .rejoinReturn team => Sys2Proof.Machine.execRejoinReturn team s
  | .translationWalk asid va => Sys2Proof.Machine.execTranslationWalk asid va s
  | .copyStart team => Sys2Proof.Machine.execCopyStart team s
  | .copyComplete team seq => Sys2Proof.Machine.execCopyComplete team seq s
  | .loadStreamToken team stream => Sys2Proof.Machine.execLoadStreamToken team stream s
  | .storeStreamToken team stream => Sys2Proof.Machine.execStoreStreamToken team stream s
  | .matrixCommandStart team seq => Sys2Proof.Machine.execMatrixCommandStart team seq s
  | .mmaComplete team => Sys2Proof.Machine.execMmaComplete team s
  | .mldComplete team => Sys2Proof.Machine.execMldComplete team s
  | .mstComplete team => Sys2Proof.Machine.execMstComplete team s
  | .pairReq team => Sys2Proof.Machine.execPairReq team s
  | .pairFormed team => Sys2Proof.Machine.execPairFormed team s
  | .pairTimeout team => Sys2Proof.Machine.execPairTimeout team s
  | .sequencerEnableToken team controller => Sys2Proof.Machine.execSequencerEnableToken team controller s
  | .sequencerDone team controller => Sys2Proof.Machine.execSequencerDone team controller s
  | .residencyPlacement stack => Sys2Proof.Machine.execResidencyPlacement stack s
  | .drainAndSwitch stack slot => Sys2Proof.Machine.execDrainAndSwitch stack slot s
  | .configLoadComplete stack slot => Sys2Proof.Machine.execConfigLoadComplete stack slot s
  | .reconfigurationTokenSend stack slot node => Sys2Proof.Machine.execReconfigurationTokenSend stack slot node s
  | .reconfigurationTokenPass stack slot elem => Sys2Proof.Machine.execReconfigurationTokenPass stack slot elem s
  | .reconfigurationStart stack slot => Sys2Proof.Machine.execReconfigurationStart stack slot s
  | .elementDataFiring stack slot elem => Sys2Proof.Machine.execElementDataFiring stack slot elem s
  | .elementControlFiring stack slot elem => Sys2Proof.Machine.execElementControlFiring stack slot elem s
  | .faultStallPass stack slot elem => Sys2Proof.Machine.execFaultStallPass stack slot elem s
  | .agLoaderIssue stack slot node => Sys2Proof.Machine.execAgLoaderIssue stack slot node s
  | .agLoaderRequest stack slot node => Sys2Proof.Machine.execAgLoaderRequest stack slot node s
  | .agStorerToken stack slot node => Sys2Proof.Machine.execAgStorerToken stack slot node s
  | .agTileEnd stack slot node => Sys2Proof.Machine.execAgTileEnd stack slot node s
  | .fbudExhausted stack slot => Sys2Proof.Machine.execFbudExhausted stack slot s
  | .residencyEnd stack slot => Sys2Proof.Machine.execResidencyEnd stack slot s
  | .bankUnitElement who => Sys2Proof.Machine.execBankUnitElement who s
  | .macCombine who => Sys2Proof.Machine.execMacCombine who s
  | .controlRowStore => Sys2Proof.Machine.execControlRowStore s
  | .abmRequest => Sys2Proof.Machine.execAbmRequest s
  | .abmLeave => Sys2Proof.Machine.execAbmLeave s
  | .allBankGrant stack => Sys2Proof.Machine.execAllBankGrant stack s
  | .allBankActive stack pc => Sys2Proof.Machine.execAllBankActive stack pc s
  | .allBankExit stack pc => Sys2Proof.Machine.execAllBankExit stack pc s
  | .asidTeardownEnd asid => Sys2Proof.Machine.execAsidTeardownEnd asid s
  | .nop => Sys2Proof.Machine.execNop s
  | .rd r => Sys2Proof.Machine.execRd r s
  | .wr r => Sys2Proof.Machine.execWr r s
  | .moviShort imm => Sys2Proof.Machine.execMoviShort imm s
  | .moviLong ty imm => Sys2Proof.Machine.execMoviLong ty imm s
  | .movh imm => Sys2Proof.Machine.execMovh imm s
  | .lid => Sys2Proof.Machine.execLid s
  | .amask => Sys2Proof.Machine.execAmask s
  | .br e off => Sys2Proof.Machine.execBr e off s
  | .bri e => Sys2Proof.Machine.execBri e s
  | .call e off => Sys2Proof.Machine.execCall e off s
  | .callInd e => Sys2Proof.Machine.execCallInd e s
  | .ret e => Sys2Proof.Machine.execRet e s
  | .exit e => Sys2Proof.Machine.execExit e s
  | .yield e => Sys2Proof.Machine.execYield e s
  | .rejoin => Sys2Proof.Machine.execRejoin s
  | .jset off => Sys2Proof.Machine.execJset off s
  | .srr cr => Sys2Proof.Machine.execSrr cr s
  | .srw cr => Sys2Proof.Machine.execSrw cr s
  | .trap imm => Sys2Proof.Machine.execTrap imm s
  | .eret => Sys2Proof.Machine.execEret s
  | .adr off => Sys2Proof.Machine.execAdr off s
  | .clk => Sys2Proof.Machine.execClk s
  | .spin imm => Sys2Proof.Machine.execSpin imm s
  | .addB32 => Sys2Proof.Machine.execAddB32 s
  | .addB64 => Sys2Proof.Machine.execAddB64 s
  | .addSatI32 => Sys2Proof.Machine.execAddSatI32 s
  | .addSatN32 => Sys2Proof.Machine.execAddSatN32 s
  | .addSatI64 => Sys2Proof.Machine.execAddSatI64 s
  | .addSatN64 => Sys2Proof.Machine.execAddSatN64 s
  | .subB32 => Sys2Proof.Machine.execSubB32 s
  | .subB64 => Sys2Proof.Machine.execSubB64 s
  | .subSatI32 => Sys2Proof.Machine.execSubSatI32 s
  | .subSatN32 => Sys2Proof.Machine.execSubSatN32 s
  | .subSatI64 => Sys2Proof.Machine.execSubSatI64 s
  | .subSatN64 => Sys2Proof.Machine.execSubSatN64 s
  | .mulB32 => Sys2Proof.Machine.execMulB32 s
  | .mulB64 => Sys2Proof.Machine.execMulB64 s
  | .mulhiI32 => Sys2Proof.Machine.execMulhiI32 s
  | .mulhiN32 => Sys2Proof.Machine.execMulhiN32 s
  | .mulhiI64 => Sys2Proof.Machine.execMulhiI64 s
  | .mulhiN64 => Sys2Proof.Machine.execMulhiN64 s
  | .madB32 => Sys2Proof.Machine.execMadB32 s
  | .madB64 => Sys2Proof.Machine.execMadB64 s
  | .divI32 => Sys2Proof.Machine.execDivI32 s
  | .divN32 => Sys2Proof.Machine.execDivN32 s
  | .divI64 => Sys2Proof.Machine.execDivI64 s
  | .divN64 => Sys2Proof.Machine.execDivN64 s
  | .remI32 => Sys2Proof.Machine.execRemI32 s
  | .remN32 => Sys2Proof.Machine.execRemN32 s
  | .remI64 => Sys2Proof.Machine.execRemI64 s
  | .remN64 => Sys2Proof.Machine.execRemN64 s
  | .shl w => Sys2Proof.Machine.execShl w s
  | .shr ty => Sys2Proof.Machine.execShr ty s
  | .bitwiseB32 op => Sys2Proof.Machine.execBitwiseB32 op s
  | .bitwiseB64 op => Sys2Proof.Machine.execBitwiseB64 op s
  | .cmpI32 cc => Sys2Proof.Machine.execCmpI32 cc s
  | .cmpN32 cc => Sys2Proof.Machine.execCmpN32 cc s
  | .cmpI64 cc => Sys2Proof.Machine.execCmpI64 cc s
  | .cmpN64 cc => Sys2Proof.Machine.execCmpN64 cc s
  | .min ty => Sys2Proof.Machine.execMin ty s
  | .max ty => Sys2Proof.Machine.execMax ty s
  | .abs sat w => Sys2Proof.Machine.execAbs sat w s
  | .popc w => Sys2Proof.Machine.execPopc w s
  | .clz w => Sys2Proof.Machine.execClz w s
  | .brev w => Sys2Proof.Machine.execBrev w s
  | .bfe ty => Sys2Proof.Machine.execBfe ty s
  | .bfi w => Sys2Proof.Machine.execBfi w s
  | .sel w => Sys2Proof.Machine.execSel w s
  | .bsel => Sys2Proof.Machine.execBsel s
  | .leaShort sc => Sys2Proof.Machine.execLeaShort sc s
  | .leaLong sc off => Sys2Proof.Machine.execLeaLong sc off s
  | .faddF64 rm => Sys2Proof.Machine.execFaddF64 rm s
  | .faddF32 rm => Sys2Proof.Machine.execFaddF32 rm s
  | .faddF16 rm => Sys2Proof.Machine.execFaddF16 rm s
  | .faddBf16 rm => Sys2Proof.Machine.execFaddBf16 rm s
  | .faddF16x2 rm => Sys2Proof.Machine.execFaddF16x2 rm s
  | .faddBf16x2 rm => Sys2Proof.Machine.execFaddBf16x2 rm s
  | .fsubF64 rm => Sys2Proof.Machine.execFsubF64 rm s
  | .fsubF32 rm => Sys2Proof.Machine.execFsubF32 rm s
  | .fsubF16 rm => Sys2Proof.Machine.execFsubF16 rm s
  | .fsubBf16 rm => Sys2Proof.Machine.execFsubBf16 rm s
  | .fsubF16x2 rm => Sys2Proof.Machine.execFsubF16x2 rm s
  | .fsubBf16x2 rm => Sys2Proof.Machine.execFsubBf16x2 rm s
  | .fmulF64 rm => Sys2Proof.Machine.execFmulF64 rm s
  | .fmulF32 rm => Sys2Proof.Machine.execFmulF32 rm s
  | .fmulF16 rm => Sys2Proof.Machine.execFmulF16 rm s
  | .fmulBf16 rm => Sys2Proof.Machine.execFmulBf16 rm s
  | .fmulF16x2 rm => Sys2Proof.Machine.execFmulF16x2 rm s
  | .fmulBf16x2 rm => Sys2Proof.Machine.execFmulBf16x2 rm s
  | .fmaF64 rm => Sys2Proof.Machine.execFmaF64 rm s
  | .fmaF32 rm => Sys2Proof.Machine.execFmaF32 rm s
  | .fmaF16 rm => Sys2Proof.Machine.execFmaF16 rm s
  | .fmaBf16 rm => Sys2Proof.Machine.execFmaBf16 rm s
  | .fmaF16x2 rm => Sys2Proof.Machine.execFmaF16x2 rm s
  | .fmaBf16x2 rm => Sys2Proof.Machine.execFmaBf16x2 rm s
  | .fminF64 => Sys2Proof.Machine.execFminF64 s
  | .fminF32 => Sys2Proof.Machine.execFminF32 s
  | .fminF16 => Sys2Proof.Machine.execFminF16 s
  | .fminBf16 => Sys2Proof.Machine.execFminBf16 s
  | .fminF16x2 => Sys2Proof.Machine.execFminF16x2 s
  | .fminBf16x2 => Sys2Proof.Machine.execFminBf16x2 s
  | .fmaxF64 => Sys2Proof.Machine.execFmaxF64 s
  | .fmaxF32 => Sys2Proof.Machine.execFmaxF32 s
  | .fmaxF16 => Sys2Proof.Machine.execFmaxF16 s
  | .fmaxBf16 => Sys2Proof.Machine.execFmaxBf16 s
  | .fmaxF16x2 => Sys2Proof.Machine.execFmaxF16x2 s
  | .fmaxBf16x2 => Sys2Proof.Machine.execFmaxBf16x2 s
  | .fcmpF64 cc => Sys2Proof.Machine.execFcmpF64 cc s
  | .fcmpF32 cc => Sys2Proof.Machine.execFcmpF32 cc s
  | .fcmpF16 cc => Sys2Proof.Machine.execFcmpF16 cc s
  | .fcmpBf16 cc => Sys2Proof.Machine.execFcmpBf16 cc s
  | .fclassF64 => Sys2Proof.Machine.execFclassF64 s
  | .fclassF32 => Sys2Proof.Machine.execFclassF32 s
  | .fclassF16 => Sys2Proof.Machine.execFclassF16 s
  | .fclassBf16 => Sys2Proof.Machine.execFclassBf16 s
  | .cvtF64F32 => Sys2Proof.Machine.execCvtF64F32 s
  | .cvtF32F16 => Sys2Proof.Machine.execCvtF32F16 s
  | .cvtF32Bf16 => Sys2Proof.Machine.execCvtF32Bf16 s
  | .cvtF32E4m3 => Sys2Proof.Machine.execCvtF32E4m3 s
  | .cvtF32E5m2 => Sys2Proof.Machine.execCvtF32E5m2 s
  | .cvtF32E2m1 => Sys2Proof.Machine.execCvtF32E2m1 s
  | .cvtF32F64 rm sat => Sys2Proof.Machine.execCvtF32F64 rm sat s
  | .cvtF16F32 rm sat => Sys2Proof.Machine.execCvtF16F32 rm sat s
  | .cvtBf16F32 rm sat => Sys2Proof.Machine.execCvtBf16F32 rm sat s
  | .cvtE4m3F32 rm sat => Sys2Proof.Machine.execCvtE4m3F32 rm sat s
  | .cvtE5m2F32 rm sat => Sys2Proof.Machine.execCvtE5m2F32 rm sat s
  | .cvtE2m1F32 rm sat => Sys2Proof.Machine.execCvtE2m1F32 rm sat s
  | .cvtSrE4m3F32 sat => Sys2Proof.Machine.execCvtSrE4m3F32 sat s
  | .cvtSrE5m2F32 sat => Sys2Proof.Machine.execCvtSrE5m2F32 sat s
  | .cvtSrE2m1F32 sat => Sys2Proof.Machine.execCvtSrE2m1F32 sat s
  | .cvtF16x2F32 rm sat => Sys2Proof.Machine.execCvtF16x2F32 rm sat s
  | .cvtBf16x2F32 rm sat => Sys2Proof.Machine.execCvtBf16x2F32 rm sat s
  | .cvtF32I32 rm => Sys2Proof.Machine.execCvtF32I32 rm s
  | .cvtF32N32 rm => Sys2Proof.Machine.execCvtF32N32 rm s
  | .cvtF64I64 rm => Sys2Proof.Machine.execCvtF64I64 rm s
  | .cvtF64N64 rm => Sys2Proof.Machine.execCvtF64N64 rm s
  | .cvtI32F32 rm => Sys2Proof.Machine.execCvtI32F32 rm s
  | .cvtN32F32 rm => Sys2Proof.Machine.execCvtN32F32 rm s
  | .cvtI64F64 rm => Sys2Proof.Machine.execCvtI64F64 rm s
  | .cvtN64F64 rm => Sys2Proof.Machine.execCvtN64F64 rm s
  | .ext src w => Sys2Proof.Machine.execExt src w s
  | .nar rm sat => Sys2Proof.Machine.execNar rm sat s
  | .cvtE8m0F32 rm => Sys2Proof.Machine.execCvtE8m0F32 rm s
  | .cvtF32E8m0 rm => Sys2Proof.Machine.execCvtF32E8m0 rm s
  | .rcpF32 => Sys2Proof.Machine.execRcpF32 s
  | .rsqF32 => Sys2Proof.Machine.execRsqF32 s
  | .sqrtF32 => Sys2Proof.Machine.execSqrtF32 s
  | .exp2F32 => Sys2Proof.Machine.execExp2F32 s
  | .log2F32 => Sys2Proof.Machine.execLog2F32 s
  | .sinpiF32 => Sys2Proof.Machine.execSinpiF32 s
  | .cospiF32 => Sys2Proof.Machine.execCospiF32 s
  | .rcpF64 rm => Sys2Proof.Machine.execRcpF64 rm s
  | .sqrtF64 rm => Sys2Proof.Machine.execSqrtF64 rm s
  | .frndF32 rm => Sys2Proof.Machine.execFrndF32 rm s
  | .ldexpF32 rm => Sys2Proof.Machine.execLdexpF32 rm s
  | .permB32 => Sys2Proof.Machine.execPermB32 s
  | .permB64 => Sys2Proof.Machine.execPermB64 s
  | .xlaneB32 form rot => Sys2Proof.Machine.execXlaneB32 form rot s
  | .xlaneB64 form rot => Sys2Proof.Machine.execXlaneB64 form rot s
  | .vote form => Sys2Proof.Machine.execVote form s
  | .matchB32 => Sys2Proof.Machine.execMatchB32 s
  | .matchB64 => Sys2Proof.Machine.execMatchB64 s
  | .gscanAdd sat n => Sys2Proof.Machine.execGscanAdd sat n s
  | .gscanAddF32 => Sys2Proof.Machine.execGscanAddF32 s
  | .gscanMax ty => Sys2Proof.Machine.execGscanMax ty s
  | .gscanMin ty => Sys2Proof.Machine.execGscanMin ty s
  | .gredAdd sat n => Sys2Proof.Machine.execGredAdd sat n s
  | .gredAddF32 => Sys2Proof.Machine.execGredAddF32 s
  | .gredAddF64 => Sys2Proof.Machine.execGredAddF64 s
  | .gredMax ty => Sys2Proof.Machine.execGredMax ty s
  | .gredMin ty => Sys2Proof.Machine.execGredMin ty s
  | .gredBitwise op => Sys2Proof.Machine.execGredBitwise op s
  | .gscanAddF64 => Sys2Proof.Machine.execGscanAddF64 s
  | .pand op => Sys2Proof.Machine.execPand op s
  | .mpopc => Sys2Proof.Machine.execMpopc s
  | .mffs => Sys2Proof.Machine.execMffs s
  | .bcast => Sys2Proof.Machine.execBcast s
  | .gredSexp => Sys2Proof.Machine.execGredSexp s
  | .lmask rel => Sys2Proof.Machine.execLmask rel s
  | .lds w => Sys2Proof.Machine.execLds w s
  | .sts w => Sys2Proof.Machine.execSts w s
  | .ldx w => Sys2Proof.Machine.execLdx w s
  | .stx w => Sys2Proof.Machine.execStx w s
  | .ldk w => Sys2Proof.Machine.execLdk w s
  | .stk w => Sys2Proof.Machine.execStk w s
  | .atomAdd k wide => Sys2Proof.Machine.execAtomAdd k wide s
  | .atomAnd k wide => Sys2Proof.Machine.execAtomAnd k wide s
  | .atomOr k wide => Sys2Proof.Machine.execAtomOr k wide s
  | .atomXor k wide => Sys2Proof.Machine.execAtomXor k wide s
  | .atomMinI k wide => Sys2Proof.Machine.execAtomMinI k wide s
  | .atomMaxI k wide => Sys2Proof.Machine.execAtomMaxI k wide s
  | .atomMinN k wide => Sys2Proof.Machine.execAtomMinN k wide s
  | .atomMaxN k wide => Sys2Proof.Machine.execAtomMaxN k wide s
  | .atomExch k wide => Sys2Proof.Machine.execAtomExch k wide s
  | .atomCas k wide => Sys2Proof.Machine.execAtomCas k wide s
  | .atomInc k wide => Sys2Proof.Machine.execAtomInc k wide s
  | .atomDec k wide => Sys2Proof.Machine.execAtomDec k wide s
  | .atomFadd ty k => Sys2Proof.Machine.execAtomFadd ty k s
  | .atomFaddX2 ty k => Sys2Proof.Machine.execAtomFaddX2 ty k s
  | .atomFmax k wide => Sys2Proof.Machine.execAtomFmax k wide s
  | .atomFmin k wide => Sys2Proof.Machine.execAtomFmin k wide s
  | .redFaddF32 sc sp => Sys2Proof.Machine.execRedFaddF32 sc sp s
  | .ldAcq sc sp wide => Sys2Proof.Machine.execLdAcq sc sp wide s
  | .stRel sc sp wide => Sys2Proof.Machine.execStRel sc sp wide s
  | .fence sc => Sys2Proof.Machine.execFence sc s
  | .fenceSc => Sys2Proof.Machine.execFenceSc s
  | .barArrive => Sys2Proof.Machine.execBarArrive s
  | .barWait => Sys2Proof.Machine.execBarWait s
  | .barSync => Sys2Proof.Machine.execBarSync s
  | .barRed => Sys2Proof.Machine.execBarRed s
  | .barInval => Sys2Proof.Machine.execBarInval s
  | .mbarInit => Sys2Proof.Machine.execMbarInit s
  | .mbarArrive => Sys2Proof.Machine.execMbarArrive s
  | .mbarWait => Sys2Proof.Machine.execMbarWait s
  | .mbarTest => Sys2Proof.Machine.execMbarTest s
  | .mbarInval => Sys2Proof.Machine.execMbarInval s
  | .mcast => Sys2Proof.Machine.execMcast s
  | .cpy strict => Sys2Proof.Machine.execCpy strict s
  | .cpyBatch => Sys2Proof.Machine.execCpyBatch s
  | .cpyWait => Sys2Proof.Machine.execCpyWait s
  | .cpyLr strict => Sys2Proof.Machine.execCpyLr strict s
  | .sbind => Sys2Proof.Machine.execSbind s
  | .bind e => Sys2Proof.Machine.execBind e s
  | .unbind e => Sys2Proof.Machine.execUnbind e s
  | .sstat => Sys2Proof.Machine.execSstat s
  | .enqInstr => Sys2Proof.Machine.execEnqInstr s
  | .deqInstr => Sys2Proof.Machine.execDeqInstr s
  | .notifyInstr => Sys2Proof.Machine.execNotifyInstr s
  | .qwait => Sys2Proof.Machine.execQwait s
  | .qdepth => Sys2Proof.Machine.execQdepth s
  | .bpenc => Sys2Proof.Machine.execBpenc s
  | .bpdec => Sys2Proof.Machine.execBpdec s
  | .mld strict => Sys2Proof.Machine.execMld strict s
  | .mst strict => Sys2Proof.Machine.execMst strict s
  | .mmaF16 k => Sys2Proof.Machine.execMmaF16 k s
  | .mmaF8 k => Sys2Proof.Machine.execMmaF8 k s
  | .mmaE2m1 n => Sys2Proof.Machine.execMmaE2m1 n s
  | .mmaI8 n => Sys2Proof.Machine.execMmaI8 n s
  | .mzero => Sys2Proof.Machine.execMzero s
  | .mpairEast => Sys2Proof.Machine.execMpairEast s
  | .mpairWest => Sys2Proof.Machine.execMpairWest s
  | .mpairDissolve => Sys2Proof.Machine.execMpairDissolve s
  | .seqCfg => Sys2Proof.Machine.execSeqCfg s
  | .seqGo => Sys2Proof.Machine.execSeqGo s
  | .mchk => Sys2Proof.Machine.execMchk s
  | .tapeOpen => Sys2Proof.Machine.execTapeOpen s
  | .tapeClose => Sys2Proof.Machine.execTapeClose s
  | .tapeRec => Sys2Proof.Machine.execTapeRec s
  | .tapeRev => Sys2Proof.Machine.execTapeRev s
  | .tapePop => Sys2Proof.Machine.execTapePop s
  | .tapeBrpop => Sys2Proof.Machine.execTapeBrpop s
  | .tapeSeg => Sys2Proof.Machine.execTapeSeg s
  | .tapeStat => Sys2Proof.Machine.execTapeStat s
  | .mrd => Sys2Proof.Machine.execMrd s
  | .mwr => Sys2Proof.Machine.execMwr s
  | .steer drop => Sys2Proof.Machine.execSteer drop s
  | .merge sel => Sys2Proof.Machine.execMerge sel s
  | .carry => Sys2Proof.Machine.execCarry s
  | .inv => Sys2Proof.Machine.execInv s
  | .join => Sys2Proof.Machine.execJoin s
  | .win k => Sys2Proof.Machine.execWin k s
  | .isect => Sys2Proof.Machine.execIsect s
  | .tredSum elt => Sys2Proof.Machine.execTredSum elt s
  | .tredMax elt => Sys2Proof.Machine.execTredMax elt s
  | .tredSexp elt => Sys2Proof.Machine.execTredSexp elt s
  | .welt sc => Sys2Proof.Machine.execWelt sc s
  | .twillFence sc => Sys2Proof.Machine.execTwillFence sc s
  | .mbarvArrive => Sys2Proof.Machine.execMbarvArrive s
  | .mbarvEot => Sys2Proof.Machine.execMbarvEot s
  | .mbarvWait ph => Sys2Proof.Machine.execMbarvWait ph s
  | .sink => Sys2Proof.Machine.execSink s
  | .iter c => Sys2Proof.Machine.execIter c s
  | .cfgLaunch => Sys2Proof.Machine.execCfgLaunch s
  | .cfgBind => Sys2Proof.Machine.execCfgBind s
  | .cfgSignalStatus => Sys2Proof.Machine.execCfgSignalStatus s
  | .cfgSignalRelease => Sys2Proof.Machine.execCfgSignalRelease s
  | .cfgSignalStep => Sys2Proof.Machine.execCfgSignalStep s
  | .cfgSignalStop => Sys2Proof.Machine.execCfgSignalStop s
  | .cfgSignalPriority => Sys2Proof.Machine.execCfgSignalPriority s
  | .cfgEvictDrain => Sys2Proof.Machine.execCfgEvictDrain s
  | .cfgEvictKill => Sys2Proof.Machine.execCfgEvictKill s
  | .spawn => Sys2Proof.Machine.execSpawn s
  | .stealInstr => Sys2Proof.Machine.execStealInstr s
  | .jcntInit => Sys2Proof.Machine.execJcntInit s
  | .retireKeep0 => Sys2Proof.Machine.execRetireKeep0 s
  | .retireKeep1 => Sys2Proof.Machine.execRetireKeep1 s
  | .cont => Sys2Proof.Machine.execCont s
  | .budGet => Sys2Proof.Machine.execBudGet s
  | .budGive => Sys2Proof.Machine.execBudGive s
  | .budAdd => Sys2Proof.Machine.execBudAdd s
  | .asidKill => Sys2Proof.Machine.execAsidKill s
  | .tlbinvAsid => Sys2Proof.Machine.execTlbinvAsid s
  | .tlbinvVa => Sys2Proof.Machine.execTlbinvVa s
  | .tlbinvAsidEntry => Sys2Proof.Machine.execTlbinvAsidEntry s
  | .tlbinvAll => Sys2Proof.Machine.execTlbinvAll s
  | .monCfgConfigure => Sys2Proof.Machine.execMonCfgConfigure s
  | .monCfgStop => Sys2Proof.Machine.execMonCfgStop s
  | .monCfgDump => Sys2Proof.Machine.execMonCfgDump s
  | .keyset => Sys2Proof.Machine.execKeyset s
  | .keydrop => Sys2Proof.Machine.execKeydrop s
  | .circuitTokenArrival stack slot index => Sys2Proof.Machine.execCircuitTokenArrival stack slot index s
  | .linkPortNodeTransfer stack slot circuit => Sys2Proof.Machine.execLinkPortNodeTransfer stack slot circuit s

end Sys2Proof.Machine
end

