-- ==== Sys2Proof/Machine/Moves.lean ====
section
/-! DEFINITION. What a step is made of: the acts that are possible in a state, one act carried out, the passing of time, and the
placing of an instruction where the next step takes it. -/
namespace Sys2Proof.Machine

/-! ### The act of a group -/

/-- Of the opcode-table rows that share a word, the one that the operand on port a selects (R170, R297, R298, R386, R422, R424). An
operand that selects none leaves the row that decoding gives, whose fire refuses it. -/
def alternative (i : Instr) (a : Option W64) : Instr :=
  match a with
  | none => i
  | some x =>
    let f := bitsOf x.toNat
    match i with
    | .mpairEast => if x = 2 then .mpairWest else if x = 3 then .mpairDissolve else i
    | .cfgSignalStatus =>
      (match f 32 3 with
        | 1 => .cfgSignalRelease | 2 => .cfgSignalStep | 3 => .cfgSignalStop | 4 => .cfgSignalPriority
        | _ => i)
    | .cfgEvictDrain => if f 32 1 = 1 then .cfgEvictKill else i
    | .retireKeep0 => if f 0 1 = 1 then .retireKeep1 else i
    | .tlbinvAsid => (match f 0 2 with | 1 => .tlbinvVa | 2 => .tlbinvAsidEntry | 3 => .tlbinvAll | _ => i)
    | .monCfgConfigure => (match f 8 2 with | 1 => .monCfgStop | 2 => .monCfgDump | _ => i)
    | _ => i

/-- The instruction that the acting group executes next: that of the slot at which its block stands. -/
def Ctx.instr (c : Ctx) : Instr := alternative c.node.instr ((c.port? .a).bind Val.uniform?)

/-- The next act of the group for which the state acts: it fetches a block (R32), fires the slot at which its block stands (R38), or
commits the block (R39). -/
def State.act (s : State) (t g : Nat) : Host.Outcome State Fault Refusal :=
  let s := { s with cur := some (t, g) }
  match s.ctx? with
  | none => exec .blockFetch s
  | some c => if c.blk.slot ≤ c.blk.hdr.count then exec c.instr s else exec .blockCommit s

/-! ### Slots that fire ahead -/

/-- Whether an instruction may not fire before an earlier one of its block, since what it does depends on that one's having fired: the
numbers of batches (R258), the fills and uses of matrix buffers (R155, R170) and the records of a tape chain (R196). -/
def followsInTurn (earlier later : Instr) : Bool :=
  match later with
  | .cpyBatch => (match earlier with | .cpyBatch => true | _ => false)
  | .mld _ | .mmaF16 _ | .mmaF8 _ | .mmaE2m1 _ | .mmaI8 _ =>
    (match earlier with
      | .mld _ | .mmaF16 _ | .mmaF8 _ | .mmaE2m1 _ | .mmaI8 _ | .mpairEast | .mpairWest | .mpairDissolve => true
      | _ => false)
  | .tapePop | .tapeBrpop => (match earlier with | .tapePop | .tapeBrpop => true | _ => false)
  | _ => false

/-- The space that a load reads (R230). -/
def loadSpace (i : Instr) : Option MemSpace :=
  match i with
  | .lds _ => some .shared
  | .ldx _ => some .spad
  | .ldk _ => some .spill
  | .ldAcq _ sp _ => some (spaceOf sp)
  | _ => none

/-- Whether an instruction reads memory at its fire (R211, R248). -/
def readsMemory (i : Instr) : Bool :=
  (loadSpace i).isSome ||
    match i with
    | .mbarWait | .mbarTest | .cpy _ | .cpyLr _ | .sbind | .mld _ | .mst _ | .seqCfg | .spawn | .cfgLaunch | .cfgBind | .tapeRev => true
    | _ => false

/-- Whether a scope orders the scratchpads (R216). -/
def ordersPads : Scope → Bool
  | .die | .device | .system => true
  | .group | .team | .cluster => false

/-- Whether the reads of later instructions come after what an instruction returns (R217, R223, R245, R267): an acquire of memories that
they read, the end of copies, or an entry taken from a queue. -/
def acquiresFor (earlier later : Instr) : Bool :=
  readsMemory later &&
    match earlier with
    | .mbarWait | .cpyWait | .deqInstr | .stealInstr => true
    | .ldAcq sc _ _ => ordersPads sc || (match loadSpace later with | some .shared | some .spill => true | _ => false)
    | _ => false

/-- The slots after the first one not fired at which an instruction stands: an extension word is none (R34). -/
def slotsAfter (words : List W32) : Nat → Nat → List Nat
  | 0, _ => []
  | fuel + 1, slot =>
    let next := slot + if isExtended ((words.getD slot 0).toNat / 2 ^ 23) then 2 else 1
    if words.length ≤ next then [] else next :: slotsAfter words fuel next

/-- Whether every port that the slot uses holds a value (R38). -/
def Flight.operandsStand (F : Flight) (slot : Nat) : Bool :=
  let w := (F.words.getD slot 0).toNat
  let guard := if bitsOf w 21 2 = 0 then [] else [Port.p]
  (portsOf (w / 2 ^ 23) (bitsOf w 18 3) ++ guard).all fun p => F.ports.any fun v => decide (v.slot = slot ∧ v.port = p)

/-- The instruction at a slot of the block. -/
def Flight.instrAt (F : Flight) (slot : Nat) : Instr := { F with slot := slot }.node.instr

/-- The slots before one at which an instruction stands that has not fired. -/
def Flight.unfiredBefore (F : Flight) (slot : Nat) : List Nat :=
  (F.slot :: slotsAfter F.words F.words.length F.slot).filter fun k => decide (k < slot) && !F.early.any fun e => decide (e.slot = k)

/-- Whether the loads of two slots may read one location in one lane: they read one space, and the addresses of the earlier one are not
known yet, or meet those of the later one within a page. -/
def Flight.loadsMeet (F : Flight) (earlier later : Nat) : Bool :=
  let base (slot : Nat) : Option Lanes := (portAt F.ports slot .a).map (·.lanes)
  let near (x y : W64) : Bool := decide ((x.toNat + 7 + 2 ^ 16 - y.toNat % 2 ^ 16) % 2 ^ 16 ≤ 14)
  match loadSpace (F.instrAt earlier), loadSpace (F.instrAt later) with
  | some x, some y => x == y && (match base earlier, base later with
      | some xs, some ys => (List.range 16).any fun l => match laneAt xs l, laneAt ys l with | some a, some b => near a b | _, _ => false
      | _, _ => true)
  | _, _ => false

/-- Whether the read of a slot waits for an earlier slot that has not fired: one that acquires for it (R217), or a load of one location in
one lane, whose moments come in program order (R215). -/
def Flight.readHeld (F : Flight) (slot : Nat) : Bool :=
  (F.unfiredBefore slot).any fun k => acquiresFor (F.instrAt k) (F.instrAt slot) || F.loadsMeet k slot

/-- The later slots of a block that can fire ahead. -/
def Flight.slotsAhead (F : Flight) : List Nat :=
  (slotsAfter F.words F.words.length F.slot).filter fun j =>
    !(F.early.any fun e => decide (e.slot = j)) && F.operandsStand j && !F.readHeld j
      && !(F.unfiredBefore j).any fun k => followsInTurn (F.instrAt k) (F.instrAt j)

/-- The block with one slot to fire, in sight of the effects of every slot that has fired. -/
def Flight.standAt (F : Flight) (slot : Nat) : Flight := { F with slot := slot, effects := F.allEffects, early := [], wait := none }

/-- The slots fired ahead with one more among them, in slot order. -/
def insertEarly (e : Early) : List Early → List Early
  | [] => [e]
  | x :: rest => if e.slot < x.slot then e :: x :: rest else x :: insertEarly e rest

/-- The block after a slot of it has fired ahead: it stands where it stood, and keeps the slot's effects (R39). -/
def Flight.backFrom (F' F : Flight) (slot : Nat) : Flight :=
  { F' with
    slot := F.slot, effects := F.effects, wait := F.wait
    early := insertEarly ⟨slot, F'.slot - slot, F'.effects.drop F.allEffects.length⟩ F.early }

/-- What the fire of a later slot comes to, from the state that it leaves: it completes, raises its fault, or begins a wait on a queue,
whose start the group keeps (R268). A slot that waits otherwise has not fired. -/
def State.aheadOutcome (s s' : State) (c : Ctx) (slot : Nat) : State :=
  match s'.group? c.t c.g with
  | none => s'
  | some G =>
    match G.blk with
    | none => s'
    | some F =>
      if F.wait.isNone then s'.modFlight c.t c.g fun F => F.backFrom c.blk slot
      else if G.kept ≠ c.group.kept then s'.modFlight c.t c.g fun _ => c.blk
      else s

/-- A later slot of the group's block fires before the slot at which the block stands (R38). -/
def State.actAhead (s : State) (t g slot : Nat) : Host.Outcome State Fault Refusal :=
  let u := { s with cur := some (t, g) }
  match u.ctx? with
  | none => .fault .noContext
  | some c =>
    let v := u.modFlight t g fun F => F.standAt slot
    match v.ctx? with
    | none => .fault .noContext
    | some d =>
      match exec d.instr v with
      | .next s' => .next (s.aheadOutcome s' c slot)
      | o => o

/-- One act carried out. -/
def State.perform (s : State) : Move → Host.Outcome State Fault Refusal
  | .event e => exec e s
  | .thread t g => s.act t g
  | .ahead t g j => s.actAhead t g j
  | .element stack slot e =>
    let s := { s with curElem := some (stack, slot, e) }
    match s.elem? stack slot e with
    | none => .fault .noContext
    | some E => exec E.op s

/-! ### Possible acts -/

/-- Whether an act takes place: it leaves a state other than the one it is asked of. -/
def State.happens (s : State) (m : Move) : Bool :=
  match s.perform m with
  | .next t => decide (t ≠ s)
  | _ => false

/-- Events of bring-up, of the management controller and of the dies (R28, R429, R449, R450, R452). -/
def State.partEvents (s : State) : List Instr :=
  [.powerOnReset, .stackTrained, .fullServiceReady, .fullServiceMove, .mcSample, .thermalTrip]
    ++ (List.range 4).flatMap (fun d => [.matrixCalibrated d, .monitorSample d])
    ++ s.hub.seam.flatMap (fun (p, _) => [.seamRekey p, .seamRemoteEnqueue p none])
    ++ s.dying.map (.asidTeardownEnd ·)
    ++ s.liveAsids.map fun a => .translationWalk a (Config.walkAddress s.tick)

/-- Events of queues, channels and selectors. -/
def State.coreEvents (s : State) : List Instr :=
  s.queues.flatMap (fun (q, _) => [.queueDelivery q, .queueEngineTokenRelease q])
    ++ (List.range s.net.length).map (.tokenArrival ·)
    ++ s.cores.flatMap fun (c, _) => [.selectorDecision c, .preEmption c, .overdue c]

/-- Events of a team and its engines. -/
def teamEvents (t : Nat) (T : Team) : List Instr :=
  [.swapRetest t, .teamRetirement t, .pack t, .rejoinReturn t, .copyStart t, .mmaComplete t, .mldComplete t, .mstComplete t,
      .pairReq t, .pairFormed t, .pairTimeout t]
    ++ T.copies.flatMap (fun x => [.copyComplete t x.seq, .bankUnitElement (.copy t x.seq), .macCombine (.copy t x.seq)])
    ++ T.streams.flatMap (fun (n, x) => [.loadStreamToken t n, .storeStreamToken t n, .bankUnitElement (.copy t x.seq),
        .macCombine (.copy t x.seq)])
    ++ (match T.matrix with
      | none => []
      | some M => M.queue.map (fun x => .matrixCommandStart t x.seq)
          ++ (List.range M.controllers.length).flatMap fun c => [.sequencerEnableToken t c, .sequencerDone t c])

/-- Events of an image in its region: elements, nodes and circuits. An element with a fabric operator acts by that operator. -/
def fabricEvents (n k : Nat) (F : Fabric) : List Instr :=
  F.elems.flatMap (fun (e, x) =>
      (match x.op with
        | some (op, _) => if isFabric op then [] else [.elementDataFiring n k e, .elementControlFiring n k e]
        | none => [])
      ++ [.reconfigurationTokenPass n k e, .faultStallPass n k e])
    ++ F.nodes.flatMap (fun (i, _) => [.agLoaderIssue n k i, .agLoaderRequest n k i, .agStorerToken n k i, .agTileEnd n k i,
        .linkPortNodeTransfer n k i, .reconfigurationTokenSend n k i, .bankUnitElement (.node n k i), .macCombine (.node n k i)])
    ++ (List.range F.flying.length).map (.circuitTokenArrival n k ·)

/-- Events of a stack, its bank units and its residencies. -/
def stackEvents (n : Nat) (S : Stack) : List Instr :=
  [.residencyPlacement n, .allBankGrant n]
    ++ S.allBank.flatMap (fun (pc, _) => [.allBankActive n pc, .allBankExit n pc])
    ++ S.residencies.flatMap fun (k, R) =>
      [.drainAndSwitch n k, .configLoadComplete n k, .reconfigurationStart n k, .fbudExhausted n k, .residencyEnd n k]
        ++ (match R.fab with | some F => fabricEvents n k F | none => [])

/-- Device events that can occur without anything from outside. -/
def State.events (s : State) : List Instr :=
  s.partEvents ++ s.coreEvents
    ++ s.teams.flatMap (fun (t, T) => teamEvents t T) ++ s.hbmStacks.flatMap fun (n, S) => stackEvents n S

/-- Groups that have an act before them: a block in execution, or a fetch. -/
def State.threads (s : State) : List Move :=
  s.teams.flatMap fun (t, T) =>
    if T.place ≠ .resident ∨ T.gone then []
    else ((List.range T.groups.length).zip T.groups).filterMap fun (g, G) =>
      if G.blk.isSome || (s.blockFetch t g).isSome then some (.thread t g) else none

/-- Elements whose fabric operator can fire. -/
def State.operators (s : State) : List Move :=
  s.hbmStacks.flatMap fun (n, S) => S.residencies.flatMap fun (k, R) =>
    match R.fab with
    | none => []
    | some F => F.elems.filterMap fun (e, x) =>
      match x.op with
      | some (op, _) => if isFabric op && s.happens (.element n k e) then some (.element n k e) else none
      | none => none

/-- Later slots of blocks in execution that can fire before the slot at which their block stands. -/
def State.ahead (s : State) : List Move :=
  s.teams.flatMap fun (t, T) =>
    if T.place ≠ .resident ∨ T.gone then []
    else ((List.range T.groups.length).zip T.groups).flatMap fun (g, G) =>
      match G.blk with
      | none => []
      | some F => (F.slotsAhead.map fun j => Move.ahead t g j).filter fun m => s.happens m

/-- Acts that come before any choice: the trip, which comes at once (R28), and a team that has waited for its WAITSWAP is swapped
out (R355). -/
def State.forced (s : State) : Option Move :=
  if s.happens (.event .thermalTrip) then some (.event .thermalTrip)
  else ((s.teams.filter fun (_, T) => T.waitedOut).find? fun (t, _) => s.happens (.event (.longWaitSwap t))).map
    fun (t, _) => .event (.longWaitSwap t)

/-- The acts among which the next step chooses: none while the part is stopped (R28). -/
def State.moves (s : State) : List Move :=
  if s.hub.phase = .stopped then []
  else s.threads ++ s.ahead ++ s.operators ++ (s.events.map Move.event).filter fun m => s.happens m

/-- The act of the next step: a trip that is due comes first (R28), then stores to control rows that are under way, what stands on the
agenda, a forced act, and any of the possible ones; none where nothing can act. -/
def State.nextMove (s : State) : Option Move × State :=
  match s.hub.hot, s.rowStores, s.agenda with
  | some _, _, _ => (some (.event .thermalTrip), s)
  | none, x :: _, _ => (some (.event (rowStoreEvent x)), s)
  | none, [], m :: rest => (some m, { s with agenda := rest })
  | none, [], [] =>
    match s.forced with
    | some m => (some m, s)
    | none =>
      let ms := s.moves
      (ms[Config.choice s.tick % ms.length]?, s)

/-! ### Time -/

/-- The location that a number names. -/
def spotOf (n : Nat) : Spot :=
  let m := n / 6
  match n % 6 with
  | 0 => .memory m
  | 1 => .shared (m / 2 ^ 20) (m % 2 ^ 20)
  | 2 => .spill (m / 2 ^ 24) (m / 2 ^ 18 % 2 ^ 6) (m % 2 ^ 18)
  | 3 => .register (m / 2 ^ 16) (m / 2 ^ 10 % 2 ^ 6) (m / 2 ^ 8 % 4) (m % 2 ^ 8)
  | 4 => .tile (m / 2 ^ 36) (m / 2 ^ 24 % 2 ^ 12) (m / 2 ^ 12 % 2 ^ 12) (m % 2 ^ 12)
  | _ => .cache (m / 2 ^ 52) (m % 2 ^ 52)

/-- The cycles of a die that the step takes (R3): none while the die does not run. -/
def State.cyclesOf (s : State) (d : Nat) : Nat := if s.dieRuns d then 1 + Config.extraCycles (32 * s.tick + d) else 0

/-- The clocks of the four dies go on, where they run; corrected soft errors are counted (R446). -/
def State.runClocks (s : State) : State :=
  (List.range 4).foldl (fun s d => if s.dieRuns d then s.modDie d fun D =>
    { D with clk := D.clk + s.cyclesOf d, corrected := D.corrected + Config.softErrors (8 * s.tick + d) } else s) s

/-- The clocks of the base dies of trained stacks go on (R70). -/
def State.runBaseClocks (s : State) : State :=
  if s.managed then
    { s with hbmStacks := s.hbmStacks.map fun (n, S) =>
        (n, if S.trained then { S with clk := S.clk + 1 + Config.extraCycles (32 * s.tick + 8 + n) } else S) }
  else s

/-- Wait counts grow with the cycles of the team's die (R355). -/
def State.countWaits (s : State) : State :=
  { s with teams := s.teams.map fun (t, T) =>
      (t, if T.counts then { T with waitCount := T.waitCount + s.cyclesOf (dieOf T.core) } else T) }

/-- A context with the step in which it became enabled, where its element holds others besides (R277). -/
def State.watchElem (s : State) (stack slot : Nat) (R : Residency) (e : Nat) (x : ElemCtx) : ElemCtx :=
  let shared := decide (2 ≤ (s.sharing stack (R.orow + e % 256 / 32) (R.ocol + e % 32)).length)
  let enabled := shared && match s.elem? stack slot e with | some E => E.enabled (E.attempt s) | none => false
  { x with since := if enabled then some (x.since.getD s.tick) else none }

/-- Contexts are watched for how long they have been enabled (R277). -/
def State.watchElems (s : State) : State :=
  { s with hbmStacks := s.hbmStacks.map fun (n, S) =>
      (n, { S with residencies := S.residencies.map fun (k, R) =>
        (k, { R with fab := R.fab.map fun F => { F with elems := F.elems.map fun (e, x) => (e, s.watchElem n k R e x) } }) }) }

/-- Teams that are being taken leave as soon as their groups stand still (R41, R352, R355). -/
def State.leaveAll (s : State) : State :=
  (s.teams.filter fun (_, T) => T.taken.isSome && decide (T.place = .resident) && !T.gone && T.mayLeave).foldl (fun s (t, _) => s.finishTake t) s

/-- The handler entries of every core as its channels stand (R345). -/
def State.refreshAll (s : State) : State := { s with cores := s.cores.map fun (c, C) => (c, C.refresh (s.clk (dieOf c))) }

/-- What passes with a step besides its act: teams that leave, time, and an uncorrectable error where one comes about (R446). A junction
that reaches 115 °C is noted for the trip, which comes before any other act (R28). -/
def State.elapse (s : State) : State :=
  let s := s.leaveAll.refreshAll.watchElems.countWaits.runClocks.runBaseClocks
  { s with
    tick := s.tick + 1
    cur := none
    curElem := none
    poison := (match Config.errorAt s.tick with | some n => s.poison ++ [spotOf n] | none => s.poison)
    hub := { s.hub with
      clk := s.hub.clk + if s.managed then 1 + Config.extraCycles (32 * s.tick + 4) else 0
      hot := if s.managed then s.hotDie else none } }

/-- An act's outcome with the time that it takes. -/
def afterwards (o : Host.Outcome State Fault Refusal) : Host.Outcome State Fault Refusal :=
  match o with
  | .next s => .next s.elapse
  | .fault f => .fault f
  | .refused r => .refused r

/-! ### An instruction placed for the next step -/

/-- A value of zero in every lane, on a port of slot 0. -/
def zeroPort (p : Port) : PortVal := ⟨0, p, uniformVal 0xFFFF 0⟩

/-- The header of a plain block with a number of slots. -/
def placedHeader (slots : Nat) : Header where
  count := slots - 1
  exits := 0
  tape := false
  pack := false
  writes := 0
  charge := 0
  kind := 0
  reserved := 0

/-- A block whose slot 0 holds the instruction, entered by all 16 lanes, with a value of zero on each port. -/
def placedBlock (s : State) (words : List W32) : Flight :=
  { head := 0x1000, hdr := placedHeader words.length, words := words
    ports := [.a, .b, .c, .p, .w].map zeroPort
    mask := 0xFFFF, start := s.clk 0 }

/-- The group that executes the block. -/
def placedGroup (s : State) (words : List W32) : Group :=
  { launched := 0xFFFF, mask := 0xFFFF, pc := 0x1000, seats := 0xFFFF, blk := some (placedBlock s words) }

/-- A team of one group on core 0. -/
def placedTeam (G : Group) : Team :=
  { id := 0, core := 0, handle := 0, vid := 0, asid := 0, sup := true, topup := false, teamid := 0, lead := 0, member := 0, cw := 1
    ch := 1, leadCore := 0, leadVid := 0, k := 16, sharedSize := 65536, spillSize := 4096, entryPrio := 0, prio := 0
    ibud := 2 ^ 47, tbud := 2 ^ 47, cont := 0, waitswap := 0, placedAt := 0
    groups := [G] }

/-- The ASID entry of the supervisor, as its cache holds it. -/
def placedAsid : AsidEntry :=
  { valid := true, state := .live, tenant := 0, root := 0, tvec := 0, yq := 0, fq := 0, killmb := 0 }

/-- The page at virtual address 0, in the scratchpad of die 0. -/
def placedPage : TlbEntry :=
  { asid := 0, va := 0, size := 65536, pa := 0x10100000000, r := true, w := true, x := true, s := false, key := 0 }

/-- The machine in full service with a team on core 0 whose group is about to fire the instruction. -/
def State.placed (s : State) (words : List W32) : State :=
  let G := placedGroup s words
  let regs := s.ctlValues (placedTeam G) 0 G
  let G : Group := { G with blk := G.blk.map fun F => { F with regs := regs } }
  { s with
    agenda := [.thread 0 0]
    rowStores := []
    hub := { s.hub with phase := .full, mhz := 1400, hot := none }
    asidCache := PMap.insert s.asidCache 0 placedAsid
    tlb := placedPage :: s.tlb
    teams := PMap.insert s.teams 0 (placedTeam G)
    nextTeam := Nat.max s.nextTeam 1 }

end Sys2Proof.Machine
end

