-- ==== Sys2Proof/Machine/Step.lean ====
section
/-! DEFINITION. One step of the part, and the placing of an instruction that the next step runs. -/
namespace Sys2Proof.Machine

/-- One step: the next act is carried out, and time passes with it. Where nothing can act, time passes alone. -/
def step (s : State) : Host.Outcome State Fault Refusal :=
  match s.nextMove with
  | (some m, s') => afterwards (s'.perform m)
  | (none, s') => .next s'.elapse

/-- The state with an instruction in slot 0 of a block in execution, whose group acts next. A program comes to run only after bring-up
and by the launch of a team, which the placed team stands for. -/
def State.withFetchWord (s : State) (_nbits w : Nat) : State :=
  s.placed [BitVec.ofNat 32 w, BitVec.ofNat 32 (w / 2 ^ 32)]

end Sys2Proof.Machine
end

