-- ==== Sys2Proof/Safety.lean ====
section
/-! DEFINITION. The terms in which claims are stated: what an answer of the machine is, what a block instruction leaves alone, and the
forms that the machine keeps whatever it runs. -/
namespace Sys2Proof.Machine

/-- An instruction answers with a state. -/
def Answers (i : Instr) (s t : State) : Prop := exec i s = .next t

/-- Two states differ at most in the block that the context's group executes: no register, no memory, no queue, no other group, no part
of the machine beyond it. -/
def OnlyBlock (c : Ctx) (s t : State) : Prop := ∃ f : Flight → Flight, t = s.modFlight c.t c.g f

/-- Memory stands in its one canonical form: equal memories are equal lists. -/
def State.MemoryCanonical (s : State) : Prop := Memory.wf s.mem = true

/-- The byte of main memory or of a scratchpad at a physical address, read through keys of the generation, is the same in both states. -/
def SameByte (s t : State) (gen pa : Nat) : Prop := t.readByte gen pa = s.readByte gen pa

/-- Every byte is. -/
def SameMemory (s t : State) : Prop := ∀ gen pa, SameByte s t gen pa

/-- A machine that has not stopped: some next state follows. -/
def State.Continues (s : State) : Prop := ∃ t, step s = .next t

end Sys2Proof.Machine
end

