-- ==== Sys2Proof/Certificates/Slice0/Obligations.lean ====
section
/-! DEFINITION. The statements about the machine: what each instruction and event does, frames, encodings and invariants. A statement in several
parts is the conjunction of named propositions, each stated where its family stands. -/
/-! ### What a lane instruction delivers -/

namespace Sys2Proof.Claims
open Sys2Proof.Machine

/-- The acting group's block stands at a slot of its own block, and the lanes in which the instruction is active are known (R36). -/
def Stands (s : State) (c : Ctx) (on : W16) : Prop := s.ctx? = some c ∧ c.on? = some on

/-- The instruction fires, delivers the value to its targets, and has no other effect (R38, R103). -/
def Fires (i : Instr) (s : State) (c : Ctx) (v : Val) : Prop := exec i s = .next (s.complete c (some v) (some v) [])

/-- A lane of a value. -/
def lane (v : Val) (l : Nat) : Option W64 := laneAt v.lanes l

/-- One operand: a lane is null when it is not active or its operand is null (R38); the result is uniform when the operand is. -/
def Delivers1 (i : Instr) (f : W64 → W64) : Prop :=
  ∀ s c on a, Stands s c on → c.port? .a = some a →
    ∃ v, Fires i s c v ∧ v.uni = a.uni ∧
      ∀ l, l < 16 → lane v l = if laneBit on l then (lane a l).map f else none

/-- Two operands. -/
def Delivers2 (i : Instr) (f : W64 → W64 → W64) : Prop :=
  ∀ s c on a b, Stands s c on → c.port? .a = some a → c.port? .b = some b →
    ∃ v, Fires i s c v ∧ v.uni = (a.uni && b.uni) ∧
      ∀ l, l < 16 → lane v l = if laneBit on l then (lane a l).bind fun x => (lane b l).map fun y => f x y else none

/-- Three operands. -/
def Delivers3 (i : Instr) (f : W64 → W64 → W64 → W64) : Prop :=
  ∀ s c on a b d, Stands s c on → c.port? .a = some a → c.port? .b = some b → c.port? .c = some d →
    ∃ v, Fires i s c v ∧ v.uni = (a.uni && b.uni && d.uni) ∧
      ∀ l, l < 16 → lane v l =
        if laneBit on l then (lane a l).bind fun x => (lane b l).bind fun y => (lane d l).map fun z => f x y z else none

/-- The low 32 bits. -/
def lo (x : W64) : W32 := x.setWidth 32

/-- A 32-bit result in its container. -/
def up (x : W32) : W64 := x.setWidth 64

/-- The signed value v clamped to w bits. -/
def clampS (w : Nat) (v : Int) : BitVec w := BitVec.ofInt w (max (-(2 ^ (w - 1))) (min (2 ^ (w - 1) - 1) v))

/-- The value v clamped to w unsigned bits. -/
def clampU (w : Nat) (v : Int) : BitVec w := BitVec.ofInt w (max 0 (min (2 ^ w - 1) v))

/-- 1 or 0. -/
def bit (p : Prop) [Decidable p] : W64 := if p then 1 else 0

/-- The operation of a condition on ordered values. -/
def orders (c : Cond) (lt eq : Bool) : Bool :=
  match c with
  | .eq => eq | .ne => !eq | .lt => lt | .le => lt || eq | .gt => !(lt || eq) | .ge => !lt

/-- The bits of a bitwise operation. -/
def bits {w : Nat} (op : BitOp) (x y : BitVec w) : BitVec w :=
  match op with
  | .and => x &&& y | .or => x ||| y | .xor => x ^^^ y | .andn => x &&& ~~~y | .orn => x ||| ~~~y | .xnor => ~~~(x ^^^ y)
  | .not => ~~~x

/-- Byte i of a word. -/
def byte (x : W64) (i : Nat) : W8 := (x >>> (8 * i)).setWidth 8

/-- The number of 1 bits of a word. -/
def ones {w : Nat} (x : BitVec w) : Nat := ((List.range w).filter fun i => x.getLsbD i).length

/-- The number of 0 bits above the highest 1 bit. -/
def zerosAbove {w : Nat} (x : BitVec w) : Nat := ((List.range w).filter fun i => decide (x.toNat < 2 ^ i)).length

end Sys2Proof.Claims

open Sys2Proof Sys2Proof.Machine Sys2Proof.Claims

/-- R105: the wrapping and the saturating sums and differences. -/
def Sys2Proof.Claims.IntegerSumsAndDifferences : Prop :=
  Delivers2 .addB32 (fun x y => up (lo x + lo y)) ∧
  Delivers2 .addB64 (fun x y => x + y) ∧
  Delivers2 .addSatI32 (fun x y => up (clampS 32 ((lo x).toInt + (lo y).toInt))) ∧
  Delivers2 .addSatN32 (fun x y => up (clampU 32 ((lo x).toNat + (lo y).toNat))) ∧
  Delivers2 .addSatI64 (fun x y => clampS 64 (x.toInt + y.toInt)) ∧
  Delivers2 .addSatN64 (fun x y => clampU 64 (x.toNat + y.toNat)) ∧
  Delivers2 .subB32 (fun x y => up (lo x - lo y)) ∧
  Delivers2 .subB64 (fun x y => x - y) ∧
  Delivers2 .subSatI32 (fun x y => up (clampS 32 ((lo x).toInt - (lo y).toInt))) ∧
  Delivers2 .subSatN32 (fun x y => up (clampU 32 ((lo x).toNat - (lo y).toNat : Int))) ∧
  Delivers2 .subSatI64 (fun x y => clampS 64 (x.toInt - y.toInt)) ∧
  Delivers2 .subSatN64 (fun x y => clampU 64 (x.toNat - y.toNat : Int))

/-- R106: the low and the high halves of products, and multiply-add. -/
def Sys2Proof.Claims.IntegerProducts : Prop :=
  Delivers2 .mulB32 (fun x y => up (lo x * lo y)) ∧
  Delivers2 .mulB64 (fun x y => x * y) ∧
  Delivers2 .mulhiI32 (fun x y => up (BitVec.ofInt 32 (((lo x).toInt * (lo y).toInt) / 2 ^ 32))) ∧
  Delivers2 .mulhiN32 (fun x y => up (BitVec.ofNat 32 (((lo x).toNat * (lo y).toNat) / 2 ^ 32))) ∧
  Delivers2 .mulhiI64 (fun x y => BitVec.ofInt 64 ((x.toInt * y.toInt) / 2 ^ 64)) ∧
  Delivers2 .mulhiN64 (fun x y => BitVec.ofNat 64 ((x.toNat * y.toNat) / 2 ^ 64)) ∧
  Delivers3 .madB32 (fun x y z => up (lo x * lo y + lo z)) ∧
  Delivers3 .madB64 (fun x y z => x * y + z)

/-- R107: quotients toward zero and remainders with the dividend's sign. A divisor of 0 gives all ones and the dividend; the minimum over
−1 gives the minimum and 0. Division never traps. -/
def Sys2Proof.Claims.IntegerQuotients : Prop :=
  Delivers2 .divI32 (fun x y => up (if lo y = 0 then BitVec.allOnes 32 else (lo x).sdiv (lo y))) ∧
  Delivers2 .divN32 (fun x y => up (if lo y = 0 then BitVec.allOnes 32 else lo x / lo y)) ∧
  Delivers2 .divI64 (fun x y => if y = 0 then BitVec.allOnes 64 else x.sdiv y) ∧
  Delivers2 .divN64 (fun x y => if y = 0 then BitVec.allOnes 64 else x / y) ∧
  Delivers2 .remI32 (fun x y => up (if lo y = 0 then lo x else (lo x).srem (lo y))) ∧
  Delivers2 .remN32 (fun x y => up (if lo y = 0 then lo x else lo x % lo y)) ∧
  Delivers2 .remI64 (fun x y => if y = 0 then x else x.srem y) ∧
  Delivers2 .remN64 (fun x y => if y = 0 then x else x % y)

/-- R108 to R112: shifts whose count is not reduced, the bitwise operations, comparisons, minimum, maximum and absolute value. -/
def Sys2Proof.Claims.ShiftsLogicAndComparisons : Prop :=
  Delivers2 (.shl .b32) (fun x k => up (lo x <<< (lo k).toNat)) ∧
  Delivers2 (.shl .b64) (fun x k => x <<< (lo k).toNat) ∧
  Delivers2 (.shr .n32) (fun x k => up (lo x >>> (lo k).toNat)) ∧
  Delivers2 (.shr .n64) (fun x k => x >>> (lo k).toNat) ∧
  Delivers2 (.shr .i32) (fun x k => up ((lo x).sshiftRight (lo k).toNat)) ∧
  Delivers2 (.shr .i64) (fun x k => x.sshiftRight (lo k).toNat) ∧
  (∀ op, op ≠ .not → Delivers2 (.bitwiseB32 op) (fun x y => up (bits op (lo x) (lo y)))) ∧
  (∀ op, op ≠ .not → Delivers2 (.bitwiseB64 op) (fun x y => bits op x y)) ∧
  Delivers1 (.bitwiseB32 .not) (fun x => up (~~~(lo x))) ∧
  Delivers1 (.bitwiseB64 .not) (fun x => ~~~x) ∧
  (∀ cc, Delivers2 (.cmpI32 cc) (fun x y => bit (orders cc ((lo x).slt (lo y)) (lo x == lo y) = true))) ∧
  (∀ cc, Delivers2 (.cmpN32 cc) (fun x y => bit (orders cc ((lo x).ult (lo y)) (lo x == lo y) = true))) ∧
  (∀ cc, Delivers2 (.cmpI64 cc) (fun x y => bit (orders cc (x.slt y) (x == y) = true))) ∧
  (∀ cc, Delivers2 (.cmpN64 cc) (fun x y => bit (orders cc (x.ult y) (x == y) = true))) ∧
  Delivers2 (.min .i32) (fun x y => up (if (lo x).sle (lo y) then lo x else lo y)) ∧
  Delivers2 (.min .n32) (fun x y => up (if (lo x).ule (lo y) then lo x else lo y)) ∧
  Delivers2 (.min .i64) (fun x y => if x.sle y then x else y) ∧
  Delivers2 (.min .n64) (fun x y => if x.ule y then x else y) ∧
  Delivers2 (.max .i32) (fun x y => up (if (lo y).sle (lo x) then lo x else lo y)) ∧
  Delivers2 (.max .n32) (fun x y => up (if (lo y).ule (lo x) then lo x else lo y)) ∧
  Delivers2 (.max .i64) (fun x y => if y.sle x then x else y) ∧
  Delivers2 (.max .n64) (fun x y => if y.ule x then x else y) ∧
  Delivers1 (.abs false .b32) (fun x => up (BitVec.ofInt 32 (lo x).toInt.natAbs)) ∧
  Delivers1 (.abs false .b64) (fun x => BitVec.ofInt 64 x.toInt.natAbs) ∧
  Delivers1 (.abs true .b32) (fun x => up (clampS 32 (lo x).toInt.natAbs)) ∧
  Delivers1 (.abs true .b64) (fun x => clampS 64 x.toInt.natAbs)

/-- R113 to R118, R55: counts, bit fields, selections and addresses. -/
def Sys2Proof.Claims.CountsFieldsAndAddresses : Prop :=
  Delivers1 (.popc .b32) (fun x => BitVec.ofNat 64 (ones (lo x))) ∧
  Delivers1 (.popc .b64) (fun x => BitVec.ofNat 64 (ones x)) ∧
  Delivers1 (.clz .b32) (fun x => BitVec.ofNat 64 (zerosAbove (lo x))) ∧
  Delivers1 (.clz .b64) (fun x => BitVec.ofNat 64 (zerosAbove x)) ∧
  Delivers1 (.brev .b32) (fun x => up (lo x).reverse) ∧
  Delivers1 (.brev .b64) (fun x => x.reverse) ∧
  (∀ t, Delivers2 (.bfe t) (fun x k =>
    let pos := (k.setWidth 8).toNat
    let len := min ((k >>> 8).setWidth 8).toNat (if t = .i32 ∨ t = .n32 then 32 else 64)
    match t with
    | .i32 => up ((((lo x).sshiftRight pos) <<< (32 - len)).sshiftRight (32 - len))
    | .n32 => up (((lo x >>> pos) <<< (32 - len)) >>> (32 - len))
    | .i64 => ((x.sshiftRight pos) <<< (64 - len)).sshiftRight (64 - len)
    | .n64 => ((x >>> pos) <<< (64 - len)) >>> (64 - len))) ∧
  Delivers3 (.bfi .b32) (fun x y k =>
    let pos := (k.setWidth 8).toNat
    let n := min ((k >>> 8).setWidth 8).toNat (32 - pos)
    let mask : W32 := (BitVec.ofNat 32 (2 ^ n - 1)) <<< pos
    up ((lo y &&& ~~~mask) ||| ((lo x <<< pos) &&& mask))) ∧
  Delivers3 (.bfi .b64) (fun x y k =>
    let pos := (k.setWidth 8).toNat
    let n := min ((k >>> 8).setWidth 8).toNat (64 - pos)
    let mask : W64 := (BitVec.ofNat 64 (2 ^ n - 1)) <<< pos
    (y &&& ~~~mask) ||| ((x <<< pos) &&& mask)) ∧
  Delivers3 (.sel .b32) (fun x y k => up (if k.getLsbD 0 then lo x else lo y)) ∧
  Delivers3 (.sel .b64) (fun x y k => if k.getLsbD 0 then x else y) ∧
  (∃ d, Delivers3 .bsel d ∧ ∀ x y k, (d x y k).toNat < 2 ^ 32 ∧ ∀ i, i < 4 →
    let s := ((k >>> (4 * i)).setWidth 4).toNat
    let y4 : BitVec 4 := (lo x >>> (4 * (s % 8))).setWidth 4
    byte (d x y k) i =
      if k.getLsbD 16 then (if s < 8 then y4.signExtend 8 else y4.setWidth 8)
      else if s ≤ 7 then byte (lo y ++ lo x) s
      else if s = 8 then (if 0 < i ∧ (byte (d x y k) (i - 1)).getLsbD 7 then 0xFF else 0)
      else if s ≤ 11 then 0
      else 0xFF) ∧
  (∀ sc, Delivers2 (.leaShort sc) (fun x k => x + (lo k).signExtend 64 * BitVec.ofInt 64 (scaleOf sc))) ∧
  (∀ sc off, Delivers2 (.leaLong sc off)
    (fun x k => x + (lo k).signExtend 64 * BitVec.ofInt 64 (scaleOf sc) + off.signExtend 64)) ∧
  (∀ imm, Delivers1 (.movh imm) (fun x => imm ++ lo x))

namespace Sys2Proof.Claims
open Sys2Proof.Machine

/-! ### Floating-point values -/

/-- The real value of an encoding, where it is a finite number (R87). -/
def real (t : Fmt) (x : Nat) : Option Rat :=
  match t.value x with
  | .fin neg m e => some ((if neg then -1 else 1) * (m : Rat) * (2 : Rat) ^ e)
  | _ => none

/-- The value of an encoding with the infinities beyond every finite value, by which operands are ordered. -/
def number (t : Fmt) (x : Nat) : Option Rat :=
  match t.value x with
  | .nan => none
  | .inf neg => some ((if neg then -1 else 1) * (2 : Rat) ^ (2000 : Nat))
  | .fin neg m e => some ((if neg then -1 else 1) * (m : Rat) * (2 : Rat) ^ e)

/-- The number ±m × 2^e. -/
def dyadic (neg : Bool) (m : Nat) (e : Int) : Rat := (if neg then -1 else 1) * (m : Rat) * (2 : Rat) ^ e

/-- The distance of two numbers. -/
def apart (x y : Rat) : Rat := if x ≤ y then y - x else x - y

/-- The sign bit of an encoding. -/
def minus (t : Fmt) (x : Nat) : Prop := x / 2 ^ (t.w - 1) % 2 = 1

/-- The integer to which a mode takes a number (R91, R134): a tie goes to the even one. -/
def Nears (rm : Rounding) (x : Rat) (q : Int) : Prop :=
  match rm with
  | .rz => apart 0 q ≤ apart 0 x ∧ apart 0 x < apart 0 q + 1 ∧ (0 ≤ x → 0 ≤ q) ∧ (x ≤ 0 → q ≤ 0)
  | .rup => x ≤ q ∧ (q : Rat) < x + 1
  | .rdn => (q : Rat) ≤ x ∧ x < q + 1
  | .rne => 2 * apart q x ≤ 1 ∧ (2 * apart q x = 1 → q % 2 = 0)

/-- What an overflow gives (R92): max is the largest finite value; E4M3 gives its NaN for an infinity, and e2m1 its largest value. -/
def overflows (t : Fmt) (rm : Rounding) (sat neg : Bool) : Nat :=
  let max := t.withSign neg t.maxEnc
  let infinity := if t = fmtE4m3 then 0x7F else if t = fmtE2m1 then max else t.withSign neg t.infEnc
  if sat then max
  else match rm, neg with
    | .rne, _ | .rup, false | .rdn, true => infinity
    | .rz, _ | .rup, true | .rdn, false => max

/-- The f32 result of a number that is a power of two times an integer: the greatest f32 value of its sign whose magnitude is no greater, and
the infinity of its sign from 2^128 on (R139). -/
def Truncates (x : Nat) (v : Rat) : Prop :=
  ((2 : Rat) ^ (128 : Int) ≤ v → x = fmtF32.infEnc) ∧
  (v < (2 : Rat) ^ (128 : Int) → ∃ r, real fmtF32 x = some r ∧ 0 ≤ r ∧ r ≤ v ∧ ∀ z y, real fmtF32 z = some y → r < y → v < y)

/-- Every format with a sign (R85). -/
def formats : List Fmt := [fmtF64, fmtF32, fmtF16, fmtBf16, fmtE5m2, fmtE4m3, fmtE2m1]

/-- The six types of R124, in their order. -/
def types : List FType := [tyF64, tyF32, tyF16, tyBf16, tyF16x2, tyBf16x2]

end Sys2Proof.Claims

/-- R87: the value of the encoding with sign s, exponent E and fraction F in each format. -/
def Obligations.EncodingsHaveTheirValue : Prop :=
  ∀ t, t ∈ formats → ∀ s E F : Nat, s < 2 → E < 2 ^ (t.w - 1 - t.f) → F < 2 ^ t.f →
    let x := s * 2 ^ (t.w - 1) + E * 2 ^ t.f + F
    let sign : Rat := if s = 1 then -1 else 1
    let normal : Rat := sign * (1 + (F : Rat) / (2 : Rat) ^ t.f) * (2 : Rat) ^ ((E : Int) - t.bias)
    (E = 0 → real t x = some (sign * ((F : Rat) / (2 : Rat) ^ t.f) * (2 : Rat) ^ (1 - (t.bias : Int)))) ∧
    (0 < E → E < 2 ^ (t.w - 1 - t.f) - 1 → real t x = some normal) ∧
    (E = 2 ^ (t.w - 1 - t.f) - 1 →
      (t ≠ fmtE4m3 → t ≠ fmtE2m1 → t.value x = if F = 0 then .inf (decide (s = 1)) else .nan) ∧
      (t = fmtE4m3 → (F ≠ 7 → real t x = some normal) ∧ (F = 7 → t.value x = .nan)) ∧
      (t = fmtE2m1 → real t x = some normal))

/-- R91, R92, R93: within the range of a format, each mode gives the representable value that its line of the table names; under rne a tie
goes to the encoding whose lowest bit is 0, and a zero takes the sign of the exact value. Beyond the range, where the rounded value with an
exponent without bound exceeds the largest finite value, an overflow gives what its table names, and else that largest value. -/
def Obligations.RoundingModesChooseTheirValue : Prop :=
  ∀ t, t ∈ formats → ∀ sat neg m e big below, real t t.maxEnc = some big → real t (t.maxEnc - 1) = some below →
    (dyadic false m e ≤ big → ∀ rm, ∃ r,
      real t (t.round rm sat neg m e) = some r ∧ (r = 0 → t.round rm sat neg m e = t.withSign neg 0) ∧
      match rm with
      | .rne => ∀ z y, real t z = some y → apart (dyadic neg m e) r ≤ apart (dyadic neg m e) y ∧
          (apart (dyadic neg m e) r = apart (dyadic neg m e) y → y ≠ r → t.round rm sat neg m e % 2 = 0)
      | .rz => apart 0 r ≤ dyadic false m e ∧
          ∀ z y, real t z = some y → apart 0 y ≤ dyadic false m e → apart (dyadic neg m e) r ≤ apart (dyadic neg m e) y
      | .rup => dyadic neg m e ≤ r ∧ ∀ z y, real t z = some y → dyadic neg m e ≤ y → r ≤ y
      | .rdn => r ≤ dyadic neg m e ∧ ∀ z y, real t z = some y → y ≤ dyadic neg m e → y ≤ r) ∧
    (big < dyadic false m e → ∀ rm, t.round rm sat neg m e =
      let v := dyadic false m e
      let step := big - below
      let exceeds := match rm, neg with
        | .rne, _ => decide (big + step / 2 < v) || (decide (big + step / 2 = v) && decide (t.maxEnc % 2 = 1))
        | .rz, _ | .rup, true | .rdn, false => decide (big + step ≤ v)
        | .rup, false | .rdn, true => true
      if exceeds then overflows t rm sat neg else t.withSign neg t.maxEnc)

/-- R123, R124, R94: of finite operands, the exact sum and the exact product are formed and rounded once; a zero sum is +0, under rdn −0,
unless both operands are zeros of one sign. The product of a fused multiply-add is not rounded. A NaN operand, the sum of opposite infinities
and the product of a zero and an infinity give NaN. -/
def Obligations.SumsAndProductsRoundOnce : Prop :=
  ∀ (t : Fmt) (rm : Rounding) (n1 : Bool) (m1 : Nat) (e1 : Int) (n2 : Bool) (m2 : Nat) (e2 : Int),
    (∃ n m e, t.ofVal rm false (mulVal (.fin n1 m1 e1) (.fin n2 m2 e2)) = t.round rm false n m e ∧
      dyadic n m e = dyadic n1 m1 e1 * dyadic n2 m2 e2 ∧ n = (n1 != n2)) ∧
    (dyadic n1 m1 e1 + dyadic n2 m2 e2 ≠ 0 →
      ∃ n m e, t.addVal rm (.fin n1 m1 e1) (.fin n2 m2 e2) = t.round rm false n m e ∧
        dyadic n m e = dyadic n1 m1 e1 + dyadic n2 m2 e2) ∧
    (dyadic n1 m1 e1 + dyadic n2 m2 e2 = 0 →
      t.addVal rm (.fin n1 m1 e1) (.fin n2 m2 e2) = t.withSign (if n1 = n2 then n1 else decide (rm = .rdn)) 0) ∧
    (∀ n3 m3 e3, dyadic n1 m1 e1 * dyadic n2 m2 e2 + dyadic n3 m3 e3 ≠ 0 →
      ∃ n m e, t.addVal rm (mulVal (.fin n1 m1 e1) (.fin n2 m2 e2)) (.fin n3 m3 e3) = t.round rm false n m e ∧
        dyadic n m e = dyadic n1 m1 e1 * dyadic n2 m2 e2 + dyadic n3 m3 e3) ∧
    (∀ v, t.addVal rm .nan v = t.nanEnc ∧ t.addVal rm v .nan = t.nanEnc ∧ mulVal .nan v = .nan ∧ mulVal v .nan = .nan) ∧
    t.addVal rm (.inf n1) (.inf !n1) = t.nanEnc ∧ t.addVal rm (.inf n1) (.inf n1) = t.withSign n1 t.infEnc ∧
    t.addVal rm (.inf n1) (.fin n2 m2 e2) = t.withSign n1 t.infEnc ∧ t.addVal rm (.fin n2 m2 e2) (.inf n1) = t.withSign n1 t.infEnc ∧
    mulVal (.inf n1) (.fin n2 0 e2) = .nan ∧ mulVal (.fin n2 0 e2) (.inf n1) = .nan ∧ mulVal (.inf n1) (.inf n2) = .inf (n1 != n2) ∧
    (m2 ≠ 0 → mulVal (.inf n1) (.fin n2 m2 e2) = .inf (n1 != n2) ∧ mulVal (.fin n2 m2 e2) (.inf n1) = .inf (n1 != n2))

/-- R124: the four arithmetic instructions in their six types deliver, for each element, the rounded operation of the operands'
elements. -/
def Sys2Proof.Claims.FloatArithmeticDelivers : Prop :=
  (∀ rm,
    Delivers2 (.faddF64 rm) (faddOf tyF64 rm) ∧ Delivers2 (.faddF32 rm) (faddOf tyF32 rm) ∧
    Delivers2 (.faddF16 rm) (faddOf tyF16 rm) ∧ Delivers2 (.faddBf16 rm) (faddOf tyBf16 rm) ∧
    Delivers2 (.faddF16x2 rm) (faddOf tyF16x2 rm) ∧ Delivers2 (.faddBf16x2 rm) (faddOf tyBf16x2 rm) ∧
    Delivers2 (.fsubF64 rm) (fsubOf tyF64 rm) ∧ Delivers2 (.fsubF32 rm) (fsubOf tyF32 rm) ∧
    Delivers2 (.fsubF16 rm) (fsubOf tyF16 rm) ∧ Delivers2 (.fsubBf16 rm) (fsubOf tyBf16 rm) ∧
    Delivers2 (.fsubF16x2 rm) (fsubOf tyF16x2 rm) ∧ Delivers2 (.fsubBf16x2 rm) (fsubOf tyBf16x2 rm) ∧
    Delivers2 (.fmulF64 rm) (fmulOf tyF64 rm) ∧ Delivers2 (.fmulF32 rm) (fmulOf tyF32 rm) ∧
    Delivers2 (.fmulF16 rm) (fmulOf tyF16 rm) ∧ Delivers2 (.fmulBf16 rm) (fmulOf tyBf16 rm) ∧
    Delivers2 (.fmulF16x2 rm) (fmulOf tyF16x2 rm) ∧ Delivers2 (.fmulBf16x2 rm) (fmulOf tyBf16x2 rm) ∧
    Delivers3 (.fmaF64 rm) (fmaOf tyF64 rm) ∧ Delivers3 (.fmaF32 rm) (fmaOf tyF32 rm) ∧
    Delivers3 (.fmaF16 rm) (fmaOf tyF16 rm) ∧ Delivers3 (.fmaBf16 rm) (fmaOf tyBf16 rm) ∧
    Delivers3 (.fmaF16x2 rm) (fmaOf tyF16x2 rm) ∧ Delivers3 (.fmaBf16x2 rm) (fmaOf tyBf16x2 rm)) ∧
  (∀ t, t ∈ types → ∀ rm x y z e, e < (if t.packed then 2 else 1) →
    t.elem (faddOf t rm x y) e = t.fmt.addVal rm (t.val x e) (t.val y e) ∧
    t.elem (fsubOf t rm x y) e = t.fmt.addVal rm (t.val x e) (t.val y e).negate ∧
    t.elem (fmulOf t rm x y) e = t.fmt.ofVal rm false (mulVal (t.val x e) (t.val y e)) ∧
    t.elem (fmaOf t rm x y z) e = t.fmt.addVal rm (mulVal (t.val x e) (t.val y e)) (t.val z e))

/-- R125, R126, R127: a minimum or maximum of a number and a NaN is the number, of two NaNs the canonical NaN, and else an operand's own
encoding with −0 below +0; comparisons give 1 or 0, and no condition but ne and un holds of a NaN; a class is one bit. -/
def Sys2Proof.Claims.FloatComparisonsDeliver : Prop :=
  Delivers2 .fminF64 (fminOf tyF64) ∧ Delivers2 .fminF32 (fminOf tyF32) ∧ Delivers2 .fminF16 (fminOf tyF16) ∧
  Delivers2 .fminBf16 (fminOf tyBf16) ∧ Delivers2 .fminF16x2 (fminOf tyF16x2) ∧ Delivers2 .fminBf16x2 (fminOf tyBf16x2) ∧
  Delivers2 .fmaxF64 (fmaxOf tyF64) ∧ Delivers2 .fmaxF32 (fmaxOf tyF32) ∧ Delivers2 .fmaxF16 (fmaxOf tyF16) ∧
  Delivers2 .fmaxBf16 (fmaxOf tyBf16) ∧ Delivers2 .fmaxF16x2 (fmaxOf tyF16x2) ∧ Delivers2 .fmaxBf16x2 (fmaxOf tyBf16x2) ∧
  (∀ cc, Delivers2 (.fcmpF64 cc) (fcompareOf tyF64 cc) ∧ Delivers2 (.fcmpF32 cc) (fcompareOf tyF32 cc) ∧
    Delivers2 (.fcmpF16 cc) (fcompareOf tyF16 cc) ∧ Delivers2 (.fcmpBf16 cc) (fcompareOf tyBf16 cc)) ∧
  Delivers1 .fclassF64 (fclassOf tyF64) ∧ Delivers1 .fclassF32 (fclassOf tyF32) ∧ Delivers1 .fclassF16 (fclassOf tyF16) ∧
  Delivers1 .fclassBf16 (fclassOf tyBf16) ∧
  (∀ t, t ∈ types → ∀ x y e, e < (if t.packed then 2 else 1) →
    let nan := fun z => t.fmt.isNan (t.elem z e) = true
    let value := fun z => number t.fmt (t.elem z e)
    (nan x → nan y → t.elem (fminOf t x y) e = t.fmt.nanEnc ∧ t.elem (fmaxOf t x y) e = t.fmt.nanEnc) ∧
    (nan x → ¬ nan y → t.elem (fminOf t x y) e = t.elem y e ∧ t.elem (fmaxOf t x y) e = t.elem y e) ∧
    (¬ nan x → nan y → t.elem (fminOf t x y) e = t.elem x e ∧ t.elem (fmaxOf t x y) e = t.elem x e) ∧
    (∀ p q, value x = some p → value y = some q → p < q →
      t.elem (fminOf t x y) e = t.elem x e ∧ t.elem (fminOf t y x) e = t.elem x e ∧
      t.elem (fmaxOf t x y) e = t.elem y e ∧ t.elem (fmaxOf t y x) e = t.elem y e) ∧
    (∀ p, value x = some p → value y = some p →
      let minus := 2 ^ (t.fmt.w - 1) ≤ t.elem x e
      t.elem (fminOf t x y) e = (if minus then t.elem x e else t.elem y e) ∧
      t.elem (fmaxOf t x y) e = if minus then t.elem y e else t.elem x e)) ∧
  (∀ t, t ∈ types → ∀ x y cc p q, number t.fmt (t.elem x 0) = some p → number t.fmt (t.elem y 0) = some q →
    fcompareOf t cc x y = bit ((match cc with
      | .eq => decide (p = q) | .ne => decide (p ≠ q) | .lt => decide (p < q) | .le => decide (p ≤ q) | .gt => decide (q < p)
      | .ge => decide (q ≤ p) | .un => false | .ord => true : Bool) = true)) ∧
  (∀ t, t ∈ types → ∀ x y cc, t.fmt.isNan (t.elem x 0) = true ∨ t.fmt.isNan (t.elem y 0) = true →
    fcompareOf t cc x y = bit (cc = .ne ∨ cc = .un)) ∧
  (∀ t, t ∈ types → ∀ x, let z := t.elem x 0
    let minus := 2 ^ (t.fmt.w - 1) ≤ z
    fclassOf t x = 1 <<< (match t.fmt.value z with
      | .nan => if minus then 9 else 8
      | .inf _ => if minus then 0 else 7
      | .fin _ m _ =>
        if m = 0 then (if minus then 3 else 4)
        else if z / 2 ^ t.fmt.f % 2 ^ (t.fmt.w - 1 - t.fmt.f) = 0 then (if minus then 2 else 5)
        else if minus then 1 else 6 : Nat))

/-- R128 to R138: conversions, extensions and scalings deliver their result from operand a, and `ldexp` from a and b. A widening
conversion is exact; a narrowing one rounds the value once, and maps NaN and infinities as R92 gives. Conversions to integers round by
the mode and clamp; `cvt.e8m0` gives the exponent that R132 chooses, `frnd` an integer with the operand's sign, and `ldexp` one rounding of
the scaled value. -/
def Obligations.ConversionsDeliver : Prop :=
  Delivers1 .cvtF64F32 (convertOf fmtF32 fmtF64 .rne false) ∧
  Delivers1 .cvtF32F16 (convertOf fmtF16 fmtF32 .rne false) ∧
  Delivers1 .cvtF32Bf16 (convertOf fmtBf16 fmtF32 .rne false) ∧
  Delivers1 .cvtF32E4m3 (convertOf fmtE4m3 fmtF32 .rne false) ∧
  Delivers1 .cvtF32E5m2 (convertOf fmtE5m2 fmtF32 .rne false) ∧
  Delivers1 .cvtF32E2m1 (convertOf fmtE2m1 fmtF32 .rne false) ∧
  (∀ rm sat,
    Delivers1 (.cvtF32F64 rm sat) (convertOf fmtF64 fmtF32 rm sat) ∧
    Delivers1 (.cvtF16F32 rm sat) (convertOf fmtF32 fmtF16 rm sat) ∧
    Delivers1 (.cvtBf16F32 rm sat) (convertOf fmtF32 fmtBf16 rm sat) ∧
    Delivers1 (.cvtE4m3F32 rm sat) (convertOf fmtF32 fmtE4m3 rm sat) ∧
    Delivers1 (.cvtE5m2F32 rm sat) (convertOf fmtF32 fmtE5m2 rm sat) ∧
    Delivers1 (.cvtE2m1F32 rm sat) (convertOf fmtF32 fmtE2m1 rm sat) ∧
    Delivers1 (.cvtF16x2F32 rm sat) (fun x => up (((lo (convertOf fmtF32 fmtF16 rm sat (x >>> 32))).setWidth 16 : W16)
      ++ ((lo (convertOf fmtF32 fmtF16 rm sat x)).setWidth 16 : W16))) ∧
    Delivers1 (.cvtBf16x2F32 rm sat) (fun x => up (((lo (convertOf fmtF32 fmtBf16 rm sat (x >>> 32))).setWidth 16 : W16)
      ++ ((lo (convertOf fmtF32 fmtBf16 rm sat x)).setWidth 16 : W16))) ∧
    Delivers1 (.nar rm sat) (narrowOf rm sat)) ∧
  (∀ rm,
    Delivers1 (.cvtF32I32 rm) (fun x => BitVec.ofNat 64
      (fmtF32.round rm false (decide ((lo x).toInt < 0)) (lo x).toInt.natAbs 0)) ∧
    Delivers1 (.cvtF32N32 rm) (fun x => BitVec.ofNat 64 (fmtF32.round rm false false (lo x).toNat 0)) ∧
    Delivers1 (.cvtF64I64 rm) (fun x => BitVec.ofNat 64 (fmtF64.round rm false (decide (x.toInt < 0)) x.toInt.natAbs 0)) ∧
    Delivers1 (.cvtF64N64 rm) (fun x => BitVec.ofNat 64 (fmtF64.round rm false false x.toNat 0)) ∧
    Delivers1 (.cvtI32F32 rm) (toIntOf fmtF32 .i32 rm) ∧
    Delivers1 (.cvtN32F32 rm) (toIntOf fmtF32 .n32 rm) ∧
    Delivers1 (.cvtI64F64 rm) (toIntOf fmtF64 .i64 rm) ∧
    Delivers1 (.cvtN64F64 rm) (toIntOf fmtF64 .n64 rm) ∧
    Delivers1 (.cvtE8m0F32 rm) (toE8m0Of rm) ∧
    Delivers1 (.cvtF32E8m0 rm) fromE8m0Of ∧
    Delivers1 (.frndF32 rm) (roundIntegralOf rm) ∧
    Delivers2 (.ldexpF32 rm) (ldexpOf rm)) ∧
  (∀ x p, (real fmtF32 (ux 32 x) = some p → real fmtF64 (convertOf fmtF32 fmtF64 .rne false x).toNat = some p) ∧
    ∀ t, t ∈ [fmtF16, fmtBf16, fmtE4m3, fmtE5m2, fmtE2m1] → real t (ux t.w x) = some p →
      real fmtF32 (convertOf t fmtF32 .rne false x).toNat = some p) ∧
  (∀ src dst, (src, dst) ∈ [(fmtF64, fmtF32), (fmtF32, fmtF16), (fmtF32, fmtBf16), (fmtF32, fmtE4m3), (fmtF32, fmtE5m2), (fmtF32, fmtE2m1)] →
    ∀ rm sat (x : W64),
      let y := ux src.w x
      (src.isNan y = true → (convertOf src dst rm sat x).toNat = dst.nanEnc) ∧
      (∀ neg, src.value y = .inf neg → (convertOf src dst rm sat x).toNat = overflows dst .rne sat neg) ∧
      (∀ p, real src y = some p → ∃ neg m e, (neg = true ↔ minus src y) ∧ dyadic neg m e = p ∧
        (convertOf src dst rm sat x).toNat = dst.round rm sat neg m e)) ∧
  (∀ t, t ∈ [fmtF32, fmtF16, fmtBf16, fmtE5m2, fmtE4m3] → t.nanEnc = (if t = fmtF32 then 0x7FC00000 else if t = fmtF16 then 0x7E00
    else if t = fmtBf16 then 0x7FC0 else if t = fmtE5m2 then 0x7E else 0x7F)) ∧ fmtE2m1.nanEnc = 7 ∧
  (∀ rm sat (x : W64), ∃ q, Nears rm ((x.toInt : Rat) / (2 : Rat) ^ (32 : Int)) q ∧
    narrowOf rm sat x = up (if sat then clampS 32 q else BitVec.ofInt 32 q)) ∧
  (∀ src ty, (src, ty) ∈ [(fmtF32, IntType.i32), (fmtF32, IntType.n32), (fmtF64, IntType.i64), (fmtF64, IntType.n64)] → ∀ rm (x : W64),
    let y := ux src.w x
    (src.isNan y = true → toIntOf src ty rm x = 0) ∧
    (src.value y = .inf false → toIntOf src ty rm x = match ty with
      | .i32 => 0x7FFFFFFF | .n32 => 0xFFFFFFFF | .i64 => 0x7FFFFFFFFFFFFFFF | .n64 => 0xFFFFFFFFFFFFFFFF) ∧
    (src.value y = .inf true → toIntOf src ty rm x = match ty with
      | .i32 => 0x80000000 | .i64 => 0x8000000000000000 | .n32 | .n64 => 0) ∧
    (∀ p, real src y = some p → ∃ q, Nears rm p q ∧ toIntOf src ty rm x = match ty with
      | .i32 => up (clampS 32 q) | .n32 => up (clampU 32 q) | .i64 => clampS 64 q | .n64 => clampU 64 q)) ∧
  (∀ rm (x : W64),
    let y := ux 32 x
    (fmtF32.isNan y = true → toE8m0Of rm x = 0xFF) ∧ ((fmtF32.value y = .inf true ∨ fmtF32.value y = .inf false) → toE8m0Of rm x = 0xFE) ∧
    (real fmtF32 y = some 0 → toE8m0Of rm x = 0) ∧
    (∀ p (k : Int), real fmtF32 y = some p → (2 : Rat) ^ k ≤ apart 0 p → apart 0 p < (2 : Rat) ^ (k + 1) →
      let middle := 3 * (2 : Rat) ^ (k - 1)
      let n := if apart 0 p = (2 : Rat) ^ k then k
        else match rm with
          | .rz | .rdn => k
          | .rup => k + 1
          | .rne => if apart 0 p < middle then k else if middle < apart 0 p then k + 1 else if k % 2 = 0 then k else k + 1
      toE8m0Of rm x = BitVec.ofInt 64 (max 0 (min 0xFE (n + 127))))) ∧
  (∀ x : W64, (ux 8 x = 0xFF → fromE8m0Of x = 0x7FC00000) ∧
    (ux 8 x ≠ 0xFF → real fmtF32 (fromE8m0Of x).toNat = some ((2 : Rat) ^ ((ux 8 x : Int) - 127)))) ∧
  (∀ rm (x : W64),
    let y := ux 32 x
    (fmtF32.isNan y = true → roundIntegralOf rm x = 0x7FC00000) ∧
    (fmtF32.value y = .inf true ∨ fmtF32.value y = .inf false ∨ real fmtF32 y = some 0 → roundIntegralOf rm x = up (lo x)) ∧
    (∀ p, real fmtF32 y = some p → ∃ q : Int, Nears rm p q ∧ real fmtF32 (roundIntegralOf rm x).toNat = some (q : Rat) ∧
      (minus fmtF32 (roundIntegralOf rm x).toNat ↔ minus fmtF32 y))) ∧
  (∀ rm (x k : W64),
    let y := ux 32 x
    (fmtF32.isNan y = true → ldexpOf rm x k = 0x7FC00000) ∧
    (fmtF32.value y = .inf true ∨ fmtF32.value y = .inf false ∨ real fmtF32 y = some 0 → ldexpOf rm x k = up (lo x)) ∧
    (∀ p, real fmtF32 y = some p → p ≠ 0 → ∃ neg m e, dyadic neg m e = p * (2 : Rat) ^ (lo k).toInt ∧
      ldexpOf rm x k = BitVec.ofNat 64 (fmtF32.round rm false neg m e))) ∧
  Delivers1 (.ext .i8 .b32) (fun x => up ((x.setWidth 8).signExtend 32)) ∧
  Delivers1 (.ext .n8 .b32) (fun x => (x.setWidth 8).setWidth 64) ∧
  Delivers1 (.ext .i16 .b32) (fun x => up ((x.setWidth 16).signExtend 32)) ∧
  Delivers1 (.ext .n16 .b32) (fun x => (x.setWidth 16).setWidth 64) ∧
  Delivers1 (.ext .i8 .b64) (fun x => (x.setWidth 8).signExtend 64) ∧
  Delivers1 (.ext .n8 .b64) (fun x => (x.setWidth 8).setWidth 64) ∧
  Delivers1 (.ext .i16 .b64) (fun x => (x.setWidth 16).signExtend 64) ∧
  Delivers1 (.ext .n16 .b64) (fun x => (x.setWidth 16).setWidth 64)

/-- R139, R140: the special functions deliver their result from operand a, at the special inputs that of the table. Their helpers truncate,
the second to an even fraction where the value is no f32 value. At inputs whose exact value is an f32 value they give it: `exp2` of an
integer, `log2` of a power of two, and `sinpi` and `cospi` of integers and of the numbers halfway between them. -/
def Sys2Proof.Claims.SpecialFunctionsDeliver : Prop :=
  Delivers1 .rcpF32 rcpOf ∧ Delivers1 .rsqF32 rsqOf ∧ Delivers1 .sqrtF32 sqrtOf ∧ Delivers1 .exp2F32 exp2Of ∧
  Delivers1 .log2F32 log2Of ∧ Delivers1 .sinpiF32 sinpiOf ∧ Delivers1 .cospiF32 cospiOf ∧
  (∀ rm, Delivers1 (.rcpF64 rm) (rcp64Of rm) ∧ Delivers1 (.sqrtF64 rm) (sqrt64Of rm)) ∧
  (∀ x : W64, fmtF32.isNan (lo x).toNat = true → ∀ f, f ∈ [rcpOf, rsqOf, sqrtOf, exp2Of, log2Of, sinpiOf, cospiOf] →
    f x = 0x7FC00000) ∧
  (∀ (x : W64) z rs, (z, rs) ∈ ([
      (0x00000000, [0x7F800000, 0x7F800000, 0x00000000, 0x3F800000, 0xFF800000, 0x00000000, 0x3F800000]),
      (0x80000000, [0xFF800000, 0xFF800000, 0x80000000, 0x3F800000, 0xFF800000, 0x80000000, 0x3F800000]),
      (0x7F800000, [0x00000000, 0x00000000, 0x7F800000, 0x7F800000, 0x7F800000, 0x7FC00000, 0x7FC00000]),
      (0xFF800000, [0x80000000, 0x7FC00000, 0x7FC00000, 0x00000000, 0x7FC00000, 0x7FC00000, 0x7FC00000])] : List (W32 × List W64)) →
    lo x = z → [rcpOf x, rsqOf x, sqrtOf x, exp2Of x, log2Of x, sinpiOf x, cospiOf x] = rs) ∧
  (∀ (x : W64) p, real fmtF32 (lo x).toNat = some p → p < 0 → rsqOf x = 0x7FC00000 ∧ sqrtOf x = 0x7FC00000 ∧ log2Of x = 0x7FC00000) ∧
  (∀ m e, m ≠ 0 → Truncates (trunc1 false m e) (dyadic false m e) ∧ trunc1 true m e = trunc1 false m e + 2 ^ 31 ∧
    trunc2 true m e = trunc2 false m e + 2 ^ 31 ∧ (trunc1 false m e = fmtF32.infEnc → trunc2 false m e = fmtF32.infEnc) ∧
    (dyadic false m e < (2 : Rat) ^ (128 : Int) → (∃ z, real fmtF32 z = some (dyadic false m e)) → trunc2 false m e = trunc1 false m e) ∧
    (dyadic false m e < (2 : Rat) ^ (128 : Int) → (∀ z, real fmtF32 z ≠ some (dyadic false m e)) →
      trunc2 false m e % 2 = 0 ∧ ∃ r, real fmtF32 (trunc2 false m e) = some r ∧ r ≤ dyadic false m e ∧
        ∀ z y, z % 2 = 0 → real fmtF32 z = some y → r < y → dyadic false m e < y)) ∧
  (∀ (x : W64) p, real fmtF32 (lo x).toNat = some p →
    (128 ≤ p → exp2Of x = 0x7F800000) ∧ (p < -149 → exp2Of x = 0) ∧
    (∀ n : Int, p = n → -149 ≤ n → n ≤ 127 → real fmtF32 (exp2Of x).toNat = some ((2 : Rat) ^ n)) ∧
    (∀ k : Int, p = (2 : Rat) ^ k → real fmtF32 (log2Of x).toNat = some (k : Rat)) ∧
    (∀ n : Int, p = n → n ≠ 0 → sinpiOf x = (if n < 0 then 0x80000000 else 0) ∧ cospiOf x = if n % 2 = 0 then 0x3F800000 else 0xBF800000) ∧
    (∀ n : Int, 2 * p = 2 * n + 1 → sinpiOf x = (if n % 2 = 0 then 0x3F800000 else 0xBF800000) ∧ cospiOf x = 0))

/-- R139, R141: of a positive finite value, `sqrt` gives the greatest f32 value whose square does not exceed it, `rcp` the greatest whose product
with it does not exceed 1, and infinity where 1 / a lies at 2^128 or above, and `rsq` the greatest whose square times it does not exceed 1. A
reciprocal of a negative value is that of its magnitude with the sign. `rcp.f64` and `sqrt.f64` round the exact value once by their
mode. -/
def Obligations.SquareRootsAndReciprocalsTruncate : Prop :=
  (∀ (x : W64) p, real fmtF32 (lo x).toNat = some p → 0 < p →
    ∃ r, real fmtF32 (sqrtOf x).toNat = some r ∧ 0 ≤ r ∧ r * r ≤ p ∧
      ∀ z y, real fmtF32 z = some y → r < y → p < y * y) ∧
  (∀ (x : W64) p, real fmtF32 (lo x).toNat = some p → 0 < p → 1 < p * (2 : Rat) ^ (128 : Int) →
    ∃ r, real fmtF32 (rcpOf x).toNat = some r ∧ 0 ≤ r ∧ r * p ≤ 1 ∧
      ∀ z y, real fmtF32 z = some y → r < y → 1 < y * p) ∧
  (∀ (x : W64) p, real fmtF32 (lo x).toNat = some p → 0 < p → p * (2 : Rat) ^ (128 : Int) ≤ 1 → rcpOf x = 0x7F800000) ∧
  (∀ (x y : W64), lo y = lo x ^^^ 0x80000000 → fmtF32.isNan (lo x).toNat = false → rcpOf y = rcpOf x ^^^ 0x80000000) ∧
  (∀ (x : W64) p, real fmtF32 (lo x).toNat = some p → 0 < p →
    ∃ r, real fmtF32 (rsqOf x).toNat = some r ∧ 0 ≤ r ∧ r * r * p ≤ 1 ∧
      ∀ z y, real fmtF32 z = some y → r < y → 1 < y * y * p) ∧
  (∀ (x : W64) p, real fmtF64 x.toNat = some p → 0 < p →
    (∀ r y z, real fmtF64 z = some y → real fmtF64 (rcp64Of .rz x).toNat = some r → r * p ≤ 1 ∧ (r < y → 1 < y * p)) ∧
    rcp64Of .rdn x = rcp64Of .rz x ∧
    (∀ r y z, real fmtF64 z = some y → real fmtF64 (rcp64Of .rup x).toNat = some r → 1 ≤ r * p ∧ (y < r → y * p < 1)) ∧
    (∀ r y z, real fmtF64 z = some y → real fmtF64 (rcp64Of .rne x).toNat = some r → apart 1 (r * p) ≤ apart 1 (y * p)) ∧
    (1 < p * (2 : Rat) ^ (1023 : Int) → ∀ rm, ∃ r, real fmtF64 (rcp64Of rm x).toNat = some r)) ∧
  (∀ (x : W64) p, real fmtF64 x.toNat = some p → 0 < p → ∀ rm, ∃ r, real fmtF64 (sqrt64Of rm x).toNat = some r ∧ 0 ≤ r ∧
    ∀ z y, real fmtF64 z = some y → match rm with
      | .rz | .rdn => r * r ≤ p ∧ (r < y → p < y * y)
      | .rup => p ≤ r * r ∧ (0 ≤ y → y < r → y * y < p)
      | .rne => (r < y → 4 * p ≤ (r + y) * (r + y)) ∧ (0 ≤ y → y < r → (r + y) * (r + y) ≤ 4 * p)) ∧
  (∀ (x : W64) rm z rs, (z, rs) ∈ ([
      (0x0000000000000000, (0x7FF0000000000000, 0x0000000000000000)), (0x8000000000000000, (0xFFF0000000000000, 0x8000000000000000)),
      (0x7FF0000000000000, (0x0000000000000000, 0x7FF0000000000000)),
      (0xFFF0000000000000, (0x8000000000000000, 0x7FF8000000000000))] : List (W64 × W64 × W64)) →
    x = z → (rcp64Of rm x, sqrt64Of rm x) = rs) ∧
  (∀ (x : W64) rm, (fmtF64.isNan x.toNat = true → rcp64Of rm x = 0x7FF8000000000000 ∧ sqrt64Of rm x = 0x7FF8000000000000) ∧
    (∀ p, real fmtF64 x.toNat = some p → p < 0 → sqrt64Of rm x = 0x7FF8000000000000))

namespace Sys2Proof.Claims
open Sys2Proof.Machine

/-! ### Lane and group operations -/

/-- The instruction fires with these values for its two targets and these effects for the commit, and does nothing else. -/
def Does (i : Instr) (s : State) (c : Ctx) (v0 v1 : Option Val) (es : List Effect) : Prop :=
  exec i s = .next (s.complete c v0 v1 es)

/-- A value of 16 lanes that gives x(l) in the lanes of a mask and is null in the others (R37, R38). -/
def IsVal (v : Val) (uni : Bool) (on : Nat → Bool) (x : Nat → W64) : Prop :=
  v.uni = uni ∧ v.reg = none ∧ v.lanes.length = 16 ∧ ∀ l, l < 16 → lane v l = if on l then some (x l) else none

/-- The lanes in which an instruction is active and its operands are present. -/
def live (on : W16) (ins : List Val) (l : Nat) : Bool := laneBit on l && ins.all fun v => (lane v l).isSome

/-- src(s) of R145: the value in the source lane, the register that a direct `rd` took it from where the lane is live and null, else the
fill. -/
def source (c : Ctx) (v : Val) (fill : W64) (s : Int) : W64 :=
  if s < 0 ∨ 15 < s then fill
  else if laneBit c.group.exited s.toNat ∨ laneBit c.group.launched s.toNat = false then fill
  else match lane v s.toNat, v.reg with
    | some x, _ => x
    | none, some (n, false) => (PMap.getD c.group.v (16 * n + s.toNat) 0).setWidth 64
    | none, some (n, true) => PMap.getD c.group.v (16 * (n + 1) + s.toNat) 0 ++ PMap.getD c.group.v (16 * n + s.toNat) 0
    | none, none => fill

/-- A lane-wise exchange: lane l takes the source lane that the selector names, with port c as its fill. -/
def Exchanges (i : Instr) (w : Width) (s : Val → Nat → Int) : Prop :=
  ∀ st c on a b d, Stands st c on → c.port? .a = some a → c.port? .b = some b → c.port? .c = some d →
    ∃ v, Does i st c (some v) (some v) [] ∧
      IsVal v false (live on [a, b, d]) fun l =>
        match w with
        | .b32 => up (lo (source c a ((lane d l).getD 0) (s b l)))
        | .b64 => source c a ((lane d l).getD 0) (s b l)

/-- A node of the tree of R149 over 16 leaves. -/
def node {α : Type} (op : α → α → α) (leaf : Nat → α) : Nat → Nat → α
  | 0, j => leaf j
  | k + 1, j => op (node op leaf k (2 * j)) (node op leaf k (2 * j + 1))

/-- The inclusive prefix of R149: the largest blocks of [0, n) from the left, for k from `k` down to 0. -/
def prefixOf {α : Type} (op : α → α → α) (leaf : Nat → α) (n : Nat) : Nat → Nat → Option α → Option α
  | 0, base, acc => if n.testBit 0 then some (match acc with | none => leaf base | some x => op x (leaf base)) else acc
  | k + 1, base, acc =>
    if n.testBit (k + 1) then
      let here := node op leaf (k + 1) (base / 2 ^ (k + 1))
      prefixOf op leaf n k (base + 2 ^ (k + 1)) (some (match acc with | none => here | some x => op x here))
    else prefixOf op leaf n k base acc

/-- The leaf of a lane: its value where it contributes, else the identity. -/
def leafOf {α : Type} (on : W16) (a : Val) (f : W64 → α) (e : α) (l : Nat) : α :=
  match (if laneBit on l then lane a l else none) with | some x => f x | none => e

/-- A reduction: every lane that is not null receives the root of the tree, as a uniform value. -/
def Reduces {α : Type} (i : Instr) (op : α → α → α) (e : α) (f : W64 → α) (out : α → W64) : Prop :=
  ∀ st c on a, Stands st c on → c.port? .a = some a →
    ∃ v, Does i st c (some v) (some v) [] ∧ IsVal v true (live on [a]) fun _ => out (node op (leafOf on a f e) 4 0)

/-- A scan: lane l receives the prefix over lanes 0 to l. -/
def Scans {α : Type} (i : Instr) (op : α → α → α) (e : α) (f : W64 → α) (out : α → W64) : Prop :=
  ∀ st c on a, Stands st c on → c.port? .a = some a →
    ∃ v, Does i st c (some v) (some v) [] ∧
      IsVal v false (live on [a]) fun l => out ((prefixOf op (leafOf on a f e) (l + 1) 4 0 none).getD e)

/-- A reduction and the scan of the same operator. -/
def Folds {α : Type} (red scan : Instr) (op : α → α → α) (e : α) (f : W64 → α) (out : α → W64) : Prop :=
  Reduces red op e f out ∧ Scans scan op e f out

/-- A mask of lanes as a value. -/
def maskWord (p : Nat → Bool) : W64 := (maskOf p).setWidth 64

/-- A lane contributes when it is active and its operand is not null (R148). -/
def contributes (on : W16) (a : Val) (l : Nat) : Bool := decide (l < 16) && live on [a] l

/-- A value delivered for the lanes that are not null. -/
def Answers1 (i : Instr) (uni : Bool) (x : W16 → Val → Nat → W64) : Prop :=
  ∀ st c on a, Stands st c on → c.port? .a = some a →
    ∃ v, Does i st c (some v) (some v) [] ∧ IsVal v uni (live on [a]) (x on a)

/-- An instruction without operands that delivers a value in its active lanes. -/
def Answers0 (i : Instr) (uni : Bool) (x : State → Ctx → Nat → W64) : Prop :=
  ∀ st c on, Stands st c on →
    ∃ v, Does i st c (some v) (some v) [] ∧ IsVal v uni (laneBit on) (x st c)

end Sys2Proof.Claims

/-- R95, R96: `cvt.sr` delivers, in each lane, the rounding of operand a with that lane's generator value: the k-th of the block takes its
state at block start through k steps. (That the result of a uniform operand is flagged uniform, with the values that its lanes draw, is the model's
choice, log entry 135.) -/
def Sys2Proof.Claims.StochasticConversionsDraw : Prop :=
  ∀ i t sat, (i, t) ∈ [(Instr.cvtSrE4m3F32 sat, fmtE4m3), (.cvtSrE5m2F32 sat, fmtE5m2), (.cvtSrE2m1F32 sat, fmtE2m1)] →
    ∀ s c on a, Stands s c on → c.port? .a = some a →
      let k := drawCount (c.blk.words.take c.blk.slot) + 1
      ∃ v, Fires i s c v ∧ v.uni = a.uni ∧ ∀ l, l < 16 → lane v l =
        if laneBit on l then (lane a l).map (stochasticOf t sat (genSteps k (PMap.getD c.group.gens l 0))) else none

/-- R95: of a finite value whose magnitude does not exceed the largest of the format, `cvt.sr` gives, with the sign of the value, the neighbour
above where the generator value lies below the scaled distance from the neighbour below, and else that one; a value that the format has is
returned, and a zero keeps its sign. A NaN gives the canonical NaN; a larger value gives what an overflow gives. -/
def Sys2Proof.Claims.StochasticRoundingGivesANeighbour : Prop :=
  ∀ t, t ∈ [fmtE4m3, fmtE5m2, fmtE2m1] → ∀ sat (u : W32) (x : W64) big, real t t.maxEnc = some big →
    (fmtF32.isNan (lo x).toNat = true → (stochasticOf t sat u x).toNat = t.nanEnc) ∧
    (∀ neg, fmtF32.value (lo x).toNat = .inf neg → (stochasticOf t sat u x).toNat = overflows t .rne sat neg) ∧
    (∀ p, real fmtF32 (lo x).toNat = some p →
      (big < apart 0 p → (stochasticOf t sat u x).toNat = overflows t .rne sat (decide (p < 0))) ∧
      (apart 0 p ≤ big →
        (minus t (stochasticOf t sat u x).toNat ↔ minus fmtF32 (lo x).toNat) ∧
        ((∃ z, real t z = some p) → real t (stochasticOf t sat u x).toNat = some p) ∧
        ((∀ z, real t z ≠ some p) → ∃ below above, (∃ z, real t z = some below) ∧ (∃ z, real t z = some above) ∧
          0 ≤ below ∧ below < apart 0 p ∧ apart 0 p < above ∧ (∀ z y, real t z = some y → y ≤ below ∨ above ≤ y) ∧
          ∃ r, real t (stochasticOf t sat u x).toNat = some r ∧
            apart 0 r = if ((u.toNat + 1 : Nat) : Rat) * (above - below) ≤ (2 : Rat) ^ (32 : Int) * (apart 0 p - below) then above else below)))

/-- R145, R146, R70: `perm`, the forms of `xlane` and `bcast` read the lane that their selector names, under the source rule; `lid`
and `lmask` deliver the lane's own place. -/
def Sys2Proof.Claims.LanesExchangeValues : Prop :=
  Exchanges .permB32 .b32 (fun b l => (((b.uniform?.getD 0) >>> (4 * l)).setWidth 4 : BitVec 4).toNat) ∧
  Exchanges .permB64 .b64 (fun b l => (((b.uniform?.getD 0) >>> (4 * l)).setWidth 4 : BitVec 4).toNat) ∧
  (∀ w i, (i = Instr.xlaneB32 ∧ w = Width.b32) ∨ (i = Instr.xlaneB64 ∧ w = Width.b64) →
    Exchanges (i .lo false) w (fun b l => (l : Int) - (lo ((lane b l).getD 0)).toNat) ∧
    Exchanges (i .lo true) w (fun b l => ((l : Int) - (lo ((lane b l).getD 0)).toNat) % 16) ∧
    Exchanges (i .hi false) w (fun b l => (l : Int) + (lo ((lane b l).getD 0)).toNat) ∧
    Exchanges (i .hi true) w (fun b l => ((l : Int) + (lo ((lane b l).getD 0)).toNat) % 16) ∧
    Exchanges (i .flip false) w (fun b l => (BitVec.ofNat 32 l ^^^ lo ((lane b l).getD 0)).toNat) ∧
    Exchanges (i .at false) w (fun b l => (lo ((lane b l).getD 0)).toNat)) ∧
  (∀ st c on a b, Stands st c on → c.port? .a = some a → c.port? .b = some b →
    ∃ v, Does .bcast st c (some v) (some v) [] ∧
      IsVal v true (live on [a, b]) fun _ => up (lo (source c a 0 (lo (b.uniform?.getD 0)).toNat))) ∧
  Answers0 .lid false (fun _ _ l => BitVec.ofNat 64 l) ∧
  Answers0 (.lmask .lt) false (fun _ _ l => maskWord fun j => decide (j < l)) ∧
  Answers0 (.lmask .le) false (fun _ _ l => maskWord fun j => decide (j ≤ l)) ∧
  Answers0 (.lmask .gt) false (fun _ _ l => maskWord fun j => decide (j > l)) ∧
  Answers0 (.lmask .ge) false (fun _ _ l => maskWord fun j => decide (j ≥ l)) ∧
  Answers0 (.lmask .eq) false (fun _ _ l => maskWord fun j => decide (j = l))

/-- R148: the votes, `match`, and the operations on 16-bit masks. -/
def Sys2Proof.Claims.VotesMatchesAndMasks : Prop :=
  Answers1 (.vote .some) true (fun on a _ => bit ((List.range 16).any (fun l => contributes on a l && ((lane a l).getD 0).getLsbD 0) = true)) ∧
  Answers1 (.vote .every) true (fun on a _ => bit ((List.range 16).all (fun l => !contributes on a l || ((lane a l).getD 0).getLsbD 0) = true)) ∧
  Answers1 (.vote .mask) true (fun on a _ => maskWord fun l => contributes on a l && ((lane a l).getD 0).getLsbD 0) ∧
  Answers1 (.vote .same) true (fun on a _ => bit ((List.range 16).all (fun l => (List.range 16).all fun k =>
    !contributes on a l || !contributes on a k || lo ((lane a l).getD 0) == lo ((lane a k).getD 0)) = true)) ∧
  Answers1 .matchB32 false (fun on a l => maskWord fun j => contributes on a j && lo ((lane a j).getD 0) == lo ((lane a l).getD 0)) ∧
  Answers1 .matchB64 false (fun on a l => maskWord fun j => contributes on a j && lane a j == lane a l) ∧
  Delivers2 (.pand .and) (fun x y => ((x.setWidth 16 &&& y.setWidth 16 : W16)).setWidth 64) ∧
  Delivers2 (.pand .or) (fun x y => ((x.setWidth 16 ||| y.setWidth 16 : W16)).setWidth 64) ∧
  Delivers2 (.pand .xor) (fun x y => ((x.setWidth 16 ^^^ y.setWidth 16 : W16)).setWidth 64) ∧
  Delivers2 (.pand .andn) (fun x y => ((x.setWidth 16 &&& ~~~(y.setWidth 16) : W16)).setWidth 64) ∧
  Delivers1 .mpopc (fun x => BitVec.ofNat 64 (ones (x.setWidth 16 : W16))) ∧
  Delivers1 .mffs (fun x => BitVec.ofNat 64 (((List.range 16).find? fun i => x.getLsbD i).getD 16))

/-- R149, R150: every reduction and scan is taken over one tree with the lower lanes on the left, lanes that do not contribute entering
as the identity; an integer sum is exact and clamped or wrapped once. Lane 15 of a scan has the value of the reduction. (That a saturating scan
clamps each prefix, against one row of R152, is the model's reading, log entry 136.) -/
def Obligations.ReductionsAndScansUseOneTree : Prop :=
  (∀ (op : W64 → W64 → W64) leaf, prefixOf op leaf 16 4 0 none = some (node op leaf 4 0)) ∧
  Folds (.gredAdd false false) (.gscanAdd false false) (fun (x y : Int) => x + y) 0 (fun x => (lo x).toInt) (fun r => up (BitVec.ofInt 32 r)) ∧
  Folds (.gredAdd false true) (.gscanAdd false true) (fun (x y : Int) => x + y) 0 (fun x => (lo x).toNat) (fun r => up (BitVec.ofInt 32 r)) ∧
  Folds (.gredAdd true false) (.gscanAdd true false) (fun (x y : Int) => x + y) 0 (fun x => (lo x).toInt) (fun r => up (clampS 32 r)) ∧
  Folds (.gredAdd true true) (.gscanAdd true true) (fun (x y : Int) => x + y) 0 (fun x => (lo x).toNat) (fun r => up (clampU 32 r)) ∧
  Folds .gredAddF32 .gscanAddF32 (faddOf tyF32 .rne) 0x80000000 (fun x => up (lo x)) id ∧
  Folds .gredAddF64 .gscanAddF64 (faddOf tyF64 .rne) 0x8000000000000000 id id ∧
  Folds (.gredMax .i32) (.gscanMax .i32) (fun x y : W32 => if y.sle x then x else y) 0x80000000 lo up ∧
  Folds (.gredMax .n32) (.gscanMax .n32) (fun x y : W32 => if y.ule x then x else y) 0 lo up ∧
  Folds (.gredMax .f32) (.gscanMax .f32) (fmaxOf tyF32) 0x7FC00000 (fun x => up (lo x)) id ∧
  Folds (.gredMin .i32) (.gscanMin .i32) (fun x y : W32 => if x.sle y then x else y) 0x7FFFFFFF lo up ∧
  Folds (.gredMin .n32) (.gscanMin .n32) (fun x y : W32 => if x.ule y then x else y) 0xFFFFFFFF lo up ∧
  Folds (.gredMin .f32) (.gscanMin .f32) (fminOf tyF32) 0x7FC00000 (fun x => up (lo x)) id ∧
  Reduces (.gredBitwise .and) (fun x y : W32 => x &&& y) (BitVec.allOnes 32) lo up ∧
  Reduces (.gredBitwise .or) (fun x y : W32 => x ||| y) 0 lo up ∧
  Reduces (.gredBitwise .xor) (fun x y : W32 => x ^^^ y) 0 lo up ∧
  Reduces .gredSexp sexpOf 0x00000000FF800000 id id

/-- R54, R56, R70: the constants, addresses and counters are uniform values; `nop` does nothing (R51). `clk` without a guard gives the
cycle of block start. -/
def Sys2Proof.Claims.ConstantsAndCounters : Prop :=
  (∀ s c on, Stands s c on → Does .nop s c none none []) ∧
  (∀ imm, Answers0 (.moviShort imm) true (fun _ _ _ => up (imm.signExtend 32))) ∧
  (∀ imm, Answers0 (.moviLong .b32 imm) true (fun _ _ _ => up imm)) ∧
  (∀ imm, Answers0 (.moviLong .n64 imm) true (fun _ _ _ => up imm)) ∧
  (∀ imm, Answers0 (.moviLong .i64 imm) true (fun _ _ _ => imm.signExtend 64)) ∧
  (∀ off, Answers0 (.adr off) true (fun _ c _ => c.blk.head + off.signExtend 64 * 16)) ∧
  Answers0 .amask true (fun _ c _ => c.blk.mask.setWidth 64) ∧
  Answers0 .clk true (fun s c _ => BitVec.ofNat 64 (if c.node.guard = .always then c.blk.start else s.clk (dieOf c.team.core)))

namespace Sys2Proof.Claims
open Sys2Proof.Machine

/-! ### Registers, eyelets and exits -/

/-- The two halves of a pair of lane registers, or one of them alone, in a lane (R52). -/
def register (G : Group) (n : Nat) (b64 : Bool) (l : Nat) : W64 :=
  let half := fun k => PMap.getD G.v (16 * k + l) 0
  if b64 then half (n + 1) ++ half n else up (half n)

/-- The token that a read of eyelet n receives: the latched one, else the head of its channel on the team's core (R48). -/
def Receives (s : State) (c : Ctx) (n : Nat) (e : Eyelet) (tok : Token) : Prop :=
  PMap.get? c.group.eyelets n = some e ∧ e.output = false ∧
    (PMap.get? c.group.latches n = some tok ∨
      PMap.get? c.group.latches n = none ∧ ∃ rest, PMap.getD (s.core c.team.core).channels e.channel [] = tok :: rest)

/-- The state in which the head of an eyelet's channel has gone to the replay latch, unless the latch is full already (R48). -/
def latched (s : State) (c : Ctx) (n : Nat) (e : Eyelet) (tok : Token) : State :=
  if (PMap.get? c.group.latches n).isSome then s
  else
    (s.modCore c.team.core fun C =>
      { C with channels := PMap.set C.channels [] e.channel (PMap.getD C.channels e.channel []).tail }).modGroup c.t c.g fun G =>
        { G with latches := PMap.insert G.latches n tok }

end Sys2Proof.Claims

/-- R52, R48: `rd` delivers, in the lanes of the block's mask, a lane register or pair, a uniform register, a mask as bits or as a word,
the token of an eyelet, or the kind of that token. A register that holds an uncorrectable error raises MEM_DATA (R446). -/
def Sys2Proof.Claims.RegisterReads : Prop :=
  ∀ s c, s.ctx? = some c →
    (∀ n b64, n.toNat < 248 → Spot.register c.t c.g 0 n.toNat ∉ s.poison →
      (b64 = true → Spot.register c.t c.g 0 (n.toNat + 1) ∉ s.poison) →
      ∃ v, Does (.rd (.lane n b64)) s c (some v) none [] ∧ v.uni = false ∧ v.reg = some (n.toNat, b64) ∧
        ∀ l, l < 16 → lane v l = if laneBit c.blk.mask l then some (register c.group n.toNat b64 l) else none) ∧
    (∀ n, Spot.register c.t c.g 1 n.toNat ∉ s.poison →
      ∃ v, Does (.rd (.uniform n)) s c (some v) none [] ∧
        IsVal v true (laneBit c.blk.mask) fun _ => PMap.getD c.group.g n.toNat 0) ∧
    (∀ n, Spot.register c.t c.g 2 n.toNat ∉ s.poison →
      (∃ v, Does (.rd (.mask n false)) s c (some v) none [] ∧
        IsVal v false (laneBit c.blk.mask) fun l => bit (laneBit (PMap.getD c.group.p n.toNat 0) l = true)) ∧
      (∃ v, Does (.rd (.mask n true)) s c (some v) none [] ∧
        IsVal v true (laneBit c.blk.mask) fun _ => (PMap.getD c.group.p n.toNat 0).setWidth 64)) ∧
    (∀ n b64 e tok, 248 ≤ n.toNat → Receives s c (n.toNat - 248) e tok → tok.damaged = false →
      ∃ v, exec (.rd (.lane n b64)) s = .next ((latched s c (n.toNat - 248) e tok).complete c (some v) none []) ∧
        IsVal v false (fun l => laneBit c.blk.mask l && (tok.kind == .data) && laneBit tok.valid l)
          fun l => up (tok.data.getD l 0)) ∧
    (∀ n e tok, Receives s c n.toNat e tok →
      ∃ v, Does (.rd (.kind n)) s c (some v) none [] ∧
        IsVal v true (laneBit c.blk.mask) fun _ => (match tok.kind with
          | .data => 0 | .endOfTile => 1 | .endOfStream => 2 | .endOfStreamError => 3 | .config => 4 | .reconfig => 5
          | .faultStall => 6 : W64)) ∧
    (∀ n b64, n.toNat < 248 → Spot.register c.t c.g 0 n.toNat ∈ s.poison ∨ b64 = true ∧ Spot.register c.t c.g 0 (n.toNat + 1) ∈ s.poison →
      exec (.rd (.lane n b64)) s = .next (s.takeFault c.t c.g c.blk.head
        { code := .memData, slot := c.blk.slot, detail := 2, extra := Config.errorStatus s.tick }))

/-- R53, R49: `wr` fires once its port holds a value, and leaves its write to the commit. A write to an eyelet that is bound for output
takes a free slot of the receiving channel. -/
def Sys2Proof.Claims.RegisterWritesFire : Prop :=
  ∀ s c, s.ctx? = some c → (c.port? .w).isSome = true →
    (∀ n b64, n.toNat < 248 → Does (.wr (.lane n b64)) s c none none [.wr c.blk.slot (.lane n b64)]) ∧
    (∀ n, Does (.wr (.uniform n)) s c none none [.wr c.blk.slot (.uniform n)]) ∧
    (∀ n w, Does (.wr (.mask n w)) s c none none [.wr c.blk.slot (.mask n w)]) ∧
    (∀ n b64 e, 248 ≤ n.toNat → PMap.get? c.group.eyelets (n.toNat - 248) = some e → e.output = true →
      (PMap.getD (s.core e.core).channels e.channel []).length + PMap.getD (s.core e.core).reservedSlots e.channel 0 < 4 →
      exec (.wr (.lane n b64)) s = .next (((s.modCore e.core fun C =>
        { C with reservedSlots := PMap.set C.reservedSlots 0 e.channel (PMap.getD C.reservedSlots e.channel 0 + 1) }).modFlight
          c.t c.g fun F => { F with pushes := F.pushes ++ [(e.core, e.channel, n.toNat - 248)] }).complete
            c none none [.wr c.blk.slot (.lane n b64)]))

/-- R53: at commit a lane register, or a pair, takes the value in the lanes that are not null; a uniform register takes the value of the
lowest such lane; a mask takes bit 0 of each such lane, or the low 16 bits of a uniform value. Every other register stays. -/
def Sys2Proof.Claims.RegisterWritesChangeOnlyTheirRegister : Prop :=
  ∀ (G : Group) (v : Val),
    (∀ n b64, ∃ m, G.write (.lane n b64) v = { G with v := m } ∧
      ∀ k l, l < 16 → PMap.getD m (16 * k + l) 0 = match lane v l with
        | none => PMap.getD G.v (16 * k + l) 0
        | some x => if b64 ∧ k = n.toNat + 1 then (x >>> 32).setWidth 32 else if k = n.toNat then lo x
            else PMap.getD G.v (16 * k + l) 0) ∧
    (∀ n, ∃ m, G.write (.uniform n) v = { G with g := m } ∧
      ∀ k, PMap.getD m k 0 = match v.lanes.findSome? id with
        | some x => if k = n.toNat then x else PMap.getD G.g k 0
        | none => PMap.getD G.g k 0) ∧
    (∀ n, ∃ m, G.write (.mask n false) v = { G with p := m } ∧
      ∀ k l, l < 16 → laneBit (PMap.getD m k 0) l =
        if k = n.toNat then (match lane v l with | some x => x.getLsbD 0 | none => laneBit (PMap.getD G.p k 0) l)
        else laneBit (PMap.getD G.p k 0) l) ∧
    (∀ n, ∃ m, G.write (.mask n true) v = { G with p := m } ∧
      ∀ k, PMap.getD m k 0 = match v.lanes.findSome? id with
        | some x => if k = n.toNat then x.setWidth 16 else PMap.getD G.p k 0
        | none => PMap.getD G.p k 0)

/-- R56 to R61, R361, R369, R419, R70: the exits and the instructions that act at the commit fire with the lanes in which they are not
null and their targets: H plus 16 times the offset, the lane's operand, or the uniform operand. A target that is no multiple of 16 raises ALIGN
in the lowest lane that has one. -/
def Obligations.ExitsNameTheirTargets : Prop :=
  ∀ s c on, Stands s c on →
    let all := fun (x : W64) => (lanesOf on).map fun l => (l, x)
    let near := fun (off : BitVec 19) => c.blk.head + off.signExtend 64 * 16
    (∀ e off, Does (.br e off) s c none none [.exit c.blk.slot e.toNat .br (all (near off))]) ∧
    (∀ e off, Does (.call e off) s c none none [.exit c.blk.slot e.toNat .call (all (near off))]) ∧
    (∀ e, Does (.ret e) s c none none [.exit c.blk.slot e.toNat .ret (all 0)]) ∧
    (∀ e, Does (.exit e) s c none none [.exit c.blk.slot e.toNat .exit (all 0)]) ∧
    (∀ e a, c.port? .a = some a → (∀ l x, lane a l = some x → x.toNat % 16 = 0) →
      Does (.bri e) s c none none [.exit c.blk.slot e.toNat .br
        ((lanesOf on).filterMap fun l => (lane a l).map fun x => (l, x))]) ∧
    (∀ e a l x, c.port? .a = some a → l < 16 → laneBit on l = true → lane a l = some x → x.toNat % 16 ≠ 0 →
      (∀ k y, k < l → laneBit on k = true → lane a k = some y → y.toNat % 16 = 0) →
      exec (.bri e) s = .next (s.takeFault c.t c.g c.blk.head { code := .align, slot := c.blk.slot, lane := l, addr := x })) ∧
    (∀ e a x, c.port? .a = some a → a.lanes.findSome? id = some x → x.toNat % 16 = 0 →
      let lanes := ((lanesOf on).filter fun l => (lane a l).isSome).map fun l => (l, x)
      Does (.callInd e) s c none none [.exit c.blk.slot e.toNat .call lanes] ∧
      Does (.yield e) s c none none [.exit c.blk.slot e.toNat .yield lanes]) ∧
    (∀ e a x, c.port? .a = some a → a.lanes.findSome? id = some x → x.toNat % 16 ≠ 0 →
      ∀ i, i ∈ [Instr.callInd e, .yield e] →
        exec i s = .next (s.takeFault c.t c.g c.blk.head { code := .align, slot := c.blk.slot, addr := x })) ∧
    (∀ off, Does (.jset off) s c none none (if on = 0 then [] else [.jset c.blk.slot (near off)])) ∧
    Does .rejoin s c none none [.rejoin c.blk.slot on] ∧
    (∀ n, Does (.spin n) s c none none (if on = 0 then [] else [.spin c.blk.slot n.toNat])) ∧
    (∀ n, Does (.trap n) s c none none (if on = 0 then [] else [.trap c.blk.slot n.toNat])) ∧
    Does .eret s c none none (if on = 0 then [] else [.eret c.blk.slot])

/-- R416, R417: `srr` delivers the register's value at block start, and LANEID as the lane's number. `srw` keeps its uniform operand for
the commit, once every reserved bit of it is 0 and a tenant neither raises PRIO above its launch's nor changes the tape quota; with
those it raises BLOCK_FORM and PRIV. -/
def Obligations.ControlRegistersReadAndWrite : Prop :=
  (∀ s c on cr, Stands s c on →
    ∃ v, Does (.srr cr) s c (some v) none [] ∧
      IsVal v (cr != .laneid) (laneBit on) fun l =>
        if cr = .laneid then BitVec.ofNat 64 l else PMap.getD c.blk.regs (ctlNumber cr) 0) ∧
  (∀ s c on cr a x, Stands s c on → c.port? .a = some a → a.lanes.findSome? id = some x →
    let allowed := c.team.sup = true ∨ c.group.sup.isSome = true ∨
      (cr = .prio → x.toNat ≤ c.team.entryPrio) ∧ (cr = .tapest → x.toNat / 2 % 2 ^ 16 = c.team.tape.quota)
    (x.toNat < 2 ^ ctlReserved cr → allowed →
      Does (.srw cr) s c none none
        (if (lanesOf on).any (fun l => (lane a l).isSome) then [.srw c.blk.slot cr x] else [])) ∧
    (2 ^ ctlReserved cr ≤ x.toNat →
      exec (.srw cr) s = .next (s.takeFault c.t c.g c.blk.head { code := .blockForm, slot := c.blk.slot })) ∧
    (x.toNat < 2 ^ ctlReserved cr → ¬ allowed →
      exec (.srw cr) s = .next (s.takeFault c.t c.g c.blk.head { code := .priv, slot := c.blk.slot }))) ∧
  (∀ (s : State) t g core v,
    s.doSrw t g core .ibud v = s.modTeam t (fun T => { T with ibud := v.toNat % 2 ^ 48 }) ∧
    s.doSrw t g core .tbud v = s.modTeam t (fun T => { T with tbud := v.toNat % 2 ^ 48 }) ∧
    s.doSrw t g core .prio v = s.modTeam t (fun T => { T with prio := v.toNat % 2 ^ 5 }) ∧
    s.doSrw t g core .waitswap v = s.modTeam t (fun T => { T with waitswap := v.toNat % 2 ^ 32 }) ∧
    s.doSrw t g core .fltinfo v = s.modGroup t g (fun G => { G with fltinfo := v }) ∧
    s.doSrw t g core .fltaddr v = s.modGroup t g (fun G => { G with fltaddr := v }) ∧
    s.doSrw t g core .epc v = s.modGroup t g (fun G => { G with epc := v }) ∧
    s.doSrw t g core .ssca v = s.modGroup t g (fun G => { G with ssca := v }) ∧
    s.doSrw t g core .sscb v = s.modGroup t g (fun G => { G with sscb := v }))

namespace Sys2Proof.Claims
open Sys2Proof.Machine

/-! ### Memory instructions -/

/-- A lane's address in its space (R230, R231): the low 32 bits of the operand within the shared memory or the spill stack, or the
physical address of a scratchpad byte; a multiple of the access's size. -/
def Reaches (s : State) (c : Ctx) (sp : MemSpace) (need : Perm) (size : Nat) (x : W64) (addr : Nat) : Prop :=
  match sp with
  | .shared => addr = x.toNat % 2 ^ 32 ∧ addr + size ≤ c.team.sharedSize ∧ addr % size = 0
  | .spill => addr = x.toNat % 2 ^ 32 ∧ addr + size ≤ c.team.spillSize - c.group.spilledBytes ∧ addr % size = 0
  | .spad => x.toNat % size = 0 ∧
      ∃ p, s.translate c.team.asid c.sup need Window.isScratchpad x = .ok p ∧ p.pa = addr

/-- Every live lane of an operand reaches its address. -/
def AllReach (s : State) (c : Ctx) (sp : MemSpace) (need : Perm) (size : Nat) (on : Nat → Bool) (a : Val) (addr : Nat → Nat) : Prop :=
  ∀ l x, l < 16 → on l = true → lane a l = some x → Reaches s c sp need size x (addr l)

/-- What stops a lane's access, in the order of R231: its translation, its range, its alignment; with the address that the fault names, the
scratchpad's virtual address or the offset. -/
def Misses (s : State) (c : Ctx) (sp : MemSpace) (need : Perm) (size : Nat) (x : W64) (code : FaultCode) (named : W64) (level : Nat) : Prop :=
  let beyond (limit : Nat) : Prop :=
    named = BitVec.ofNat 64 (x.toNat % 2 ^ 32) ∧ level = 0 ∧
      (limit < x.toNat % 2 ^ 32 + size ∧ code = .access ∨
        x.toNat % 2 ^ 32 + size ≤ limit ∧ x.toNat % 2 ^ 32 % size ≠ 0 ∧ code = .align)
  match sp with
  | .shared => beyond c.team.sharedSize
  | .spill => beyond (c.team.spillSize - c.group.spilledBytes)
  | .spad => named = x ∧
      (s.translate c.team.asid c.sup need Window.isScratchpad x = .error ⟨code, level⟩ ∨
        (∃ p, s.translate c.team.asid c.sup need Window.isScratchpad x = .ok p) ∧ x.toNat % size ≠ 0 ∧ code = .align ∧ level = 0)

/-- The lowest lane whose access is stopped raises the fault, where every lower one reaches its address (R231). -/
def LanesFault (i : Instr) (s : State) (c : Ctx) (sp : MemSpace) (need : Perm) (size : Nat) (on : Nat → Bool) (a : Val) : Prop :=
  ∀ l x addr code named level, l < 16 → on l = true → lane a l = some x →
    AllReach s c sp need size (fun k => on k && decide (k < l)) a addr → Misses s c sp need size x code named level →
    exec i s = .next (s.takeFault c.t c.g c.blk.head { code := code, slot := c.blk.slot, lane := l, addr := named, detail := level })

/-- The live lanes, lowest first, each with its address and operands. -/
def parts (on : Nat → Bool) (addr : Nat → Nat) (b d : Nat → W64) : List LaneAccess :=
  ((List.range 16).filter on).map fun l => { lane := l, addr := addr l, b := b l, c := d l }

/-- The loads, with the space and the width that each reads. -/
def loads : Instr → Option (MemSpace × LoadWidth)
  | .lds w => some (.shared, w)
  | .ldx w => some (.spad, w)
  | .ldk w => some (.spill, w)
  | .ldAcq _ .shared wide => some (.shared, if wide then .b64 else .b32)
  | .ldAcq _ .spad wide => some (.spad, if wide then .b64 else .b32)
  | _ => none

/-- The bytes of a load, and the value that it delivers for them (R234). -/
def loadBytes : LoadWidth → Nat
  | .n8 | .i8 => 1 | .n16 | .i16 => 2 | .b32 => 4 | .b64 => 8
def extended (w : LoadWidth) (n : Nat) : W64 :=
  match w with
  | .i8 => up ((BitVec.ofNat 8 n).signExtend 32)
  | .i16 => up ((BitVec.ofNat 16 n).signExtend 32)
  | .n8 | .n16 | .b32 | .b64 => BitVec.ofNat 64 n

/-- The stores, with the space and the bytes that each writes. -/
def stores : Instr → Option (MemSpace × Nat)
  | .sts w => some (.shared, match w with | .b8 => 1 | .b16 => 2 | .b32 => 4 | .b64 => 8)
  | .stx w => some (.spad, match w with | .b8 => 1 | .b16 => 2 | .b32 => 4 | .b64 => 8)
  | .stk w => some (.spill, match w with | .b8 => 1 | .b16 => 2 | .b32 => 4 | .b64 => 8)
  | .stRel _ .shared wide => some (.shared, if wide then 8 else 4)
  | .stRel _ .spad wide => some (.spad, if wide then 8 else 4)
  | _ => none

/-- The space of an atomic. -/
def spaceAt : Space → MemSpace
  | .shared => .shared | .spad => .spad

/-- The atomics, with operation, space, whether they act on 64 bits, and whether they take operand c (R236). -/
def atomics : Instr → Option (AtomOp × Space × Bool × Bool)
  | .atomAdd k w => some (.add, k.space, w, false)
  | .atomAnd k w => some (.and, k.space, w, false)
  | .atomOr k w => some (.or, k.space, w, false)
  | .atomXor k w => some (.xor, k.space, w, false)
  | .atomMinI k w => some (.minI, k.space, w, false)
  | .atomMaxI k w => some (.maxI, k.space, w, false)
  | .atomMinN k w => some (.minN, k.space, w, false)
  | .atomMaxN k w => some (.maxN, k.space, w, false)
  | .atomExch k w => some (.exch, k.space, w, false)
  | .atomCas k w => some (.cas, k.space, w, true)
  | .atomInc k w => some (.inc, k.space, w, false)
  | .atomDec k w => some (.dec, k.space, w, false)
  | .atomFadd .f32 k => some (.fadd, k.space, false, false)
  | .atomFadd .f64 k => some (.fadd, k.space, true, false)
  | .atomFaddX2 .f16x2 k => some (.faddF16x2, k.space, false, false)
  | .atomFaddX2 .bf16x2 k => some (.faddBf16x2, k.space, false, false)
  | .atomFmax k w => some (.fmax, k.space, w, false)
  | .atomFmin k w => some (.fmin, k.space, w, false)
  | .redFaddF32 _ sp => some (.fadd, sp, false, false)
  | _ => none

/-- The new value of a 32-bit or 64-bit location under an integer atomic (R236). -/
def updated {w : Nat} (op : AtomOp) (o b d : BitVec w) : Option (BitVec w) :=
  match op with
  | .add => some (o + b)
  | .and => some (o &&& b)
  | .or => some (o ||| b)
  | .xor => some (o ^^^ b)
  | .minI => some (if o.sle b then o else b)
  | .maxI => some (if b.sle o then o else b)
  | .minN => some (if o.ule b then o else b)
  | .maxN => some (if b.ule o then o else b)
  | .exch => some b
  | .cas => some (if o = b then d else o)
  | .inc => some (if b.toNat = 0 then o + 1 else if o.toNat + 1 < b.toNat then o + 1 else 0)
  | .dec => some (if b.toNat = 0 then o - 1 else if o.toNat = 0 ∨ b.toNat ≤ o.toNat then b - 1 else o - 1)
  | .fadd | .faddF16x2 | .faddBf16x2 | .fmax | .fmin => none

/-- A uniform operand on a port, with its value (R37). -/
def Uniform (c : Ctx) (port : Port) (v : Val) (x : W64) : Prop := c.port? port = some v ∧ v.lanes.findSome? id = some x

/-- Some lane of the values is live. -/
def someLive (on : W16) (ins : List Val) : Bool := (List.range 16).any (live on ins)

end Sys2Proof.Claims

/-- R230, R231, R234, R235, R446: a load delivers, in each live lane, the bytes at its address, extended as its width says. The lowest lane that
is stopped raises PAGE, ACCESS or KEY for its translation, ACCESS for its range, or ALIGN; where all reach their bytes, the lowest that meets an
uncorrectable error raises MEM_DATA. -/
def Obligations.LoadsDeliverMemory : Prop :=
  ∀ i sp w, loads i = some (sp, w) → ∀ s c on a addr, Stands s c on → c.port? .a = some a →
    (AllReach s c sp .r (loadBytes w) (live on [a]) a addr →
      (∀ l, l < 16 → live on [a] l = true → s.spoiledIn sp c.t c.g (addr l) (loadBytes w) = none) →
      ∃ v, Does i s c (some v) (some v) [] ∧
        IsVal v false (live on [a]) fun l => extended w (s.load sp c.t c.g (addr l) (loadBytes w))) ∧
    LanesFault i s c sp .r (loadBytes w) (live on [a]) a ∧
    (∀ l x place, AllReach s c sp .r (loadBytes w) (live on [a]) a addr → l < 16 → live on [a] l = true → lane a l = some x →
      (∀ k, k < l → live on [a] k = true → s.spoiledIn sp c.t c.g (addr k) (loadBytes w) = none) →
      s.spoiledIn sp c.t c.g (addr l) (loadBytes w) = some place →
      place = (if sp = .spad then 1 else 2) ∧
      exec i s = .next (s.takeFault c.t c.g c.blk.head
        { code := .memData, slot := c.blk.slot, lane := l, addr := (if sp = .spad then x else BitVec.ofNat 64 (addr l)), detail := place
          extra := Config.errorStatus s.tick }))

/-- R231, R233, R234: a store fires once its lanes reach their addresses, and leaves its bytes to the commit; the lowest lane that is stopped
raises its fault. -/
def Sys2Proof.Claims.StoresFire : Prop :=
  ∀ i sp size, stores i = some (sp, size) → ∀ s c on a b addr, Stands s c on → c.port? .a = some a → c.port? .b = some b →
    (AllReach s c sp .w size (live on [a, b]) a addr →
      Does i s c none none [.store c.blk.slot sp size (parts (live on [a, b]) addr (fun l => (lane b l).getD 0) fun _ => 0)]) ∧
    LanesFault i s c sp .w size (live on [a, b]) a

/-- R4, R229, R234: at commit a store writes its bytes lowest first and nothing else: a location reads as the bytes of the last lane that
stores to it, and every other byte of the three spaces as before. -/
def Sys2Proof.Claims.StoresChangeOnlyTheirBytes : Prop :=
  ∀ (s : State) t g size x a, (∃ T, s.team? t = some T) → (∃ G, s.group? t g = some G) →
    (∀ sp, sp ≠ MemSpace.spad → (s.store sp t g a size x).load sp t g a size = x % 256 ^ size) ∧
    ((∀ i, i < size → (s.storageAddr (a + i)).isSome = true ∧ ∃ d o, windowOf (a + i) = .scratchpad d o) →
      (s.store .spad t g a size x).load .spad t g a size = x % 256 ^ size ∧
      ∀ gen k, (k < a ∨ a + size ≤ k) → (s.store .spad t g a size x).readByte gen k = s.readByte gen k) ∧
    (∀ sp k, sp ≠ MemSpace.spad → (k < a ∨ a + size ≤ k) → (s.store sp t g a size x).load sp t g k 1 = s.load sp t g k 1) ∧
    (∀ sp gen k, sp ≠ MemSpace.spad → (s.store sp t g a size x).readByte gen k = s.readByte gen k) ∧
    (∀ sp u h k, sp ≠ MemSpace.shared ∨ u ≠ t → (s.store sp t g a size x).load .shared u h k 1 = s.load .shared u h k 1) ∧
    (∀ sp u h k, sp ≠ MemSpace.spill ∨ u ≠ t ∨ h ≠ g → (s.store sp t g a size x).load .spill u h k 1 = s.load .spill u h k 1)

/-- R231, R236 to R238: an atomic fires once its lanes reach their addresses, and leaves its read-modify-writes to the commit with the
write ports that its targets name; the lowest lane that is stopped raises its fault. -/
def Sys2Proof.Claims.AtomicsFire : Prop :=
  ∀ i op sp wide useC, atomics i = some (op, sp, wide, useC) → ∀ s c on a b d addr, Stands s c on → c.port? .a = some a →
    c.port? .b = some b → (useC = true → c.port? .c = some d) →
    let ins := if useC then [a, b, d] else [a, b]
    (AllReach s c (spaceAt sp) .rw (if wide then 8 else 4) (live on ins) a addr →
      Does i s c none none [.atomic c.blk.slot op (spaceAt sp) wide
        (parts (live on ins) addr (fun l => (lane b l).getD 0) fun l => if useC then (lane d l).getD 0 else 0)
        (c.node.t0.toList ++ c.node.t1.toList)]) ∧
    LanesFault i s c (spaceAt sp) .rw (if wide then 8 else 4) (live on ins) a

/-- R236, R238: at commit the lanes act in ascending order; each reads the old value, which is its result, and stores the operation's new
value before the next lane reads. -/
def Sys2Proof.Claims.AtomicsReadModifyWrite : Prop :=
  (∀ (s : State) op sp wide t g x rest,
    let size := if wide then 8 else 4
    let o : W64 := BitVec.ofNat 64 (s.load sp t g x.addr size)
    let r := (s.store sp t g x.addr size (atomValue op wide o x.b x.c).toNat).doAtomic op sp wide t g rest
    s.doAtomic op sp wide t g [] = (s, []) ∧ s.doAtomic op sp wide t g (x :: rest) = (r.1, (x.lane, o) :: r.2)) ∧
  (∀ op (o b d : W64), (∀ n, updated op (lo o) (lo b) (lo d) = some n → atomValue op false o b d = up n) ∧
    (∀ n, updated op o b d = some n → atomValue op true o b d = n)) ∧
  (∀ o b d : W64,
    atomValue .fadd false o b d = faddOf tyF32 .rne o b ∧ atomValue .fadd true o b d = faddOf tyF64 .rne o b ∧
    atomValue .faddF16x2 false o b d = faddOf tyF16x2 .rne o b ∧ atomValue .faddBf16x2 false o b d = faddOf tyBf16x2 .rne o b ∧
    atomValue .fmax false o b d = fmaxOf tyF32 o b ∧ atomValue .fmin false o b d = fminOf tyF32 o b ∧
    atomValue .fmax true o b d = fmaxOf tyF64 o b ∧ atomValue .fmin true o b d = fminOf tyF64 o b)

/-- R217, R239, R240 to R245: the fences act at the commit in their active lanes. A barrier instruction acts once unless it is null in every
lane: an arrival whose entry stands in the table, or finds room there, leaves its arrival to the commit; without, it raises BARRIER_SPILL. A word instruction checks its
address; `mbar.wait` goes on when the phase differs from the one given, and `mbar.test` delivers the word. -/
def Sys2Proof.Claims.FencesAndBarriersFire : Prop :=
  (∀ s c on, Stands s c on →
    (∀ sc, Does (.fence sc) s c none none (if on = 0 then [] else [.fence c.blk.slot false])) ∧
    Does .fenceSc s c none none (if on = 0 then [] else [.fence c.blk.slot true])) ∧
  (∀ s c on a x w, Stands s c on → Uniform c .a a x → someLive on [a] = true → barWordOf false x = some w →
    Does .barWait s c none none [.barWait c.blk.slot w] ∧
    Does .barInval s c none none [.barInval c.blk.slot w] ∧
    ((w.cluster, w.id) ∉ c.group.arrivals → c.group.barSpill ≠ some c.blk.head →
      (s.barReady c.team w = true → Does .barArrive s c none none [.barArrive c.blk.slot w none false] ∧
        Does .barSync s c none none [.barArrive c.blk.slot w none true]) ∧
      (s.barReady c.team w = false → ∀ i, i ∈ [Instr.barArrive, .barSync] →
        exec i s = .next (s.takeFault c.t c.g c.blk.head { code := .barrierSpill, slot := c.blk.slot })))) ∧
  (∀ s c on a x b w, Stands s c on → Uniform c .a a x → c.port? .b = some b → someLive on [a, b] = true →
    barWordOf true x = some w → (w.cluster, w.id) ∉ c.group.arrivals → s.barReady c.team w = true →
    c.group.barSpill ≠ some c.blk.head →
    ∃ n, Does .barRed s c none none [.barArrive c.blk.slot w (some n) true] ∧
      (w.op = 0 → n = if (List.range 16).all (fun l => !live on [a, b] l || ((lane b l).getD 0).getLsbD 0) then 1 else 0) ∧
      (w.op = 1 → n = if (List.range 16).any (fun l => live on [a, b] l && ((lane b l).getD 0).getLsbD 0) then 1 else 0) ∧
      (w.op = 2 → n = (((List.range 16).filter (live on [a, b])).map fun l => (lo ((lane b l).getD 0)).toNat).sum)) ∧
  (∀ s c on a x pa, Stands s c on → Uniform c .a a x → someLive on [a] = true → 3 ≤ x.toNat % 8 → x.toNat % 8 ≤ 5 →
    let va : W64 := BitVec.ofNat 64 (x.toNat % 2 ^ 56 / 8 * 8)
    (x.toNat < 2 ^ 56 → Reaches s c .spad .w 8 va pa →
      Does .mbarInval s c none none [.mbarInval c.blk.slot pa] ∧
      (∀ b n, Uniform c .b b n → someLive on [a, b] = true → 0 < n.toNat → n.toNat < 2 ^ 24 →
        Does .mbarInit s c none none [.mbarInit c.blk.slot pa n.toNat])) ∧
    (x.toNat < 2 ^ 56 → Reaches s c .spad .rw 8 va pa → Does .mbarArrive s c none none [.mbarArrive c.blk.slot pa]) ∧
    (s.spoiled pa 8 = false → Reaches s c .spad .r 8 va pa →
      (x.toNat < 2 ^ 56 → ∃ v, Does .mbarTest s c (some v) (some v) [] ∧
        IsVal v true (live on [a]) fun _ => BitVec.ofNat 64 (s.readNat 0 pa 8)) ∧
      (2 ^ 63 ≤ s.readNat 0 pa 8 → s.readNat 0 pa 8 / 2 ^ 48 % 2 ^ 8 ≠ x.toNat / 2 ^ 56 → Does .mbarWait s c none none []) ∧
      (2 ^ 63 ≤ s.readNat 0 pa 8 → s.readNat 0 pa 8 / 2 ^ 48 % 2 ^ 8 = x.toNat / 2 ^ 56 →
        exec .mbarWait s = .next (s.waitOn c (.mbar pa (x.toNat / 2 ^ 56))))))

/-- R244, R245: `mbar.init` writes a word with both counts, phase 0 and valid; an arrival takes one from pending, and the last one starts
the next phase with pending as expected. -/
def Sys2Proof.Claims.BarrierWordsCountArrivals : Prop :=
  (∀ n, n < 2 ^ 24 → bitsOf (mbarInitWord n) 0 24 = n ∧ bitsOf (mbarInitWord n) 24 24 = n ∧ bitsOf (mbarInitWord n) 48 8 = 0 ∧
    bitsOf (mbarInitWord n) 63 1 = 1) ∧
  (∀ w, w < 2 ^ 64 → bitsOf w 63 1 = 1 →
    bitsOf (mbarArriveWord w) 24 24 = bitsOf w 24 24 ∧ bitsOf (mbarArriveWord w) 63 1 = 1 ∧
    (2 ≤ bitsOf w 0 24 → bitsOf (mbarArriveWord w) 0 24 = bitsOf w 0 24 - 1 ∧ bitsOf (mbarArriveWord w) 48 8 = bitsOf w 48 8) ∧
    (bitsOf w 0 24 ≤ 1 → bitsOf (mbarArriveWord w) 0 24 = bitsOf w 24 24 ∧
      bitsOf (mbarArriveWord w) 48 8 = (bitsOf w 48 8 + 1) % 256)) ∧
  (∀ w, bitsOf w 63 1 = 0 → mbarArriveWord w = w)

/-- R246: `mcast` fires once its members are named within the cluster and its lanes reach their offsets, and leaves to the commit the
store of each lane to each named member. -/
def Sys2Proof.Claims.MulticastFires : Prop :=
  ∀ s c on a b d m addr, Stands s c on → c.port? .a = some a → c.port? .b = some b → Uniform c .c d m → m.toNat < 2 ^ 12 →
    (m.toNat < 2 ^ (c.team.cw * c.team.ch) →
      AllReach s c .shared .w 4 (live on [a, b, d]) a addr →
      Does .mcast s c none none [.mcast c.blk.slot m.toNat
        (parts (live on [a, b, d]) addr (fun l => (lane b l).getD 0) fun _ => 0)]) ∧
    (m.toNat < 2 ^ (c.team.cw * c.team.ch) → LanesFault .mcast s c .shared .w 4 (live on [a, b, d]) a) ∧
    (2 ^ (c.team.cw * c.team.ch) ≤ m.toNat →
      exec .mcast s = .next (s.takeFault c.t c.g c.blk.head { code := .mcastRange, slot := c.blk.slot }))

namespace Sys2Proof.Claims
open Sys2Proof.Machine

/-! ### Copies, streams and queues -/

/-- The object of `words` 64-bit words at a scratchpad address, as an instruction reads it at fire (R231, R248). -/
def ReadsObject (s : State) (c : Ctx) (va : W64) (words : Nat) (ws : RecWords) : Prop :=
  ∃ pa, Reaches s c .spad .r 1 va pa ∧ s.spoiled pa (8 * words) = false ∧ ws = s.readWords 0 pa words

/-- An access record that the checks of R252 pass. -/
def ReadsRecord (s : State) (c : Ctx) (va : W64) (ws : RecWords) : Prop :=
  ReadsObject s c va 8 ws ∧ Rec.check ws c.team.sharedSize = none

/-- The queue at a virtual address: it translates with the permission, and the queue is enabled (R268). -/
def NamesQueue (s : State) (c : Ctx) (need : Perm) (aligned : Bool) (va : W64) (q : Nat) : Prop :=
  ∃ p o, s.translate c.team.asid c.sup need Window.isQueue va = .ok p ∧ windowOf p.pa = .queue q o ∧
    (aligned = true → va.toNat % 4096 = 0) ∧ (s.queue q).enable = true

/-- The places of the entries of a queue that no block has reserved. -/
def freeEntries (Q : Queue) : List Nat :=
  (List.range Q.entries.length).filter fun i => match Q.entries[i]? with | some e => e.held.isNone | none => false

end Sys2Proof.Claims

/-- R255, R258 to R260: `cpy` and `cpy.lr` read and check their records, and leave a copy to the commit. `cpy.batch` delivers the number
of the batch that it closes. `cpy.wait` goes on once every member of the group's batches up to its operand is complete and none of them
has a length fault; it waits while one is not complete, and raises BAD_HANDLE for a batch that is not closed. -/
def Sys2Proof.Claims.CopiesAndBatchesFire : Prop :=
  ∀ s c on, Stands s c on →
    (∀ a x src dst strict, Uniform c .a a x → someLive on [a] = true → x.toNat % 64 = 0 → x.toNat < 2 ^ 56 →
      ReadsRecord s c x src → ReadsRecord s c (x + 64) dst →
      copyPairOk (recOf src) (recOf dst) (match s.sideWindow c.agent (recOf src) .r with
        | some .hbm => true | none => (recOf src).space == 0 | _ => false) = true →
      Does (.cpy strict) s c none none [.copy c.blk.slot (.copy src dst strict)
        (s.sideTraffic c.agent (recOf src) .r + s.sideTraffic c.agent (recOf dst) .w)]) ∧
    (∀ a x ws strict, Uniform c .a a x → someLive on [a] = true → x.toNat % 64 = 0 → x.toNat < 2 ^ 56 →
      ReadsObject s c x 8 ws → LayoutRec.check ws c.team.sharedSize = none →
      let r := layoutRecOf ws
      Does (.cpyLr strict) s c none none [.copy c.blk.slot (.layout ws)
        (((r.wy + 1) * (r.wx + 1) * r.c * typeWidth r.type + 511) / 512)]) ∧
    (∃ v, IsVal v true (laneBit on) (fun _ => BitVec.ofNat 64
        (c.group.batches + (c.blk.effects.filter fun | .batch _ => true | _ => false).length + 1)) ∧
      Does .cpyBatch s c (some v) (some v) (if on = 0 then [] else [.batch c.blk.slot])) ∧
    (∀ a n, Uniform c .a a n → someLive on [a] = true → n.toNat ≤ c.group.batches →
      ((∀ m, m ∈ c.team.members → m.1 = c.g → n.toNat < m.2.1) → (∀ m, m ∈ c.team.strictFaults → m.1 = c.g → n.toNat < m.2.1) →
        Does .cpyWait s c none none []) ∧
      ((∃ m, m ∈ c.team.members ∧ m.1 = c.g ∧ m.2.1 ≤ n.toNat) → exec .cpyWait s = .next (s.waitOn c (.batch n.toNat)))) ∧
    (∀ a n, Uniform c .a a n → c.group.batches < n.toNat →
      exec .cpyWait s = .next (s.takeFault c.t c.g c.blk.head { code := .badHandle, slot := c.blk.slot }))

/-- R262 to R264: `bind` and `unbind` leave the change of the binding to the commit, `sbind` the start of a stream; `sstat` delivers the
status word of a stream slot. Binding a bound eyelet raises BAD_HANDLE, as does removing none. -/
def Sys2Proof.Claims.BindingsAndStreamsFire : Prop :=
  ∀ s c on, Stands s c on →
    (∀ e a x, Uniform c .a a x → someLive on [a] = true → PMap.get? c.group.eyelets e.toNat = none →
      (x.toNat < 2 ^ 8 ∧ s.eyeletOn c.team.core x.toNat = false ∧ s.handlerOn c.team.core x.toNat = false ∨
        x.getLsbD 8 = true ∧ x.toNat < 2 ^ 35 ∧ x.toNat / 2 ^ 13 % 2 ^ 4 ≤ 11) →
      Does (.bind e) s c none none [.bind c.blk.slot e.toNat x]) ∧
    (∀ e a x y, Uniform c .a a x → PMap.get? c.group.eyelets e.toNat = some y →
      exec (.bind e) s = .next (s.takeFault c.t c.g c.blk.head { code := .badHandle, slot := c.blk.slot })) ∧
    (∀ e y, PMap.get? c.group.eyelets e.toNat = some y →
      Does (.unbind e) s c none none (if on = 0 then [] else [.unbind c.blk.slot e.toNat])) ∧
    (∀ e, PMap.get? c.group.eyelets e.toNat = none →
      exec (.unbind e) s = .next (s.takeFault c.t c.g c.blk.head { code := .badHandle, slot := c.blk.slot })) ∧
    (∀ a b x n ws, Uniform c .a a x → Uniform c .b b n → someLive on [a, b] = true → x.toNat / 2 % 32 = 0 → x.toNat < 2 ^ 56 →
      n.toNat < 8 → ReadsRecord s c (x &&& ~~~1) ws → streamRecOk (recOf ws) (x.getLsbD 0) = true →
      (PMap.getD c.team.streams n.toNat {}).running = false →
      (x.getLsbD 0 = true → s.eyeletOn c.team.core ((recOf ws).dest % 256) = false) →
      Does .sbind s c none none [.sbind c.blk.slot n.toNat (x.getLsbD 0) ws
        (s.sideTraffic c.agent (recOf ws) (if x.getLsbD 0 then .w else .r))]) ∧
    (∀ a n, Uniform c .a a n → n.toNat < 8 →
      let x := PMap.getD c.team.streams n.toNat {}
      ∃ v, Does .sstat s c (some v) (some v) [] ∧
        IsVal v true (live on [a]) fun _ => BitVec.ofNat 64 (x.state + 4 * x.code + 32 * min x.elements (2 ^ 32 - 1)))

/-- R267, R268, R384: `enq` leaves one token to the commit, with the operand's lanes as elements and the tag in a[11:0]. `deq` reserves the
oldest entry that no block has reserved and `steal` the newest; both deliver its lanes, and its tag and valid mask above bit 0, which tells
of an empty queue. `qdepth` counts the entries that are not reserved, `qwait` goes on when there is one, and `notify` leaves its value to
the commit. -/
def Sys2Proof.Claims.QueueInstructionsFire : Prop :=
  ∀ s c on a x q, Stands s c on → Uniform c .a a x → someLive on [a] = true →
    (∀ b, NamesQueue s c .w false x q → c.port? .b = some b → someLive on [a, b] = true →
      ∃ tok, Does .enqInstr s c none none [.enq c.blk.slot q tok] ∧ tok.kind = .data ∧ tok.tag.toNat = x.toNat % 2 ^ 12 ∧
        tok.damaged = false ∧ ∀ l, l < 16 → laneBit tok.valid l = live on [a, b] l ∧
          (live on [a, b] l = true → tok.data[l]? = (lane b l).map lo)) ∧
    (∀ i newest, (i = Instr.deqInstr ∧ newest = false) ∨ (i = Instr.stealInstr ∧ newest = true) → NamesQueue s c .rw true x q →
      (∀ n e, (if newest then (freeEntries (s.queue q)).getLast? else (freeEntries (s.queue q)).head?) = some n →
        (s.queue q).entries[n]? = some e → e.tok.damaged = false →
        ∃ v0 v1, exec i s = .next ((s.modQueue q fun Q =>
            { Q with entries := modifyAt Q.entries n fun e => { e with held := some (c.t, c.g, c.blk.slot) } }).complete
              c (some v0) (some v1) [.deq c.blk.slot q newest]) ∧
          IsVal v0 false (fun l => live on [a] l && (e.tok.kind == .data) && laneBit e.tok.valid l) (fun l => up (e.tok.data.getD l 0)) ∧
          IsVal v1 true (live on [a]) fun _ => BitVec.ofNat 64 (2 * e.tok.tag.toNat + 2 ^ 17 * e.tok.valid.toNat)) ∧
      (freeEntries (s.queue q) = [] →
        ∃ v0 v1, Does i s c (some v0) (some v1) [] ∧ (∀ l, lane v0 l = none) ∧ IsVal v1 true (live on [a]) fun _ => 1)) ∧
    (NamesQueue s c .r true x q →
      (∃ v, Does .qdepth s c (some v) (some v) [] ∧
        IsVal v true (live on [a]) fun _ => BitVec.ofNat 64 (freeEntries (s.queue q)).length) ∧
      (freeEntries (s.queue q) ≠ [] → Does .qwait s c none none [.qwaited c.blk.slot q]) ∧
      (freeEntries (s.queue q) = [] → PMap.get? c.group.kept q = none → exec .qwait s = .next (s.waitOn c (.queueWait q)))) ∧
    (∀ b y p, s.translate c.team.asid c.sup .w (fun w => match w with | .queue _ _ | .notify _ _ _ => true | _ => false) x = .ok p →
      windowOf p.pa = .queue q 0x0C0 → (s.queue q).enable = true → Uniform c .b b y → someLive on [a, b] = true →
      Does .notifyInstr s c none none [.notify c.blk.slot p.pa y])

/-- R267, R268: an enqueued token, unless its link damages it, stands last in its queue; a popped entry leaves the queue with the others in their order; a NOTIFY write
keeps its value and counts. -/
def Sys2Proof.Claims.QueueEffectsKeepTheOrder : Prop :=
  ∀ (s : State) q,
    (∀ tok, Config.linkError s.tick ≠ .beyond → ((s.enqueue q tok).queue q).entries = (s.queue q).entries ++ [⟨tok, none, s.clk (dieOf (s.queue q).core)⟩]) ∧
    (∀ t g slot steal before e after, (s.queue q).entries = before ++ e :: after → e.held = some (t, g, slot) →
      (∀ b, b ∈ before → b.held ≠ some (t, g, slot)) → ((s.doDeq t g slot q steal).queue q).entries = before ++ after) ∧
    (∀ v, ((s.doNotify q v).queue q).notifyVal = v ∧ ((s.doNotify q v).queue q).notifies = (s.queue q).notifies + 1 ∧
      ((s.doNotify q v).queue q).entries = (s.queue q).entries) ∧
    (∀ tok r, r ≠ q → (s.enqueue q tok).queue r = s.queue r)

/-- R270: `bpenc` delivers the planes of its operand, and their mask with the mask of the valid lanes; `bpdec` the values that planes
hold, which for planes without a null lane are the ones that were coded. -/
def Sys2Proof.Claims.BitPlanesRoundTrip : Prop :=
  (∀ s c on a, Stands s c on → c.port? .a = some a →
    let words := (List.range 16).map fun l => if laneBit on l then (lane a l).map lo else none
    (∃ v0 v1, Does .bpenc s c (some v0) (some v1) [] ∧
      IsVal v0 false (live on [a]) (fun l => up ((planesOf words).1.getD l 0)) ∧
      IsVal v1 true (laneBit on) fun _ => (maskOf (live on [a])).setWidth 32 ++ (planesOf words).2) ∧
    (∃ v, Does .bpdec s c (some v) (some v) [] ∧ IsVal v false (live on [a]) fun l => up ((planesBack words).getD l 0))) ∧
  (∀ xs : List W32, xs.length = 16 → planesBack ((planesOf (xs.map some)).1.map some) = xs)

namespace Sys2Proof.Claims
open Sys2Proof.Machine

/-! ### Matrix instructions -/

/-- The families of `mma`: opcode, n, whether the operand must be scaled or not, and the extension field of R79. -/
def products : Instr → Option (Nat × Nat × Option Bool × Nat)
  | .mmaF16 k => some (0x191, k.n.toNat, some false, k.n.toNat + (if k.va then 8 else 0) + if k.vb then 16 else 0)
  | .mmaF8 k => some (0x197, k.n.toNat, none, k.n.toNat + (if k.va then 8 else 0) + if k.vb then 16 else 0)
  | .mmaE2m1 n => some (0x198, n.toNat, some true, n.toNat)
  | .mmaI8 n => some (0x199, n.toNat, some false, n.toNat)
  | _ => none

/-- The command that an instruction leaves to the commit, with its privilege and its group. -/
def Queues (i : Instr) (s : State) (c : Ctx) (x : MatCmd) : Prop :=
  Does i s c none none [.matrix c.blk.slot { x with sup := c.sup, group := c.g }]

/-- The command's fills and consumes keep their turn after those of the block's earlier commands (R155). -/
def InTurn (c : Ctx) (M : Matrix) (x : MatCmd) : Prop :=
  (c.claimAhead M).1.inTurn ((c.claimAhead M).1.eastAhead (c.claimAhead M).2) x = true

end Sys2Proof.Claims

/-- R153, R156 to R158, R164, R165, R170: with a claim, a matrix instruction checks its operand and leaves its command to the commit; without
one it raises BAD_HANDLE. `mrd` delivers the elements of a tile row once no command on the tile is under way that the team had enqueued when
it first fired, and waits until then. -/
def Sys2Proof.Claims.MatrixCommandsFire : Prop :=
  (∀ s c M on a x, Stands s c on → c.team.matrix = some M → Uniform c .a a x → someLive on [a] = true →
    (∀ i op n scaled ext, products i = some (op, n, scaled, ext) → x.toNat < 2 ^ 11 → x.toNat % 4 < M.tiles → x.toNat / 8 % 8 < M.depthA →
      (x.toNat / 64 % 8 < M.depthB ∨ x.getLsbD 10 = true ∧ (c.claimAhead M).1.eastAhead (c.claimAhead M).2 = true) →
      (∀ b, scaled = some b → x.getLsbD 9 = b) → (3 ≤ n → 2 ^ (n - 3) ≤ M.depthA ∧ 2 ^ (n - 3) ≤ M.depthB) →
      InTurn c M { op := op, a := x, ext := ext } → Queues i s c { op := op, a := x, ext := ext }) ∧
    (∀ i op strict ws, (i = Instr.mld strict ∧ op = 0x18F ∧ x.getLsbD 5 = false ∧
          x.toNat / 2 % 8 < (if x.getLsbD 0 then M.depthB else M.depthA)) ∨
        (i = .mst strict ∧ op = 0x190 ∧ x.toNat / 4 % 16 = 0 ∧ x.toNat % 4 < M.tiles) →
      let need : Perm := if op = 0x18F then .r else .w
      let cmd : MatCmd := { op := op, a := x, record := ws, traffic := s.sideTraffic c.agent (recOf ws) need }
      x.toNat < 2 ^ 56 → ReadsRecord s c (BitVec.ofNat 64 (x.toNat / 64 * 64)) ws →
      transferRecFault op x.toNat strict (recOf ws) (match s.sideWindow c.agent (recOf ws) need with
        | some .hbm => true | none => (recOf ws).space == 0 | _ => false) = none →
      InTurn c M cmd → Queues i s c cmd) ∧
    (x.toNat < 4 → x.toNat < M.tiles → Queues .mzero s c { op := 0x192, a := x }) ∧
    (x = 1 → Queues .mpairEast s c { op := 0x193, a := x }) ∧
    (x = 2 → Queues .mpairWest s c { op := 0x193, a := x }) ∧
    (x = 3 → Queues .mpairDissolve s c { op := 0x193, a := x }) ∧
    (x.toNat < 2 ^ 12 → x.toNat % 4 < M.tiles →
      let last := (PMap.get? c.blk.mrds c.blk.slot).getD c.team.cmdSeq
      ((∀ y, y ∈ M.queue → y.tile? = some (x.toNat % 4) → last < y.seq) →
        ∃ v, Does .mrd s c (some v) (some v) [] ∧ IsVal v false (live on [a]) fun l =>
          up (PMap.getD M.acc (16384 * (x.toNat % 4) + 128 * (x.toNat / 4 % 128) + 16 * (x.toNat / 512 % 8) + l) 0)) ∧
      ((∃ y, y ∈ M.queue ∧ y.tile? = some (x.toNat % 4) ∧ y.seq ≤ last) →
        exec .mrd s = .next ((s.modFlight c.t c.g fun F => { F with mrds := PMap.insert F.mrds c.blk.slot last }).waitOn c .matrix)) ∧
      (∀ b, c.port? .b = some b → someLive on [a, b] = true →
        Queues .mwr s c { op := 0x1A3, a := x
                          vals := (List.range 16).map fun l => if live on [a, b] l then (lane b l).map lo else none })) ∧
    (x = 0 → M.busy = false → Does .seqGo s c none none [.seqGo c.blk.slot])) ∧
  (∀ s c on i, Stands s c on → c.team.matrix = none →
    i ∈ [Instr.mzero, .mpairEast, .mpairWest, .mpairDissolve, .mrd, .mwr, .seqGo, .mld true, .mld false, .mst true, .mst false] ∨
        (∃ p, products i = some p) →
    exec i s = .next (s.takeFault c.t c.g c.blk.head { code := .badHandle, slot := c.blk.slot }))

/-- R166 to R168, R172: `seq.cfg` reads its image and leaves the claim to the commit; `mchk` delivers the status of the engine and leaves
the clearing of its counts to the commit where it is asked for. (That the pair field tells of the pair while a request is pending too is the
model's choice, log entry 140.) -/
def Sys2Proof.Claims.SequencerInstructionsFire : Prop :=
  ∀ s c on a x, Stands s c on → Uniform c .a a x → someLive on [a] = true →
    (∀ h cs, x.toNat % 64 = 0 → x.toNat < 2 ^ 56 → ReadsObject s c x 8 h → fieldOf h 11 5 = cs.length → cs.length ≤ 16 →
      (∀ i, i < cs.length → ReadsObject s c (x + BitVec.ofNat 64 (64 + 32 * i)) 4 (cs.getD i [])) → imageRefused h cs = false →
      fieldOf h 64 56 = 0 → Does .seqCfg s c none none [.seqCfg c.blk.slot (h ++ cs.flatten) none]) ∧
    (∀ h cs p, x.toNat % 64 = 0 → x.toNat < 2 ^ 56 → ReadsObject s c x 8 h → fieldOf h 11 5 = cs.length → cs.length ≤ 16 →
      (∀ i, i < cs.length → ReadsObject s c (x + BitVec.ofNat 64 (64 + 32 * i)) 4 (cs.getD i [])) → imageRefused h cs = false →
      fieldOf h 64 56 ≠ 0 →
      s.translate c.team.asid c.sup .rw Window.isScratchpad (BitVec.ofNat 64 (fieldOf h 64 56)) = .ok p →
      Does .seqCfg s c none none [.seqCfg c.blk.slot (h ++ cs.flatten) (some p.pa)]) ∧
    (x.toNat < 2 →
      ∃ v, Does .mchk s c (some v) (some v) (if x = 0 then [] else [.mchk c.blk.slot]) ∧
        IsVal v true (live on [a]) fun _ => BitVec.ofNat 64 (match c.team.matrix with
          | none => 0
          | some M => M.reruns + 2 ^ 8 * (M.queue.length % 32) + 2 ^ 13 * (if M.busy then 1 else 0)
            + 2 ^ 14 * (match M.pair, M.ask with
              | some (_, east), _ => if east then 1 else 2
              | none, some _ => 3
              | none, none => 0)
            + 2 ^ 16 * (if M.timeout then 1 else 0) + 2 ^ 17 * M.tiles))

/-- R153, R156, R165, R168, R169, R172 at the commit: a claim replaces the team's; a command goes to the end of its queue under the next
number; `seq.go` gives the root controller an enable token; `mchk` clears the rerun count and the timeout bit. That a new claim has no pair is
the model's choice (log entry 118). -/
def Sys2Proof.Claims.MatrixEffects : Prop :=
  ∀ (s : State) t T, s.team? t = some T →
    (∀ image done, ∃ M, (s.doSeqCfg t image done).team? t = some { T with matrix := some M } ∧ M.tiles = fieldOf image 0 3 ∧
      M.depthA = fieldOf image 3 4 ∧ M.depthB = fieldOf image 7 4 ∧ M.root = fieldOf image 16 4 ∧ M.done = done ∧
      M.controllers.length = fieldOf image 11 5 ∧ M.queue = [] ∧ M.busy = false ∧ M.pair = none ∧
      M.reruns = (T.matrix.map (·.reruns)).getD 0 ∧ M.timeout = (T.matrix.map (·.timeout)).getD false) ∧
    (∀ M g x, T.matrix = some M → ∃ N T', (s.doMatrix t g x).team? t = some T' ∧ T'.matrix = some N ∧ T'.cmdSeq = T.cmdSeq + 1 ∧
      ∃ y, N.queue = M.queue ++ [y] ∧ y.op = x.op ∧ y.a = x.a ∧ y.seq = T.cmdSeq + 1 ∧ N.tiles = M.tiles ∧ N.acc = M.acc) ∧
    (∀ M, T.matrix = some M →
      (s.doMchk t).team? t = some { T with matrix := some { M with reruns := 0, timeout := false } }) ∧
    (∀ M k, T.matrix = some M → M.controllers[M.root]? = some k →
      ∃ N, (s.doSeqGo t).team? t = some { T with matrix := some N } ∧ N.busy = true ∧
        N.controllers[M.root]? = some { k with enables := k.enables + 1 } ∧ N.queue = M.queue)

namespace Sys2Proof.Claims
open Sys2Proof.Machine

/-! ### Tape, tasks and budgets -/

/-- The status of a tape for a group, less the count of records (R207). -/
def tapeStatus (T : Tape) (g : Nat) : Nat :=
  (match T.mode with | .idle => 0 | .recording => 1 | .closed => 2 | .reversing => 3)
    + 4 * (if T.policy then 1 else 0) + 8 * (if T.marker then 1 else 0)
    + 16 * (if T.mode = .reversing ∧ T.marker = true ∧ g ∉ T.told then 1 else 0) + 2 ^ 5 * (T.used % 2 ^ 16)

/-- The lanes of a value as 32-bit elements, null where the mask has no lane. -/
def elements (on : Nat → Bool) (a : Val) : List (Option W32) := (List.range 16).map fun l => if on l then (lane a l).map lo else none

/-- A join record whose halves translate for reading and writing (R380). -/
def NamesJoin (s : State) (c : Ctx) (va : W64) (low high : Phys) : Prop :=
  s.joinRecord c.team.asid c.sup va = .ok (low, high)

end Sys2Proof.Claims

/-- R196, R201 to R207: the tape instructions. `tape.open`, `tape.close`, `tape.rec`, `tape.rev` and `tape.seg` check the state of the tape and
leave their effect to the commit. A pop delivers status 4 outside reverse, 1 once for a marker, 2 at the beginning of the records, and else
the next record of the group's chain: `tape.pop` its lanes, and `tape.brpop` the lanes that took each exit. `tape.stat` tells the state of
the tape. -/
def Obligations.TapeInstructionsFire : Prop :=
  ∀ s c on, Stands s c on →
    let T := c.team.tape
    (∀ a x, Uniform c .a a x → someLive on [a] = true →
      (x.toNat % 2 ^ 21 = 0 → T.mode ≠ .recording → T.quota ≠ 0 → Does .tapeOpen s c none none [.tapeOpen c.blk.slot x]) ∧
      (x.toNat % 2 ^ 21 ≠ 0 → exec .tapeOpen s = .next (s.takeFault c.t c.g c.blk.head { code := .align, slot := c.blk.slot, addr := x })) ∧
      (x.toNat ≠ 0 → T.quota + x.toNat ≤ 65535 → Does .tapeSeg s c none none [.tapeSeg c.blk.slot x.toNat]) ∧
      (x = 0 → T.mode = .closed ∨ T.mode = .reversing → T.stalled = none →
        Does .tapeRev s c none none [.tapeRev c.blk.slot true T.base T.finish T.trailer T.marker T.used T.stored]) ∧
      (∀ finish prevs marker used, x ≠ 0 → x.toNat % 2 ^ 21 = 0 → T.mode ≠ .recording → T.stalled = none →
        s.tapeInfo c.team x = .ok (some (finish, prevs, marker, used)) →
        Does .tapeRev s c none none [.tapeRev c.blk.slot false x finish prevs marker used 0])) ∧
    Does .tapeClose s c none none (if on = 0 then [] else [.tapeClose c.blk.slot]) ∧
    (∀ a, c.port? .a = some a → someLive on [a] = true →
      Does .tapeRec s c none none [.tapeRec c.blk.slot (elements (laneBit on) a)]) ∧
    (∀ i kind, (i = Instr.tapePop ∧ kind = 1) ∨ (i = Instr.tapeBrpop ∧ kind = 3) → on ≠ 0 →
      let tells := fun (n : Nat) (es : List Effect) => ∃ v0 v1, Does i s c (some v0) (some v1) es ∧ (∀ l, lane v0 l = none) ∧
        IsVal v1 true (laneBit on) fun _ => BitVec.ofNat 64 n
      (T.mode ≠ .reversing → tells 4 []) ∧
      (T.mode = .reversing → T.stalled = none → T.marker = true → c.g ∉ T.told → tells 1 [.tapePop c.blk.slot none]) ∧
      (T.mode = .reversing → T.stalled = none → (T.marker = true → c.g ∈ T.told) →
        (∀ n, s.tapePop c.team T.base c.g kind c.tapeCursor.1.1 c.tapeCursor.1.2 = .ok (.status n) → tells n []) ∧
        (∀ units pos taken low, s.tapePop c.team T.base c.g kind c.tapeCursor.1.1 c.tapeCursor.1.2 = .ok (.body units pos taken low) →
          ∃ v0 v1, IsVal v1 true (laneBit on) (fun _ => 0) ∧
            (kind = 1 → Does i s c (some v0) (some v1)
                [.tapePop c.blk.slot (some (pos, taken, (decodeBack c.tapeCursor.2 units).2, low))] ∧
              IsVal v0 false (fun l => laneBit on l && ((((decodeBack c.tapeCursor.2 units).1)[l]?).join).isSome)
                fun l => up (((((decodeBack c.tapeCursor.2 units).1)[l]?).join).getD 0)) ∧
            (kind = 3 → Does i s c (some v0) (some v1) [.tapePop c.blk.slot (some (pos, taken, c.tapeCursor.2, low))] ∧
              ∃ x : W64, IsVal v0 true (laneBit on) (fun _ => x) ∧ ∀ e l, e < 4 → l < 16 → x.getLsbD (16 * e + l) =
                (laneBit (units.getD 0 0) l && (laneBit (units.getD 1 0) l == e.testBit 0) &&
                  (laneBit (units.getD 2 0) l == e.testBit 1)))))) ∧
    (∀ n, (T.mode = .idle ∧ T.stalled = none ∧ n = 0) ∨
        ((T.mode = .recording ∨ T.mode = .closed) ∧ T.uncounted = false ∧ n = T.stored) ∨
        ((T.mode = .recording ∨ T.mode = .closed) ∧ T.uncounted = true ∧ on ≠ 0 ∧ T.stalled = none ∧
          s.tapeCount c.team T.base none (T.finish + 1) T.finish = .ok n) ∨
        (∃ pos taken m, T.mode = .reversing ∧ on ≠ 0 ∧ T.stalled = none ∧ PMap.getD T.cursors c.g (T.finish, 0) = (pos, taken) ∧
          s.tapeCount c.team T.base (some c.g) (pos + 1) pos = .ok m ∧ n = m - taken) →
      ∃ v, Does .tapeStat s c (some v) (some v) [] ∧
        IsVal v true (laneBit on) fun _ => BitVec.ofNat 64 (tapeStatus T c.g + 2 ^ 21 * (n % 2 ^ 43)))

/-- R188, R196: a value record decoded back from the chain's value after it gives the lanes that were recorded, with the chain's value
before them; decoded forward from that value it gives the same lanes and the value after them (R271). -/
def Sys2Proof.Claims.ValueRecordsReadBack : Prop :=
  ∀ (prev : W32) (x : List (Option W32)), x.length = 16 →
    decodeBack (valueBody prev x).2 (valueBody prev x).1 = (x, prev) ∧
    decodeForward prev (valueBody prev x).1 = (x, (valueBody prev x).2) ∧
    (valueBody prev x).1.length ≤ 35 ∧ 3 ≤ (valueBody prev x).1.length

/-- R378, R382, R383, R385 to R389: the task instructions check their operands and leave their effect to the commit; `bud.get` delivers IBUD
and TBUD: without a guard, which lets it fire at the start of the block, as they were there after the fetch's charge; with one, as they are
(R38). A tenant whose team may not top up receives PRIV from `bud.add`. -/
def Sys2Proof.Claims.TaskInstructionsFire : Prop :=
  ∀ s c on, Stands s c on →
    (∃ v0 v1 ib tb, Does .budGet s c (some v0) (some v1) [] ∧ IsVal v0 true (laneBit on) (fun _ => BitVec.ofNat 64 ib) ∧
      IsVal v1 true (laneBit on) (fun _ => BitVec.ofNat 64 tb) ∧ (c.node.guard ≠ .always → ib = c.team.ibud ∧ tb = c.team.tbud) ∧
      (c.node.guard = .always → ib = (PMap.getD c.blk.regs (ctlNumber .ibud) 0).toNat - c.blk.paid ∧
        tb = (PMap.getD c.blk.regs (ctlNumber .tbud) 0).toNat)) ∧
    (∀ a x, Uniform c .a a x → someLive on [a] = true →
      (x.toNat % 16 = 0 → x.toNat < 2 ^ 56 → Does .cont s c none none [.cont c.blk.slot x]) ∧
      (∀ low high keep, NamesJoin s c (BitVec.ofNat 64 (x.toNat / 64 * 64)) low high → x.toNat < 2 ^ 56 → x.toNat % 64 = (if keep then 1 else 0) →
        s.spoiled low.pa 64 = false → s.spoiled high.pa 64 = false → (keep = false → c.retireRecorded = false) →
        Does (if keep then .retireKeep1 else .retireKeep0) s c none none
          [.retire c.blk.slot keep (BitVec.ofNat 64 (x.toNat / 64 * 64))]) ∧
      (∀ b ws q, c.port? .b = some b → someLive on [a, b] = true → ReadsObject s c x 8 ws → x.toNat % 64 = 0 →
        fieldOf ws 56 8 = 0 → fieldOf ws 120 8 = 0 → fieldOf ws 145 47 = 0 → fieldOf ws 352 160 = 0 → fieldOf ws 0 56 % 4096 = 0 →
        NamesQueue s c .w true (BitVec.ofNat 64 (fieldOf ws 0 56)) q → fieldOf ws 64 6 = 0 →
        (fieldOf ws 144 1 = 1 → c.team.topup = true) →
        Does .spawn s c none none [.spawn c.blk.slot q ws
          (((List.range 16).filter (live on [a, b])).map fun l => (l, (lane b l).getD 0))]) ∧
      (∀ b y, Uniform c .b b y → someLive on [a, b] = true →
        (x.toNat < 2 ^ 48 → y.toNat < 2 ^ 48 → Does .budGive s c none none [.give c.blk.slot x.toNat y.toNat]) ∧
        (∀ low high, NamesJoin s c x low high → x.toNat % 64 = 0 → y ≠ 0 →
          Does .jcntInit s c none none [.jcntInit c.blk.slot low.pa low.key y]) ∧
        (c.sup = true ∨ c.team.topup = true ∧ (c.budTarget s x).foreign c.team.asid = false → x.toNat / 2 ^ 32 % 2 ^ 30 = 0 →
          c.budTarget s x ≠ .none_ → Does .budAdd s c none none [.budAdd c.blk.slot x y]) ∧
        (c.sup = false → c.team.topup = false →
          exec .budAdd s = .next (s.takeFault c.t c.g c.blk.head { code := .priv, slot := c.blk.slot }))))

/-- R378, R384, R386, R389 at the commit: a task token carries its argument, the descriptor's address, mark and words and both grants; a
stolen task adds its grants to the thief's budgets, at most 2^48 − 1; `bud.add` adds to the budgets of the team that it names. -/
def Sys2Proof.Claims.BudgetsMoveWithTasks : Prop :=
  (∀ desc lane (arg : W64) ib tb, lane < 16 → ib < 2 ^ 48 → tb < 2 ^ 48 →
    let d := (taskToken desc lane arg ib tb).data
    d.length = 16 ∧ (taskToken desc lane arg ib tb).valid = 0xFFFF ∧ grantsOf (taskToken desc lane arg ib tb) = some (ib, tb) ∧
    (d.getD 1 0 ++ d.getD 0 0 : W64) = arg ∧ (d.getD 3 0 ++ d.getD 2 0 : W64) = BitVec.ofNat 64 (fieldOf desc 64 56) ∧
    (d.getD 4 0).getLsbD 31 = true ∧ (d.getD 4 0).toNat % 2 ^ 8 = lane) ∧
  (∀ (s : State) t T g slot q before e after ib tb, s.team? t = some T → (s.queue q).entries = before ++ e :: after →
    e.held = some (t, g, slot) → (∀ b, b ∈ before → b.held ≠ some (t, g, slot)) → grantsOf e.tok = some (ib, tb) →
    (s.doDeq t g slot q true).team? t =
      some { T with ibud := min (T.ibud + ib) (2 ^ 48 - 1), tbud := min (T.tbud + tb) (2 ^ 48 - 1) }) ∧
  (∀ (s : State) t T y, s.team? t = some T → T.place = .resident →
    (s.doBudAdd t 0 y).team? t = some { T with
      ibud := min (T.ibud + y.toNat % 2 ^ 32) (2 ^ 48 - 1), tbud := min (T.tbud + y.toNat / 2 ^ 32) (2 ^ 48 - 1) })

namespace Sys2Proof.Claims
open Sys2Proof.Machine

/-! ### Residencies and isolation -/

/-- The word that the descriptor of a launch gives: its fields are zero where they are reserved, and its addresses aligned (R293). -/
def LaunchDescriptor (d : RecWords) : Prop :=
  fieldOf d 59 5 = 0 ∧ fieldOf d 112 16 = 0 ∧ fieldOf d 176 16 = 0 ∧ fieldOf d 248 8 = 0 ∧ fieldOf d 312 8 = 0 ∧ fieldOf d 378 134 = 0 ∧
    fieldOf d 0 56 % 8 = 0 ∧ fieldOf d 192 56 % 8 = 0 ∧ fieldOf d 256 56 % 4096 = 0

/-- The residency waits for a release or a step (R291, R295): its launch is held, or a loader has ended its record and the next image is. -/
def waitsForRelease (R : Residency) : Bool :=
  (R.state == .queued && R.held) ||
    (R.state == .running && !R.lastImage && R.holds.getD (R.image + 1) false &&
      (R.fab.any fun F => F.nodes.any fun x => x.2.role == .loader && !x.2.sent && !x.2.ended && x.2.recordEnded R))

/-- The status word of a residency (R295). -/
def residencyStatus (R : Residency) : Nat :=
  let one := fun (b : Bool) => if b then 1 else 0
  (match R.state with | .queued => 0 | .loading => 1 | .running => 2 | .ended => 3)
    + 2 ^ 2 * one (waitsForRelease R) + 2 ^ 3 * one R.suspended + 2 ^ 4 * one R.error
    + 2 ^ 5 * R.image + 2 ^ 8 * one (match R.next with | some F => F.loaded | none => false) + 2 ^ 16 * R.fbud

/-- The forms of `tlbinv`, `cfg.signal` and `cfg.evict`, with the operation that their operand gives. -/
def invalidations : List (Instr × Nat) := [(.tlbinvAsid, 0), (.tlbinvVa, 1), (.tlbinvAsidEntry, 2), (.tlbinvAll, 3)]
def signals : List (Instr × Nat) :=
  [(.cfgSignalStatus, 0), (.cfgSignalRelease, 1), (.cfgSignalStep, 2), (.cfgSignalStop, 3), (.cfgSignalPriority, 4)]
def evictions : List (Instr × Nat) := [(.cfgEvictDrain, 0), (.cfgEvictKill, 1)]

end Sys2Proof.Claims

/-- R293, R295 to R298: `cfg.launch` reads its descriptor and its list of images and delivers the id that it reserves; `cfg.bind` reads the
image's header, and the record that it binds; `cfg.signal` delivers the status of a residency of its own ASID; `cfg.evict` names any
residency. Each leaves its effect to the commit. -/
def Obligations.ResidencyInstructionsFire : Prop :=
  ∀ s c on a x, Stands s c on → Uniform c .a a x → someLive on [a] = true →
    (∀ b y d images id, Uniform c .b b y → someLive on [a, b] = true → y.toNat < 2 ^ 9 → x.toNat % 64 = 0 → ReadsObject s c x 8 d →
      LaunchDescriptor d → ReadsObject s c (BitVec.ofNat 64 (fieldOf d 0 56)) (fieldOf d 56 3 + 1) images →
      (∀ e, e ∈ images → e.toNat < 2 ^ 57 ∧ e.toNat % 2 ^ 56 % 64 = 0) → (images.headD 0).getLsbD 56 = false →
      (fieldOf d 192 56 ≠ 0 → ∃ p, s.translate c.team.asid c.sup .rw Window.isScratchpad (BitVec.ofNat 64 (fieldOf d 192 56)) = .ok p) →
      (∃ p, s.translate c.team.asid c.sup .rw (fun w => w == .hbm) (BitVec.ofNat 64 (fieldOf d 256 56)) = .ok p) →
      (s.stack (y.toNat % 16)).inService = true → s.newResidencyId (y.toNat % 16) = some id →
      ∃ v, Does .cfgLaunch s c (some v) (some v) [.cfgLaunch c.blk.slot id d images (y.toNat / 16 % 32)] ∧
        IsVal v true (live on [a, b]) fun _ => up id) ∧
    (∀ b y n k R h ws core chan tag, Uniform c .b b y → someLive on [a, b] = true → x.toNat < 2 ^ 41 →
      s.residencyFor c.team.asid (lo x) = some (n, k, R) → R.state ≠ .ended → x.toNat / 2 ^ 38 < R.images.length →
      (R.state = .running → R.image ≠ x.toNat / 2 ^ 38) → c.readHead s (R.images.getD (x.toNat / 2 ^ 38) 0) = .ok h →
      fieldOf h (64 + x.toNat / 2 ^ 32 % 64) 1 = 1 →
      (y.toNat % 4 = 0 ∧ y.toNat / 4 % 16 = 0 ∧ y.toNat < 2 ^ 56 ∧ ReadsRecord s c (BitVec.ofNat 64 (y.toNat / 64 * 64)) ws ∧
          (recOf ws).space = 0 ∨
        bindingOf y [] = some (.channel core chan tag) ∧ ws = [] ∧ fieldOf h (128 + x.toNat / 2 ^ 32 % 64) 1 = 1 ∨
        (∃ id j m n' k' P g, bindingOf y [] = some (.peer id j m) ∧ s.residencyFor c.team.asid id = some (n', k', P) ∧ P.state ≠ .ended ∧
          m < P.images.length ∧ c.readHead s (P.images.getD m 0) = .ok g ∧ fieldOf g (64 + j) 1 = 1 ∧
          (fieldOf g (128 + j) 1 = 1 ↔ ¬ fieldOf h (128 + x.toNat / 2 ^ 32 % 64) 1 = 1)) ∧ ws = [] ∨
        y.toNat % 4 = 3 ∧ y.toNat < 2 ^ 19 ∧ ws = []) →
      Does .cfgBind s c none none [.cfgBind c.blk.slot x y ws]) ∧
    (∀ i op n k R, (i, op) ∈ signals → s.residencyFor c.team.asid (lo x) = some (n, k, R) → x.toNat < 2 ^ 40 → x.toNat / 2 ^ 32 % 8 = op →
      ∃ v, Does i s c (some v) (some v) (if op = 0 then [] else [.cfgSignal c.blk.slot x]) ∧
        IsVal v true (live on [a]) fun _ => BitVec.ofNat 64 (residencyStatus R)) ∧
    (∀ i op p, (i, op) ∈ evictions → s.residencyOf (lo x) = some p → x.toNat < 2 ^ 33 → x.toNat / 2 ^ 32 = op →
      Does i s c none none [.cfgEvict c.blk.slot x])

/-- R297 at the commit: a release, a step, a stop and a priority change exactly their own field of the residency; one that has ended stays
as it is. -/
def Sys2Proof.Claims.SignalsChangeOnlyTheirField : Prop :=
  ∀ (s : State) (x : W64) n k R, s.residencyOf (lo x) = some (n, k) → s.residency? n k = some R →
    (s.doCfgSignal x).residency? n k = some (
      if R.state = .ended then R
      else if x.toNat / 2 ^ 32 % 8 = 1 then { R with held := false }
      else if x.toNat / 2 ^ 32 % 8 = 2 then { R with holds := modifyAt R.holds (R.image + 1) fun _ => false }
      else if x.toNat / 2 ^ 32 % 8 = 3 then { R with stopping := true }
      else if x.toNat / 2 ^ 32 % 8 = 4 then { R with prio := x.toNat / 2 ^ 35 % 32 }
      else R) ∧
    ∀ m j, (m ≠ n ∨ j ≠ k) → (s.doCfgSignal x).residency? m j = s.residency? m j

/-- R420 to R424: the system instructions check their operands and leave their effect to the commit. -/
def Obligations.SystemInstructionsFire : Prop :=
  ∀ s c on a x, Stands s c on → Uniform c .a a x → someLive on [a] = true →
    (x.toNat < 2 ^ 16 → x.setWidth 16 ≠ c.team.asid → (s.asidEntryInTable (x.setWidth 16)).state = .live →
      Does .asidKill s c none none [.asidKill c.blk.slot (x.setWidth 16)]) ∧
    (∀ i mode, (i, mode) ∈ invalidations → x.toNat % 4 = mode → x.toNat < 2 ^ 58 → Does i s c none none [.tlbinv c.blk.slot x]) ∧
    (x ≠ 0 → x.toNat < 2 ^ 12 → s.keyBound x.toNat = true → Does .keydrop s c none none [.keydrop c.blk.slot x.toNat]) ∧
    (x = 0 ∨ 2 ^ 12 ≤ x.toNat ∨ s.keyBound x.toNat = false →
      exec .keydrop s = .next (s.takeFault c.t c.g c.blk.head { code := .badHandle, slot := c.blk.slot })) ∧
    (∀ b y, Uniform c .b b y → someLive on [a, b] = true →
      (x ≠ 0 → x.toNat < 2 ^ 12 → y.toNat < 2 ^ 16 → s.keyBound x.toNat = false →
        Does .keyset s c none none [.keyset c.blk.slot x.toNat (y.setWidth 16)]) ∧
      (x.toNat < 2 ^ 10 →
        (x.toNat / 2 ^ 8 = 0 → y.toNat % 16 ≤ 5 → y.toNat < 2 ^ 59 → Does .monCfgConfigure s c none none [.monCfg c.blk.slot x y]) ∧
        (x.toNat / 2 ^ 8 = 1 → y = 0 → Does .monCfgStop s c none none [.monCfg c.blk.slot x y]) ∧
        (∀ pas, x.toNat / 2 ^ 8 = 2 → y.toNat % 64 = 0 → pas.length = 5 →
          (∀ i, i < 5 → Reaches s c .spad .w 1 (y + BitVec.ofNat 64 (64 * i)) (pas.getD i 0)) →
          Does .monCfgDump s c none none [.monDump c.blk.slot x pas])))

/-- R330, R410, R420, R421 at the commit: `keyset` binds its slot to the tenant with keys never drawn before; `keydrop` leaves it dropped,
and clears the bank rows that the slot owns; every other slot keeps its state. That a row is the slot's by its owner field alone, keyed or
not, and that the drop leaves that field, is the model's choice (log entry 128). -/
def Sys2Proof.Claims.KeySlotsChangeAlone : Prop :=
  ∀ (s : State) k tenant,
    (∃ gen, PMap.get? (s.doKeyset k tenant).keys k = some (.bound tenant gen) ∧ s.draws < gen ∧ (s.doKeyset k tenant).draws = gen) ∧
    PMap.get? (s.doKeydrop k).keys k = some .dropped ∧
    (∀ j, j ≠ k → PMap.get? (s.doKeyset k tenant).keys j = PMap.get? s.keys j ∧
      PMap.get? (s.doKeydrop k).keys j = PMap.get? s.keys j) ∧
    (∀ n S b R, PMap.get? s.hbmStacks n = some S → PMap.get? S.banks b = some R →
      ∃ S', PMap.get? (s.doKeydrop k).hbmStacks n = some S' ∧
        PMap.get? S'.banks b = some (if R.owner = k then { R.cleared with keyed := false } else R))

/-- R422 at the commit: no translation and no ASID entry that the operand covers is left in a cache, and every other one stays. -/
def Sys2Proof.Claims.InvalidationsRemoveWhatTheyName : Prop :=
  ∀ (s : State) (x : W64) (e : TlbEntry) k (E : AsidEntry),
    let asid : W16 := BitVec.ofNat 16 (x.toNat / 4)
    let va := x.toNat / 2 ^ 18 % 2 ^ 40 * 2 ^ 16
    let t := s.doTlbinv x
    (x.toNat % 4 = 0 → (e ∈ t.tlb ↔ e ∈ s.tlb ∧ e.asid ≠ asid) ∧ ((k, E) ∈ t.asidCache ↔ (k, E) ∈ s.asidCache ∧ k ≠ asid.toNat)) ∧
    (x.toNat % 4 = 1 → (e ∈ t.tlb ↔ e ∈ s.tlb ∧ ¬ (e.asid = asid ∧ e.va ≤ va ∧ va < e.va + e.size)) ∧
      ((k, E) ∈ t.asidCache ↔ (k, E) ∈ s.asidCache)) ∧
    (x.toNat % 4 = 2 → (e ∈ t.tlb ↔ e ∈ s.tlb) ∧ ((k, E) ∈ t.asidCache ↔ (k, E) ∈ s.asidCache ∧ k ≠ asid.toNat)) ∧
    (x.toNat % 4 = 3 → e ∉ t.tlb ∧ (k, E) ∉ t.asidCache)

namespace Sys2Proof.Claims
open Sys2Proof.Machine

/-! ### Operators of a fabric -/

/-- The element for which the state acts, chosen among those that share its place (R283). -/
def Acts (s : State) (E : Elem) : Prop :=
  ∃ stack slot e, s.curElem = some (stack, slot, e) ∧ s.elem? stack slot e = some E ∧ ({ s with curElem := none }).chosen E = true

/-- The element fires: every output that needs a slot has one, the budget has a firing left unless the residency drains, and the next
state is that in which the firing has been carried out (R275, R276, R391). -/
def FiresAs (s : State) (E : Elem) (f : Firing) : Prop :=
  (∀ o, o ∈ f.needs → E.fab.canSend E.x o = true) → (f.charge = true → 0 < E.res.fbud ∨ E.res.drain.isSome = true) →
    exec E.op s = .next (({ s with curElem := none }).applyFiring E f)

/-- The tokens for the outputs that the operator word names. -/
def named (E : Elem) (send : List (Nat × Token)) : List (Nat × Token) := send.filter fun m => if m.1 = 0 then E.w.o0 else E.w.o1

/-- A firing that takes every named head. -/
def takesAll (E : Elem) (send : List (Nat × Token)) (after : ElemCtx) : Firing :=
  { take := namedPorts E.w, send := named E send, needs := (named E send).map (·.1), after := after }

/-- The tag of a result: that of operand a's token, or of the lowest named port's where a names none (R279). -/
def tagOf (E : Elem) : W16 := resultTag E.x { E.w with tagsel := false }

/-- A consuming firing of `join` or `isect` may go: fewer than 16 pairs are held, or at most so many and no receiver takes a full token. -/
abbrev MayConsume (E : Elem) (most : Nat) : Prop :=
  E.x.pack.length < 16 ∨ (E.x.pack.length ≤ most ∧ (E.fab.canSend E.x 0 && E.fab.canSend E.x 1) = false)

/-- An element of a token, where it is valid. -/
def elementAt (t : Token) (e : Nat) : Option W32 := if laneBit t.valid e then some (t.data.getD e 0) else none

/-- The value of an element in an operator over elements, the identity where neither input is valid. -/
def leafAt (t : Option Token) (unit : W64) (e : Nat) : W64 := ((t.bind fun t => elementAt t e).map up).getD unit

end Sys2Proof.Claims

/-- R307 to R310: `steer` sends each element of a to the side that b decides; `merge` takes each element from the operand that c decides, and
`merge.sel` the whole token of the side that its choice names; `carry` sends b on and keeps it; `inv` sends its kept token with the tag of b. That `merge` tags its result with operand a's tag, and never with k2, is the model's choice
(log entry 68). -/
def Obligations.RoutingOperatorsFire : Prop :=
  ∀ s E, Acts s E →
    (∀ drop a b, E.op = .steer drop → srcToken E.x E.w.a = some a → srcToken E.x E.w.b = some b → E.allData = true →
      ∃ t0 t1, (∀ e, e < 16 → elementAt t0 e = (if (b.data.getD e 0).getLsbD 0 then none else (elementAt b e).bind fun _ => elementAt a e) ∧
          elementAt t1 e = if (b.data.getD e 0).getLsbD 0 then (elementAt b e).bind fun _ => elementAt a e else none) ∧
        t0.tag = a.tag ∧ t1.tag = a.tag ∧
        FiresAs s E { take := namedPorts E.w, needs := [0, 1], after := E.x
                      send := [(0, t0), (1, t1)].filter fun m => !drop || m.2.valid ≠ 0 }) ∧
    (∀ a b c, E.op = .merge false → srcToken E.x E.w.a = some a → srcToken E.x E.w.b = some b → srcToken E.x E.w.c = some c →
      E.allData = true →
      ∃ t, (∀ e, e < 16 → elementAt t e = (elementAt c e).bind fun d => if d.getLsbD 0 then elementAt b e else elementAt a e) ∧
        t.tag = tagOf E ∧ t.kind = .data ∧ FiresAs s E (takesAll E [(0, t), (1, t)] E.x)) ∧
    (∀ c t, E.op = .merge true → srcToken E.x E.w.c = some c → c.kind = .data →
      let src := if elementAt c 0 = none ∨ (c.data.getD 0 0).getLsbD 0 = false then E.w.a else E.w.b
      srcToken E.x src = some t → t.kind = .data ∨ t.kind = .endOfTile ∨ t.kind = .endOfStream ∨ t.kind = .endOfStreamError →
      FiresAs s E { takesAll E [(0, t), (1, t)] E.x with
        take := (namedPorts E.w).filter fun p => portOf E.w.c = some p || portOf src = some p }) ∧
    (∀ t, E.op = .carry → srcToken E.x E.w.b = some t → t.kind = .data → FiresAs s E (takesAll E [(0, t)] { E.x with reg := some t })) ∧
    (∀ a b, E.op = .inv → srcToken E.x E.w.a = some a → srcToken E.x E.w.b = some b → a.kind = .data → b.kind = .data →
      FiresAs s E { takesAll E [(0, { a with tag := b.tag }), (1, { a with tag := b.tag })] E.x with
        take := (namedPorts E.w).filter fun p => portOf E.w.b = some p })

/-- R311 to R313, R318: `join` packs the valid elements of its tokens with their indices, and sends 16 at a time; `win` stores its token
while its rows are not full; `isect` keeps fibre B beside its buffer of 48 pairs, and then the pairs that fibre A makes with it; `iter` sends the next 16 numbers of
its sequence. That the pairs held take 8 bytes each of the tile memory, 96 coordinates' worth in all, and that `isect` numbers its tokens from 0
in each tile are the model's choices (log entries 129 and 70). -/
def Obligations.SequencingOperatorsFire : Prop :=
  ∀ s E, Acts s E →
    (∀ n after, (E.op = .join ∧ n = E.x.n0 ∧ after = { E.x with pack := E.x.pack.drop 16, n0 := n + 1 }) ∨
        (E.op = .isect ∧ n = E.x.n2 ∧ after = { E.x with pack := E.x.pack.drop 16, n2 := n + 1 }) → 16 ≤ E.x.pack.length →
      ∃ t0 t1, (∀ e, e < 16 → elementAt t0 e = (E.x.pack[e]?).map (·.1) ∧ elementAt t1 e = (E.x.pack[e]?).map (·.2)) ∧
        t0.tag = BitVec.ofNat 16 n ∧ t1.tag = t0.tag ∧
        FiresAs s E { take := [], send := [(0, t0), (1, t1)], needs := [0, 1], after := after }) ∧
    (∀ a, E.op = .join → MayConsume E 16 → E.allData = true → srcToken E.x E.w.a = some a →
      let more : List (W32 × W32) := match srcToken E.x E.w.b with | some b => indexed b true | none => []
      FiresAs s E (takesAll E [] { E.x with pack := E.x.pack ++ indexed a false ++ more })) ∧
    (∀ k a, E.op = .win k → srcToken E.x E.w.a = some a → a.kind = .data →
      let n := k.n.toNat + 1
      let d := k.d.toNat + 1
      let rows := k.k.toNat * d
      let y := E.x.n0 / n
      let place := fun row => row % rows * n + E.x.n0 % n
      let stored : ElemCtx := if rows = 0 then { E.x with n0 := E.x.n0 + 1, n1 := 0 } else { E.x with
        n0 := E.x.n0 + 1, n1 := 0, masks := PMap.set E.x.masks 0 (place y) a.valid
        tileMem := (List.range 16).foldl (fun m e => PMap.set m 0 (16 * place y + e) (a.data.getD e 0)) E.x.tileMem }
      (y < rows ∨ (y - rows) % (k.s.toNat + 1) ≠ 0 → FiresAs s E (takesAll E [] stored)) ∧
      (rows ≤ y → (y - rows) % (k.s.toNat + 1) = 0 →
        let tag : W16 := (a.tag &&& 0x1FFF) ||| BitVec.ofNat 16 (E.x.n1 * 2 ^ 13)
        (E.x.n1 = k.k.toNat → FiresAs s E (takesAll E [(0, { a with tag := tag }), (1, { a with tag := tag })] stored)) ∧
        (E.x.n1 < k.k.toNat →
          let p := place (y - rows + E.x.n1 * d)
          s.tileSpoiled E (16 * p) 16 = false →
          ∃ t, t.kind = .data ∧ t.tag = tag ∧ t.valid = PMap.getD E.x.masks p 0 ∧
            (∀ e, e < 16 → t.data.getD e 0 = PMap.getD E.x.tileMem (16 * p + e) 0) ∧
            FiresAs s E { takesAll E [(0, t), (1, t)] { E.x with n1 := E.x.n1 + 1 } with take := [] }))) ∧
    (∀ b, E.op = .isect → MayConsume E 32 → E.x.flag = false → srcToken E.x E.w.b = some b → b.kind = .data →
      let ws := (lanesOf b.valid).map fun e => b.data.getD e 0
      let last : Option W32 := match ws.getLast? with | some w => some w | none => E.x.lastB
      rising E.x.lastB ws = true → E.x.n0 + ws.length ≤ 256 * E.w.tsize.toNat - 96 →
      FiresAs s E { take := (portOf E.w.b).toList, send := [], needs := [], after := { E.x with
        n0 := E.x.n0 + ws.length, lastB := last
        tileMem := ((List.range ws.length).zip ws).foldl (fun m p => PMap.set m 0 (E.x.n0 + p.1) p.2) E.x.tileMem } }) ∧
    (∀ a, E.op = .isect → MayConsume E 32 → E.x.flag = true → srcToken E.x E.w.a = some a → a.kind = .data →
      let ws := (lanesOf a.valid).map fun e => a.data.getD e 0
      let last : Option W32 := match ws.getLast? with | some w => some w | none => E.x.lastA
      rising E.x.lastA ws = true → s.tileSpoiled E 0 E.x.n0 = false →
      FiresAs s E { take := (portOf E.w.a).toList, send := [], needs := [], after := { E.x with
        n1 := E.x.n1 + ws.length, lastA := last
        pack := E.x.pack ++ matchesOf E.x.tileMem E.x.n0 E.x.n1 ws } }) ∧
    (∀ c, E.op = .iter c →
      let last := PMap.getD E.fab.counters (64 * (E.key / 256) + 8 * (E.key % 256 / 32) + c.toNat) 0
      E.x.n0 ≤ last / 16 → (E.w.a = .none ∧ E.x.flag = false ∨ E.w.a ≠ .none ∧ ∃ t, srcToken E.x E.w.a = some t ∧ t.kind = .data) →
      ∃ t, (∀ e, e < 16 → elementAt t e = if 16 * E.x.n0 + e ≤ last then some (BitVec.ofNat 32 (16 * E.x.n0 + e)) else none) ∧
        t.tag = BitVec.ofNat 16 E.x.n0 ∧ t.kind = .data ∧
        FiresAs s E { take := [], send := named E [(0, t), (1, t)], needs := [0, 1], after := { E.x with n0 := E.x.n0 + 1 } })

/-- R314 to R317: `tred` reduces its two tokens over the tree of R149, or element by element; `welt`, `fence` and `mbarv.eot` let a data token
pass, a `fence` once no memory node works on a token from which it descends; `mbarv.arrive` passes it with an arrival on its word once the
ended tiles' stores are performed; `mbarv.wait` once the word's phase has changed; `sink` takes its tokens. That `welt` waits for no access, every one being performed as it is
made, and that `tred` tags its result with operand a's tag are the model's choices (log entries 9 and 68). -/
def Obligations.ReducingAndOrderingOperatorsFire : Prop :=
  ∀ s E, Acts s E →
    (∀ elt op unit, (E.op = .tredSum elt ∧ op = faddOf tyF32 .rne ∧ unit = 0x80000000) ∨
        (E.op = .tredMax elt ∧ op = fmaxOf tyF32 ∧ unit = 0x7FC00000) → E.allData = true →
      let a := srcToken E.x .i0
      let b := srcToken E.x .i1
      ∃ t, t.kind = .data ∧ t.tag = tagOf E ∧ FiresAs s E (takesAll E [(0, t), (1, t)] E.x) ∧
        ∀ e, e < 16 → elementAt t e =
          if elt then
            (if (a.bind fun t => elementAt t e).isSome || (b.bind fun t => elementAt t e).isSome then
              some (lo (op (leafAt a unit e) (leafAt b unit e))) else none)
          else if e = 0 then some (lo (op (node op (leafAt a unit) 4 0) (node op (leafAt b unit) 4 0))) else none) ∧
    (∀ elt, E.op = .tredSexp elt → E.allData = true →
      let pair := fun (t : Option Token) (i : Nat) =>
        (match (t.bind fun t => elementAt t (2 * i)), (t.bind fun t => elementAt t (2 * i + 1)) with
        | some m, some n => (n ++ m : W64)
        | _, _ => 0x00000000FF800000)
      let a := pair (srcToken E.x .i0)
      let b := pair (srcToken E.x .i1)
      let whole := fun i => [srcToken E.x .i0, srcToken E.x .i1].any fun t =>
        (t.bind fun t => elementAt t (2 * i)).isSome && (t.bind fun t => elementAt t (2 * i + 1)).isSome
      let r := sexpOf (node sexpOf a 3 0) (node sexpOf b 3 0)
      let half := fun (x : W64) (e : Nat) => if e % 2 = 0 then lo x else lo (x >>> 32)
      ∃ t, t.kind = .data ∧ t.tag = tagOf E ∧ FiresAs s E (takesAll E [(0, t), (1, t)] E.x) ∧
        ∀ e, e < 16 → elementAt t e =
          if elt then (if whole (e / 2) then some (half (sexpOf (a (e / 2)) (b (e / 2))) e) else none)
          else if e < 2 then some (half r e) else none) ∧
    (∀ t, srcToken E.x E.w.a = some t → t.kind = .data →
      (∀ sc, E.op = .welt sc → FiresAs s E (takesAll E [(0, t), (1, t)] E.x)) ∧
      (∀ sc, E.op = .twillFence sc → E.fenceOpen = true → FiresAs s E (takesAll E [(0, t), (1, t)] E.x)) ∧
      (E.op = .mbarvEot → FiresAs s E (takesAll E [(0, t), (1, t)] E.x)) ∧
      (∀ p, E.op = .mbarvArrive → (∀ n, n ∈ E.fab.nodes → n.2.tileDue = false) →
        s.translate E.res.asid E.res.sup .rw Window.isJoin E.mbarWord = .ok p → s.spoiled p.pa 8 = false →
        FiresAs s E { takesAll E [(0, t), (1, t)] { E.x with arrived := E.x.arrived + 1 } with arrive := some p }) ∧
      (∀ ph p, E.op = .mbarvWait ph → s.translate E.res.asid E.res.sup .r Window.isJoin E.mbarWord = .ok p → s.spoiled p.pa 8 = false →
        2 ^ 63 ≤ s.readNat p.gen p.pa 8 → BitVec.ofNat 8 (s.readNat p.gen p.pa 8 / 2 ^ 48) ≠ E.x.phase →
        s.readNat p.gen p.pa 8 < 2 ^ 64 →
        FiresAs s E (takesAll E [(0, t), (1, t)] { E.x with phase := BitVec.ofNat 8 (s.readNat p.gen p.pa 8 / 2 ^ 48) }))) ∧
    (E.op = .sink → E.allData = true → FiresAs s E (takesAll E [] E.x))

/-- R275, R276, R391: a firing takes the heads of the ports that it consumes, leaves the others, and charges one firing where it charges and no
exhausted budget drains the residency; no other residency and no team changes. -/
def Sys2Proof.Claims.FiringsChangeTheirElement : Prop :=
  ∀ (s : State) (E : Elem) f, s.residency? E.stack E.slot = some E.res → E.res.fab = some E.fab → f.arrive = none →
    let t := s.applyFiring E f
    (∃ R F x, t.residency? E.stack E.slot = some R ∧ R.fab = some F ∧ PMap.get? F.elems E.key = some x ∧
      (∀ p, p ∉ f.take → PMap.getD x.bufs p [] = PMap.getD f.after.bufs p []) ∧
      (f.take.Nodup → ∀ p, p ∈ f.take → PMap.getD x.bufs p [] = (PMap.getD f.after.bufs p []).tail) ∧
      (∀ e, e ≠ E.key → PMap.get? F.elems e = PMap.get? E.fab.elems e) ∧
      R.fbud = (if f.charge = true ∧ E.res.drain ≠ some .firings then E.res.fbud - 1 else E.res.fbud) ∧ R.state = E.res.state) ∧
    (∀ n k, (n ≠ E.stack ∨ k ≠ E.slot) → t.residency? n k = s.residency? n k) ∧
    t.teams = s.teams ∧ t.mem = s.mem ∧ t.queues = s.queues

namespace Sys2Proof.Claims
open Sys2Proof.Machine

/-! ### Bring-up, management and the host -/

/-- An event that takes place. -/
def Becomes (i : Instr) (s t : State) : Prop := exec i s = .next t

/-- The state with the hub changed. -/
def withHub (s : State) (f : Hub → Hub) : State := { s with hub := f s.hub }

/-- The ring after an event: its record stands at the next place, by bit place, and the place after the last is the first (R451). -/
def ringWith (R : EventRing) (event die cycle detail : Nat) : EventRing := { R with
  next := (R.next + 1) % R.records
  written := if R.records = 0 then R.written else PMap.insert R.written (R.base.toNat + 64 * R.next)
    (BitVec.ofNat 512 (event % 2 ^ 8 + 2 ^ 8 * (die % 4) + 2 ^ 64 * (cycle % 2 ^ 64) + 2 ^ 128 * (detail % 2 ^ 64))) }

/-- The state with an event of the management controller posted, and with the host's request answered. -/
def posted (s : State) (event die detail : Nat) : State :=
  withHub s fun h => { h with
    posted := h.posted ++ [⟨event, die, h.clk, detail⟩], ring := h.ring.map fun R => ringWith R event die h.clk detail }
def answered (s : State) (r : Reply) : State := withHub s fun h => { h with replies := r :: h.replies }

/-- The image is signed, and its security version is no lower than that in the fuses (R429). -/
def Accepted (image : List W8) : Prop := Config.imageSigned image = true ∧ Config.fusedVersion.toNat ≤ (Config.imageVersion image).toNat

/-- The phases in which bring-up goes on, in which the host ports work, and in which the management controller runs (R429, R449). -/
def Training (s : State) : Prop := s.hub.phase = .bringUp ∨ ∃ b, s.hub.phase = .early b
def Serving (s : State) : Prop := s.hub.phase = .full ∨ ∃ b, s.hub.phase = .early b
def Managed (s : State) : Prop := Serving s ∨ s.hub.phase = .bringUp

/-- The dies that run: all in full service, die 0 in early service (R449). -/
def Runs (s : State) (d : Nat) : Prop := s.hub.phase = .full ∨ (∃ b, s.hub.phase = .early b) ∧ d = 0

/-- The queue that a function reaches at a window (R425). -/
def ReachesQueue (s : State) (f : Option Nat) (n q : Nat) : Prop :=
  (f = none ∧ n < 131072 ∧ q = n) ∨
    ∃ v base count, f = some v ∧ PMap.get? s.hub.windows v = some (base, count) ∧ n < count ∧ q = base + n

/-- The bytes at a physical address lie apart from those that an access from outside writes (R412): they are others, and where they share a
data unit with one of them, the reader uses its keys and its address of the unit. -/
def Apart (s : State) (ps : List Phys) (gen pa : Nat) : Prop :=
  ∀ p, p ∈ ps → s.storageAddr pa ≠ s.storageAddr p.pa ∧
    ∀ a b, s.storageAddr pa = some a → s.storageAddr p.pa = some b → a / 64 = b / 64 →
      gen = p.gen ∧ pa / 64 = p.pa / 64 ∧ pa % 64 = a % 64

/-- A write to CONFIG that is ignored (R266): a reserved value, a core that does not exist, or storage that is not in the window which place
names. -/
def ConfigIgnored (s : State) (words : List W64) : Prop :=
  let f := fieldOf words
  let size := 2048 * 2 ^ f 1 4
  let within := fun (x : Nat) => (s.storageAddr x).isSome = true ∧ if f 5 1 = 1 then ∃ d o, windowOf x = .scratchpad d o else windowOf x = .hbm
  12 < f 1 4 ∨ f 25 39 ≠ 0 ∨ f 116 396 ≠ 0 ∨ (∀ core, core < 768 → destOfCore core ≠ f 7 10) ∨
    (f 0 1 = 1 ∧ (f 64 52 % 4096 ≠ 0 ∨ ¬ within (f 64 52) ∨ ¬ within (f 64 52 + size - 1)))

/-- A queue after a write to CONFIG that is not ignored: every entry and reservation is discarded (R266). -/
def configured (words : List W64) (core : Nat) (Q : Queue) : Queue :=
  let f := fieldOf words
  { Q with
    enable := decide (f 0 1 = 1), depthLog := f 1 4, place := decide (f 5 1 = 1), bound := decide (f 6 1 = 1), core := core
    channel := f 17 8, storage := f 64 52, entries := [] }

/-- The values of a queue's registers by offset and size in bytes: STATUS, which NOTIFY reads as, DEPTH, CONFIG, and zero for ENQ and an
offset that the table does not list (R5, R265, R266). -/
def queueRegisters (Q : Queue) : List (Nat × Nat × Nat) :=
  let free := (Q.entries.filter fun e => e.held.isNone).length
  let one := fun (b : Bool) => if b then 1 else 0
  let status := one Q.enable + 2 * one Q.emptyRead + 4 * (if free = 16 * 2 ^ Q.depthLog then 1 else 0) + 8 * one Q.lost
  let config := one Q.enable + 2 * Q.depthLog + 2 ^ 5 * one Q.place + 2 ^ 6 * one Q.bound + 2 ^ 7 * destOfCore Q.core + 2 ^ 17 * Q.channel
    + 2 ^ 64 * Q.storage
  [(0x000, 64, 0), (0x0C0, 8, status), (0x100, 8, free), (0x108, 8, status), (0x110, 8, 0), (0x200, 64, config), (0x240, 64, 0)]

end Sys2Proof.Claims

/-- R429, R449 to R451: the steps of bring-up. An accepted image begins it, one that is not leaves the mailbox alone; stacks are trained in
ascending order, and one that fails is posted; a die is calibrated once; with every stack and die up the part is ready, and moves to full
service at the host's request once no team is left. That a reload forgets the platform's table of ASIDs, and that the ring
of event records goes on from its next place, are the model's choices (log entries 91 and 151). -/
def Sys2Proof.Claims.BringUpEvents : Prop :=
  ∀ s : State,
    (s.hub.phase = .reset → Accepted Config.storedImage → Becomes .powerOnReset s (withHub s fun h =>
      { h with phase := .bringUp, image := Config.storedImage, sampleAt := h.clk + Config.samplePeriod })) ∧
    (s.hub.phase = .reset → ¬ Accepted Config.storedImage → Becomes .powerOnReset s (withHub s fun h => { h with phase := .mailboxOnly })) ∧
    (∀ image i, (i = Instr.firmwareLoad image ∧ s.hub.phase = .mailboxOnly) ∨
        (i = .firmwareReload image ∧ (s.hub.phase = .mailboxOnly ∨ s.hub.phase = .stopped)) → Accepted image →
      ∃ t, Becomes i s t ∧ t.hub.phase = .bringUp ∧ t.hub.image = image ∧ t.teams = [] ∧ t.hub.replies = .done :: s.hub.replies ∧
        t.keys = [(0, .bound 0 (s.draws + 1))] ∧ t.asidBase = none) ∧
    (∀ n, Training s → (s.stack n).trained = false → (s.stack n).failed = false → n < 16 →
      (∀ m, m < n → (s.stack m).trained = true ∨ (s.stack m).failed = true) →
      (Config.trainingPasses s.tick n = false →
        Becomes .stackTrained s (posted (s.modStack n fun S => { S with failed := true }) 0x05 0 n)) ∧
      (Config.trainingPasses s.tick n = true → ∃ t, Becomes .stackTrained s t ∧ (t.stack n).trained = true ∧
        (s.hub.phase = .bringUp → (∀ m, m < 4 → m = n ∨ (s.stack m).trained = true) →
          t.hub.phase = .early false ∧ t.hub.mhz = 700 ∧ t.hub.posted = s.hub.posted ++ [⟨0x01, 0, s.hub.clk, 0⟩]))) ∧
    (∀ d, Training s → d < 4 → (s.die d).calibrated = false →
      Becomes (.matrixCalibrated d) s (posted (s.modDie d fun D => { D with calibrated := true }) 0x02 d 0)) ∧
    (∀ b, s.hub.phase = .early b → (∀ n, n < 16 → (s.stack n).trained = true) → (∀ d, d < 4 → (s.die d).calibrated = true) →
      s.hub.ready = false → Becomes .fullServiceReady s (posted (withHub s fun h => { h with ready := true }) 0x03 0 0)) ∧
    (s.hub.phase = .early false → s.hub.ready = true →
      Becomes .fullServiceRequest s (answered (withHub s fun h => { h with phase := .early true }) .done)) ∧
    (s.hub.phase = .early true → s.teams = [] → ∃ t, Becomes .fullServiceMove s t ∧ t.hub.phase = .full ∧ t.hub.mhz = 1400 ∧
      (∀ n, n < 16 → (t.stack n).inService = true) ∧ t.mem = s.mem ∧ t.hub.posted = s.hub.posted ++ [⟨0x04, 0, s.hub.clk, 0⟩])

/-- R28, R451, R452: a sample lowers the clock by 100 MHz, not below 700, while a junction is at 105 °C or the rail at its limit, and in full
service raises it, not above 1,400, once all are below the margin; a change is posted. A junction at 115 °C stops the part. That the
clock rises in full service alone and that the current is the sum over the dies are the model's choices (log entry 93). -/
def Sys2Proof.Claims.ClockAndTripEvents : Prop :=
  ∀ s : State,
    (Managed s → s.hub.sampleAt ≤ s.hub.clk →
      let hot := (∃ d, d < 4 ∧ 420 ≤ Config.junction s.tick d) ∨ 12000 ≤ ((List.range 4).map (Config.railCurrent s.tick)).sum
      let cool := (∀ d, d < 4 → Config.junction s.tick d < 400) ∧ ((List.range 4).map (Config.railCurrent s.tick)).sum < 11400 ∧
        s.hub.phase = .full
      ∃ t, Becomes .mcSample s t ∧ t.hub.sampleAt = s.hub.sampleAt + Config.samplePeriod ∧ t.hub.phase = s.hub.phase ∧ t.mem = s.mem ∧
        t.teams = s.teams ∧ (hot → t.hub.mhz = max 700 (s.hub.mhz - 100)) ∧ (¬ hot → cool → t.hub.mhz = min 1400 (s.hub.mhz + 100)) ∧
        (¬ hot → ¬ cool → t.hub.mhz = s.hub.mhz) ∧
        (t.hub.mhz ≠ s.hub.mhz → t.hub.posted = s.hub.posted ++ [⟨0x10, 0, s.hub.clk, t.hub.mhz⟩])) ∧
    (∀ d, Managed s → d < 4 → 460 ≤ Config.junction s.tick d → ∃ t, Becomes .thermalTrip s t ∧ t.hub.phase = .stopped ∧
      ∃ n clk more, t.hub.posted = more ++ [⟨0x11, n, clk, 0⟩] ∧ n < 4 ∧ 460 ≤ Config.junction s.tick n) ∧
    (∀ d, Runs s d → d < 4 → (s.die d).samples < (s.die d).clk / 1024 → ∃ t, Becomes (.monitorSample d) s t ∧
      (t.die d).samples = (s.die d).samples + 1 ∧ (t.die d).clk = (s.die d).clk ∧ t.teams = s.teams ∧ t.mem = s.mem)

/-- R343, R404, R425, R430, R451: what the platform does through the mailbox. A setting whose names exist is made, any other is an
unsupported request; a handler entry that passes its check is written, and a refused one changes nothing; a report answers its request. That a write with reserved bits is refused by a name of its own, and
a setting whose names do not exist as an unsupported request, are the model's choices (log entries 44 and 98), as is the first place of the
ring (log entry 151). -/
def Obligations.MailboxEvents : Prop :=
  ∀ s : State, Managed s →
    (∀ p, PlatformSetting.names p = true → Becomes (.platformSet p) s (answered (s.setPlatform p) .done)) ∧
    (∀ p, PlatformSetting.names p = false → Becomes (.platformSet p) s (answered s .unsupported)) ∧
    (∀ base, base % 64 = 0 → base + 2 ^ 22 ≤ 2 ^ 40 →
      Becomes (.platformSet (.asidTable base)) s (answered { s with asidBase := some base } .done)) ∧
    (∀ base records, Becomes (.eventRingSetup base records) s
      (answered (withHub s fun h => { h with ring := some { base := base, records := records } }) .done)) ∧
    (∀ nonce tenant, ∃ r sig, Becomes (.attestationRequest nonce tenant) s (answered s (.report r sig)) ∧
      r.toNat % 2 ^ 384 = nonce.toNat ∧ r.toNat / 2 ^ 384 % 2 ^ 384 = (sha384 s.hub.image).toNat ∧
      r.toNat / 2 ^ 768 % 2 ^ 32 = (Config.imageVersion s.hub.image).toNat ∧ r.toNat / 2 ^ 800 % 2 ^ 16 = tenant.toNat ∧
      sig = Config.attestationSignature (sha384 (bytesOfNat 152 r.toNat))) ∧
    (∀ core index w0 w1, Serving s → core < 768 → index < 64 →
      (w0.toNat < 2 ^ 59 → w1.toNat < 2 ^ 50 →
        ((s.core core).entryVerdict (s.eyeletOn core) index (handlerOf w0 w1) = .pass →
          ∃ t, Becomes (.mailboxHandlerEntryWrite core index w0 w1) s t ∧ t.hub.replies = .done :: s.hub.replies ∧ t.teams = s.teams ∧
            t.mem = s.mem) ∧
        (∀ c, (s.core core).entryVerdict (s.eyeletOn core) index (handlerOf w0 w1) = .refused c →
          Becomes (.mailboxHandlerEntryWrite core index w0 w1) s (answered s (.refused c)))) ∧
      (2 ^ 59 ≤ w0.toNat ∨ 2 ^ 50 ≤ w1.toNat →
        Becomes (.mailboxHandlerEntryWrite core index w0 w1) s (answered s (.refused .reserved))))

/-- R265 to R267, R425: the accesses of a host function to the window of a queue that it reaches; one that it does not reach, and a virtual
function's access to CONFIG, is an unsupported request. An enqueue that finds no room is lost and says so; a pop takes the oldest free entry, a
steal the newest, and an empty queue answers zeros; a register answers its value, STATUS clears the bits that are written as 1, NOTIFY holds the
value, and a write to CONFIG sets the queue up and discards its entries, or is ignored. (That an entry with link damage answers with poison, and that a
CONFIG which names a core that does not exist is ignored, are the model's choices, log entries 13 and 153.) -/
def Sys2Proof.Claims.HostQueueEvents : Prop :=
  ∀ (s : State) f n q, Serving s →
    (ReachesQueue s f n q →
      let Q := s.queue q
      (∀ data, Q.enable = true → Q.entries.length < 16 * 2 ^ Q.depthLog →
        ∃ t tok, Becomes (.enq f n data) s t ∧ (t.queue q).entries = Q.entries ++ [⟨tok, none, s.clk (dieOf Q.core)⟩] ∧
          t.hub.replies = .done :: s.hub.replies ∧ (Config.linkError s.tick = .beyond → tok.damaged = true) ∧
          (Config.linkError s.tick ≠ .beyond → tok.damaged = false ∧ tok.kind = .data ∧ tok.valid = 0xFFFF ∧ tok.tag = 0 ∧
            ∀ i, i < 16 → tok.data.getD i 0 = data.getD i 0)) ∧
      (∀ data, Q.enable = false ∨ 16 * 2 ^ Q.depthLog ≤ Q.entries.length →
        Becomes (.enq f n data) s (answered (s.modQueue q fun Q => { Q with lost := true }) .done)) ∧
      (∀ i newest, (i = Instr.deq f n ∧ newest = false) ∨ (i = .steal f n ∧ newest = true) →
        (∀ k e, (if newest then (freeEntries Q).getLast? else (freeEntries Q).head?) = some k → Q.entries[k]? = some e →
          Becomes i s (if e.tok.damaged then answered s .poison
            else answered (s.modQueue q fun Q => { Q with entries := Q.entries.take k ++ Q.entries.drop (k + 1) }) (.token e.tok.data))) ∧
        (freeEntries Q = [] →
          Becomes i s (answered (s.modQueue q fun Q => { Q with emptyRead := true }) (.token (List.replicate 16 0))))) ∧
      (∀ i v, i = Instr.notify f n v ∨ i = .registerWrite f n 0x0C0 (.write v) → Becomes i s
        (answered (s.modQueue q fun Q => { Q with notifyVal := v, notifies := Q.notifies + 1 }) .done)) ∧
      (∀ v, Becomes (.registerWrite f n 0x108 (.write v)) s (answered (s.modQueue q fun Q =>
        { Q with emptyRead := Q.emptyRead && !v.getLsbD 1, lost := Q.lost && !v.getLsbD 3 }) .done)) ∧
      (∀ offset v, offset ≠ 0x108 → offset ≠ 0x0C0 → f = none ∨ offset + 8 ≤ 0x200 ∨ 0x240 ≤ offset →
        Becomes (.registerWrite f n offset (.write v)) s (answered s .done)) ∧
      (∀ offset size v, (offset, size, v) ∈ queueRegisters Q → f = none ∨ offset ≠ 0x200 →
        Becomes (.registerWrite f n offset (.read size)) s
          (answered s (.data ((List.range size).map fun i => BitVec.ofNat 8 (v / 2 ^ (8 * i)))))) ∧
      (∀ offset size v, f ≠ none → offset < 0x240 →
        (0x200 < offset + size → Becomes (.registerWrite f n offset (.read size)) s (answered s .unsupported)) ∧
        (0x200 < offset + 8 → Becomes (.registerWrite f n offset (.write v)) s (answered s .unsupported))) ∧
      (∀ words, f = none →
        (ConfigIgnored s words → Becomes (.config f n words) s (answered s .done)) ∧
        (∀ core, ¬ ConfigIgnored s words → core < 768 → destOfCore core = fieldOf words 7 10 →
          Becomes (.config f n words) s (answered (s.modQueue q (configured words core)) .done))) ∧
      (∀ words, f ≠ none → Becomes (.config f n words) s (answered s .unsupported))) ∧
    ((∀ q, ¬ ReachesQueue s f n q) →
      ∀ i data v offset access words,
        i ∈ [Instr.enq f n data, .deq f n, .steal f n, .notify f n v, .registerWrite f n offset access, .config f n words] →
        Becomes i s (answered s .unsupported))

/-- R214, R228, R426, R428: requests from other parts and the host's memory accesses. Without a binding they are answered with poison or
ACCESS; a read answers the bytes of HBM where it is mapped, and a write stores its bytes there and changes those alone. A Seam port comes up in
full service; it counts the flits of each message, takes none once a key's are used up, and replaces its keys then. (How many flits a message
takes, and that a port takes none after the limit, are the model's choices, log entry 17.) -/
def Sys2Proof.Claims.OutsideEvents : Prop :=
  ∀ s : State,
    (∀ fn offset request, Serving s →
      (PMap.get? s.hub.functions fn = none → Becomes (.cxlMemRequest fn offset request) s (answered s .poison)) ∧
      (∀ asid n ps, PMap.get? s.hub.functions fn = some asid → s.outside asid .r Window.isHbm offset n = .ok ps →
        ((∀ p, p ∈ ps → s.spoiled p.pa 1 = false) →
          Becomes (.cxlMemRequest fn offset (.read n)) s (answered s (.data (ps.map fun p => (s.readByte p.gen p.pa).getD 0)))) ∧
        (∀ p, p ∈ ps → s.spoiled p.pa 1 = true → Becomes (.cxlMemRequest fn offset (.read n)) s (answered s .poison))) ∧
      (∀ asid data ps, PMap.get? s.hub.functions fn = some asid → s.outside asid .w Window.isHbm offset data.length = .ok ps →
        ∃ t, Becomes (.cxlMemRequest fn offset (.write data)) s t ∧ t.hub.replies = .done :: s.hub.replies ∧
          (∀ gen pa, Apart s ps gen pa → t.readByte gen pa = s.readByte gen pa) ∧
          ∀ i p, ps[i]? = some p → (∀ j r, i < j → ps[j]? = some r → Apart s [r] p.gen p.pa) →
            t.readByte p.gen p.pa = some (data.getD i 0)) ∧
      (∀ asid access need, PMap.get? s.hub.functions fn = some asid →
        (∃ n, request = .read n ∧ need = .r ∧ access = n) ∨ (∃ data, request = .write data ∧ need = .w ∧ access = data.length) →
        (∀ ps, s.outside asid need Window.isHbm offset access ≠ .ok ps) →
        Becomes (.cxlMemRequest fn offset request) s (answered s .poison))) ∧
    (∀ port, port < 24 → s.hub.phase = .full → (s.seam port).up = false → Becomes (.seamLinkBringup port) s
      (s.modSeam port fun P => { P with up := true, flits := 0, keys := P.keys + 1 })) ∧
    (∀ port, (s.seam port).up = true → 2 ^ 32 ≤ (s.seam port).flits → Becomes (.seamRekey port) s
      (s.modSeam port fun P => { P with flits := P.flits - 2 ^ 32, keys := P.keys + 1 })) ∧
    (∀ port r sender va bytes, (s.seam port).up = false ∨ 2 ^ 32 ≤ (s.seam port).flits →
      Becomes (.seamRemoteEnqueue port (some r)) s s ∧ Becomes (.seamRemoteCopy port sender va bytes) s s) ∧
    (∀ port r, (s.seam port).up = true → (s.seam port).flits < 2 ^ 32 → (s.seam port).held = [] →
      let counted := s.modSeam port fun P => { P with flits := P.flits + Config.seamFlits 64 }
      ((∀ b, b ∈ (s.seam port).bindings → b.2.1 ≠ r.sender) →
        Becomes (.seamRemoteEnqueue port (some r)) s (answered counted (.remote .access))) ∧
      (∀ asid p q o, (s.seam port).here r.sender = some asid → s.translate asid false .w Window.isQueue r.va = .ok p →
        windowOf p.pa = .queue q o → (s.queue q).enable = true → (s.queue q).entries.length < 16 * 2 ^ (s.queue q).depthLog →
        Becomes (.seamRemoteEnqueue port (some r)) s (answered (counted.enqueue q r.tok) .done))) ∧
    (∀ port sender va bytes, (s.seam port).up = true → (s.seam port).flits < 2 ^ 32 →
      let counted := s.modSeam port fun P => { P with flits := P.flits + Config.seamFlits bytes.length }
      ((s.seam port).here sender = none →
        Becomes (.seamRemoteCopy port sender va bytes) s (answered counted (.remote .access))) ∧
      (∀ asid ps, (s.seam port).here sender = some asid → counted.outside asid .w Window.isMain va bytes.length = .ok ps →
        ∃ t, Becomes (.seamRemoteCopy port sender va bytes) s t ∧ t.hub.replies = .done :: s.hub.replies ∧
          (∀ gen pa, Apart s ps gen pa → t.readByte gen pa = s.readByte gen pa) ∧
          ∀ i p, ps[i]? = some p → (∀ j r, i < j → ps[j]? = some r → Apart s [r] p.gen p.pa) →
            t.readByte p.gen p.pa = some (bytes.getD i 0)))

namespace Sys2Proof.Claims
open Sys2Proof.Machine

/-! ### Scheduling and blocks -/

/-- The state with the token at a place in the net taken to its channel's receive buffer, before the core looks at it: an error of one bit
is corrected and counted, one beyond that leaves the token damaged (R25). -/
def delivered (s : State) (n : Nat) (x : NetToken) : State :=
  let u : State := { s with net := s.net.take n ++ s.net.drop (n + 1) }
  let u := if Config.linkError s.tick = .single then u.modDie (dieOf x.core) fun D => { D with corrected := D.corrected + 1 } else u
  u.modCore x.core fun C => { C with
    channels := PMap.set C.channels [] x.chan (PMap.getD C.channels x.chan [] ++
      [if Config.linkError s.tick = .beyond then { x.tok with damaged := true } else x.tok])
    reservedSlots := PMap.set C.reservedSlots 0 x.chan (PMap.getD C.reservedSlots x.chan 0 - 1) }

/-- A group of the team can go on (R356). -/
def CanGoOn (s : State) (T : Team) : Prop :=
  ∃ (g : Nat) (G : Group), T.groups[g]? = some G ∧ G.phase ≠ .ended ∧ s.satisfied T g G = true

/-- The team waits in counting waits alone, and has done so for its limit (R355). -/
def WaitedLong (T : Team) : Prop :=
  T.place = .resident ∧ T.gone = false ∧ T.taken = none ∧ (∀ G, G ∈ T.groups → T.groupCounts G = true) ∧ 0 < T.waitswap ∧ T.waitswap ≤ T.waitCount

/-- The team is away from its core with its context as it was (R41, R352): the blocks that waited are given up and execute again, their charges
are returned, and nothing else of it changes. -/
def Away (t : State) (k : Nat) (T : Team) (ready : Bool) : Prop :=
  ∃ U, t.team? k = some U ∧ U.place = .out ready ∧ U.taken = none ∧ U.age = T.age ∧ U.shared = T.shared ∧ U.tbud = T.tbud ∧ U.tape = T.tape ∧
    U.matrix = T.matrix ∧ U.copies = T.copies ∧ U.streams = T.streams ∧ U.members = T.members ∧ U.groups.length = T.groups.length ∧
    (T.ibud < 2 ^ 48 → U.ibud = min (T.ibud + (T.groups.map fun G => match G.blk with | some F => F.paid | none => 0).sum) (2 ^ 48 - 1)) ∧
    ∀ (g : Nat) G, T.groups[g]? = some G →
      U.groups[g]? = some { G with blk := none, waited := match G.blk with | some F => F.wait | none => G.waited }

/-- The block of the acting group commits with the effects given, and nothing stops it or holds it back: no check fails, no budget is short, and
nothing is waited for (R39). -/
def CommitsWith (s : State) (c : Ctx) (pack : Bool) (es : List Effect) : Prop :=
  s.ctx? = some c ∧ c.blk.hdr.count < c.blk.slot ∧ c.blk.effects = es ∧ c.blk.hdr.pack = pack ∧ c.blk.hdr.tape = false ∧
    s.commitFault c.t c.g c.team c.group c.blk = none ∧ shortfall c.team (commitCost c.team c.g c.group c.blk) = none ∧
    s.commitWait c.t c.g c.team c.group c.blk = none

/-- Lanes leave a block by one exit for one address. -/
def leaves (slot n : Nat) (k : ExitKind) (m : W16) (a : W64) : Effect := .exit slot n k ((lanesOf m).map fun l => (l, a))

/-- What the commit leaves of the acting group: its block is over, its lane registers and masks stand, and the rest is as the statement says. -/
def CommitLeaves (s : State) (c : Ctx) (P : State → Group → Prop) : Prop :=
  ∃ t G, exec .blockCommit s = .next t ∧ t.group? c.t c.g = some G ∧ G.blk = none ∧ G.v = c.group.v ∧ G.p = c.group.p ∧
    G.launched = c.group.launched ∧ t.mem = s.mem ∧ P t G

/-- Every call entry has a live lane that has not returned (R59, R363). -/
def CallsWait (exited : W16) (es : List CallEntry) : Prop := ∀ e, e ∈ es → e.mask &&& ~~~exited &&& ~~~e.returned ≠ 0

/-- Reconvergence entries with one more commit counted in each join entry (R364). -/
def counted (es : List ReconEntry) : List ReconEntry :=
  es.map fun e => if e.kind = .waiting then e else { e with count := min 256 (e.count + 1) }

/-- The group and its team, where no fault or trap is fatal: outside supervisor mode, below supervisor privilege, in a live ASID with a trap
vector (R419, R435). -/
def MayTrap (s : State) (T : Team) (G : Group) : Prop :=
  G.sup = none ∧ T.sup = false ∧ (s.asidEntry T.asid).tvec ≠ 0 ∧ (s.asidEntry T.asid).state ≠ .dying

/-- Registers of a lane, as another group held them. -/
def SameLane (l : Nat) (v w : PMap W32) : Prop := ∀ n, PMap.getD v (16 * n + l) 0 = PMap.getD w (16 * n + l) 0

/-- The claim has no command and its sequencer is idle, where the team has one (R60). -/
def EngineIdle (T : Team) : Prop := ∀ M, T.matrix = some M → M.queue = [] ∧ M.busy = false

end Sys2Proof.Claims

/-- R23 to R25, R261, R267, R438: tokens on their way. A token of 576 bits is its elements, its valid bits, its kind, context tag, channel
and tag, and the check field over them. The first token of its sender reaches its channel; the oldest entry of a bound queue goes to
its channel while that has a free slot; a token that waits at the queue engine is enqueued once there is room, a fault record with the
next number of its ASID. -/
def Obligations.TokensMoveOn : Prop :=
  (∀ tok : Token, tok.data.length = 16 →
    let x := tokenBits tok
    (∀ e, e < 16 → x.extractLsb' (32 * e) 32 = tok.data.getD e 0) ∧ x.extractLsb' 512 16 = tok.valid ∧
    x.extractLsb' 528 4 = BitVec.ofNat 4 (match tok.kind with
      | .data => 0 | .endOfTile => 1 | .endOfStream => 2 | .endOfStreamError => 3 | .config => 4 | .reconfig => 5 | .faultStall => 6) ∧
    x.extractLsb' 532 2 = tok.ctx ∧ x.extractLsb' 534 8 = tok.chan ∧ x.extractLsb' 542 16 = tok.tag ∧
    x.extractLsb' 558 11 = Config.secDed (x.extractLsb' 0 558) ∧ x.extractLsb' 569 7 = Config.tokenCrc (x.extractLsb' 528 30)) ∧
  ∀ s : State,
    (∀ n x, s.net[n]? = some x →
      (∀ (m : Nat) y, m < n → s.net[m]? = some y → y.core ≠ x.core ∨ y.chan ≠ x.chan ∨ y.sender ≠ x.sender) →
      Becomes (.tokenArrival n) s ((delivered s n x).settleCore x.core)) ∧
    (∀ q k e, (s.queue q).enable = true → (s.queue q).bound = true → Runs s (dieOf (s.queue q).core) →
      s.channelRoom (s.queue q).core (s.queue q).channel ≠ 0 → (freeEntries (s.queue q)).head? = some k →
      (s.queue q).entries[k]? = some e →
      ∃ t, Becomes (.queueDelivery q) s t ∧ (t.queue q).entries = (s.queue q).entries.take k ++ (s.queue q).entries.drop (k + 1) ∧
        t.net = s.net ++ [{ core := (s.queue q).core, chan := (s.queue q).channel, sender := .queue q
                            tok := { e.tok with chan := BitVec.ofNat 8 (s.queue q).channel } }] ∧
        t.teams = s.teams ∧ t.mem = s.mem) ∧
    (∀ q x rest, (s.queue q).waiting = x :: rest → (s.queue q).enable = true →
      (s.queue q).entries.length < 16 * 2 ^ (s.queue q).depthLog → x.tok.data.length = 16 →
      let asid := (x.tok.data.getD 0 0).toNat / 2 ^ 16
      let number := PMap.getD s.faultSeq asid 0 + 1
      ∃ t tok, Becomes (.queueEngineTokenRelease q) s t ∧ (t.queue q).waiting = rest ∧
        (t.queue q).entries = (s.queue q).entries ++ [⟨tok, none, s.clk (dieOf (s.queue q).core)⟩] ∧
        (∀ r, r ≠ q → t.queue r = s.queue r) ∧ t.teams = s.teams ∧ t.mem = s.mem ∧ t.net = s.net ∧
        tok.damaged = (x.tok.damaged || decide (Config.linkError s.tick = .beyond)) ∧ tok.kind = x.tok.kind ∧
        (∀ e, e ≠ 7 → tok.data.getD e 0 = x.tok.data.getD e 0) ∧
        (x.record = false → tok.data = x.tok.data ∧ t.faultSeq = s.faultSeq) ∧
        (x.record = true → tok.data.getD 7 0 = BitVec.ofNat 32 number ∧ PMap.get? t.faultSeq asid = some number))

/-- R362: lanes that leave a block for several targets split the group. The sub-group with the most lanes runs, of equals that with the lowest
target; every other one waits in an entry of its own, and a named join address gets a join entry for all of them. -/
def Obligations.ExitsSplitTheGroup : Prop :=
  ∀ (G : Group) J (xs : List Going), xs ≠ [] → (xs.map (·.lane)).Nodup → (∀ x, x ∈ xs → x.lane < 16) →
    let H := G.split J xs
    let n := fun t => (xs.filter fun x => x.target = t).length
    (∃ x, x ∈ xs ∧ x.target = H.pc) ∧
    (∀ l, l < 16 → (laneBit H.mask l = true ↔ ∃ x, x ∈ xs ∧ x.lane = l ∧ x.target = H.pc)) ∧
    (∀ x, x ∈ xs → x.target ≠ H.pc → n x.target < n H.pc ∨ n x.target = n H.pc ∧ H.pc.toNat < x.target.toNat) ∧
    ((∀ x, x ∈ xs → x.target = H.pc) → H.recon = G.recon) ∧
    (∀ x, x ∈ xs → x.target ≠ H.pc → ∃ e, e ∈ H.recon ∧ e.kind = .waiting ∧ e.addr = x.target ∧
      ∀ l, l < 16 → (laneBit e.mask l = true ↔ ∃ y, y ∈ xs ∧ y.lane = l ∧ y.target = x.target)) ∧
    (∀ a, J = some a → (∃ x, x ∈ xs ∧ x.target ≠ H.pc) → ∃ e, e ∈ H.recon ∧ e.kind = .join ∧ e.addr = a ∧ e.arrived = 0 ∧
      ∀ l, l < 16 → (laneBit e.mask l = true ↔ ∃ y, y ∈ xs ∧ y.lane = l)) ∧
    H.calls = G.calls ∧ H.exited = G.exited ∧ H.v = G.v

/-- R366 to R369: the threads that a team's groups have gathered are packed once every group has ended or waits at the pack block, and return
home once every packed group has committed its `rejoin` block: each group then holds the threads that are its own, with their registers, in the
lanes that they had, and they go on at the targets that they recorded, split where these differ; a group without a thread has ended. -/
def Obligations.ThreadsPackAndReturn : Prop :=
  ∀ (s : State) k T P, s.team? k = some T → T.packing = some P → T.place = .resident →
    (P.open_ = false → (∀ G, G ∈ T.groups → G.phase = .gathered ∨ G.phase = .ended) → (T.tape.mode ≠ .reversing ∨ P.tape = false) →
      ∃ t U, Becomes (.pack k) s t ∧ t.team? k = some U ∧ U.packing = some { P with open_ := true } ∧
        U.groups.length = T.groups.length ∧ U.ibud = T.ibud ∧ U.shared = T.shared ∧
        (∀ (g : Nat) G, U.groups[g]? = some G →
          G.launched = maskOf (fun l => (T.threads.any fun x => decide (x.lane = l) &&
            decide (planOf (packPlan T.groups.length T.threads) x.home x.lane = some g)))) ∧ t.mem = s.mem) ∧
    (P.open_ = true → (∀ G, G ∈ T.groups → G.phase ≠ .running ∧ G.phase ≠ .gathered) →
      (T.tape.mode ≠ .recording ∨ T.tape.stalled = none) →
      ∃ t, Becomes (.rejoinReturn k) s t ∧ t.net = s.net ∧ (T.tape.mode = .idle → T.tape.head = none →
        ∃ U, t.team? k = some U ∧ U.packing = none ∧ U.groups.length = T.groups.length ∧ U.shared = T.shared ∧ U.ibud = T.ibud ∧
        ∀ (h : Nat) G H, T.groups[h]? = some G → U.groups[h]? = some H →
          let home := fun (x : Homing) => x ∈ T.packedThreads ∧ x.home = h
          ((∀ x, ¬ home x) → H.phase = .ended) ∧
          (∀ l, l < 16 → (∃ x, home x) → (laneBit (H.launched &&& ~~~H.exited) l = true ↔ laneBit G.seats l = true ∧ ∃ x, home x ∧ x.lane = l)) ∧
          ((∃ x, home x) → H.phase = .running ∧
            (G.calls = [] → ((T.packedThreads.filter fun x => x.home = h).map (·.lane)).Nodup →
              (∃ x, home x ∧ x.target = H.pc) ∧
              (∀ l, l < 16 → (laneBit H.mask l = true ↔ ∃ x, home x ∧ x.lane = l ∧ x.target = H.pc)) ∧
              (∀ x, home x → x.target ≠ H.pc → ∃ e, e ∈ H.recon ∧ e.kind = .waiting ∧ e.addr = x.target ∧ laneBit e.mask x.lane = true) ∧
              ∀ x K, home x → T.groups[x.packed]? = some K → (K.v.map (·.1)).Nodup → SameLane x.lane H.v K.v))))

namespace Sys2Proof.Claims
open Sys2Proof.Machine

/-! ### Transfers, bank units and the matrix engine at work -/

/-- A running stream of a team, without a stall outstanding. -/
def Streams (s : State) (k i : Nat) (T : Team) (x : Stream) (store : Bool) : Prop :=
  s.team? k = some T ∧ PMap.getD T.streams i {} = x ∧ x.running = true ∧ x.store = store ∧ x.stalled = none

/-- The team is resident and not being taken, and has the claim. -/
def HasClaim (s : State) (k : Nat) (T : Team) (M : Matrix) : Prop :=
  s.team? k = some T ∧ T.matrix = some M ∧ T.place = .resident ∧ T.taken = none

/-- The command is in the team's queue, not started, and its turn has come (R156). -/
def Next (M : Matrix) (x : MatCmd) : Prop :=
  M.queue.find? (fun y => y.seq = x.seq) = some x ∧ x.started = false ∧ M.inOrder x = true

/-- The claim of a team after a step. -/
def claimOf (s : State) (k : Nat) : Option Matrix := (s.team? k).bind (·.matrix)

/-- A signed byte of a row of a node over the buffers that a product spans (R154, R160). -/
def i8At (bufs : List MatBuffer) (row e : Nat) : Int :=
  (BitVec.ofNat 8 (sramRead (bufs.getD (e / 256) {}).data (256 * row + e % 256) 1)).toInt

/-- Element e of a row of a node over the buffers that a product spans, in its format, and under `scaled` with the scale of its block of 32
elements (R154, R159). -/
def factorAt (f : Fmt) (width : Nat) (scaled : Bool) (bufs : List MatBuffer) (row e : Nat) : FVal :=
  let buf := bufs.getD (width * e / 2048) {}
  let bit := width * e % 2048
  let scale := sramRead buf.scale (16 * row + e % (2048 / width) / 32) 1
  let v := f.value (sramRead buf.data (256 * row + bit / 8) 2 / 2 ^ (bit % 8) % 2 ^ width)
  if scaled = false then v
  else if scale = 255 then .nan
  else match v with | .fin n m x => .fin n m (x + scale - 127) | _ => v

/-- The finite number that a value is, else 0. -/
def finiteOf : FVal → Rat
  | .fin n m e => dyadic n m e
  | _ => 0

/-- s is the exact sum of the products of a chunk (R94, R159). -/
def IsSum (ps : List FVal) (s : FVal) : Prop :=
  let nan : Prop := .nan ∈ ps ∨ (.inf false ∈ ps ∧ .inf true ∈ ps)
  (nan → s = .nan) ∧ (∀ n, ¬nan → .inf n ∈ ps → s = .inf n) ∧
  ((∀ p, p ∈ ps → ∃ n m e, p = .fin n m e) → ∃ n m e, s = .fin n m e ∧ dyadic n m e = (ps.map finiteOf).sum ∧
    (m = 0 → (n = true ↔ ∀ p, p ∈ ps → ∃ e, p = .fin true 0 e)))

/-- A product's element: from c0 on, the exact sum of each chunk is added in turn and rounded once (R159). -/
def Accumulates (a b : Nat → FVal) (chunk count c0 c : Nat) : Prop :=
  ∃ cs : Nat → Nat, cs 0 = c0 ∧ cs count = c ∧ ∀ q, q < count → ∃ s,
    IsSum ((List.range chunk).map fun e => mulVal (a (chunk * q + e)) (b (chunk * q + e))) s ∧
    cs (q + 1) = fmtF32.addVal .rne (fmtF32.value (cs q)) s

/-- The elements of a tile of a store stream that are held once a token has been taken. -/
def heldWith (x : Stream) (fit : List Nat) : PMap Nat :=
  ((List.range fit.length).zip fit).foldl (fun m p => PMap.insert m (x.pos + p.1) p.2) x.pending

/-- A store that waits for its moment at a control row, first of all (R323). -/
def NextStore (s : State) (event : Instr) (x : RowStore) (rest : List RowStore) : Prop :=
  s.rowStores = x :: rest ∧ rowStoreEvent x = event

end Sys2Proof.Claims

/-- R323, R328, R330: stores to control rows act one by one, in their order. One that sets the request bit asks for all-bank mode, which is
granted at once while fewer than 16 pseudo-channels of the stack hold it and none waits; one that clears it withdraws a waiting request, or
leaves the mode. A waiting request is granted a free place, active 128 cycles later, and over once it is left. That a request which is granted
and not yet active is withdrawn too is the model's reading (log entry 127). -/
def Obligations.ControlRowsAndAllBankMode : Prop :=
  ∀ s : State,
    (∀ x rest, NextStore s .controlRowStore x rest →
      Becomes .controlRowStore s (({ s with rowStores := rest }).rowStored x)) ∧
    (∀ x rest stack pc b o, windowOf x.pa = .controlRow stack pc b o →
      let u := ({ s with rowStores := rest }).rowStored x
      let S := (u.setAllBank stack pc .off).stack stack
      (NextStore s .abmRequest x rest → u.allBank stack pc = .off → ∃ t, Becomes .abmRequest s t ∧
        (S.places < 16 → S.firstWaiting = none → t.allBank stack pc = .granted (s.clk (dieOfStack stack))) ∧
        (16 ≤ S.places ∨ S.firstWaiting ≠ none →
          ∃ asid, t.allBank stack pc = .waiting (s.clk (dieOfStack stack)) asid) ∧ t.mem = s.mem ∧ t.rowStores = rest) ∧
      (NextStore s .abmLeave x rest → ∃ t, Becomes .abmLeave s t ∧ t.rowStores = rest ∧ t.mem = s.mem ∧
        (∀ since asid, u.allBank stack pc = .waiting since asid ∨ u.allBank stack pc = .granted since → t.allBank stack pc = .off) ∧
        (u.allBank stack pc = .active → t.allBank stack pc = .leaving))) ∧
    (∀ stack pc since asid, (s.stack stack).firstWaiting = some (pc, since, asid) → (s.stack stack).places < 16 →
      ∃ t, Becomes (.allBankGrant stack) s t ∧ t.allBank stack pc = .granted (s.clk (dieOfStack stack)) ∧ t.mem = s.mem) ∧
    (∀ stack pc since, s.allBank stack pc = .granted since → since + 128 ≤ s.clk (dieOfStack stack) →
      ∃ t, Becomes (.allBankActive stack pc) s t ∧ t.allBank stack pc = .active ∧ t.mem = s.mem) ∧
    (∀ stack pc, s.allBank stack pc = .leaving →
      ∃ t, Becomes (.allBankExit stack pc) s t ∧ t.allBank stack pc = .off ∧ t.mem = s.mem)

/-- R155, R156, R164, R165, R170: a command of the matrix engine starts in its turn. A fill waits until its buffer is empty; a product takes the
array for 32 cycles a chunk of K; a paired one asks its partner first, and raises MATRIX_PAIR on an engine that is not paired. `mzero` clears
its tile, `mwr` writes the lanes of its value, and the dissolving of a pair ends it, at once. -/
def Obligations.MatrixCommandsStart : Prop :=
  ∀ (s : State) k T M x, HasClaim s k T M → Next M x →
    (x.op = 0x18F ∧ (M.buf x.nodeB x.buffer).full = false ∨ x.op = 0x190 →
      Becomes (.matrixCommandStart k x.seq) s (s.setCmd k { x with started := true })) ∧
    (x.op = 0x192 → ∃ t N, Becomes (.matrixCommandStart k x.seq) s t ∧ claimOf t k = some N ∧
      (∀ y, y ∈ N.queue → y.seq ≠ x.seq) ∧
      (∀ i, i < 16384 → PMap.getD N.acc (16384 * (x.a.toNat % 4) + i) 0 = 0) ∧
      (∀ n, n / 16384 ≠ x.a.toNat % 4 → PMap.getD N.acc n 0 = PMap.getD M.acc n 0)) ∧
    (x.op = 0x1A3 → x.vals.length = 16 → ∃ t N, Becomes (.matrixCommandStart k x.seq) s t ∧ claimOf t k = some N ∧
      (∀ l, l < 16 → PMap.getD N.acc (tileKey x.a.toNat l) 0 =
        match x.vals.getD l none with | some v => v | none => PMap.getD M.acc (tileKey x.a.toNat l) 0) ∧
      (∀ n, (∀ l, l < 16 → n ≠ tileKey x.a.toNat l) → PMap.getD N.acc n 0 = PMap.getD M.acc n 0)) ∧
    (x.op = 0x193 → x.a.toNat % 4 = 3 → ∃ t N, Becomes (.matrixCommandStart k x.seq) s t ∧ claimOf t k = some N ∧ N.pair = none) ∧
    (∀ east, x.op = 0x193 → x.a.toNat % 4 = (if east then 1 else 2) → ∀ u, s.neighbour T east = some u →
      ∃ t N, Becomes (.matrixCommandStart k x.seq) s t ∧ claimOf t k = some N ∧
        N.ask = some { sent := s.clk (dieOf T.core), partner := u, east := east }) ∧
    (x.paired = true → M.pair = none → Becomes (.matrixCommandStart k x.seq) s (s.matrixFault k x .matrixPair 0 false 0 [] 0)) ∧
    (∀ p east u, x.paired = true → M.pair = some (p, east) → M.ready x = true → s.neighbour T east = some u →
      ∃ t N, Becomes (.matrixCommandStart k x.seq) s t ∧ claimOf t k = some N ∧
        N.ask = some { sent := s.clk (dieOf T.core), partner := u, east := east } ∧ ∃ y, y ∈ N.queue ∧ y = { x with started := true }) ∧
    (x.isMma = true → x.paired = false → M.ready x = true → s.arrayTurn T.core k = true →
      ∃ t N, Becomes (.matrixCommandStart k x.seq) s t ∧ claimOf t k = some N ∧ (t.core T.core).arrayLast = k ∧
        N.doneAt = s.clk (dieOf T.core) + 32 * 2 ^ (x.ext % 8) ∧ (∃ y, y ∈ N.queue ∧ y = { x with started := true }))

/-- R154, R155, R159, R160, R164, R171: a product that has run, without a mismatch of checksums, writes its tile once. An element of an i8
product is the old one, or 0, with the products of the two rows added modulo 2^32; an element of a floating product begins with the old one, or
-0, and adds the exact sum of each chunk in turn. The A buffers that it spans become empty, and its own B buffers; those that a pair reads do once
both halves have completed. `mld` fills its buffer from the record, and `mst` stores its tile. -/
def Obligations.MatrixCommandsComplete : Prop :=
  ∀ (s : State) k T M x, s.team? k = some T → T.matrix = some M →
    (M.running = some x → M.ask = none → M.doneAt ≤ s.clk (dieOf T.core) → Config.checksumMismatch s.tick = none → (x.west ≠ none → x.paired = true) →
      (x.west = none → x.paired = false) →
      let bufsA := (x.spanA M).map (M.buf false)
      let bufsB := match x.west.bind fun w => (s.team? w).bind (·.matrix) with
        | some W => W.span.map (W.buf true)
        | none => (x.spanB M).map (M.buf true)
      let tile := x.a.toNat % 4
      let n := 2 ^ (x.ext % 8)
      let old := fun i j => if x.a.getLsbD 2 then PMap.getD M.acc (16384 * tile + 128 * i + j) 0 else 0
      let first := fun i j => if x.a.getLsbD 2 then (old i j).toNat else 0x80000000
      let dots := fun (N : Matrix) (f g : Fmt) (width : Nat) => ∀ i j, i < 128 → j < 128 →
        ∃ c, PMap.getD N.acc (16384 * tile + 128 * i + j) 0 = BitVec.ofNat 32 c ∧
          Accumulates (factorAt f width (x.a.getLsbD 9) bufsA i) (factorAt g width (x.a.getLsbD 9) bufsB j) (256 / width) n (first i j) c
      ∃ t N, Becomes (.mmaComplete k) s t ∧ claimOf t k = some N ∧ t.mem = s.mem ∧
        (∀ y, y ∈ N.queue → y.seq ≠ x.seq) ∧
        (∀ i, (i ∈ x.spanA M → N.buf false i = { M.buf false i with full := false }) ∧ (i ∉ x.spanA M → N.buf false i = M.buf false i)) ∧
        (x.west = none → ∀ i, (i ∈ x.spanB M → N.buf true i = { M.buf true i with full := false }) ∧
          (i ∉ x.spanB M → N.buf true i = M.buf true i)) ∧
        (∀ w W, x.west = some w → (s.team? w).bind (·.matrix) = some W → ∃ V, claimOf t w = some V ∧
          let last := if w = k then W.eastDone else W.westDone
          (last = false → ∀ i, V.buf true i = W.buf true i) ∧
          (last = true → ∀ i, (i ∈ W.span → V.buf true i = { W.buf true i with full := false }) ∧ (i ∉ W.span → V.buf true i = W.buf true i))) ∧
        (∀ n, n / 16384 ≠ tile → PMap.getD N.acc n 0 = PMap.getD M.acc n 0) ∧
        (((x.west.map fun w => ((s.team? w).bind (·.matrix)).isSome) ≠ some false) →
          (x.op = 0x199 → ∀ i j, i < 128 → j < 128 → PMap.getD N.acc (16384 * tile + 128 * i + j) 0 =
            BitVec.ofInt 32 ((old i j).toNat + ((List.range (32 * n)).map fun e => i8At bufsA i e * i8At bufsB j e).sum)) ∧
          (x.op = 0x191 → dots N (if bitsOf x.ext 3 1 = 1 then fmtBf16 else fmtF16) (if bitsOf x.ext 4 1 = 1 then fmtBf16 else fmtF16) 16) ∧
          (x.op = 0x197 → dots N (if bitsOf x.ext 3 1 = 1 then fmtE5m2 else fmtE4m3) (if bitsOf x.ext 4 1 = 1 then fmtE5m2 else fmtE4m3) 8) ∧
          (x.op = 0x198 → dots N fmtE2m1 fmtE2m1 4))) ∧
    (M.moving 0x18F = some x → ∀ u m vs,
      let r := recOf x.record
      s.mldElements k x (x.agent k T) r {} 0 r.elements = .ok (u, m, vs) → r.fused = 0 →
      ∃ t N, Becomes (.mldComplete k) s t ∧ claimOf t k = some N ∧ (∀ y, y ∈ N.queue → y.seq ≠ x.seq) ∧
        (x.scalePart = false → (N.buf x.nodeB x.buffer).full = true ∧
          (N.buf x.nodeB x.buffer).data = rowBytes (typeWidth r.type) r.cols r.rows 256 vs) ∧
        (x.scalePart = true → (N.buf x.nodeB x.buffer).scale = rowBytes (typeWidth r.type) r.cols r.rows 16 vs)) ∧
    (M.moving 0x190 = some x →
      let r := recOf x.record
      let vs := (List.range r.elements).map fun e => mstValue r.type (PMap.getD M.acc (16384 * (x.a.toNat % 4) + 128 * (e / r.cols) + e % r.cols) 0)
      s.firstBad (x.agent k T) r 0 vs = none →
      Becomes (.mstComplete k) s ((s.storeTile (.copy k x.seq) (x.agent k T) r 0 (vs.map some)).matrixDone k x.seq))

namespace Sys2Proof.Claims
open Sys2Proof.Machine

/-! ### Residencies at work -/

/-- A residency whose fabric runs. -/
def RunsFabric (s : State) (n k : Nat) (R : Residency) (F : Fabric) : Prop :=
  s.residency? n k = some R ∧ R.fab = some F ∧ R.state = .running ∧ F.started = true

/-- A residency after a step. -/
def After (s : State) (n k : Nat) (P : Residency → Prop) : Prop := ∃ R, s.residency? n k = some R ∧ P R

/-- A node of a running fabric that serves a record of plain elements (R254), in the role given. -/
def Serves (s : State) (n k i : Nat) (R : Residency) (F : Fabric) (x : AgNode) (role : NodeRole) (ws : RecWords) : Prop :=
  RunsFabric s n k R F ∧ PMap.get? F.nodes i = some x ∧ x.role = role ∧ (∃ va, x.binding = .record ws va) ∧ (recOf ws).codec = 0 ∧
    (recOf ws).fused = 0 ∧ x.ended = false ∧ x.sent = false ∧ x.fault = none

/-- The node of a residency after a step. -/
def NodeAfter (s : State) (n k i : Nat) (P : Residency → Fabric → AgNode → Prop) : Prop :=
  ∃ R F x, s.residency? n k = some R ∧ R.fab = some F ∧ PMap.get? F.nodes i = some x ∧ P R F x

/-- Tokens on their way that a fabric did not have before: one for each receiver of a circuit, with the circuit's number, the receiving
context's slot, and all else as given (R274, R278). -/
def Sends (F G : Fabric) (circuit ctx : Nat) (inlets : List Inlet) (tok : Token) : Prop :=
  ∃ item : Carried, G.flying = F.flying ++ inlets.map (fun p => ⟨item, circuit, p⟩) ∧
    item.tok = { tok with chan := BitVec.ofNat 8 circuit, ctx := BitVec.ofNat 2 (F.slots.getD ctx 0) }

/-- A node has sent a token into the fabric on its circuit. -/
def Feeds (F G : Fabric) (i : Nat) (tok : Token) : Prop := Sends F G (192 + i) (F.contextOf i) (F.inside i) tok

/-- The lanes of an operand of an element: its valid elements (R300). -/
def operandLanes (t : Option Token) : Lanes :=
  match t with | some t => (List.range 16).map fun e => (elementAt t e).map up | none => []

/-- What an element's instruction finds in place of lanes: no lane beyond its elements, its guard, its operands, and `perm`'s selector in
k1:k0 (R279, R300). -/
def elementIn (E : Elem) (guard : Nat → Bool) (draw : Nat → W32) : LaneIn where
  view := { dead := 0, content := [] }
  on := maskOf guard
  a := operandLanes (srcToken E.x E.w.a)
  b := if E.op = .permB32 then
      List.replicate 16 (some ((up (PMap.getD E.x.consts 1 0) <<< 32) ||| up (PMap.getD E.x.consts 0 0)))
    else operandLanes (srcToken E.x E.w.b)
  c := operandLanes (srcToken E.x E.w.c)
  draw := draw

end Sys2Proof.Claims

/-- R289 to R292, R391, R442, R444: what ends the run of a residency. A residency without a firing left begins to drain; a drain that is complete
puts it back into the queue with its slots free; one whose last image is over ends without an error; ABORT of an outstanding fault lets it end with
one, once its tiles are performed; RESUME of a fault whose address is mapped now lets the node go on, and a fault drain whose faults have all been
resumed restarts in place. The shortfall of one firing (log entry 85), the wait of a suspended residency for a budget (log entry 65), the drain
of an aborted one (log entry 77) and what a restart in place sends again (log entry 144) are the model's choices. -/
def Obligations.ResidenciesStop : Prop :=
  ∀ s : State,
    (∀ n k R F, RunsFabric s n k R F → R.fbud = 0 → R.drain = none → Becomes (.fbudExhausted n k) s
      (s.modResidency n k fun Q => { Q with drain := some .firings, shortfall := 1 })) ∧
    (∀ n k R F cause, RunsFabric s n k R F → R.drain = some cause → cause ≠ .fault → cause ≠ .killed → s.quiet n k R F = true →
      (∀ o, o ∈ R.halts → o.resumed = true) → ∃ t, Becomes (.drainAndSwitch n k) s t ∧ After t n k fun Q => Q.state = .queued ∧ Q.suspended = true ∧ Q.fab = none ∧ Q.drain = none ∧
        Q.saved = some F.save ∧ Q.awaitsBudget = (R.awaitsBudget || decide (cause = .firings ∨ cause = .traffic))) ∧
    (∀ n k R F, RunsFabric s n k R F → R.drain = some .killed → s.quiet n k R F = true →
      ∃ t, Becomes (.drainAndSwitch n k) s t ∧ After t n k fun Q => Q.state = .ended ∧ Q.error = true ∧ Q.fab = none) ∧
    (∀ n k R F, RunsFabric s n k R F → R.lastImage = true → F.flying = [] →
      (∀ e, e ∈ F.elems → e.2.iterating = false ∧ ∀ p, p ∈ e.2.bufs → p.2 = [] ∨ F.carriedPort e.2 p.1 = true) →
      (∀ x, x ∈ F.nodes → x.2.role = .reply ∨ x.2.ended = true) →
      ∃ t, Becomes (.residencyEnd n k) s t ∧ After t n k fun Q => Q.state = .ended ∧ Q.error = R.error ∧ Q.fab = none) ∧
    (∀ n node seq k R i o, n < 16 → node < 64 → s.hub.phase = .full → s.outstanding? n node seq.toNat = some (k, R, i, o) →
      s.residency? n k = some R → R.state = .running →
      ∃ t, Becomes (.abort n node seq) s t ∧ After t n k fun Q => Q.state = .running ∧ Q.drain = some .killed ∧ Q.image = R.image) ∧
    (∀ n k R F, RunsFabric s n k R F → R.drain = some .fault → s.quiet n k R F = true → (∀ o, o ∈ R.halts → o.resumed = true) →
      ∃ t, Becomes (.drainAndSwitch n k) s t ∧ t.mem = s.mem ∧ After t n k fun Q => Q.state = .running ∧ Q.drain = none ∧ Q.halts = [] ∧
        Q.fbud = R.fbud ∧ Q.fab = some (F.startAt (some F.save))) ∧
    (∀ n node seq k R o, n < 16 → node < 64 → s.hub.phase = .full → s.outstanding? n node seq.toNat = some (k, R, none, o) →
      s.residency? n k = some R → ∃ t, Becomes (.resume n node seq) s t ∧ t.mem = s.mem ∧ After t n k fun Q =>
        Q.halts = R.halts.map fun x => if x = o then { x with resumed := true } else x) ∧
    (∀ n node seq k R i o p, n < 16 → node < 64 → s.hub.phase = .full → s.outstanding? n node seq.toNat = some (k, R, some i, o) →
      s.translate R.asid R.sup .r Means.loader.reaches o.record.address = .ok p → s.residency? n k = some R →
      ∃ t, Becomes (.resume n node seq) s t ∧ t.mem = s.mem ∧ NodeAfter t n k i fun _ _ x => x.fault = none) ∧
    (∀ n node seq, n < 16 → node < 64 → s.hub.phase = .full → s.outstanding? n node seq.toNat = none →
      Becomes (.resume n node seq) s s ∧ Becomes (.abort n node seq) s s)

/-- R300 to R303: an element runs an instruction over its tokens, element by element: the result is valid where every operand taken from a port is
valid and the guard is true, and it goes to both outputs that the operator word names. Every instruction marked T applies to the elements the
operation that it applies to the lanes of a block, with a uniform result in every element; `gred.sexp` reduces eight pairs, `movi` takes its value
and `lea` its offset from a k register, `cvt.sr` steps its generators first, and `bpenc` sends planes and mask apart. -/
def Sys2Proof.Claims.ElementsRunInstructions : Prop :=
  ∀ (s : State) n k e E, s.elem? n k e = some E → E.allData = true → s.chosen E = true →
    let guard := fun e => E.w.p == .none || match (srcToken E.x E.w.p).bind fun t => elementAt t e with
      | some x => x.getLsbD 0 != E.w.sense
      | none => false
    let sent := fun (t : Token) (m : Token) (after : ElemCtx) =>
      (∀ o, (o = 0 ∧ E.w.o0 = true ∨ o = 1 ∧ E.w.o1 = true) → E.fab.canSend E.x o = true) →
      (0 < E.res.fbud ∨ E.res.drain.isSome = true) →
      Becomes (.elementDataFiring n k e) s (s.applyFiring E (takesAll E [(0, t), (1, m)] after))
    let sends := fun (t : Token) => (∀ o, (o = 0 ∧ E.w.o0 = true ∨ o = 1 ∧ E.w.o1 = true) → E.fab.canSend E.x o = true) →
      (0 < E.res.fbud ∨ E.res.drain.isSome = true) →
      Becomes (.elementDataFiring n k e) s (s.applyFiring E (takesAll E [(0, t), (1, t)] E.x))
    (∀ (i : Instr) (f : W32 → W32 → W32) rm sc a b, E.op = i → srcToken E.x E.w.a = some a → srcToken E.x E.w.b = some b →
      (i, f) ∈ [(Instr.addB32, fun x y => x + y), (.subB32, fun x y => x - y), (.mulB32, fun x y => x * y),
        (.addSatI32, fun x y => clampS 32 (x.toInt + y.toInt)), (.subSatN32, fun x y => clampU 32 (x.toNat - y.toNat : Int)),
        (.divN32, fun x y => if y = 0 then BitVec.allOnes 32 else x / y), (.bitwiseB32 .xor, fun x y => x ^^^ y),
        (.shl .b32, fun x y => x <<< y.toNat), (.min .i32, fun x y => if x.sle y then x else y),
        (.cmpN32 .lt, fun x y => if x.toNat < y.toNat then 1 else 0), (.faddF32 rm, fun x y => lo (faddOf tyF32 rm (up x) (up y))),
        (.fmulF32 rm, fun x y => lo (fmulOf tyF32 rm (up x) (up y))), (.fmaxF32, fun x y => lo (fmaxOf tyF32 (up x) (up y))),
        (.leaShort sc, fun x y => x + y * BitVec.ofInt 32 (scaleOf sc))] →
      ∃ t, t.kind = .data ∧ t.tag = resultTag E.x E.w ∧ sends t ∧ ∀ e, e < 16 →
        elementAt t e = if guard e then (elementAt a e).bind fun x => (elementAt b e).map fun y => f x y else none) ∧
    (∀ (i : Instr) (f : W32 → W32 → W32 → W32) rm sc off a b c, E.op = i → srcToken E.x E.w.a = some a → srcToken E.x E.w.b = some b →
      srcToken E.x E.w.c = some c →
      (i, f) ∈ [(Instr.madB32, fun x y z => x * y + z), (.sel .b32, fun x y z => if z.getLsbD 0 then x else y),
        (.fmaF32 rm, fun x y z => lo (fmaOf tyF32 rm (up x) (up y) (up z))), (.leaLong sc off, fun x y z => x + y * BitVec.ofInt 32 (scaleOf sc) + z)] →
      ∃ t, t.kind = .data ∧ t.tag = resultTag E.x E.w ∧ sends t ∧ ∀ e, e < 16 →
        elementAt t e = if guard e then (elementAt a e).bind fun x => (elementAt b e).bind fun y => (elementAt c e).map fun z => f x y z
          else none) ∧
    (∀ a, (∃ v, E.op = .moviShort v) ∨ (∃ v, E.op = .moviLong .b32 v) → srcToken E.x E.w.a = some a →
      ∃ t, t.kind = .data ∧ t.tag = resultTag E.x E.w ∧ sends t ∧ ∀ e, e < 16 → elementAt t e = if guard e then elementAt a e else none) ∧
    (∀ i op, E.op = i → tOperator i = some op → i ≠ .gredSexp →
      let stepped := E.x.gens.map fun g => (g.1, genStep g.2)
      let gens := if i ∈ [Instr.cvtSrE4m3F32 false, .cvtSrE4m3F32 true, .cvtSrE5m2F32 false, .cvtSrE5m2F32 true, .cvtSrE2m1F32 false,
        .cvtSrE2m1F32 true] then stepped else E.x.gens
      let y := elementIn E guard fun l => PMap.getD gens l 0
      ∃ t, t.kind = .data ∧ t.tag = resultTag E.x E.w ∧ sent t t { E.x with gens := gens } ∧ ∀ e, e < 16 → elementAt t e =
        (laneAt (if op.shape = .uniform then List.replicate 16 (some (op.lane y 0)) else op.result y) e).map lo) ∧
    (∀ i op, tOperator i = some op → (∀ b, i ≠ .moviShort b) → (∀ ty b, i ≠ .moviLong ty b) → (∀ sc, i ≠ .leaShort sc) →
      (∀ sc b, i ≠ .leaLong sc b) → ∀ u, exec i u = fireLane u op) ∧
    (∀ a, E.op = .gredSexp → srcToken E.x E.w.a = some a →
      let present := fun e => if guard e then elementAt a e else none
      let r := treeRoot sexpOf sexpIdentity 3 ((List.range 8).map fun j => match present (2 * j), present (2 * j + 1) with
        | some m, some z => up m ||| (up z <<< 32)
        | _, _ => sexpIdentity)
      ∃ t, t.kind = .data ∧ t.tag = resultTag E.x E.w ∧ sends t ∧ ∀ e, e < 16 → elementAt t e =
        if e = 0 then some (lo r) else if e = 1 then some (lo (r >>> 32)) else none) ∧
    (∀ a, srcToken E.x E.w.a = some a →
      let words := (List.range 16).map fun e => if guard e then elementAt a e else none
      let valid := maskOf fun e => laneBit a.valid e && guard e
      (E.op = .bpenc → ∃ t m, t.kind = .data ∧ m.kind = .data ∧ t.tag = resultTag E.x E.w ∧ m.tag = t.tag ∧ sent t m E.x ∧
        t.data = (planesOf words).1 ∧ t.valid = valid ∧ m.valid = 3 ∧ m.data.getD 0 0 = (planesOf words).2 ∧ m.data.getD 1 0 = valid.setWidth 32) ∧
      (E.op = .bpdec → ∃ t, t.kind = .data ∧ t.tag = resultTag E.x E.w ∧ sends t ∧ t.valid = valid ∧ t.data = planesBack words))

/-- R276, R277, R283, R300, R304, R305: an element that is chosen and whose outputs have room fires on data, or on control tokens where it cannot;
a fault-stall token passes at once. -/
def Sys2Proof.Claims.ElementsFire : Prop :=
  ∀ (s : State) n k e E, s.elem? n k e = some E →
    (∀ f, E.data s = .fires f → E.enabled (.fires f) = true → s.chosen E = true →
      Becomes (.elementDataFiring n k e) s (s.applyFiring E f)) ∧
    (∀ f, E.enabled (E.data s) = false → E.ctl s = .fires f → E.enabled (.fires f) = true → s.chosen E = true →
      Becomes (.elementControlFiring n k e) s (s.applyFiring E f)) ∧
    (∀ p t, E.heads.find? (fun h => match h.2 with | some t => t.tok.kind == .faultStall | none => false) = some (p, some t) →
      (∀ o, o ∈ E.x.outs → E.fab.canSend E.x o.1 = true) →
      Becomes (.faultStallPass n k e) s (s.applyFiring E { take := [p], send := E.x.outs.map fun o => (o.1, t.tok)
                                                           needs := E.x.outs.map (·.1), after := E.x, charge := false }))

/-- R25, R277, R296: tokens on circuits. The first of its circuit that is not damaged reaches its receiver; a link port node passes its next token to the
channel or the queue that it is bound to, and an incoming one takes the oldest entry of its queue; a damaged entry ends the residency. -/
def Obligations.CircuitsCarryTokens : Prop :=
  ∀ s : State,
    (∀ n k R F i f, s.residency? n k = some R → R.fab = some F → F.flying[i]? = some f →
      (∀ (j : Nat) g, j < i → F.flying[j]? = some g → g.inlet ≠ f.inlet) → f.item.tok.damaged = false → Config.linkError s.tick ≠ .beyond →
      ∃ t, Becomes (.circuitTokenArrival n k i) s t ∧ t.mem = s.mem ∧ t.teams = s.teams ∧ After t n k fun Q => ∃ G, Q.fab = some G ∧
        G.flying = F.flying.take i ++ F.flying.drop (i + 1) ∧
        (∀ e p x, f.inlet = .port e p → PMap.get? F.elems e = some x → x.passed = false →
          ∃ y, PMap.get? G.elems e = some y ∧ PMap.getD y.bufs p [] = PMap.getD x.bufs p [] ++ [f.item]) ∧
        (∀ j x, f.inlet = .node j → PMap.get? F.nodes j = some x →
          ∃ y, PMap.get? G.nodes j = some y ∧ y.buf = x.buf ++ [f.item])) ∧
    (∀ n k R F i x q rest, RunsFabric s n k R F → PMap.get? F.nodes i = some x → x.role = .link → x.ended = false → x.sent = false →
      F.extout.testBit i = true → x.buf = q :: rest → q.tok.kind = .data → x.done ≤ x.taken.length →
      (∀ core chan tag, x.binding = .channel core chan tag → s.channelRoom core chan ≠ 0 →
        ∃ t, Becomes (.linkPortNodeTransfer n k i) s t ∧ t.mem = s.mem ∧
          t.net = s.net ++ [{ core := core, chan := chan, sender := .linkPort n k i
                              tok := { q.tok with chan := BitVec.ofNat 8 chan, ctx := 0, tag := tag } }] ∧
          NodeAfter t n k i fun _ _ y => y.buf = rest) ∧
      (∀ qn, x.binding = .queue qn → (s.queue qn).enable = true → (s.queue qn).entries.length < 16 * 2 ^ (s.queue qn).depthLog →
        ∃ t entry, Becomes (.linkPortNodeTransfer n k i) s t ∧ t.mem = s.mem ∧ (t.queue qn).entries = (s.queue qn).entries ++ [entry] ∧
          entry.tok.data = q.tok.data ∧ entry.held = none ∧ NodeAfter t n k i fun _ _ y => y.buf = rest)) ∧
    (∀ n k R F i x qn j entry, RunsFabric s n k R F → PMap.get? F.nodes i = some x → x.role = .link → x.ended = false → x.sent = false →
      x.stopped = false → x.log.length ≤ x.tile → R.stopping = false → R.drain = none → F.extout.testBit i = false → x.binding = .queue qn →
      (freeEntries (s.queue qn)).head? = some j → (s.queue qn).entries[j]? = some entry → F.canFeed i = true →
      (entry.tok.damaged = false → entry.tok.kind = .data ∨ entry.tok.kind = .endOfTile →
        ∃ t, Becomes (.linkPortNodeTransfer n k i) s t ∧ t.mem = s.mem ∧
          (t.queue qn).entries = (s.queue qn).entries.take j ++ (s.queue qn).entries.drop (j + 1) ∧
          NodeAfter t n k i fun _ G y => Feeds F G i entry.tok ∧ y.log = x.log ++ [entry.tok]) ∧
      (entry.tok.damaged = true → ∃ t, Becomes (.linkPortNodeTransfer n k i) s t ∧
        After t n k fun Q => Q.state = .ended ∧ Q.error = true ∧ Q.fab = none))

/-- R220, R221, R254, R269, R391: the AG nodes of a residency. A loader pays a tile's traffic before it sends its elements, and then sends a
token of them, the end of the tile where the record asks for it, and the end of the stream last; it stops at a boundary for a drain. A storer
takes tokens, holds their elements, and stores them when their tile ends, which it tells on its own circuit; then it ends. A request is
answered with the elements that it names, sent to the consumer that its tag names in the context that it came from; which reply circuit that takes
is the model's choice (log entry 147). -/
def Obligations.NodesServeRecords : Prop :=
  ∀ (s : State) n k i R F x ws,
    let r := recOf ws
    let units := fun m => (m * typeWidth r.type + 511) / 512
    (Serves s n k i R F x .loader ws → x.stopped = false → R.drain = none → F.canFeed i = true →
      (x.eotDue = false → x.part = [] → x.tileOpen = false → x.pos < r.elements → R.stopping = false →
        units (r.tileEnd x.pos - x.pos) ≤ R.tbud →
        ∃ t, Becomes (.agLoaderIssue n k i) s t ∧ t.mem = s.mem ∧ NodeAfter t n k i fun Q _ y =>
          y.tileOpen = true ∧ y.pos = x.pos ∧ Q.tbud = R.tbud - units (r.tileEnd x.pos - x.pos)) ∧
      (x.eotDue = false → x.part = [] → x.tileOpen = false → x.pos < r.elements → R.stopping = false →
        R.tbud < units (r.tileEnd x.pos - x.pos) →
        ∃ t, Becomes (.agLoaderIssue n k i) s t ∧ After t n k fun Q => Q.drain = some .traffic ∧
          Q.shortfall = units (r.tileEnd x.pos - x.pos)) ∧
      (∀ xs, x.eotDue = false → x.part = [] → x.tileOpen = true →
        s.readElements R.agent r x.pos (min r.perToken (r.tileEnd x.pos - x.pos)) = .ok xs →
        ∃ t, Becomes (.agLoaderIssue n k i) s t ∧ t.mem = s.mem ∧ NodeAfter t n k i fun _ G y =>
          (∃ tok, tok.data = (elementToken (typeWidth r.type) xs 0 x.tileTok).data ∧ tok.kind = .data ∧ Feeds F G i tok) ∧
          y.pos = x.pos + xs.length ∧ (x.pos + xs.length = r.tileEnd x.pos → y.tileOpen = false ∧ y.eotDue = r.eot ∧ y.tile = x.tile + 1)) ∧
      (x.eotDue = true → ∃ t, Becomes (.agLoaderIssue n k i) s t ∧ t.mem = s.mem ∧ NodeAfter t n k i fun _ G y => y.eotDue = false ∧
        Feeds F G i (controlToken .endOfTile ((r.indices ((x.tile - 1) * r.tileElems)).map (BitVec.ofNat 32)) 0)) ∧
      (x.eotDue = false → x.part = [] → x.tileOpen = false → r.elements ≤ x.pos → R.lastImage = true → x.endDue ≠ 2 →
        ∃ t, Becomes (.agLoaderIssue n k i) s t ∧ t.mem = s.mem ∧ NodeAfter t n k i fun _ G y => y.ended = true ∧
          Feeds F G i (controlToken .endOfStream [] 0))) ∧
    (Serves s n k i R F x .loader ws → x.stopped = false → R.drain ≠ none → F.canFeed i = true → x.eotDue = false → x.part = [] →
      x.tileOpen = false → ∃ t, Becomes (.agLoaderIssue n k i) s t ∧ t.mem = s.mem ∧ NodeAfter t n k i fun _ _ y => y.stopped = true) ∧
    (∀ told q rest, Serves s n k i R F x (.storer told) ws → x.buf = q :: rest → x.tileDue = false → (∀ o, o ∈ R.halts → o.node ≠ some i) →
      x.eotDue = false → x.done ≤ x.taken.length →
      (q.tok.kind = .data →
        let stop := if r.eot then r.tileEnd x.pos else r.elements
        let fit := (tokenElements (typeWidth r.type) q.tok).take (stop - x.pos)
        s.firstBad R.storerAgent r x.pos fit = none →
        ∃ t, Becomes (.agStorerToken n k i) s t ∧ t.mem = s.mem ∧ NodeAfter t n k i fun _ _ y =>
          y.buf = rest ∧ y.pos = x.pos + fit.length ∧ (y.tileDue = true ↔ r.eot = false ∧ x.tileTok + 1 = 4096) ∧
          ∀ j, j < fit.length → PMap.get? y.pending (x.pos + j) = fit[j]?) ∧
      (q.tok.kind = .endOfTile → r.eot = true → ∃ t, Becomes (.agStorerToken n k i) s t ∧ t.mem = s.mem ∧ NodeAfter t n k i fun _ _ y =>
        y.buf = rest ∧ y.tileDue = true ∧ y.pending = x.pending) ∧
      (q.tok.kind = .endOfStream → ∃ t, Becomes (.agStorerToken n k i) s t ∧ t.mem = s.mem ∧ NodeAfter t n k i fun _ _ y =>
        y.buf = rest ∧ y.tileDue = true ∧ y.endDue = 1)) ∧
    (∀ told, Serves s n k i R F x (.storer told) ws → x.tileDue = true → (∀ o, o ∈ R.halts → o.node ≠ some i) →
      (∀ j, told = some j → j ≠ i ∧ F.canFeed j = true ∧ ∃ y, PMap.get? F.nodes j = some y ∧ y.log.length ≤ y.tile) →
      let tells := fun (G : Fabric) (tok : Token) => (told = none → G.flying = F.flying) ∧ ∀ j, told = some j → Feeds F G j tok
      let holds := x.endDue = 0 ∨ x.pending ≠ [] ∨ x.tileTok ≠ 0
      (holds → s.unstorable R.storerAgent r (x.pending.map fun p => (p.1, some p.2)) = none →
        ∃ t, Becomes (.agTileEnd n k i) s t ∧ t.mem = (s.storePending R.storerAgent (.node n k i) r x.pending).mem ∧
          (∀ e v pa g, x.pending = [(e, v)] → typeWidth r.type = 8 → s.locateBits R.storerAgent r.space .w (r.bitAddr e) 8 = .ok [.mem pa g] →
            (s.storageAddr pa).isSome = true → t.readByte g pa = some (BitVec.ofNat 8 v)) ∧
          NodeAfter t n k i fun Q G y => y.pending = [] ∧ y.tile = x.tile + 1 ∧ y.endDue = x.endDue ∧ (y.tileDue = true ↔ x.endDue ≠ 0) ∧
            Q.tbud = R.tbud - units x.pending.length ∧
            (r.eot = true → tells G (controlToken .endOfTile ((r.indices (x.tile * r.tileElems)).map (BitVec.ofNat 32)) 0))) ∧
      (x.endDue ≠ 0 → x.pending = [] → x.tileTok = 0 → ∃ t, Becomes (.agTileEnd n k i) s t ∧ t.mem = s.mem ∧
        NodeAfter t n k i fun _ G y => y.tileDue = false ∧ y.endDue = 0 ∧ (y.ended = true ↔ x.endDue = 1 ∨ x.endDue = 2) ∧
          (x.endDue = 1 → tells G (controlToken .endOfStream [] 0)) ∧ (x.endDue = 2 → tells G (controlToken .endOfStreamError x.endData 0)))) ∧
    (∀ replies q rest reply inlet, Serves s n k i R F x (.requests replies) ws → x.buf = q :: rest →
      F.consumer replies (F.logical q.tok.ctx.toNat) q.tok.tag = some (reply, inlet) → F.hasSlot inlet = true →
      let answers := fun (G : Fabric) (tok : Token) => Sends F G (192 + reply) (F.logical q.tok.ctx.toNat) [inlet] tok
      (q.tok.kind = .endOfTile → ∃ t, Becomes (.agLoaderRequest n k i) s t ∧ t.mem = s.mem ∧ NodeAfter t n k i fun _ G y =>
        y.buf = rest ∧ answers G q.tok) ∧
      (q.tok.kind = .data → x.part = [] → x.tileOpen = false → typeWidth r.type ≠ 64 →
        (∀ l, laneBit q.tok.valid l = true → l < 16 → (q.tok.data.getD l 0).toNat < r.elements ∧
          ∃ v, s.readElement R.agent r (q.tok.data.getD l 0).toNat = .ok v) →
        units (maskCount q.tok.valid) ≤ R.tbud →
        ∃ t tok, Becomes (.agLoaderRequest n k i) s t ∧ t.mem = s.mem ∧
          (NodeAfter t n k i fun Q G y => y.buf = rest ∧ answers G tok ∧ Q.tbud = R.tbud - units (maskCount q.tok.valid)) ∧
          tok.kind = .data ∧ tok.tag = q.tok.tag ∧ ∀ l, l < 16 → (laneBit q.tok.valid l = false → elementAt tok l = none) ∧
            ∀ v, laneBit q.tok.valid l = true → s.readElement R.agent r (q.tok.data.getD l 0).toNat = .ok v →
              elementAt tok l = some (BitVec.ofNat 32 v)))

namespace Sys2Proof.Claims
open Sys2Proof.Machine

/-! ### The machine as a whole -/

/-- An instruction that stands in block code. -/
def InBlockCode (i : Instr) : Prop := i.fields?.isSome = true

/-- The row that decoding gives for a word that several rows share: the operand on port a tells them apart. -/
def firstRow (i : Instr) : Instr :=
  match i with
  | .mpairWest | .mpairDissolve => .mpairEast
  | .cfgSignalRelease | .cfgSignalStep | .cfgSignalStop | .cfgSignalPriority => .cfgSignalStatus
  | .cfgEvictKill => .cfgEvictDrain
  | .retireKeep1 => .retireKeep0
  | .tlbinvVa | .tlbinvAsidEntry | .tlbinvAll => .tlbinvAsid
  | .monCfgStop | .monCfgDump => .monCfgConfigure
  | i => i

/-- The bytes of a node's words. -/
def codeBytes (n : Node) : List W8 := (encode n).flatMap wordBytes

/-- The group and its team, at a block whose fault or trap is not fatal (R419, R435): outside supervisor mode, in a team below supervisor
privilege, in a live ASID with a trap vector. -/
def TakesTraps (s : State) (k g : Nat) (T : Team) (G : Group) : Prop :=
  s.team? k = some T ∧ T.groups[g]? = some G ∧ G.sup = none ∧ T.sup = false ∧ (s.asidEntry T.asid).tvec ≠ 0 ∧
    (s.asidEntry T.asid).state ≠ .dying

/-- What an instruction's fire leaves alone in a group (R38, R39): registers, lanes, program counter, stacks and saved registers. -/
def SameGroup (G H : Group) : Prop :=
  H.v = G.v ∧ H.g = G.g ∧ H.p = G.p ∧ H.launched = G.launched ∧ H.exited = G.exited ∧ H.mask = G.mask ∧ H.pc = G.pc ∧ H.path = G.path ∧
    H.recon = G.recon ∧ H.calls = G.calls ∧ H.sup = G.sup ∧ H.epc = G.epc ∧ H.fltinfo = G.fltinfo ∧ H.fltaddr = G.fltaddr ∧
    H.ssca = G.ssca ∧ H.sscb = G.sscb ∧ H.gens = G.gens ∧ H.spill = G.spill ∧ H.eyelets = G.eyelets ∧ H.phase = G.phase

/-- The next act of the step is that of a group (R37, R41). -/
def GroupIsNext (s : State) (k g : Nat) (u : State) : Prop :=
  s.hub.hot = none ∧ s.rowStores = [] ∧
    ((∃ rest, s.agenda = .thread k g :: rest ∧ u = { s with agenda := rest, cur := some (k, g) }) ∨
      s.agenda = [] ∧ s.forced = none ∧ s.moves[Config.choice s.tick % s.moves.length]? = some (.thread k g) ∧
        u = { s with cur := some (k, g) })

end Sys2Proof.Claims

/-- R342, R343, R409, R423: a write of a handler entry that passes its check takes effect, one that finds a frame being filled waits, and a refused
one is the block's fault; a walk leaves its translation in the cache; a teardown ends once no team and no residency of the ASID remains, and leaves
nothing of it in the caches. That an entry written with valid = 0 passes whatever its channels is the model's reading (log entry 43). -/
def Obligations.IsolationEvents : Prop :=
  ∀ s : State,
    (∀ c v, s.ctx? = some c →
      let core := c.team.core
      (s.hent0Verdict core (s.core core) v = .pass → Becomes (.hent0Write v) s ((s.doHent0 core v).settleCore core)) ∧
      (s.hent0Verdict core (s.core core) v = .busy → Becomes (.hent0Write v) s (s.waitOn c .room)) ∧
      (v.getLsbD 0 = false → v.getLsbD 15 = false → (PMap.getD (s.core core).handlers ((s.core core).hsel.toNat % 64) {}).present = 0 →
        ∃ t, Becomes (.hent0Write v) s t ∧
          PMap.get? (t.core core).handlers ((s.core core).hsel.toNat % 64) = some (handlerOf v (s.core core).hent1)) ∧
      (∀ x, s.hent0Verdict core (s.core core) v = .refused x →
        Becomes (.hent0Write v) s (s.takeFault c.t c.g c.blk.head { code := .badHandle, slot := c.blk.slot }))) ∧
    (∀ asid va e, s.cached asid va.toNat = none → (s.asidEntry asid).state ≠ .dying → s.walk asid va.toNat = .ok e →
      Becomes (.translationWalk asid va) s
        { s with tlb := s.tlb ++ [e], asidCache := PMap.insert s.asidCache asid.toNat (s.asidEntry asid) }) ∧
    (∀ asid, asid ∈ s.dying → (∀ k T, (k, T) ∈ s.teams → T.asid = asid → T.gone = true) →
      (∀ n S k R, (n, S) ∈ s.hbmStacks → (k, R) ∈ S.residencies → R.asid = asid → R.state = .ended) →
      ∃ t, Becomes (.asidTeardownEnd asid) s t ∧ t.dying = s.dying.filter (· ≠ asid) ∧ t.teams = s.teams ∧
        (∀ e, e ∈ t.tlb → e.asid ≠ asid) ∧ PMap.get? t.asidCache asid.toNat = none)

/-- R404, R405 to R408, R410, R411, R423: what a translation checks. A dying ASID gives PAGE at level 4, an address beyond 56 bits ACCESS; a page that
does not grant the access, one for supervisors alone, and a window that the access does not reach give ACCESS; main memory and a
control row under a key that is not bound to the tenant give KEY, as does slot 0 for a tenant other than 0; what passes is the page's address with
the offset. That the fault under a dying ASID is PAGE at level 4 is the model's reading (log entry 19). -/
def Obligations.TranslationChecks : Prop :=
  ∀ (s : State) asid sup need reach va,
    ((s.asidEntry asid).state = .dying → s.translate asid sup need reach va = .error ⟨.page, 4⟩) ∧
    ((s.asidEntry asid).state ≠ .dying → 2 ^ 56 ≤ va.toNat → s.translate asid sup need reach va = .error ⟨.access, 0⟩) ∧
    (∀ e, (s.asidEntry asid).state ≠ .dying → va.toNat < 2 ^ 56 → s.cached asid va.toNat = some e →
      let pa := e.pa + (va.toNat - e.va)
      ((e.grants need = false ∨ e.s = true ∧ sup = false ∨ reach (windowOf pa) = false) →
        s.translate asid sup need reach va = .error ⟨.access, 0⟩) ∧
      (e.grants need = true → (e.s = true → sup = true) → reach (windowOf pa) = true →
        ((windowOf pa = .hbm ∨ ∃ port o, windowOf pa = .secondTier port o) ∧ (s.storageAddr pa).isSome = true ∨
            (∃ stack pc b o, windowOf pa = .controlRow stack pc b o) →
          (∀ tenant g, PMap.get? s.keys e.key = some (.bound tenant g) →
            (tenant = s.tenantOf asid → (e.key = 0 → s.tenantOf asid = 0) → s.translate asid sup need reach va = .ok ⟨pa, e.key, g⟩) ∧
            (tenant ≠ s.tenantOf asid ∨ e.key = 0 ∧ s.tenantOf asid ≠ 0 → s.translate asid sup need reach va = .error ⟨.key, 0⟩)) ∧
          ((∀ tenant g, PMap.get? s.keys e.key ≠ some (.bound tenant g)) → s.translate asid sup need reach va = .error ⟨.key, 0⟩)) ∧
        (∀ d o, windowOf pa = .scratchpad d o → (s.storageAddr pa).isSome = true →
          s.translate asid sup need reach va = .ok ⟨pa, 0, 0⟩))) ∧
    (∀ f, (s.asidEntry asid).state ≠ .dying → va.toNat < 2 ^ 56 → s.cached asid va.toNat = none → s.walk asid va.toNat = .error f →
      s.translate asid sup need reach va = .error f) ∧
    ((s.asidEntry asid).valid = false → s.walk asid va.toNat = .error ⟨.page, 4⟩)

/-- R419, R435: where a fault or a trap is not fatal, the group enters supervisor mode at the trap vector of its ASID: EPC names the faulting
block, or the next block of a trap; FLTINFO holds code, slot, lane and immediate, and FLTADDR the address; the block has no other effect, and
registers stay. `eret` returns to EPC with the mask of the entry. -/
def Sys2Proof.Claims.TrapsEnterAndReturn : Prop :=
  ∀ (s : State) k g T G, TakesTraps s k g T G →
    (∀ F x, G.blk = some F → x.slot < 64 → x.lane < 16 → x.code ≠ .barrierSpill →
      ∃ H U, (s.takeFault k g F.head x).group? k g = some H ∧ (s.takeFault k g F.head x).team? k = some U ∧
        H.sup = some ⟨G.mask⟩ ∧ H.epc = F.head ∧ H.fltaddr = x.addr ∧ H.pc = (s.asidEntry T.asid).tvec ∧ H.path = .trapEntry ∧
        H.blk = none ∧ H.v = G.v ∧ H.g = G.g ∧ H.p = G.p ∧ H.mask = G.mask ∧ H.recon = G.recon ∧ H.calls = G.calls ∧
        H.fltinfo.toNat = x.code.toNat + 2 ^ 21 * x.slot + 2 ^ 27 * x.lane + (if x.header then 2 ^ 31 else 0) ∧
        U.ibud = T.ibud ∧ U.tbud = T.tbud ∧ (s.takeFault k g F.head x).mem = s.mem) ∧
    (∀ head slot imm, slot < 64 → imm < 4096 →
      ∃ H, (s.takeTrap k g head slot imm).group? k g = some H ∧ H.sup = some ⟨G.mask⟩ ∧ H.epc = G.pc ∧ H.fltaddr = 0 ∧
        H.pc = (s.asidEntry T.asid).tvec ∧ H.path = .trapEntry ∧ H.fltinfo.toNat = 2 ^ 8 + 2 ^ 9 * imm + 2 ^ 21 * slot ∧ H.v = G.v ∧
        H.g = G.g ∧ (s.takeTrap k g head slot imm).mem = s.mem) ∧
    (∀ head info addr mask, G.exited = 0 →
      let u := s.enterSupervisor k g head info addr
      (∃ H, u.group? k g = some H ∧ H.sup.isSome = true) ∧
      ∃ H, ((u.modGroup k g fun K => { K with mask := mask }).returnFromTrap k g).group? k g = some H ∧ H.sup = none ∧ H.pc = head ∧
        H.mask = G.mask ∧ H.path = .refetch ∧ H.v = G.v)

/-- R435, R436, R438, R439: a fatal fault ends its team, and leaves a record marked fatal in the queue that `fq` names: the code in its first byte, the
ASID above its first half-word, its number under the ASID, and the address that the fault names. -/
def Sys2Proof.Claims.FatalFaultsEndTheTeam : Prop :=
  ∀ (s : State) k g T G head x, s.team? k = some T → T.groups[g]? = some G → s.isFatal T G = true →
    let t := s.takeFault k g head x
    t.team? k = none ∧ t.cur = none ∧ t.mem = s.mem ∧
    (∀ m U, m ≠ k → s.team? m = some U → U.lead ≠ T.lead → (∀ M y, T.matrix = some M → y ∈ M.queue → y.west ≠ some m) →
      t.team? m = some U) ∧
    (∀ q, s.supervisorQueue (s.asidEntry T.asid).fq = some q → (s.queue q).enable = true → (s.queue q).waiting = [] →
      (s.queue q).entries.length < 16 * 2 ^ (s.queue q).depthLog →
      ∃ e, (t.queue q).entries.getLast? = some e ∧ e.tok.kind = .data ∧
        (e.tok.data.getD 0 0).toNat % 2 ^ 8 = x.code.toNat ∧ (e.tok.data.getD 0 0).getLsbD 8 = true ∧
        (e.tok.data.getD 0 0).toNat / 2 ^ 16 = T.asid.toNat ∧
        (x.detail < 256 → x.slot < 64 → x.lane < 16 →
          e.tok.data.getD 2 0 = x.addr.setWidth 32 ∧ e.tok.data.getD 3 0 = (x.addr >>> 32).setWidth 32 ∧
          (e.tok.data.getD 7 0).toNat = (PMap.getD s.faultSeq T.asid.toNat 0 + 1) % 2 ^ 32))

/-- R5, R410, R429, and the model's choices of log entries 2 and 3: what holds right after reset. No die runs and no team exists; key slot 0 is bound
to tenant 0; memory lists nothing, and the first step is the root of trust's check of the image. -/
def Obligations.ResetState : Prop :=
  State.reset.hub.phase = .reset ∧ State.reset.mem = [] ∧ State.reset.teams = [] ∧ State.reset.queues = [] ∧
    PMap.get? State.reset.keys 0 = some (.bound 0 1) ∧ (∀ k, 0 < k → PMap.get? State.reset.keys k = none) ∧
    (∀ q, (State.reset.queue q).enable = false) ∧ State.reset.asidBase = none ∧ State.reset.tlb = [] ∧
    State.reset.MemoryCanonical ∧
    (∀ gen pa d o, windowOf pa = .scratchpad d o → (State.reset.storageAddr pa).isSome = true → State.reset.readByte gen pa = some 0) ∧
    (∀ d, State.reset.clk d = 0) ∧ ∃ t, exec .powerOnReset State.reset = .next t

/-- R30 to R34, R81 to R83, and the encoding tables: a well-formed instruction of block code, with targets and a guard that its layout
has, encodes to words that decode to it, whatever follows them. Of rows that share a word it is the first that decoding gives, which is the model's
reading (log entry 46). -/
def Obligations.BlockCodeRoundTrip : Prop :=
  ∀ (n : Node) rest, InBlockCode n.instr → WellFormed n.instr = true → n.wf = true → n.edgesFit = true →
    decodeBytes (codeBytes n ++ rest) = .ok ({ n with instr := firstRow n.instr }, rest)

/-- R279, R306: the payload of a fabric operator's word decodes to the operator with its fields. -/
def Obligations.OperatorWordsRoundTrip : Prop :=
  ∀ i o x, encodeFabric i o = some x → i ≠ .iter 7 → decodeOperator x = .ok (i, o)

/-- The encoding tables, with the words that the spec writes out for its own blocks (R142 and the worked programs), one or more of each class:
each decodes to the instruction that stands beside it, with its targets and its guard, and leaves what follows it. -/
def Obligations.WordsOfTheSpecDecode : Prop :=
  ∀ rest, let reads := fun (w : W32) (n : Node) => decodeBytes (wordBytes w ++ rest) = .ok (n, rest)
    let readsLong := fun (w x : W32) (n : Node) => decodeBytes (wordBytes w ++ wordBytes x ++ rest) = .ok (n, rest)
    reads 0x00800046 ⟨.rd (.lane 0 false), some ⟨6, .a⟩, none, .always⟩ ∧
    reads 0x01051000 ⟨.wr (.uniform 10), none, none, .always⟩ ∧
    reads 0x019FFEC3 ⟨.moviShort 0xFFF, some ⟨3, .c⟩, none, .always⟩ ∧
    reads 0x03010843 ⟨.lid, some ⟨3, .a⟩, some ⟨4, .b⟩, .always⟩ ∧
    reads 0x04000001 ⟨.br 0 1, none, none, .always⟩ ∧
    reads 0x06800000 ⟨.exit 0, none, none, .always⟩ ∧
    reads 0x0A800000 ⟨.eret, none, none, .always⟩ ∧
    reads 0x20000146 ⟨.addB32, some ⟨6, .w⟩, none, .always⟩ ∧
    reads 0x21000147 ⟨.addSatI32, some ⟨7, .w⟩, none, .always⟩ ∧
    reads 0x30080104 ⟨.cmpI32 .lt, some ⟨4, .p⟩, none, .always⟩ ∧
    reads 0x46800048 ⟨.fmulF32 .rne, some ⟨8, .a⟩, none, .always⟩ ∧
    reads 0x49800149 ⟨.fmaF32 .rne, some ⟨9, .w⟩, none, .always⟩ ∧
    reads 0x81000144 ⟨.xlaneB32 .lo false, some ⟨4, .w⟩, none, .always⟩ ∧
    readsLong 0xA3000144 0x00000024 ⟨.atomAdd ⟨.device, .rlx, .spad⟩ false, some ⟨4, .w⟩, none, .always⟩ ∧
    reads 0xC0000000 ⟨.cpy false, none, none, .always⟩ ∧
    reads 0xC0800143 ⟨.cpyBatch, some ⟨3, .w⟩, none, .always⟩ ∧
    readsLong 0xC8800000 0x00000018 ⟨.mmaF16 ⟨0, true, true⟩, none, none, .always⟩ ∧
    reads 0xCF028D43 ⟨.tapePop, some ⟨3, .w⟩, some ⟨6, .w⟩, .always⟩ ∧
    reads 0xE7800143 ⟨.cfgLaunch, some ⟨3, .w⟩, none, .always⟩ ∧
    reads 0xE9A00000 ⟨.spawn, none, none, .when⟩ ∧
    reads 0xED800000 ⟨.asidKill, none, none, .always⟩ ∧
    reads 0xEF800000 ⟨.keydrop, none, none, .always⟩

/-- R37 to R39: a step in which a group acts fetches its block where none is under way, runs exactly the instruction that the words at its slot decode
to, or commits the block after its last slot; and time passes with it. That of rows which share a word the operand on port a selects (log entry 46),
and that a step is one slot of a group which a free choice names (log entries 4 and 7), are the model's choices. -/
def Obligations.StepRunsDecodedInstruction : Prop :=
  ∀ (s : State) k g u, GroupIsNext s k g u →
    (u.ctx? = none → step s = afterwards (exec .blockFetch u)) ∧
    (∀ c n, u.ctx? = some c → c.blk.slot ≤ c.blk.hdr.count →
      decodeSlot (c.blk.words.getD c.blk.slot 0) c.blk.words[c.blk.slot + 1]? = .ok n →
      step s = afterwards (exec (alternative n.instr ((c.port? .a).bind Val.uniform?)) u)) ∧
    (∀ c, u.ctx? = some c → c.blk.hdr.count < c.blk.slot → step s = afterwards (exec .blockCommit u)) ∧
    (∀ i t, exec i u = .next t → afterwards (exec i u) = .next t.elapse ∧ t.elapse.tick = t.tick + 1 ∧
      ((∀ j T, (j, T) ∈ t.teams → T.taken = none) → t.elapse.teams.map (·.1) = t.teams.map (·.1) ∧ t.elapse.mem = t.mem)) ∧
    (∀ T G H h ws, s.blockAt T G H = .ok (h, ws) → ws.length = h.count + 1 ∧
      (∃ w, s.codeWord T.asid (T.sup || G.sup.isSome) H = .ok w ∧ headerOf w = h) ∧
      s.codeWords T.asid (T.sup || G.sup.isSome) (H + 4) (h.count + 1) = .ok ws)

/-- R32, R33, R81, R82, R404, R415: what decode refuses, by name. An unassigned opcode is ILLEGAL_OPCODE; an opcode or a control register that
needs supervisor privilege is PRIV, and so is any write of the cycle count; a header whose counts differ from the block's is BLOCK_FORM, raised for
the header. That a `bud.give` without a `spawn` is reported before it is the model's choice (log entry 25). -/
def Obligations.DecodeRefusesByName : Prop :=
  ∀ who count slot (w : W32) next x,
    (isBlockOpcode (w.toNat / 2 ^ 23) = false → scanSlot who count slot w next x = .error .illegalOpcode) ∧
    (isBlockOpcode (w.toNat / 2 ^ 23) = true → who.calibrated = true → who.sup = false → isSupOpcode (w.toNat / 2 ^ 23) = true →
      w.toNat / 2 ^ 23 ≠ 0x012 → w.toNat / 2 ^ 23 ≠ 0x013 → scanSlot who count slot w next x = .error .priv) ∧
    (who.calibrated = false → w.toNat / 2 ^ 23 = 0x197 ∨ w.toNat / 2 ^ 23 = 0x198 → scanSlot who count slot w next x = .error .illegalOpcode) ∧
    (∀ number, number = bitsOf w.toNat 9 12 →
      (w.toNat / 2 ^ 23 = 0x012 → who.sup = false → number ∈ [0x042, 0x043, 0x044, 0x050, 0x051, 0x052] →
        scanSlot who count slot w next x = .error .priv) ∧
      (w.toNat / 2 ^ 23 = 0x013 → who.sup = false → number ∈ [0x010, 0x011, 0x040, 0x041, 0x042, 0x043, 0x044, 0x050, 0x051, 0x052] →
        scanSlot who count slot w next x = .error .priv) ∧
      (w.toNat / 2 ^ 23 = 0x013 → number = 0x012 → scanSlot who count slot w next x = .error .priv)) ∧
    (∀ y, scanSlot who count slot w next x = .ok y → ∃ n, decodeSlot w next = .ok n ∧ y.charge = x.charge + chargeOf (w.toNat / 2 ^ 23) (next.getD 0) ∧
      y.targets = x.targets ++ nodeDests n ∧
      ∀ d, d ∈ nodeDests n → slot < d.slot.toNat ∧ d.slot.toNat ≤ count) ∧
    (∀ (s : State) T G H h ws, s.blockAt T G H = .ok (h, ws) → ∃ y, scanSlots ⟨T.sup || G.sup.isSome, T.k,
        (s.die (dieOf T.core)).calibrated⟩ h.count 0 {} ws = .ok y ∧ h.charge = y.charge ∧ h.writes = y.writes ∧
      y.exits.length = h.exits + 1 ∧ h.reserved = 0 ∧ h.kind ≤ 4 ∧ ws.length = h.count + 1 ∧ H.toNat % 16 = 0) ∧
    (∀ (s : State) T G H p v ws y,
      let sup := T.sup || G.sup.isSome
      let h := headerOf v
      s.translate T.asid sup .x Window.isScratchpad H = .ok p → H.toNat % 16 = 0 → s.codeWord T.asid sup H = .ok v →
      s.codeWords T.asid sup (H + 4) (h.count + 1) = .ok ws →
      scanSlots ⟨sup, T.k, (s.die (dieOf T.core)).calibrated⟩ h.count 0 {} ws = .ok y → (y.gives = [] ∨ y.spawns ≠ 0) →
      h.charge ≠ y.charge ∨ h.writes ≠ y.writes ∨ y.exits.length ≠ h.exits + 1 ∨ h.reserved ≠ 0 ∨ 4 < h.kind ∨
        (∃ e, e ≤ h.exits ∧ (y.exits.filter (· = e)).length ≠ 1) →
      s.blockAt T G H = .error { code := .blockForm, header := true })

/-- R36, R38, R41: an instruction is active in the lanes of the block's mask in which its guard is true. A fire that completes delivers its values to
the ports that its targets name, adds its effects to those that the commit performs, and goes on to the next slot that has not fired; one
that waits keeps its slot. -/
def Sys2Proof.Claims.FiringDelivers : Prop :=
  (∀ c : Ctx,
    (c.node.guard = .always → c.on? = some c.blk.mask) ∧
    (c.node.guard ≠ .always → c.port? .p = none → c.on? = none) ∧
    (∀ v, c.node.guard ≠ .always → c.port? .p = some v → ∃ on, c.on? = some on ∧ ∀ l, l < 16 → (laneBit on l = true ↔
      laneBit c.blk.mask l = true ∧ ∃ x, lane v l = some x ∧ x.getLsbD 0 = decide (c.node.guard = .when)))) ∧
  (∀ (s : State) c v0 v1 es, s.ctx? = some c →
    let gives := fun (d : Option Dest) (v : Option Val) => match d, v with
      | some d, some v => [(⟨d.slot.toNat, d.port, v⟩ : PortVal)]
      | _, _ => []
    ∃ F, ((s.complete c v0 v1 es).group? c.t c.g).bind (·.blk) = some F ∧ F.ports = c.blk.ports ++ gives c.node.t0 v0 ++ gives c.node.t1 v1 ∧
      F.wait = none ∧ F.mask = c.blk.mask ∧
      ((∀ e ∈ c.blk.early, e.slot ≠ c.blk.slot + c.size) →
        F.effects = c.blk.effects ++ es ∧ F.slot = c.blk.slot + c.size ∧ F.early = c.blk.early) ∧
      (∀ e rest, c.blk.early = e :: rest → e.slot = c.blk.slot + c.size → (∀ x ∈ rest, x.slot ≠ e.slot + e.size) →
        F.effects = c.blk.effects ++ es ++ e.effects ∧ F.slot = e.slot + e.size ∧ F.early = rest)) ∧
  (∀ (s : State) c k, s.ctx? = some c →
    ∃ F, ((s.waitOn c k).group? c.t c.g).bind (·.blk) = some F ∧ F = { c.blk with wait := some k })

/-- R38, R39, R53: until the block commits, an instruction of block code changes no memory, no register and no other part of the machine that a
program can see. While the group's block stands, the whole state is as before, but for what a fire reserves or begins: the group's block, its waits
and its replay latches, with the head of a channel that a latch now holds (R48); a channel slot (R49), a queue entry (R268) and, in a block executed
again for it, a barrier's entry with the one that makes room for it (R447); and the stall of a tape read with its record (R193). -/
def Sys2Proof.Claims.FiringLeavesTheMachineAlone : Prop :=
  ∀ i (s t : State) c F, InBlockCode i → s.ctx? = some c → exec i s = .next t → (t.group? c.t c.g).bind (·.blk) = some F →
    let room := (i = .barArrive ∨ i = .barSync ∨ i = .barRed) ∧ c.group.barSpill = some c.blk.head
    let tape := i = .tapePop ∨ i = .tapeBrpop ∨ i = .tapeRev ∨ i = .tapeStat
    t.keys = s.keys ∧ t.draws = s.draws ∧ t.asidBase = s.asidBase ∧ t.asidCache = s.asidCache ∧ t.tlb = s.tlb ∧ t.dying = s.dying ∧
      t.hbmStacks = s.hbmStacks ∧ t.net = s.net ∧ t.rowStores = s.rowStores ∧ t.hub = s.hub ∧ t.nextTeam = s.nextTeam ∧ t.tick = s.tick ∧
      (¬room → t.mem = s.mem ∧ t.memTag = s.memTag ∧ t.poison = s.poison) ∧
      (¬tape → t.dies = s.dies ∧ t.faultSeq = s.faultSeq ∧ ∀ q, (t.queue q).entries.map (·.tok) = (s.queue q).entries.map (·.tok) ∧
        { t.queue q with entries := [] } = { s.queue q with entries := [] }) ∧
      (∀ k T, s.team? k = some T → ∃ U, t.team? k = some U ∧
        U = { T with groups := U.groups, tape := { T.tape with stalled := U.tape.stalled } } ∧ (¬tape → U.tape = T.tape)) ∧
      (∀ k, let C := s.core k
        let D := t.core k
        D = { C with channels := D.channels, reservedSlots := D.reservedSlots, bars := D.bars, spilledBars := D.spilledBars } ∧
        (¬room → D.bars = C.bars ∧ D.spilledBars = C.spilledBars) ∧
        ∀ chan, PMap.getD D.channels chan [] = PMap.getD C.channels chan [] ∨
          ∃ tok n G, PMap.getD C.channels chan [] = tok :: PMap.getD D.channels chan [] ∧ t.group? c.t c.g = some G ∧
            PMap.get? G.latches n = some tok) ∧
      (∀ k g G, s.group? k g = some G → ∃ H, t.group? k g = some H ∧ SameGroup G H ∧ ((k, g) ≠ (c.t, c.g) → H.blk = G.blk)) ∧
      F.head = c.blk.head ∧ F.words = c.blk.words ∧ F.mask = c.blk.mask ∧
      (((∀ e ∈ c.blk.early, e.slot ≠ c.blk.slot + c.size) → F.slot = c.blk.slot + c.size) ∧ F.wait = none ∨
        F.slot = c.blk.slot ∧ F.wait.isSome = true)

/-- R38, R39: a later slot that fires before the slot at which its block stands runs the instruction that its words decode to, on the values at its
own ports. Where it completes, the block stands where it stood and keeps the slot's effects for the commit; where it raises a fault, the fault is
taken; where it begins a wait on a queue, the group keeps the start of the wait; and a slot that waits otherwise has not fired. A slot whose read
comes after that of an earlier one which has not fired (R211, R217) is none of those that fire ahead. That fires are taken one at a time and in which
order is the model's choice (log entries 7 and 133). -/
def Sys2Proof.Claims.SlotsFireAhead : Prop :=
  ∀ (s : State) k g j c n, ({ s with cur := some (k, g) } : State).ctx? = some c →
    decodeSlot (c.blk.words.getD j 0) c.blk.words[j + 1]? = .ok n →
    let u := ({ s with cur := some (k, g) } : State).modFlight k g fun F => F.standAt j
    let a := (c.blk.ports.find? fun v => v.slot = j ∧ v.port = .a).map (·.val)
    (c.blk.readHeld j = true → j ∉ c.blk.slotsAhead) ∧
    ∀ t, exec (alternative n.instr (a.bind Val.uniform?)) u = .next t →
      ((t.group? k g).bind (·.blk) = none → s.perform (.ahead k g j) = .next t) ∧
      (∀ G F, t.group? k g = some G → G.blk = some F →
        (F.wait = none →
          ∃ v H, s.perform (.ahead k g j) = .next v ∧ (v.group? k g).bind (·.blk) = some H ∧ H.slot = c.blk.slot ∧ H.wait = c.blk.wait ∧
            H.effects = c.blk.effects ∧ H.ports = F.ports ∧ v.mem = t.mem ∧
            ∀ e, e ∈ H.early ↔ e ∈ c.blk.early ∨ e = ⟨j, F.slot - j, F.effects.drop c.blk.allEffects.length⟩) ∧
        (F.wait ≠ none →
          (G.kept = c.group.kept → s.perform (.ahead k g j) = .next s) ∧
          (G.kept ≠ c.group.kept → ∃ v H, s.perform (.ahead k g j) = .next v ∧ v.group? k g = some H ∧ H.blk = some c.blk ∧
            H.kept = G.kept)))

/-- No row of the opcode table is refused; and an instruction of block code with a block under way answers with a next state, whatever the
state. -/
def Obligations.NoInstructionStops : Prop :=
  (∀ i (s : State) r, exec i s ≠ .refused r) ∧ ∀ i (s : State) c, InBlockCode i → s.ctx? = some c → ∃ t, exec i s = .next t

/-- R449: the phase of the part changes by bring-up, by its reloading and by a trip alone. -/
def Sys2Proof.Claims.PhaseChangesByBringUpAlone : Prop :=
  ∀ i (s t : State), exec i s = .next t → t.hub.phase ≠ s.hub.phase →
    i ∈ [Instr.powerOnReset, .stackTrained, .fullServiceRequest, .fullServiceMove, .thermalTrip] ∨
      ∃ image, i = .firmwareLoad image ∨ i = .firmwareReload image

/-- The model's form of memory (log entry 1): every step keeps the one canonical form, strictly rising addresses and no byte that an unlisted address
reads as, so that equal memories are equal lists. -/
def Obligations.StepKeepsMemoryCanonical : Prop :=
  ∀ s t : State, s.MemoryCanonical → step s = .next t → t.MemoryCanonical

/-! ### The statements in several parts -/

/-- Sums, differences, products, quotients and remainders, wrapping and saturating, in every lane. -/
def Obligations.IntegerArithmeticDelivers : Prop :=
  IntegerSumsAndDifferences ∧ IntegerProducts ∧ IntegerQuotients

/-- Shifts, logic, comparisons, bit fields, selections and addresses in every lane. -/
def Obligations.LogicAndFieldsDeliver : Prop :=
  ShiftsLogicAndComparisons ∧ CountsFieldsAndAddresses

/-- Floating-point arithmetic, comparison, classification and special functions deliver in every lane. -/
def Obligations.FloatingInstructionsDeliver : Prop :=
  FloatArithmeticDelivers ∧ FloatComparisonsDeliver ∧ SpecialFunctionsDeliver

/-- cvt.sr draws one generator value per lane and gives a neighbour of its operand. -/
def Obligations.StochasticRoundingDrawsAndRounds : Prop :=
  StochasticConversionsDraw ∧ StochasticRoundingGivesANeighbour

/-- Exchanges read the source lane under the source rule; votes, matches and masks see the contributing lanes. -/
def Obligations.LanesExchangeAndVote : Prop :=
  LanesExchangeValues ∧ VotesMatchesAndMasks

/-- rd, wr, the constants and the counters, and the frame of a register write. -/
def Obligations.RegistersReadAndWrite : Prop :=
  RegisterReads ∧ RegisterWritesFire ∧ RegisterWritesChangeOnlyTheirRegister ∧ ConstantsAndCounters

/-- Stores fire once their lanes reach their addresses, and change exactly their bytes at the commit. -/
def Obligations.StoresChangeTheirBytes : Prop :=
  StoresFire ∧ StoresChangeOnlyTheirBytes ∧ MulticastFires

/-- Atomics act lane by lane, each on what the lower lanes left. -/
def Obligations.AtomicsReadModifyWriteInTurn : Prop :=
  AtomicsFire ∧ AtomicsReadModifyWrite

/-- Fences, hardware barriers and barrier words. -/
def Obligations.FencesAndBarriersAct : Prop :=
  FencesAndBarriersFire ∧ BarrierWordsCountArrivals

/-- Copies, batches, bindings and streams check their operands and leave their effect to the commit. -/
def Obligations.CopiesAndStreamsFire : Prop :=
  CopiesAndBatchesFire ∧ BindingsAndStreamsFire

/-- Queue instructions and task instructions check their operands and leave their effect to the commit. -/
def Obligations.QueuesAndTasksFire : Prop :=
  QueueInstructionsFire ∧ TaskInstructionsFire

/-- Bit-plane coding and the tape's value records give back what they coded. -/
def Obligations.CodingsRoundTrip : Prop :=
  BitPlanesRoundTrip ∧ ValueRecordsReadBack

/-- Matrix instructions check their operands against the claim and leave their command to the commit. -/
def Obligations.MatrixInstructionsFire : Prop :=
  MatrixCommandsFire ∧ SequencerInstructionsFire

/-- What the commit does to queues, to the matrix claim and to budgets. -/
def Obligations.EngineEffectsAtTheCommit : Prop :=
  QueueEffectsKeepTheOrder ∧ MatrixEffects ∧ BudgetsMoveWithTasks

/-- What the commit does to residencies, key slots and cached translations. -/
def Obligations.SystemEffectsAtTheCommit : Prop :=
  SignalsChangeOnlyTheirField ∧ KeySlotsChangeAlone ∧ InvalidationsRemoveWhatTheyName

/-- Elements run every instruction marked T, and fire on data, control tokens and fault-stall tokens; a firing changes its element alone. -/
def Obligations.ElementsRunAndFire : Prop :=
  ElementsRunInstructions ∧ ElementsFire ∧ FiringsChangeTheirElement

/-- Bring-up, the move to full service, clock steps, samples and the trip; nothing else changes the phase. -/
def Obligations.BringUpAndClockEvents : Prop :=
  BringUpEvents ∧ ClockAndTripEvents ∧ PhaseChangesByBringUpAlone

/-- Queue windows of host functions, memory requests from outside and messages of other parts. -/
def Obligations.HostQueuesAndOutsideRequests : Prop :=
  HostQueueEvents ∧ OutsideEvents

/-- R347, R348, R353: a decision of a core that has candidates and is not busy counts, and keeps the unit busy for 4 cycles. Where no
candidate is blocked and it is not the 64th decision, the one candidate of the highest priority is placed, or becomes the blocked one. A
candidate blocked for 1,048,576 cycles is overdue, until it is placed. R352, R353, R355, R356: teams leave their cores. Victims are taken
for the blocked candidate's first place where they make it fit, of every priority for an overdue one, and no other team changes; a cluster
whose members have waited long is swapped out; a swapped team of which a group can go on, or every group has ended, becomes ready. (That
one whose groups have all ended does is the model's choice, log entry 99.) R41, R352, R355, R356: the context of a team that leaves is
kept whole, and a resumption restores it. A team taken for room, or by a long wait, whose groups stand still and whose matrix engine does
not work leaves with its registers, memories, stacks, matrix and tape as they are, in the first case ready at once with its age; ready
teams resume with everything as it was, in a slot of their cores. R60, R246, R392: once the last group has ended, the queues have drained
and the sequencer is idle, the team retires. A recording tape is closed first; then the team is gone, but for the shared memory that other
members of its cluster may still use. -/
def Obligations.TeamsAreScheduled : Prop :=
  (
    ∀ (s : State) core, let u := s.settleCore core
      (u.decides core = true → (u.core core).busyTo ≤ u.clk (dieOf core) → u.candidates core ≠ [] →
        (∃ t, exec (.selectorDecision core) s = .next t ∧ (t.core core).decisions = (s.core core).decisions + 1 ∧
          (t.core core).busyTo = s.clk (dieOf core) + 4 ∧ t.mem = s.mem) ∧
        (∀ x, u.blockedOf core = none → ((s.core core).decisions + 1) % 64 ≠ 0 → x ∈ u.candidates core →
          (∀ y, y ∈ u.candidates core → y ≠ x → y.prio < x.prio) →
          let v := ((u.decided core).modCore core fun C => { C with blocked := none }).noteChoice core x
          (∀ t, v.attempt core x.who = some t → exec (.selectorDecision core) s =
            .next (t.modCore core fun C => { C with overdue := C.overdue.filter (· ≠ x.who) })) ∧
          (v.attempt core x.who = none → exec (.selectorDecision core) s =
            .next (v.modCore core fun C => { C with blocked := some (x.who, s.clk (dieOf core)) })))) ∧
      (∀ b since, s.blockedOf core = some b → (s.core core).blocked = some (b.who, since) → b.who ∉ (s.core core).overdue →
        since + 1048576 ≤ s.clk (dieOf core) →
        exec (.overdue core) s = .next (s.modCore core fun C => { C with overdue := C.overdue ++ [b.who] }))) ∧
  (
    ∀ s : State,
      (∀ core b place rest, s.decides core = true → s.blockedOf core = some b → s.options core b.who = .ok (place :: rest) →
        (∃ x, x ∈ place ∧ s.fitsOn s.leaving x = false) →
        let all := s.takeUntil place s.leaving (s.victims (place.map (·.1)) b.prio ((s.core core).overdue.contains b.who))
        (∀ x, x ∈ place → s.fitsOn all x = true) →
        ∃ t, exec (.preEmption core) s = .next t ∧ (∀ k, k ∉ all ∨ k ∈ s.leaving → t.team? k = s.team? k)) ∧
      (∀ k T, s.team? k = some T → WaitedLong T → (∀ m U, (m, U) ∈ s.teams → U.lead = T.lead → U.gone = false → WaitedLong U) →
        ∃ t, exec (.longWaitSwap k) s = .next t ∧
          ∀ m, (∀ U, (m, U) ∈ s.teams → U.lead ≠ T.lead ∨ U.gone = true) → t.team? m = s.team? m) ∧
      (∀ k T, s.team? k = some T → T.place = .out false → T.gone = false → CanGoOn s T ∨ (∀ G, G ∈ T.groups → G.phase = .ended) →
        exec (.swapRetest k) s = .next (s.modTeam k fun U => { U with place := .out true, age := s.clk (dieOf T.core) }))) ∧
  (
    ∀ s : State,
      (∀ core b place rest k T, s.decides core = true → s.blockedOf core = some b → s.options core b.who = .ok (place :: rest) →
        (∃ x, x ∈ place ∧ s.fitsOn s.leaving x = false) →
        let all := s.takeUntil place s.leaving (s.victims (place.map (·.1)) b.prio ((s.core core).overdue.contains b.who))
        (∀ x, x ∈ place → s.fitsOn all x = true) → k ∈ all → k ∉ s.leaving → s.team? k = some T → T.taken = none → T.mayLeave = true →
        ∃ t, exec (.preEmption core) s = .next t ∧ Away t k T true) ∧
      (∀ k T, s.team? k = some T → WaitedLong T → (∀ m U, (m, U) ∈ s.teams → U.lead = T.lead → U.gone = false → m = k ∧ U = T) →
        (k, T) ∈ s.teams → T.mayLeave = true → ∃ t, exec (.longWaitSwap k) s = .next t ∧ Away t k T false ∧
          (PMap.get? s.hub.swapAreas T.core = none → t.mem = s.mem)) ∧
      (∀ core x k T, let u := s.settleCore core
        u.decides core = true → (u.core core).busyTo ≤ u.clk (dieOf core) → u.blockedOf core = none → ((s.core core).decisions + 1) % 64 ≠ 0 →
        x ∈ u.candidates core → (∀ y, y ∈ u.candidates core → y ≠ x → y.prio < x.prio) → x.who = .team k → s.team? k = some T →
        (∀ y, y ∈ s.awayOf T.lead → u.fitsOn [] (y.2.core, y.2.need) = true) →
        ∃ t, exec (.selectorDecision core) s = .next t ∧ ∀ m U, (m, U) ∈ s.awayOf T.lead → s.team? m = some U →
          ∃ slot, t.team? m = some { U with place := .resident, slot := slot, waitCount := 0 })) ∧
  (
    ∀ (s : State) k T, s.team? k = some T → T.gone = false → T.place = .resident → (∀ G, G ∈ T.groups → G.phase = .ended) →
      T.copies = [] → EngineIdle T → T.tape.stalled = none →
      (T.tape.mode = .recording → ∃ t, exec (.teamRetirement k) s = .next t ∧ t.net = s.net ∧
        ∀ U, t.team? k = some U → U.gone = false → U.tape.mode = .closed) ∧
      (T.tape.mode ≠ .recording →
        ∃ t, exec (.teamRetirement k) s = .next t ∧
          ((∀ m U, (m, U) ∈ s.teams → m ≠ k → U.lead = T.lead → U.gone = true) → t.team? k = none) ∧
          (T.retire = none → (∃ m U, (m, U) ∈ s.teams ∧ m ≠ k ∧ U.lead = T.lead ∧ U.gone = false) →
            ∃ U, t.team? k = some U ∧ U.gone = true ∧ U.sharedSize = T.sharedSize)))

/-- R30 to R33, R372, R373: the fetch of a block. A block that decodes starts with its charge taken from IBUD, and with nothing fired; one
that IBUD does not hold exhausts the team; one that does not decode is a fault at its address. (That a team launched with sup = 1 is
charged is the model's choice, log entry 21.) R39, R41, R58, R70, R82, R372: the commit of a block whose slots have all fired. A check
that fails is the block's fault; a budget that does not hold the commit's charge exhausts the team; a block that may not commit yet waits,
one that spins until its cycle; otherwise the effects act in slot order, the group's block is over, and its lanes go where its exits name.
(The order fault, budget, wait is the model's choice, log entry 22.) R57 to R61, R360 to R364, R366, R369, R419: what the exits of a
committing block do to the call stack and the reconvergence stack, no join entry having reached its count. A `call` pushes an entry with
its lanes and the next block's address; returning lanes wait in the top entry until every live lane of it has returned, and run on
together; exited lanes leave every entry, and a group without lanes ends; a `yield` keeps both stacks; lanes that part leave a waiting
entry above a join entry, which a `jset` names; lanes that arrive at a join wait there for the sub-groups above it; a pack and a `rejoin`
record where the lanes go on; a `trap` and an `eret` keep both stacks. -/
def Obligations.BlocksStartAndCommit : Prop :=
  (
    ∀ (s : State) k g T G, s.cur = some (k, g) → s.team? k = some T → T.groups[g]? = some G → s.mayFetch T G = true →
      T.cmdFault = none → G.trapDue = none →
      (∀ h ws, s.blockAt T G G.pc = .ok (h, ws) → (G.sup.isSome = true ∨ h.charge ≤ T.ibud) →
        ∃ t U F, exec .blockFetch s = .next t ∧ t.team? k = some U ∧ (t.group? k g).bind (·.blk) = some F ∧ F.head = G.pc ∧ F.hdr = h ∧
          F.words = ws ∧ F.mask = G.mask ∧ F.start = s.clk (dieOf T.core) ∧ F.slot = 0 ∧ F.ports = [] ∧ F.effects = [] ∧
          U.ibud = T.ibud - (if G.sup.isSome then 0 else h.charge) ∧ U.tbud = T.tbud ∧ t.mem = s.mem ∧ t.cores = s.cores ∧
          t.queues = s.queues) ∧
      (∀ h ws, s.blockAt T G G.pc = .ok (h, ws) → G.sup = none → T.ibud < h.charge →
        exec .blockFetch s = .next (s.exhaust k g G.pc 0 h.charge)) ∧
      (∀ x, s.blockAt T G G.pc = .error x → exec .blockFetch s = .next (s.takeFault k g G.pc x))) ∧
  (
    ∀ (s : State) c, s.ctx? = some c → c.blk.hdr.count < c.blk.slot →
      let fault := s.commitFault c.t c.g c.team c.group c.blk
      let short := shortfall c.team (commitCost c.team c.g c.group c.blk)
      let wait := s.commitWait c.t c.g c.team c.group c.blk
      let ungated := c.blk.hdr.pack = false ∨ c.blk.hdr.tape = false ∨ c.team.tape.mode ≠ .reversing
      (∀ x, fault = some x → exec .blockCommit s = .next (s.takeFault c.t c.g c.blk.head x)) ∧
      (∀ cause n, fault = none → short = some (cause, n) → exec .blockCommit s = .next (s.exhaust c.t c.g c.blk.head cause n)) ∧
      (∀ q n, .spin q n ∈ c.blk.effects → s.clk (dieOf c.team.core) < c.blk.start + n → wait.isSome = true) ∧
      (∀ w, fault = none → short = none → ungated → wait = some w →
        ∃ t F, exec .blockCommit s = .next t ∧ (t.group? c.t c.g).bind (·.blk) = some F ∧ F = { c.blk with wait := some w } ∧
          t.mem = s.mem) ∧
      (fault = none → short = none → ungated → wait = none →
        exec .blockCommit s = .next (s.commitBlock c.t c.g c.team c.group c.blk) ∧
        ∀ slot n a, c.blk.effects = [.exit slot n .br ((lanesOf c.blk.mask).map fun l => (l, a))] → c.blk.hdr.tape = false →
          c.blk.hdr.pack = false → c.blk.mask ≠ 0 → c.group.launched &&& ~~~c.group.exited = c.blk.mask → c.group.recon = [] →
          c.group.calls = [] → c.team.packing = none →
          ∃ t G, exec .blockCommit s = .next t ∧ t.group? c.t c.g = some G ∧ G.blk = none ∧ G.pc = a ∧ G.mask = c.blk.mask ∧
            G.path = .jump ∧ G.v = c.group.v ∧ G.g = c.group.g ∧ G.p = c.group.p ∧ G.exited = c.group.exited ∧ t.mem = s.mem)) ∧
  (
    ∀ (s : State) c m a slot n, m ≠ 0 → let H := c.group
      m &&& ~~~(H.launched &&& ~~~H.exited) = 0 → (∀ e, e ∈ H.recon → e.count < 255) →
      (c.team.packing = none →
        (CommitsWith s c false [leaves slot n .call m a] → CallsWait H.exited H.calls → (∀ e, e ∈ H.recon → e.kind = .join → e.addr ≠ a) →
          CommitLeaves s c fun _ G => ∃ e, G.calls = e :: H.calls ∧ e.mask = m ∧ e.returned = 0 ∧
            e.ret = c.blk.head + BitVec.ofNat 64 (16 * ((8 + 4 * c.blk.hdr.count + 15) / 16)) ∧ G.recon = counted H.recon ∧ G.mask = m ∧
            G.pc = a ∧ G.path = .call ∧ G.exited = H.exited) ∧
        (∀ e rest, CommitsWith s c false [leaves slot n .ret m a] → H.calls = e :: rest → CallsWait H.exited rest →
          let live := e.mask &&& ~~~H.exited
          (live &&& ~~~(e.returned ||| m) = 0 → H.recon = [] → CommitLeaves s c fun _ G => G.calls = rest ∧ G.recon = [] ∧
            G.mask = (e.returned ||| m) &&& live ∧ G.pc = e.ret ∧ G.path = .ret ∧ G.exited = H.exited) ∧
          (∀ w more, live &&& ~~~(e.returned ||| m) ≠ 0 → H.recon = w :: more → w.kind = .waiting → w.mask &&& m = 0 →
            w.mask &&& ~~~H.exited ≠ 0 → CommitLeaves s c fun _ G => G.calls = { e with returned := e.returned ||| m } :: rest ∧
              G.mask = w.mask &&& ~~~H.exited ∧ G.pc = w.addr ∧ G.path = w.path ∧ G.exited = H.exited)) ∧
        (CommitsWith s c false [leaves slot n .exit m a] → CommitLeaves s c fun _ G => G.exited = H.exited ||| m ∧
          (∀ e, e ∈ G.calls → e.mask &&& m = 0 ∧ e.returned &&& m = 0) ∧ (∀ e, e ∈ G.recon → e.mask &&& m = 0 ∧ e.arrived &&& m = 0) ∧
          (H.launched &&& ~~~(H.exited ||| m) = 0 → G.phase = .ended ∧ G.calls = [] ∧ G.recon = []) ∧
          (H.launched &&& ~~~(H.exited ||| m) ≠ 0 → G.phase = H.phase)) ∧
        (CommitsWith s c false [leaves slot n .yield m a] → c.team.taken = none → CommitLeaves s c fun t G => G.calls = H.calls ∧
          G.recon = counted H.recon ∧ PMap.getD G.g 62 0 = a ∧ G.pc = a ∧ G.mask = H.mask ∧
          ∃ U, t.team? c.t = some U ∧ U.taken = some (.yield 2 c.g 0)) ∧
        (∀ J first x y m' a' slot' n', (first = [] ∧ J = none ∨ ∃ q j, first = [Effect.jset q j] ∧ J = some j) →
          x = leaves slot n .br m a → y = leaves slot' n' .br m' a' → CommitsWith s c false (first ++ [x, y]) ∨ CommitsWith s c false (first ++ [y, x]) →
          m' ≠ 0 → m' &&& ~~~(H.launched &&& ~~~H.exited) = 0 → a ≠ a' → H.recon = [] → CallsWait H.exited H.calls →
          (lanesOf m').length < (lanesOf m).length ∨ (lanesOf m').length = (lanesOf m).length ∧ a.toNat < a'.toNat →
          CommitLeaves s c fun _ G => G.mask = m ∧ G.pc = a ∧ G.calls = H.calls ∧ ∃ w j, G.recon = [w, j] ∧ w.kind = .waiting ∧ w.addr = a' ∧
            w.mask = m' ∧ w.path = .jump ∧ j.kind = (if J.isSome then .join else .joinFree) ∧ j.addr = J.getD 0 ∧ j.mask = m ||| m' ∧
            j.arrived = 0 ∧ j.count = 0) ∧
        (∀ j, CommitsWith s c false [leaves slot n .br m a] → j.kind = .join → j.addr = a → m &&& ~~~j.mask = 0 → CallsWait H.exited H.calls →
          (∀ y, y ∈ H.calls → y.stamp < j.stamp) →
          (H.recon = [j] → CommitLeaves s c fun _ G => G.recon = [] ∧ G.mask = (j.arrived ||| m) &&& ~~~H.exited ∧ G.pc = a ∧
            G.path = .reconverge ∧ G.calls = H.calls) ∧
          (∀ w, H.recon = [w, j] → w.kind = .waiting → w.mask &&& ~~~H.exited ≠ 0 → CommitLeaves s c fun _ G =>
            G.recon = [{ j with arrived := j.arrived ||| m, count := 0 }] ∧ G.mask = w.mask &&& ~~~H.exited ∧ G.pc = w.addr ∧ G.path = w.path ∧
              G.calls = H.calls)) ∧
        (∀ q i, i ∈ [Effect.rejoin q m, .spin q slot] → CommitsWith s c false [i, leaves slot n .br m a] → H.recon = [] →
          CallsWait H.exited H.calls → CommitLeaves s c fun _ G => G.recon = [] ∧ G.calls = H.calls ∧ G.mask = m ∧ G.pc = a ∧ G.phase = H.phase) ∧
        (CommitsWith s c true [leaves slot n .br m a] → CommitLeaves s c fun t G => G.phase = .gathered ∧
          (∀ l, l ∈ lanesOf m → PMap.get? G.targets l = some a) ∧
          ∃ U, t.team? c.t = some U ∧ U.packing = some { addr := c.blk.head, open_ := false, tape := false }) ∧
        (∀ q imm, CommitsWith s c false [.trap q imm, leaves slot n .br m a] → H.recon = [] → CallsWait H.exited H.calls → H.phase = .running →
          MayTrap s c.team H → CommitLeaves s c fun _ G => G.sup = some ⟨m⟩ ∧ G.epc = a ∧ G.pc = (s.asidEntry c.team.asid).tvec ∧
            G.path = .trapEntry ∧ G.mask = m ∧ G.recon = [] ∧ G.calls = H.calls) ∧
        (∀ q f, CommitsWith s c false [.eret q, leaves slot n .br m a] → H.sup = some f → CommitLeaves s c fun _ G => G.sup = none ∧
          G.pc = H.epc ∧ G.mask = f.mask &&& ~~~H.exited ∧ G.path = .refetch ∧ G.recon = counted H.recon ∧ G.calls = H.calls)) ∧
      (∀ P q, c.team.packing = some P → P.open_ = true → H.calls = [] → c.team.tape.mode ≠ .recording → CommitsWith s c false [.rejoin q m, leaves slot n .br m a] →
        CommitLeaves s c fun t G => G.phase = .rejoining ∧ (∀ l, l ∈ lanesOf m → PMap.get? G.targets l = some a ∧ PMap.get? G.paths l = some .jump) ∧
          ∃ U, t.team? c.t = some U ∧ U.packing = some P))

/-- R223, R255, R256, R324, R325: a copy starts once those before it have issued their last access, and moves its elements; those of a
fused copy pass their bank units one by one first. At its end it leaves the queue, and its batch has one member less. R254, R261, R263,
R264: the tokens of streams. A load stream sends the next elements of its record while its channel has a free slot, then the end of the
tile where the record asks for it, and the end of the stream last. A store stream takes the head token of its channel and holds the
token's elements; they are stored at the end of the tile. Elements beyond the record are left out and reported; of a record with eot, only
whole containers beyond it count, which is the model's choice (log entry 74). -/
def Obligations.CopiesAndStreamsMove : Prop :=
  (
    ∀ (s : State) k T x, s.team? k = some T →
      (T.copies.find? (fun y => !y.started) = some x → (∀ y, y ∈ T.copies → y.seq < x.seq → s.issued k y = true) →
        exec (.copyStart k) s = .next (s.setCopy k { x with started := true })) ∧
      (s.activeCopy k x.seq = some x → x.fusedRec? = none →
        (∀ u y, s.copyRest k x (x.total - x.pos) = .ok (u, y) →
          exec (.copyComplete k x.seq) s = .next ((u.setCopy k y).finishCopy k y) ∧
          ∀ U, ((u.setCopy k y).finishCopy k y).team? k = some U →
            (∀ z, z ∈ U.copies → z.seq ≠ y.seq) ∧ ∀ m, m ∈ U.members → m.2.2 ≠ y.seq) ∧
        (∀ u, s.copyRest k x (x.total - x.pos) = .error u → exec (.copyComplete k x.seq) s = .next u)) ∧
      (∀ r, s.activeCopy k x.seq = some x → x.fusedRec? = some r →
        (∀ u y, x.pos < x.total → s.copyOne k x = .ok (u, y) →
          exec (.bankUnitElement (.copy k x.seq)) s = .next (u.setCopy k y) ∧ y.pos = x.pos + 1) ∧
        (∀ u, x.pos < x.total → s.copyOne k x = .error u → exec (.bankUnitElement (.copy k x.seq)) s = .next u) ∧
        (r.fused = 3 → r.combine ≠ 0 → r.elements ≤ x.pos → x.outs = [] → x.mac.combined = false → x.mac.pending = [] →
          exec (.macCombine (.copy k x.seq)) s = .next ((s.combineAll r.combine x.mac.reached).setCopy k { x with mac := { x.mac with combined := true } })) ∧
        (x.total ≤ x.pos → (r.fused ≠ 3 ∨ r.combine = 0 ∨ x.mac.combined = true) →
          ∀ u y, s.copyRest k x 0 = .ok (u, y) → exec (.copyComplete k x.seq) s = .next ((u.setCopy k y).finishCopy k y)))) ∧
  (
    ∀ (s : State) k i T x,
      (∀ core, Streams s k i T x false →
        let r := recOf x.record
        let chan := r.dest % 256
        coreOfDest (r.dest / 256) = some core → s.channelRoom core chan ≠ 0 → r.codec = 0 → r.fused = 0 →
        (x.eotDue = false → ∀ xs, x.pos < r.elements →
          s.readElements (x.agent T k) r x.pos (min (512 / typeWidth r.type) (r.tileEnd x.pos - x.pos)) = .ok xs →
          ∃ t U, exec (.loadStreamToken k i) s = .next t ∧ t.team? k = some U ∧
            t.net = s.net ++ [{ core := core, chan := chan, sender := .stream k i
                                tok := elementToken (typeWidth r.type) xs chan x.tileTok }] ∧
            (PMap.getD U.streams i {}).pos = x.pos + min (512 / typeWidth r.type) (r.tileEnd x.pos - x.pos) ∧
            (PMap.getD U.streams i {}).eotDue = (r.eot && decide (x.pos + min (512 / typeWidth r.type) (r.tileEnd x.pos - x.pos) = r.tileEnd x.pos)) ∧
            t.mem = s.mem) ∧
        (x.eotDue = true →
          ∃ t U, exec (.loadStreamToken k i) s = .next t ∧ t.team? k = some U ∧
            t.net = s.net ++ [{ core := core, chan := chan, sender := .stream k i
                                tok := controlToken .endOfTile ((r.indices ((x.tiles - 1) * r.tileElems)).map (BitVec.ofNat 32)) chan }] ∧
            (PMap.getD U.streams i {}).eotDue = false ∧ t.mem = s.mem) ∧
        (x.eotDue = false → r.elements ≤ x.pos →
          ∃ t U, exec (.loadStreamToken k i) s = .next t ∧ t.team? k = some U ∧
            t.net = s.net ++ [{ core := core, chan := chan, sender := .stream k i, tok := controlToken .endOfStream [] chan }] ∧
            (PMap.getD U.streams i {}).running = false ∧ (PMap.getD U.streams i {}).state = 2 ∧ t.mem = s.mem)) ∧
      (∀ tok rest, Streams s k i T x true →
        let r := recOf x.record
        PMap.getD (s.core T.core).channels (r.dest % 256) [] = tok :: rest → tok.damaged = false → r.codec = 0 →
        let who := x.agent T k
        let stored := fun p : PMap Nat => s.unstorable who r (p.map fun e => (e.1, some e.2)) = none
        (x.eotDue = false → tok.kind = .data →
          let xs := tokenElements (typeWidth r.type) tok
          let stop := if r.eot then r.tileEnd x.pos else r.elements
          let fit := xs.take (stop - x.pos)
          s.firstBad who r x.pos fit = none → (r.eot = false → x.tileTok + 1 = 4096 → stored (heldWith x fit)) →
          ∃ t U, exec (.storeStreamToken k i) s = .next t ∧ t.team? k = some U ∧
            PMap.getD (t.core T.core).channels (r.dest % 256) [] = rest ∧ (PMap.getD U.streams i {}).pos = x.pos + fit.length ∧
            (r.eot = true ∨ x.tileTok + 1 ≠ 4096 → t.mem = s.mem ∧ (PMap.getD U.streams i {}).pending = heldWith x fit) ∧
            (r.eot = false → r.elements < x.pos + xs.length → (PMap.getD U.streams i {}).code = 2) ∧
            (r.eot = true → stop = r.elements → r.elements + Nat.max 1 (32 / typeWidth r.type) ≤ x.pos + xs.length →
              (PMap.getD U.streams i {}).code = 2)) ∧
        (tok.kind = .endOfTile → stored x.pending →
          ∃ t U, exec (.storeStreamToken k i) s = .next t ∧ t.team? k = some U ∧
            t.mem = ((s.dropHead T.core (r.dest % 256)).storePending who (.copy k x.seq) r x.pending).mem ∧ (PMap.getD U.streams i {}).pending = [] ∧
            (PMap.getD U.streams i {}).eotDue = false ∧
            (PMap.getD U.streams i {}).pos = (if r.eot = true ∧ x.eotDue = false then r.tileEnd x.pos else x.pos)) ∧
        (tok.kind = .endOfStream → x.code = 0 → stored x.pending →
          ∃ t U, exec (.storeStreamToken k i) s = .next t ∧ t.team? k = some U ∧ (PMap.getD U.streams i {}).running = false ∧
            (PMap.getD U.streams i {}).code = (if x.pos < r.elements then 1 else 0))))

/-- R170, R171, R173: the handshake of a pair. The partner's request arrives 16 cycles after it was sent; 32 cycles after the later of the
two the pairing commands complete and the engines are a pair, or the two halves of a product start; commands that differ raise MATRIX_PAIR
on both sides. A request of a resident team that none meets within 65,536 cycles times out with MATRIX_PAIR. (That the halves of a product
also wait for both arrays is the model's choice, log entry 138.) R167, R169: the sequencer's controllers. One with an enable token becomes
active; an active loop whose next iteration may start gives its children tokens, and a leaf emits its command once there is room and
budget; a controller whose iterations are complete tells its parent, and the root's end makes the sequencer idle and arrives once on the
done word. That a command without budget is held back is the model's choice (log entry 139). -/
def Obligations.PairingAndSequencing : Prop :=
  (
    ∀ (s : State) k T M a, s.team? k = some T → T.matrix = some M → M.ask = some a → T.place = .resident →
      (∀ U N b, s.team? a.partner = some U → U.matrix = some N → N.ask = some b → b.partner = k → b.east = !a.east →
        (a.other ≠ some b.sent → b.sent + 16 ≤ a.sent + 65536 → b.sent + 16 ≤ s.clk (dieOf T.core) →
          exec (.pairReq k) s = .next (s.modMatrix k fun M => { M with ask := some { a with other := some b.sent } })) ∧
        (∀ x y, a.partner ≠ k → U.place = .resident → a.other = some b.sent → b.other = some a.sent → M.asking = some x → N.asking = some y →
          max a.sent b.sent + 32 ≤ s.clk (dieOf T.core) →
          let free := ∀ j V, (j, V) ∈ s.teams → V.core = T.core ∨ V.core = U.core → V.holdsArray = false
          let clear := (s.modMatrix k fun M => { M with ask := none }).modMatrix a.partner fun N => { N with ask := none }
          (x.op = 0x193 → y.op = 0x193 → x.ext = y.ext →
            ∃ t P Q, exec (.pairFormed k) s = .next t ∧ claimOf t k = some P ∧ claimOf t a.partner = some Q ∧ P.pair = some (a.partner, a.east) ∧
              Q.pair = some (k, b.east) ∧ P.ask = none ∧ Q.ask = none ∧ (∀ z, z ∈ P.queue → z.seq ≠ x.seq) ∧ ∀ z, z ∈ Q.queue → z.seq ≠ y.seq) ∧
          (x.op = y.op → x.op ≠ 0x193 → x.ext = y.ext → free →
            let west := if a.east then k else a.partner
            ∃ t P Q, exec (.pairFormed k) s = .next t ∧ claimOf t k = some P ∧ claimOf t a.partner = some Q ∧
              P.doneAt = s.clk (dieOf T.core) + 32 * 2 ^ (x.ext % 8) ∧ Q.doneAt = P.doneAt ∧ P.ask = none ∧ Q.ask = none ∧
              (∃ z, z ∈ P.queue ∧ z = { x with west := some west }) ∧ (∃ z, z ∈ Q.queue ∧ z = { y with west := some west }) ∧
              (a.east = true → P.span = x.spanB M) ∧ (a.east = false → Q.span = y.spanB N)) ∧
          (x.op ≠ y.op ∨ x.ext ≠ y.ext → (x.op = 0x193 ∨ y.op = 0x193 ∨ free) →
            exec (.pairFormed k) s = .next ((clear.matrixFault k x .matrixPair 0 false 0 [] 0).matrixFault a.partner y .matrixPair 0 false 0 [] 0)))) ∧
      (∀ x, M.asking = some x → a.sent + 65536 ≤ s.clk (dieOf T.core) →
        (∀ U N b, s.team? a.partner = some U → U.matrix = some N → N.ask = some b → b.partner = k → b.east = !a.east →
          a.sent + 65536 < b.sent + 16) →
        exec (.pairTimeout k) s = .next ((s.modMatrix k fun M => { M with ask := none, timeout := true }).matrixFault k x .matrixPair 0 false 0 [] 0))) ∧
  (
    ∀ (s : State) k T M n c, HasClaim s k T M → M.controllers[n]? = some c →
      (M.busy = true → c.active = false → 0 < c.enables →
        ∃ t N d, exec (.sequencerEnableToken k n) s = .next t ∧ claimOf t k = some N ∧ N.controllers[n]? = some d ∧ d.active = true ∧
          d.enables = c.enables - 1 ∧ d.begun = 0 ∧ d.words = c.words ∧ N.queue = M.queue ∧ t.mem = s.mem) ∧
      (M.busy = true → c.active = true → M.mayIterate n c = true → fieldOf c.words 9 3 = 0 →
        ∃ t N, exec (.sequencerEnableToken k n) s = .next t ∧ claimOf t k = some N ∧ N.queue = M.queue ∧
          ∀ (i : Nat) d, i ≠ n → M.controllers[i]? = some d → ∃ e, N.controllers[i]? = some e ∧ e.words = d.words ∧
            e.enables = d.enables + if fieldOf d.words 2 4 = n then 1 else 0) ∧
      (∀ x, M.busy = true → c.active = true → M.mayIterate n c = true → fieldOf c.words 9 3 ≠ 0 → M.queue.length < 16 →
        let e := c.emit M c.begun (c.taken - 1)
        s.checkEmitted k T M e.1 e.2 = .ok x → (T.draining = true ∨ x.charge ≤ T.ibud ∧ x.traffic ≤ T.tbud) →
        ∃ t U N y, exec (.sequencerEnableToken k n) s = .next t ∧ t.team? k = some U ∧ U.matrix = some N ∧ U.ibud = T.ibud - x.charge ∧
          U.tbud = T.tbud - x.traffic ∧ N.queue = M.queue ++ [y] ∧ y.op = x.op ∧ y.a = x.a ∧ y.ext = x.ext ∧ y.record = x.record) ∧
      (c.active = true → c.iterations ≤ M.completed n c → n ≠ M.root →
        ∃ t N, exec (.sequencerDone k n) s = .next t ∧ claimOf t k = some N ∧ N.busy = M.busy ∧ N.queue = M.queue ∧
          (∀ d, fieldOf c.words 2 4 ≠ n → M.controllers[fieldOf c.words 2 4]? = some d →
            ∃ e, N.controllers[fieldOf c.words 2 4]? = some e ∧ PMap.getD e.dones n 0 = PMap.getD d.dones n 0 + 1)) ∧
      (c.active = true → c.iterations ≤ M.completed n c → n = M.root →
        ∃ (u : State) (N : Matrix), Claims.claimOf u k = some N ∧ (c.enables = 0 → N.busy = false) ∧ N.queue = M.queue ∧ u.mem = s.mem ∧
          (M.done = none → exec (.sequencerDone k n) s = .next u) ∧
          (∀ pa, M.done = some pa → exec (.sequencerDone k n) s = .next (u.writeNat 0 pa 8 (mbarArriveWord (s.readNat 0 pa 8))))))

/-- R283, R285, R291: the head residency whose image fits is placed in the first candidate and begins to load; a load that succeeds starts
the image; the next image starts once every element and every node has taken the reconfiguration token and its standby load is complete,
or begins to load into the lowest of the freed and the free slots where it has none. R291: the reconfiguration token. A loader whose
record has ended sends it on its circuit while a next image waits, with the new slot and the image's number; an element whose inputs all
have it at their heads takes it, sends it on every circuit that it drives, and holds nothing more. -/
def Obligations.ResidenciesStart : Prop :=
  (
    ∀ s : State,
      (∀ n k R rest u h row col slots, (s.stack n).order = (k, R) :: rest → s.loadHead n k R.image R = .ok (u, h) →
        (u.stack n).candidate h = some (row, col, slots) → s.residency? n k = some R →
        ∃ t, exec (.residencyPlacement n) s = .next t ∧ t.mem = u.mem ∧
          (u.residency? n k = some R → After t n k fun Q => Q.state = .loading ∧ Q.orow = row ∧ Q.ocol = col ∧ Q.suspended = false ∧
            Q.id = R.id ∧ ∃ F, Q.fab = some F ∧ F.slots = slots ∧ F.rows = h.rows ∧ F.cols = h.cols ∧ F.image = R.image)) ∧
      (∀ n k R L u F nodes, s.residency? n k = some R → R.state = .loading → R.fab = some L → R.drain = none →
        s.loadImage n k R L = .ok (u, F) → u.nodesOf R F = some nodes → (u.residency? n k).isSome = true →
        ∃ t, exec (.configLoadComplete n k) s = .next t ∧ t.mem = u.mem ∧ After t n k fun Q => Q.state = .running ∧ Q.image = F.image ∧
          Q.next = none ∧ ∃ G, Q.fab = some G ∧ G.started = true ∧ G.slots = F.slots) ∧
      (∀ n k R F G nodes, RunsFabric s n k R F → (∀ e, e ∈ F.elems → e.2.passed = true) →
        (∀ x, x ∈ F.nodes → x.2.sent = true ∨ x.2.ended = true ∨ x.2.role = .reply) → F.flying = [] → R.lastImage = false → R.drain = none →
        R.next = some G → G.loaded = true → s.nodesOf R G = some nodes →
        ∃ t, exec (.reconfigurationStart n k) s = .next t ∧ t.mem = s.mem ∧ After t n k fun Q => Q.state = .running ∧ Q.image = G.image ∧
          Q.next = none) ∧
      (∀ n k R F u h, RunsFabric s n k R F → (∀ e, e ∈ F.elems → e.2.passed = true) →
        (∀ x, x ∈ F.nodes → x.2.sent = true ∨ x.2.ended = true ∨ x.2.role = .reply) → F.flying = [] → R.lastImage = false → R.drain = none →
        R.next = none → s.loadHead n k (R.image + 1) R = .ok (u, h) → h.rows = F.rows → h.cols = F.cols → u.residency? n k = some R →
        let slots := (List.range 4).filter fun j => F.slots.contains j || ((u.stack n).freeSlots R.orow R.ocol F.rows F.cols).contains j
        h.contexts ≤ slots.length →
        ∃ t, exec (.reconfigurationStart n k) s = .next t ∧ t.mem = u.mem ∧ After t n k fun Q => Q.state = .loading ∧ Q.image = R.image + 1 ∧
          ∃ G, Q.fab = some G ∧ G.started = false ∧ G.slots = slots.take h.contexts)) ∧
  (
    ∀ (s : State) n k R F, RunsFabric s n k R F →
      (∀ i x ws, Serves s n k i R F x .loader ws → x.recordEnded R = true → R.mayReconfigure = true → F.canFeed i = true →
        let slots := match R.next with | some G => G.slots | none => F.slots
        ∃ t, exec (.reconfigurationTokenSend n k i) s = .next t ∧ t.mem = s.mem ∧ NodeAfter t n k i fun _ G y => y.sent = true ∧
          Feeds F G i (controlToken .reconfig [BitVec.ofNat 32 (slots.getD (F.contextOf i) 0), BitVec.ofNat 32 (R.image + 1)] 0)) ∧
      (∀ e x, PMap.get? F.elems e = some x → x.passed = false → (∃ p, p ∈ x.ins ∧ F.carriedPort x p.1 = false) →
        (∀ p, p ∈ x.ins → F.carriedPort x p.1 = false → ∃ c, headOf x p.1 = some c ∧ c.tok.kind = .reconfig) →
        (∀ o, o ∈ x.outs → F.canSend x o.1 = true) →
        ∃ t, exec (.reconfigurationTokenPass n k e) s = .next t ∧ t.mem = s.mem ∧ t.teams = s.teams ∧
          After t n k fun Q => ∃ G y, Q.fab = some G ∧ PMap.get? G.elems e = some y ∧ y.passed = true ∧ (∀ p, PMap.getD y.bufs p [] = []) ∧
            ∀ o c inlet, PMap.get? x.outs o = some c → inlet ∈ F.receivers c → ∃ g, g ∈ G.flying ∧ g.inlet = inlet ∧ g.circuit = c ∧
              g.item.tok.kind = .reconfig ∧ ∃ p h, headOf x p = some h ∧ h.tok.kind = .reconfig ∧ g.item.tok.data = h.tok.data))

/-- In-team faults and traps enter supervisor mode and return; a fatal fault ends its team with a record. -/
def Obligations.TrapsAndFatalFaults : Prop :=
  TrapsEnterAndReturn ∧ FatalFaultsEndTheTeam

/-- Where an instruction is active, what its firing delivers, the machine that it leaves alone until the commit, and slots that fire ahead of others. -/
def Obligations.FiringDeliversAndChangesNothingElse : Prop :=
  FiringDelivers ∧ FiringLeavesTheMachineAlone ∧ SlotsFireAhead
end

