-- ==== Sys2Proof/Laws/Word.lean ====
section
/-! SUPPORT. Laws of the sparse maps and of list access. -/
namespace Sys2Proof

@[simp] theorem PMap.get?_nil {α : Type} (n : Nat) : PMap.get? ([] : PMap α) n = none := rfl

/-- A map read at the key just written gives the value written. -/
@[simp] theorem PMap.get?_insert_same {α : Type} (m : PMap α) (n : Nat) (v : α) : PMap.get? (PMap.insert m n v) n = some v := by
  induction m with
  | nil => simp [PMap.insert, PMap.get?]
  | cons x rest ih =>
    obtain ⟨k, y⟩ := x
    simp only [PMap.insert]
    split
    · simp [PMap.get?]
    · split
      · simp [PMap.get?]
      · rename_i h
        have : k ≠ n := fun e => h e.symm
        simp [PMap.get?, this, ih]

/-- A write leaves every other key alone. -/
theorem PMap.get?_insert_other {α : Type} (m : PMap α) {n k : Nat} (v : α) (h : k ≠ n) :
    PMap.get? (PMap.insert m n v) k = PMap.get? m k := by
  induction m with
  | nil => simp [PMap.insert, PMap.get?, Ne.symm h]
  | cons x rest ih =>
    obtain ⟨j, y⟩ := x
    simp only [PMap.insert]
    split
    · simp [PMap.get?, Ne.symm h]
    · split
      · rename_i e
        subst e
        simp [PMap.get?, Ne.symm h]
      · by_cases hj : j = k <;> simp [PMap.get?, hj, ih]

/-- A key that was erased is not listed. -/
@[simp] theorem PMap.get?_erase_same {α : Type} (m : PMap α) (n : Nat) : PMap.get? (PMap.erase m n) n = none := by
  induction m with
  | nil => rfl
  | cons x rest ih =>
    obtain ⟨k, y⟩ := x
    by_cases e : k = n <;> simp [PMap.erase, PMap.get?, e, ih]

/-- Erasing leaves every other key alone. -/
theorem PMap.get?_erase_other {α : Type} (m : PMap α) {n k : Nat} (h : k ≠ n) : PMap.get? (PMap.erase m n) k = PMap.get? m k := by
  induction m with
  | nil => rfl
  | cons x rest ih =>
    obtain ⟨j, y⟩ := x
    by_cases e : j = n
    · subst e
      simp [PMap.erase, PMap.get?, Ne.symm h, ih]
    · by_cases hj : j = k <;> simp [PMap.erase, PMap.get?, e, hj, ih, h]

@[simp] theorem PMap.getD_insert_same {α : Type} (m : PMap α) (n : Nat) (v d : α) : PMap.getD (PMap.insert m n v) n d = v := by
  simp [PMap.getD]

theorem PMap.getD_insert_other {α : Type} (m : PMap α) {n k : Nat} (v d : α) (h : k ≠ n) :
    PMap.getD (PMap.insert m n v) k d = PMap.getD m k d := by
  simp [PMap.getD, PMap.get?_insert_other m v h]

/-- Writing with a default leaves every other key alone. -/
theorem PMap.getD_set_other {α : Type} [DecidableEq α] (m : PMap α) {n k : Nat} (v d : α) (h : k ≠ n) :
    PMap.getD (PMap.set m d n v) k d = PMap.getD m k d := by
  unfold PMap.set
  split
  · simp [PMap.getD, PMap.get?_erase_other m h]
  · exact PMap.getD_insert_other m v d h

/-- The key just written reads as written. -/
@[simp] theorem PMap.getD_set_same {α : Type} [DecidableEq α] (m : PMap α) (n : Nat) (v d : α) :
    PMap.getD (PMap.set m d n v) n d = v := by
  unfold PMap.set
  split
  · rename_i e
    simp [PMap.getD, e]
  · simp

@[simp] theorem modifyAt_length {α : Type} (l : List α) (i : Nat) (f : α → α) : (modifyAt l i f).length = l.length := by
  induction l generalizing i with
  | nil => cases i <;> rfl
  | cons x rest ih => cases i <;> simp [modifyAt, ih]

/-- The element at the index becomes its image. -/
@[simp] theorem modifyAt_same {α : Type} (l : List α) (i : Nat) (f : α → α) : (modifyAt l i f)[i]? = l[i]?.map f := by
  induction l generalizing i with
  | nil => cases i <;> rfl
  | cons x rest ih => cases i <;> simp [modifyAt, ih]

/-- The elements at other indexes stay. -/
theorem modifyAt_other {α : Type} (l : List α) {i j : Nat} (f : α → α) (h : j ≠ i) : (modifyAt l i f)[j]? = l[j]? := by
  induction l generalizing i j with
  | nil => cases i <;> rfl
  | cons x rest ih =>
    cases i with
    | zero => cases j with
      | zero => exact absurd rfl h
      | succ j => rfl
    | succ i => cases j with
      | zero => rfl
      | succ j => simpa [modifyAt] using ih (by omega)

end Sys2Proof
end

