-- ==== Sys2Proof/Laws/Memory.lean ====
section
/-! SUPPORT. Laws of memory: its canonical form and the operations that keep it, read after write, and what a write leaves alone. -/
namespace Sys2Proof.Machine

/-- A bound that a weaker bound follows from. -/
theorem Memory.wfAbove_weaken (m : List Host.Cell) {lo : Option Nat} {k : Nat} (h : Memory.wfAbove (some k) m = true)
    (hk : ∀ b, lo = some b → b ≤ k) : Memory.wfAbove lo m = true := by
  cases m with
  | nil => rfl
  | cons x rest =>
    obtain ⟨a, v⟩ := x
    simp only [Memory.wfAbove, Bool.and_eq_true, decide_eq_true_eq] at h ⊢
    refine ⟨⟨?_, h.1.2⟩, h.2⟩
    cases lo with
    | none => rfl
    | some b =>
      have := hk b rfl
      simp only [decide_eq_true_eq]
      omega

theorem Memory.wfAbove_erase (m : List Host.Cell) (a : Nat) {lo : Option Nat} (h : Memory.wfAbove lo m = true) :
    Memory.wfAbove lo (PMap.erase m a) = true := by
  induction m generalizing lo with
  | nil => rfl
  | cons x rest ih =>
    obtain ⟨k, v⟩ := x
    simp only [Memory.wfAbove, Bool.and_eq_true, decide_eq_true_eq] at h
    simp only [PMap.erase]
    split
    · exact Memory.wfAbove_weaken _ (ih h.2) fun b hb => by
        subst hb
        have := h.1.1
        simp only [decide_eq_true_eq] at this
        omega
    · simp only [Memory.wfAbove, Bool.and_eq_true, decide_eq_true_eq]
      exact ⟨h.1, ih h.2⟩

/-- A listed byte inserted above the bound keeps the form. -/
theorem Memory.wfAbove_insert (m : List Host.Cell) (a : Nat) (b : W8) {lo : Option Nat} (hb : Memory.wfAbove lo [(a, b)] = true)
    (h : Memory.wfAbove lo m = true) : Memory.wfAbove lo (PMap.insert m a b) = true := by
  simp only [Memory.wfAbove, Bool.and_true, Bool.and_eq_true, decide_eq_true_eq] at hb
  induction m generalizing lo with
  | nil => simp [PMap.insert, Memory.wfAbove, hb]
  | cons x rest ih =>
    obtain ⟨k, v⟩ := x
    simp only [Memory.wfAbove, Bool.and_eq_true, decide_eq_true_eq] at h
    simp only [PMap.insert]
    split
    · rename_i hk
      simp only [Memory.wfAbove, Bool.and_eq_true, decide_eq_true_eq]
      exact ⟨hb, ⟨hk, h.1.2⟩, h.2⟩
    · split
      · rename_i hk
        subst hk
        simp only [Memory.wfAbove, Bool.and_eq_true, decide_eq_true_eq]
        exact ⟨hb, h.2⟩
      · have hk : k < a := by omega
        simp only [Memory.wfAbove, Bool.and_eq_true, decide_eq_true_eq]
        exact ⟨h.1, ih h.2 ⟨by simpa using hk, hb.2⟩⟩

/-- A write keeps the canonical form. -/
theorem Memory.wf_write (m : List Host.Cell) (a : Nat) (b : W8) (h : Memory.wf m = true) :
    Memory.wf (Memory.write m a b) = true := by
  unfold Memory.write
  split
  · exact Memory.wfAbove_erase m a h
  · rename_i hb
    exact Memory.wfAbove_insert m a b (by simp [Memory.wfAbove, hb]) h

/-- Leaving out addresses keeps the canonical form. -/
theorem Memory.wfAbove_filter (m : List Host.Cell) (p : Host.Cell → Bool) {lo : Option Nat} (h : Memory.wfAbove lo m = true) :
    Memory.wfAbove lo (m.filter p) = true := by
  induction m generalizing lo with
  | nil => rfl
  | cons x rest ih =>
    obtain ⟨k, v⟩ := x
    simp only [Memory.wfAbove, Bool.and_eq_true, decide_eq_true_eq] at h
    simp only [List.filter_cons]
    split
    · simp only [Memory.wfAbove, Bool.and_eq_true, decide_eq_true_eq]
      exact ⟨h.1, ih h.2⟩
    · refine ih (Memory.wfAbove_weaken rest h.2 fun b hb => ?_)
      subst hb
      have := h.1.1
      simp only [decide_eq_true_eq] at this
      omega

theorem Memory.wf_filter (m : List Host.Cell) (p : Host.Cell → Bool) (h : Memory.wf m = true) : Memory.wf (m.filter p) = true :=
  Memory.wfAbove_filter m p h

/-- The memory at reset is canonical. -/
theorem reset_memory_wf : Memory.wf State.reset.mem = true := rfl

/-- A byte reads as it was written. -/
theorem Memory.read_write_same (m : List Host.Cell) (a : Nat) (b : W8) :
    Memory.read (Memory.write m a b) a = some b := by
  unfold Memory.write
  split
  · rename_i hb
    simp [Memory.read, hb]
  · simp [Memory.read]

/-- A write leaves every other byte alone. -/
theorem Memory.read_write_other (m : List Host.Cell) {a x : Nat} (b : W8) (h : x ≠ a) :
    Memory.read (Memory.write m a b) x = Memory.read m x := by
  unfold Memory.write
  split
  · simp [Memory.read, PMap.get?_erase_other m h]
  · simp [Memory.read, PMap.get?_insert_other m b h]

theorem Memory.wf_writeAll (m : List Host.Cell) (a : Nat) (bs : List W8) (h : Memory.wf m = true) :
    Memory.wf (Memory.writeAll m a bs) = true := by
  induction bs generalizing m a with
  | nil => exact h
  | cons b rest ih => exact ih _ _ (Memory.wf_write m a b h)

/-- What is listed at an address is what it was, but for the address written. -/
theorem Memory.get_write_other (m : List Host.Cell) {a x : Nat} (b : W8) (h : x ≠ a) :
    PMap.get? (Memory.write m a b) x = PMap.get? m x := by
  unfold Memory.write
  split
  · exact PMap.get?_erase_other m h
  · exact PMap.get?_insert_other m b h

theorem Memory.get_writeAll_other (m : List Host.Cell) (a x : Nat) (bs : List W8) (h : x < a ∨ a + bs.length ≤ x) :
    PMap.get? (Memory.writeAll m a bs) x = PMap.get? m x := by
  induction bs generalizing m a with
  | nil => rfl
  | cons b rest ih =>
    simp only [List.length_cons] at h
    rw [Memory.writeAll, ih _ _ (by omega), Memory.get_write_other m b (by omega)]

/-- A byte that stands at an address where none is unlisted reads as it was written. -/
theorem Memory.get_writeAll (m : List Host.Cell) (a i : Nat) (bs : List W8) (hi : i < bs.length)
    (hu : ∀ j < bs.length, Memory.unlisted (a + j) = none) : PMap.get? (Memory.writeAll m a bs) (a + i) = bs[i]? := by
  induction bs generalizing m a i with
  | nil => simp at hi
  | cons b rest ih =>
    rw [Memory.writeAll]
    cases i with
    | zero =>
      have h0 := hu 0 (by simp)
      rw [Memory.get_writeAll_other _ _ _ _ (by omega)]
      simp only [Nat.add_zero] at h0
      simp [Memory.write, h0]
    | succ i =>
      have := ih (Memory.write m a b) (a + 1) i (by simpa using hi) fun j hj => by
        have := hu (j + 1) (by simpa using hj)
        rwa [show a + 1 + j = a + (j + 1) by omega]
      rw [show a + (i + 1) = a + 1 + i by omega, this]
      simp

/-- Where the scratchpads lie (R212). -/
theorem isMain_eq (a : Nat) : isMain a =
    !decide (0x10100000000 ≤ a ∧ a < 0x10140000000 ∧ (a - 0x10100000000) % 0x10000000 < 0xC000000) := by
  unfold isMain windowOf
  split
  · rename_i h
    split at h <;> try contradiction
    split at h <;> try contradiction
    split at h <;> simp_all
    all_goals (repeat' split at h) <;> simp_all
  · rename_i h
    by_cases hc : 0x10100000000 ≤ a ∧ a < 0x10140000000 ∧ (a - 0x10100000000) % 0x10000000 < 0xC000000
    · exfalso
      have h1 : ¬ a < 0x10000000000 := by omega
      have h2 : ¬ a < 0x10001000000 := by omega
      exact h _ _ (by rw [if_neg h1, if_neg h2, if_pos hc])
    · simp [hc]

/-- A data unit lies in main memory whole, or not at all. -/
theorem isMain_unit {a x : Nat} (h : unitOf a = unitOf x) : isMain a = isMain x := by
  rw [isMain_eq, isMain_eq]
  unfold unitOf at h
  congr 1
  simp only [decide_eq_decide]
  omega

/-- Main memory has no unlisted bytes. -/
theorem unlisted_of_isMain {a : Nat} (h : isMain a = true) : Memory.unlisted a = none := by
  unfold isMain at h
  unfold Memory.unlisted
  split at h <;> simp_all

/-! ### Bytes of the state -/

theorem State.unitFor_wf (s : State) (gen pa a : Nat) (h : Memory.wf s.mem = true) : Memory.wf (s.unitFor gen pa a) = true := by
  unfold State.unitFor
  split
  · exact h
  · split
    · exact h
    · exact Memory.wf_writeAll _ _ _ h

/-- What a new encipherment of a unit changes lies in that unit. -/
theorem State.unitFor_other (s : State) (gen pa a y : Nat) (h : unitOf y ≠ unitOf a) :
    PMap.get? (s.unitFor gen pa a) y = PMap.get? s.mem y := by
  unfold State.unitFor
  split
  · rfl
  · split
    · rfl
    · exact Memory.get_writeAll_other _ _ _ _ (by unfold unitOf at *; simp; omega)

theorem State.writeByte_wf (s : State) (gen pa : Nat) (b : W8) (h : Memory.wf s.mem = true) :
    Memory.wf (s.writeByte gen pa b).mem = true := by
  unfold State.writeByte
  split
  · exact h
  · refine Memory.wf_write _ _ _ ?_
    split
    · exact State.unitFor_wf s gen pa _ h
    · exact h

theorem State.writeBytes_wf (s : State) (gen pa : Nat) (bs : List W8) (h : Memory.wf s.mem = true) :
    Memory.wf (s.writeBytes gen pa bs).mem = true := by
  induction bs generalizing s pa with
  | nil => exact h
  | cons b rest ih => exact ih _ _ (State.writeByte_wf s gen pa b h)

theorem State.writeNat_wf (s : State) (gen pa n x : Nat) (h : Memory.wf s.mem = true) :
    Memory.wf (s.writeNat gen pa n x).mem = true := State.writeBytes_wf s gen pa _ h

/-- A write changes memory, its tags and its errors, and nothing else. -/
theorem State.writeByte_frame (s : State) (gen pa : Nat) (b : W8) :
    ∃ m g p, s.writeByte gen pa b = { s with mem := m, memTag := g, poison := p } := by
  unfold State.writeByte
  split
  · exact ⟨s.mem, s.memTag, s.poison, rfl⟩
  · exact ⟨_, _, _, rfl⟩

theorem State.writeBytes_frame (s : State) (gen pa : Nat) (bs : List W8) :
    ∃ m g p, s.writeBytes gen pa bs = { s with mem := m, memTag := g, poison := p } := by
  induction bs generalizing s pa with
  | nil => exact ⟨s.mem, s.memTag, s.poison, rfl⟩
  | cons b rest ih =>
    obtain ⟨m, g, p, h⟩ := State.writeByte_frame s gen pa b
    obtain ⟨m', g', p', h'⟩ := ih (s.writeByte gen pa b) (pa + 1)
    exact ⟨m', g', p', by rw [State.writeBytes, h', h]⟩

/-- The map of addresses does not depend on the bytes. -/
theorem State.storageAddr_writeByte (s : State) (gen pa x : Nat) (b : W8) :
    (s.writeByte gen pa b).storageAddr x = s.storageAddr x := by
  obtain ⟨m, g, p, h⟩ := State.writeByte_frame s gen pa b
  rw [h]
  rfl

/-- A byte written through keys of a generation reads back through them as written. -/
theorem State.readByte_writeByte_same (s : State) (gen pa a : Nat) (b : W8) (ha : s.storageAddr pa = some a) :
    (s.writeByte gen pa b).readByte gen pa = some b := by
  have hs := State.storageAddr_writeByte s gen pa pa b
  rw [ha] at hs
  unfold State.readByte
  rw [hs]
  simp only [State.writeByte, ha]
  split
  · rename_i hm
    simp [State.mainByte, enciphered, Memory.write, unlisted_of_isMain hm, PMap.getD]
  · exact Memory.read_write_same _ a b

/-- What main memory holds of a unit depends on its tag and on what is listed in it alone. -/
theorem State.mainByte_congr (s t : State) (gen pa y : Nat) (ht : PMap.get? t.memTag (unitOf y) = PMap.get? s.memTag (unitOf y))
    (hm : ∀ z, unitOf z = unitOf y → PMap.get? t.mem z = PMap.get? s.mem z) : t.mainByte gen pa y = s.mainByte gen pa y := by
  have he : ∀ z g u, unitOf z = unitOf y → enciphered t.mem z g u = enciphered s.mem z g u := fun z g u hz => by
    simp [enciphered, PMap.getD, hm z hz]
  unfold State.mainByte
  rw [ht]
  split
  · exact he y gen _ rfl
  · rename_i g u _
    rw [he y g u rfl]
    split
    · rfl
    · refine congrArg (fun l => Config.decipher g u gen (unitOf pa) l (y % 64)) (List.map_congr_left fun i hi => he _ g u ?_)
      simp only [List.mem_range] at hi
      unfold unitOf
      omega

/-- A write leaves every byte alone that stands in another data unit, through any keys. -/
theorem State.readByte_writeByte_other (s : State) (gen gen' pa x a y : Nat) (b : W8) (ha : s.storageAddr pa = some a)
    (hx : s.storageAddr x = some y) (h : unitOf y ≠ unitOf a) : (s.writeByte gen pa b).readByte gen' x = s.readByte gen' x := by
  have hm : ∀ z, unitOf z = unitOf y →
      PMap.get? (Memory.write (if isMain a then s.unitFor gen pa a else s.mem) a b) z = PMap.get? s.mem z := fun z hz => by
    rw [Memory.get_write_other _ b (by rintro rfl; exact h hz.symm)]
    split
    · exact State.unitFor_other s gen pa a z (by rw [hz]; exact h)
    · rfl
  unfold State.readByte
  rw [State.storageAddr_writeByte, hx]
  simp only [State.writeByte, ha]
  split
  · refine congrArg some (State.mainByte_congr _ _ gen' x y ?_ hm)
    dsimp only
    split
    · exact PMap.get?_insert_other _ _ h
    · rfl
  · simp only [Memory.read, hm y rfl]

/-- A write leaves every other byte of its data unit alone, as a read through the same keys at the same unit finds it. -/
theorem State.readByte_writeByte_unit (s : State) (gen pa x a y : Nat) (b : W8) (ha : s.storageAddr pa = some a)
    (hx : s.storageAddr x = some y) (hne : y ≠ a) (hu : unitOf y = unitOf a) (hp : unitOf x = unitOf pa) (hl : x % 64 = y % 64) :
    (s.writeByte gen pa b).readByte gen x = s.readByte gen x := by
  unfold State.readByte
  rw [State.storageAddr_writeByte, hx]
  simp only [State.writeByte, ha, isMain_unit hu]
  split
  · rename_i hm
    refine congrArg some ?_
    have hxy : 64 * unitOf pa + y % 64 = x := by rw [← hp, ← hl]; unfold unitOf; omega
    have hy : y = 64 * unitOf a + y % 64 := by rw [← hu]; unfold unitOf; omega
    rw [State.mainByte]
    simp only [hu, PMap.get?_insert_same, hp, and_self, if_true, enciphered, PMap.getD, Memory.get_write_other _ b hne]
    unfold State.unitFor
    cases ht : PMap.get? s.memTag (unitOf a) with
    | none => simp [State.mainByte, hu, ht, enciphered, hp, PMap.getD]
    | some t =>
      obtain ⟨g, u⟩ := t
      by_cases hg : (g, u) = (gen, unitOf pa)
      · obtain ⟨rfl, rfl⟩ := Prod.mk.inj hg
        simp [State.mainByte, hu, ht, enciphered, hp, PMap.getD]
      · have hlt : y % 64 < 64 := by omega
        have := Memory.get_writeAll s.mem (64 * unitOf a) (y % 64)
          ((List.range 64).map fun i => s.mainByte gen (64 * unitOf pa + i) (64 * unitOf a + i)) (by simp [hlt]) fun j hj => by
            apply unlisted_of_isMain
            rw [← hm]
            simp only [List.length_map, List.length_range] at hj
            exact isMain_unit (by unfold unitOf; omega)
        rw [← hy] at this
        simp [hg, this, hlt, hxy, ← hy]
  · simp only [Memory.read, Memory.get_write_other _ b hne]

end Sys2Proof.Machine
end

