-- ==== Sys2Proof/Laws/State.lean ====
section
/-! SUPPORT. For each update of the state, what every field holds after it: the one it touches aside, each is as before. -/
namespace Sys2Proof.Machine

/-! A team changed: `teams` alone may differ. -/
@[simp] theorem State.modTeam_tick (s : State) (t : Nat) (f : Team → Team) : (s.modTeam t f).tick = s.tick := rfl
@[simp] theorem State.modTeam_agenda (s : State) (t : Nat) (f : Team → Team) : (s.modTeam t f).agenda = s.agenda := rfl
@[simp] theorem State.modTeam_cur (s : State) (t : Nat) (f : Team → Team) : (s.modTeam t f).cur = s.cur := rfl
@[simp] theorem State.modTeam_curElem (s : State) (t : Nat) (f : Team → Team) : (s.modTeam t f).curElem = s.curElem := rfl
@[simp] theorem State.modTeam_mem (s : State) (t : Nat) (f : Team → Team) : (s.modTeam t f).mem = s.mem := rfl
@[simp] theorem State.modTeam_memTag (s : State) (t : Nat) (f : Team → Team) : (s.modTeam t f).memTag = s.memTag := rfl
@[simp] theorem State.modTeam_poison (s : State) (t : Nat) (f : Team → Team) : (s.modTeam t f).poison = s.poison := rfl
@[simp] theorem State.modTeam_keys (s : State) (t : Nat) (f : Team → Team) : (s.modTeam t f).keys = s.keys := rfl
@[simp] theorem State.modTeam_draws (s : State) (t : Nat) (f : Team → Team) : (s.modTeam t f).draws = s.draws := rfl
@[simp] theorem State.modTeam_asidBase (s : State) (t : Nat) (f : Team → Team) : (s.modTeam t f).asidBase = s.asidBase := rfl
@[simp] theorem State.modTeam_asidCache (s : State) (t : Nat) (f : Team → Team) : (s.modTeam t f).asidCache = s.asidCache := rfl
@[simp] theorem State.modTeam_tlb (s : State) (t : Nat) (f : Team → Team) : (s.modTeam t f).tlb = s.tlb := rfl
@[simp] theorem State.modTeam_dying (s : State) (t : Nat) (f : Team → Team) : (s.modTeam t f).dying = s.dying := rfl
@[simp] theorem State.modTeam_faultSeq (s : State) (t : Nat) (f : Team → Team) : (s.modTeam t f).faultSeq = s.faultSeq := rfl
@[simp] theorem State.modTeam_queues (s : State) (t : Nat) (f : Team → Team) : (s.modTeam t f).queues = s.queues := rfl
@[simp] theorem State.modTeam_cores (s : State) (t : Nat) (f : Team → Team) : (s.modTeam t f).cores = s.cores := rfl
@[simp] theorem State.modTeam_nextTeam (s : State) (t : Nat) (f : Team → Team) : (s.modTeam t f).nextTeam = s.nextTeam := rfl
@[simp] theorem State.modTeam_net (s : State) (t : Nat) (f : Team → Team) : (s.modTeam t f).net = s.net := rfl
@[simp] theorem State.modTeam_hbmStacks (s : State) (t : Nat) (f : Team → Team) : (s.modTeam t f).hbmStacks = s.hbmStacks := rfl
@[simp] theorem State.modTeam_rowStores (s : State) (t : Nat) (f : Team → Team) : (s.modTeam t f).rowStores = s.rowStores := rfl
@[simp] theorem State.modTeam_dies (s : State) (t : Nat) (f : Team → Team) : (s.modTeam t f).dies = s.dies := rfl
@[simp] theorem State.modTeam_hub (s : State) (t : Nat) (f : Team → Team) : (s.modTeam t f).hub = s.hub := rfl

/-! A group changed: `teams` alone may differ. -/
@[simp] theorem State.modGroup_tick (s : State) (t g : Nat) (f : Group → Group) : (s.modGroup t g f).tick = s.tick := rfl
@[simp] theorem State.modGroup_agenda (s : State) (t g : Nat) (f : Group → Group) : (s.modGroup t g f).agenda = s.agenda := rfl
@[simp] theorem State.modGroup_cur (s : State) (t g : Nat) (f : Group → Group) : (s.modGroup t g f).cur = s.cur := rfl
@[simp] theorem State.modGroup_curElem (s : State) (t g : Nat) (f : Group → Group) : (s.modGroup t g f).curElem = s.curElem := rfl
@[simp] theorem State.modGroup_mem (s : State) (t g : Nat) (f : Group → Group) : (s.modGroup t g f).mem = s.mem := rfl
@[simp] theorem State.modGroup_memTag (s : State) (t g : Nat) (f : Group → Group) : (s.modGroup t g f).memTag = s.memTag := rfl
@[simp] theorem State.modGroup_poison (s : State) (t g : Nat) (f : Group → Group) : (s.modGroup t g f).poison = s.poison := rfl
@[simp] theorem State.modGroup_keys (s : State) (t g : Nat) (f : Group → Group) : (s.modGroup t g f).keys = s.keys := rfl
@[simp] theorem State.modGroup_draws (s : State) (t g : Nat) (f : Group → Group) : (s.modGroup t g f).draws = s.draws := rfl
@[simp] theorem State.modGroup_asidBase (s : State) (t g : Nat) (f : Group → Group) : (s.modGroup t g f).asidBase = s.asidBase := rfl
@[simp] theorem State.modGroup_asidCache (s : State) (t g : Nat) (f : Group → Group) : (s.modGroup t g f).asidCache = s.asidCache := rfl
@[simp] theorem State.modGroup_tlb (s : State) (t g : Nat) (f : Group → Group) : (s.modGroup t g f).tlb = s.tlb := rfl
@[simp] theorem State.modGroup_dying (s : State) (t g : Nat) (f : Group → Group) : (s.modGroup t g f).dying = s.dying := rfl
@[simp] theorem State.modGroup_faultSeq (s : State) (t g : Nat) (f : Group → Group) : (s.modGroup t g f).faultSeq = s.faultSeq := rfl
@[simp] theorem State.modGroup_queues (s : State) (t g : Nat) (f : Group → Group) : (s.modGroup t g f).queues = s.queues := rfl
@[simp] theorem State.modGroup_cores (s : State) (t g : Nat) (f : Group → Group) : (s.modGroup t g f).cores = s.cores := rfl
@[simp] theorem State.modGroup_nextTeam (s : State) (t g : Nat) (f : Group → Group) : (s.modGroup t g f).nextTeam = s.nextTeam := rfl
@[simp] theorem State.modGroup_net (s : State) (t g : Nat) (f : Group → Group) : (s.modGroup t g f).net = s.net := rfl
@[simp] theorem State.modGroup_hbmStacks (s : State) (t g : Nat) (f : Group → Group) : (s.modGroup t g f).hbmStacks = s.hbmStacks := rfl
@[simp] theorem State.modGroup_rowStores (s : State) (t g : Nat) (f : Group → Group) : (s.modGroup t g f).rowStores = s.rowStores := rfl
@[simp] theorem State.modGroup_dies (s : State) (t g : Nat) (f : Group → Group) : (s.modGroup t g f).dies = s.dies := rfl
@[simp] theorem State.modGroup_hub (s : State) (t g : Nat) (f : Group → Group) : (s.modGroup t g f).hub = s.hub := rfl

/-! A block in execution changed: `teams` alone may differ. -/
@[simp] theorem State.modFlight_tick (s : State) (t g : Nat) (f : Flight → Flight) : (s.modFlight t g f).tick = s.tick := rfl
@[simp] theorem State.modFlight_agenda (s : State) (t g : Nat) (f : Flight → Flight) : (s.modFlight t g f).agenda = s.agenda := rfl
@[simp] theorem State.modFlight_cur (s : State) (t g : Nat) (f : Flight → Flight) : (s.modFlight t g f).cur = s.cur := rfl
@[simp] theorem State.modFlight_curElem (s : State) (t g : Nat) (f : Flight → Flight) : (s.modFlight t g f).curElem = s.curElem := rfl
@[simp] theorem State.modFlight_mem (s : State) (t g : Nat) (f : Flight → Flight) : (s.modFlight t g f).mem = s.mem := rfl
@[simp] theorem State.modFlight_memTag (s : State) (t g : Nat) (f : Flight → Flight) : (s.modFlight t g f).memTag = s.memTag := rfl
@[simp] theorem State.modFlight_poison (s : State) (t g : Nat) (f : Flight → Flight) : (s.modFlight t g f).poison = s.poison := rfl
@[simp] theorem State.modFlight_keys (s : State) (t g : Nat) (f : Flight → Flight) : (s.modFlight t g f).keys = s.keys := rfl
@[simp] theorem State.modFlight_draws (s : State) (t g : Nat) (f : Flight → Flight) : (s.modFlight t g f).draws = s.draws := rfl
@[simp] theorem State.modFlight_asidBase (s : State) (t g : Nat) (f : Flight → Flight) : (s.modFlight t g f).asidBase = s.asidBase := rfl
@[simp] theorem State.modFlight_asidCache (s : State) (t g : Nat) (f : Flight → Flight) : (s.modFlight t g f).asidCache = s.asidCache := rfl
@[simp] theorem State.modFlight_tlb (s : State) (t g : Nat) (f : Flight → Flight) : (s.modFlight t g f).tlb = s.tlb := rfl
@[simp] theorem State.modFlight_dying (s : State) (t g : Nat) (f : Flight → Flight) : (s.modFlight t g f).dying = s.dying := rfl
@[simp] theorem State.modFlight_faultSeq (s : State) (t g : Nat) (f : Flight → Flight) : (s.modFlight t g f).faultSeq = s.faultSeq := rfl
@[simp] theorem State.modFlight_queues (s : State) (t g : Nat) (f : Flight → Flight) : (s.modFlight t g f).queues = s.queues := rfl
@[simp] theorem State.modFlight_cores (s : State) (t g : Nat) (f : Flight → Flight) : (s.modFlight t g f).cores = s.cores := rfl
@[simp] theorem State.modFlight_nextTeam (s : State) (t g : Nat) (f : Flight → Flight) : (s.modFlight t g f).nextTeam = s.nextTeam := rfl
@[simp] theorem State.modFlight_net (s : State) (t g : Nat) (f : Flight → Flight) : (s.modFlight t g f).net = s.net := rfl
@[simp] theorem State.modFlight_hbmStacks (s : State) (t g : Nat) (f : Flight → Flight) : (s.modFlight t g f).hbmStacks = s.hbmStacks := rfl
@[simp] theorem State.modFlight_rowStores (s : State) (t g : Nat) (f : Flight → Flight) : (s.modFlight t g f).rowStores = s.rowStores := rfl
@[simp] theorem State.modFlight_dies (s : State) (t g : Nat) (f : Flight → Flight) : (s.modFlight t g f).dies = s.dies := rfl
@[simp] theorem State.modFlight_hub (s : State) (t g : Nat) (f : Flight → Flight) : (s.modFlight t g f).hub = s.hub := rfl

/-! A core changed: `cores` alone may differ. -/
@[simp] theorem State.modCore_tick (s : State) (c : Nat) (f : Core → Core) : (s.modCore c f).tick = s.tick := rfl
@[simp] theorem State.modCore_agenda (s : State) (c : Nat) (f : Core → Core) : (s.modCore c f).agenda = s.agenda := rfl
@[simp] theorem State.modCore_cur (s : State) (c : Nat) (f : Core → Core) : (s.modCore c f).cur = s.cur := rfl
@[simp] theorem State.modCore_curElem (s : State) (c : Nat) (f : Core → Core) : (s.modCore c f).curElem = s.curElem := rfl
@[simp] theorem State.modCore_mem (s : State) (c : Nat) (f : Core → Core) : (s.modCore c f).mem = s.mem := rfl
@[simp] theorem State.modCore_memTag (s : State) (c : Nat) (f : Core → Core) : (s.modCore c f).memTag = s.memTag := rfl
@[simp] theorem State.modCore_poison (s : State) (c : Nat) (f : Core → Core) : (s.modCore c f).poison = s.poison := rfl
@[simp] theorem State.modCore_keys (s : State) (c : Nat) (f : Core → Core) : (s.modCore c f).keys = s.keys := rfl
@[simp] theorem State.modCore_draws (s : State) (c : Nat) (f : Core → Core) : (s.modCore c f).draws = s.draws := rfl
@[simp] theorem State.modCore_asidBase (s : State) (c : Nat) (f : Core → Core) : (s.modCore c f).asidBase = s.asidBase := rfl
@[simp] theorem State.modCore_asidCache (s : State) (c : Nat) (f : Core → Core) : (s.modCore c f).asidCache = s.asidCache := rfl
@[simp] theorem State.modCore_tlb (s : State) (c : Nat) (f : Core → Core) : (s.modCore c f).tlb = s.tlb := rfl
@[simp] theorem State.modCore_dying (s : State) (c : Nat) (f : Core → Core) : (s.modCore c f).dying = s.dying := rfl
@[simp] theorem State.modCore_faultSeq (s : State) (c : Nat) (f : Core → Core) : (s.modCore c f).faultSeq = s.faultSeq := rfl
@[simp] theorem State.modCore_queues (s : State) (c : Nat) (f : Core → Core) : (s.modCore c f).queues = s.queues := rfl
@[simp] theorem State.modCore_teams (s : State) (c : Nat) (f : Core → Core) : (s.modCore c f).teams = s.teams := rfl
@[simp] theorem State.modCore_nextTeam (s : State) (c : Nat) (f : Core → Core) : (s.modCore c f).nextTeam = s.nextTeam := rfl
@[simp] theorem State.modCore_net (s : State) (c : Nat) (f : Core → Core) : (s.modCore c f).net = s.net := rfl
@[simp] theorem State.modCore_hbmStacks (s : State) (c : Nat) (f : Core → Core) : (s.modCore c f).hbmStacks = s.hbmStacks := rfl
@[simp] theorem State.modCore_rowStores (s : State) (c : Nat) (f : Core → Core) : (s.modCore c f).rowStores = s.rowStores := rfl
@[simp] theorem State.modCore_dies (s : State) (c : Nat) (f : Core → Core) : (s.modCore c f).dies = s.dies := rfl
@[simp] theorem State.modCore_hub (s : State) (c : Nat) (f : Core → Core) : (s.modCore c f).hub = s.hub := rfl

/-! A die changed: `dies` alone may differ. -/
@[simp] theorem State.modDie_tick (s : State) (d : Nat) (f : Die → Die) : (s.modDie d f).tick = s.tick := rfl
@[simp] theorem State.modDie_agenda (s : State) (d : Nat) (f : Die → Die) : (s.modDie d f).agenda = s.agenda := rfl
@[simp] theorem State.modDie_cur (s : State) (d : Nat) (f : Die → Die) : (s.modDie d f).cur = s.cur := rfl
@[simp] theorem State.modDie_curElem (s : State) (d : Nat) (f : Die → Die) : (s.modDie d f).curElem = s.curElem := rfl
@[simp] theorem State.modDie_mem (s : State) (d : Nat) (f : Die → Die) : (s.modDie d f).mem = s.mem := rfl
@[simp] theorem State.modDie_memTag (s : State) (d : Nat) (f : Die → Die) : (s.modDie d f).memTag = s.memTag := rfl
@[simp] theorem State.modDie_poison (s : State) (d : Nat) (f : Die → Die) : (s.modDie d f).poison = s.poison := rfl
@[simp] theorem State.modDie_keys (s : State) (d : Nat) (f : Die → Die) : (s.modDie d f).keys = s.keys := rfl
@[simp] theorem State.modDie_draws (s : State) (d : Nat) (f : Die → Die) : (s.modDie d f).draws = s.draws := rfl
@[simp] theorem State.modDie_asidBase (s : State) (d : Nat) (f : Die → Die) : (s.modDie d f).asidBase = s.asidBase := rfl
@[simp] theorem State.modDie_asidCache (s : State) (d : Nat) (f : Die → Die) : (s.modDie d f).asidCache = s.asidCache := rfl
@[simp] theorem State.modDie_tlb (s : State) (d : Nat) (f : Die → Die) : (s.modDie d f).tlb = s.tlb := rfl
@[simp] theorem State.modDie_dying (s : State) (d : Nat) (f : Die → Die) : (s.modDie d f).dying = s.dying := rfl
@[simp] theorem State.modDie_faultSeq (s : State) (d : Nat) (f : Die → Die) : (s.modDie d f).faultSeq = s.faultSeq := rfl
@[simp] theorem State.modDie_queues (s : State) (d : Nat) (f : Die → Die) : (s.modDie d f).queues = s.queues := rfl
@[simp] theorem State.modDie_cores (s : State) (d : Nat) (f : Die → Die) : (s.modDie d f).cores = s.cores := rfl
@[simp] theorem State.modDie_teams (s : State) (d : Nat) (f : Die → Die) : (s.modDie d f).teams = s.teams := rfl
@[simp] theorem State.modDie_nextTeam (s : State) (d : Nat) (f : Die → Die) : (s.modDie d f).nextTeam = s.nextTeam := rfl
@[simp] theorem State.modDie_net (s : State) (d : Nat) (f : Die → Die) : (s.modDie d f).net = s.net := rfl
@[simp] theorem State.modDie_hbmStacks (s : State) (d : Nat) (f : Die → Die) : (s.modDie d f).hbmStacks = s.hbmStacks := rfl
@[simp] theorem State.modDie_rowStores (s : State) (d : Nat) (f : Die → Die) : (s.modDie d f).rowStores = s.rowStores := rfl
@[simp] theorem State.modDie_hub (s : State) (d : Nat) (f : Die → Die) : (s.modDie d f).hub = s.hub := rfl

/-! A stack changed: `hbmStacks` alone may differ. -/
@[simp] theorem State.modStack_tick (s : State) (n : Nat) (f : Stack → Stack) : (s.modStack n f).tick = s.tick := rfl
@[simp] theorem State.modStack_agenda (s : State) (n : Nat) (f : Stack → Stack) : (s.modStack n f).agenda = s.agenda := rfl
@[simp] theorem State.modStack_cur (s : State) (n : Nat) (f : Stack → Stack) : (s.modStack n f).cur = s.cur := rfl
@[simp] theorem State.modStack_curElem (s : State) (n : Nat) (f : Stack → Stack) : (s.modStack n f).curElem = s.curElem := rfl
@[simp] theorem State.modStack_mem (s : State) (n : Nat) (f : Stack → Stack) : (s.modStack n f).mem = s.mem := rfl
@[simp] theorem State.modStack_memTag (s : State) (n : Nat) (f : Stack → Stack) : (s.modStack n f).memTag = s.memTag := rfl
@[simp] theorem State.modStack_poison (s : State) (n : Nat) (f : Stack → Stack) : (s.modStack n f).poison = s.poison := rfl
@[simp] theorem State.modStack_keys (s : State) (n : Nat) (f : Stack → Stack) : (s.modStack n f).keys = s.keys := rfl
@[simp] theorem State.modStack_draws (s : State) (n : Nat) (f : Stack → Stack) : (s.modStack n f).draws = s.draws := rfl
@[simp] theorem State.modStack_asidBase (s : State) (n : Nat) (f : Stack → Stack) : (s.modStack n f).asidBase = s.asidBase := rfl
@[simp] theorem State.modStack_asidCache (s : State) (n : Nat) (f : Stack → Stack) : (s.modStack n f).asidCache = s.asidCache := rfl
@[simp] theorem State.modStack_tlb (s : State) (n : Nat) (f : Stack → Stack) : (s.modStack n f).tlb = s.tlb := rfl
@[simp] theorem State.modStack_dying (s : State) (n : Nat) (f : Stack → Stack) : (s.modStack n f).dying = s.dying := rfl
@[simp] theorem State.modStack_faultSeq (s : State) (n : Nat) (f : Stack → Stack) : (s.modStack n f).faultSeq = s.faultSeq := rfl
@[simp] theorem State.modStack_queues (s : State) (n : Nat) (f : Stack → Stack) : (s.modStack n f).queues = s.queues := rfl
@[simp] theorem State.modStack_cores (s : State) (n : Nat) (f : Stack → Stack) : (s.modStack n f).cores = s.cores := rfl
@[simp] theorem State.modStack_teams (s : State) (n : Nat) (f : Stack → Stack) : (s.modStack n f).teams = s.teams := rfl
@[simp] theorem State.modStack_nextTeam (s : State) (n : Nat) (f : Stack → Stack) : (s.modStack n f).nextTeam = s.nextTeam := rfl
@[simp] theorem State.modStack_net (s : State) (n : Nat) (f : Stack → Stack) : (s.modStack n f).net = s.net := rfl
@[simp] theorem State.modStack_rowStores (s : State) (n : Nat) (f : Stack → Stack) : (s.modStack n f).rowStores = s.rowStores := rfl
@[simp] theorem State.modStack_dies (s : State) (n : Nat) (f : Stack → Stack) : (s.modStack n f).dies = s.dies := rfl
@[simp] theorem State.modStack_hub (s : State) (n : Nat) (f : Stack → Stack) : (s.modStack n f).hub = s.hub := rfl

/-! A queue changed: `queues` alone may differ. -/
@[simp] theorem State.modQueue_tick (s : State) (q : Nat) (f : Queue → Queue) : (s.modQueue q f).tick = s.tick := rfl
@[simp] theorem State.modQueue_agenda (s : State) (q : Nat) (f : Queue → Queue) : (s.modQueue q f).agenda = s.agenda := rfl
@[simp] theorem State.modQueue_cur (s : State) (q : Nat) (f : Queue → Queue) : (s.modQueue q f).cur = s.cur := rfl
@[simp] theorem State.modQueue_curElem (s : State) (q : Nat) (f : Queue → Queue) : (s.modQueue q f).curElem = s.curElem := rfl
@[simp] theorem State.modQueue_mem (s : State) (q : Nat) (f : Queue → Queue) : (s.modQueue q f).mem = s.mem := rfl
@[simp] theorem State.modQueue_memTag (s : State) (q : Nat) (f : Queue → Queue) : (s.modQueue q f).memTag = s.memTag := rfl
@[simp] theorem State.modQueue_poison (s : State) (q : Nat) (f : Queue → Queue) : (s.modQueue q f).poison = s.poison := rfl
@[simp] theorem State.modQueue_keys (s : State) (q : Nat) (f : Queue → Queue) : (s.modQueue q f).keys = s.keys := rfl
@[simp] theorem State.modQueue_draws (s : State) (q : Nat) (f : Queue → Queue) : (s.modQueue q f).draws = s.draws := rfl
@[simp] theorem State.modQueue_asidBase (s : State) (q : Nat) (f : Queue → Queue) : (s.modQueue q f).asidBase = s.asidBase := rfl
@[simp] theorem State.modQueue_asidCache (s : State) (q : Nat) (f : Queue → Queue) : (s.modQueue q f).asidCache = s.asidCache := rfl
@[simp] theorem State.modQueue_tlb (s : State) (q : Nat) (f : Queue → Queue) : (s.modQueue q f).tlb = s.tlb := rfl
@[simp] theorem State.modQueue_dying (s : State) (q : Nat) (f : Queue → Queue) : (s.modQueue q f).dying = s.dying := rfl
@[simp] theorem State.modQueue_faultSeq (s : State) (q : Nat) (f : Queue → Queue) : (s.modQueue q f).faultSeq = s.faultSeq := rfl
@[simp] theorem State.modQueue_cores (s : State) (q : Nat) (f : Queue → Queue) : (s.modQueue q f).cores = s.cores := rfl
@[simp] theorem State.modQueue_teams (s : State) (q : Nat) (f : Queue → Queue) : (s.modQueue q f).teams = s.teams := rfl
@[simp] theorem State.modQueue_nextTeam (s : State) (q : Nat) (f : Queue → Queue) : (s.modQueue q f).nextTeam = s.nextTeam := rfl
@[simp] theorem State.modQueue_net (s : State) (q : Nat) (f : Queue → Queue) : (s.modQueue q f).net = s.net := rfl
@[simp] theorem State.modQueue_hbmStacks (s : State) (q : Nat) (f : Queue → Queue) : (s.modQueue q f).hbmStacks = s.hbmStacks := rfl
@[simp] theorem State.modQueue_rowStores (s : State) (q : Nat) (f : Queue → Queue) : (s.modQueue q f).rowStores = s.rowStores := rfl
@[simp] theorem State.modQueue_dies (s : State) (q : Nat) (f : Queue → Queue) : (s.modQueue q f).dies = s.dies := rfl
@[simp] theorem State.modQueue_hub (s : State) (q : Nat) (f : Queue → Queue) : (s.modQueue q f).hub = s.hub := rfl

/-! A block that waits: `teams` alone may differ. -/
@[simp] theorem State.waitOn_tick (s : State) (c : Ctx) (k : WaitKind) : (s.waitOn c k).tick = s.tick := by cases k <;> rfl
@[simp] theorem State.waitOn_agenda (s : State) (c : Ctx) (k : WaitKind) : (s.waitOn c k).agenda = s.agenda := by cases k <;> rfl
@[simp] theorem State.waitOn_cur (s : State) (c : Ctx) (k : WaitKind) : (s.waitOn c k).cur = s.cur := by cases k <;> rfl
@[simp] theorem State.waitOn_curElem (s : State) (c : Ctx) (k : WaitKind) : (s.waitOn c k).curElem = s.curElem := by cases k <;> rfl
@[simp] theorem State.waitOn_mem (s : State) (c : Ctx) (k : WaitKind) : (s.waitOn c k).mem = s.mem := by cases k <;> rfl
@[simp] theorem State.waitOn_memTag (s : State) (c : Ctx) (k : WaitKind) : (s.waitOn c k).memTag = s.memTag := by cases k <;> rfl
@[simp] theorem State.waitOn_poison (s : State) (c : Ctx) (k : WaitKind) : (s.waitOn c k).poison = s.poison := by cases k <;> rfl
@[simp] theorem State.waitOn_keys (s : State) (c : Ctx) (k : WaitKind) : (s.waitOn c k).keys = s.keys := by cases k <;> rfl
@[simp] theorem State.waitOn_draws (s : State) (c : Ctx) (k : WaitKind) : (s.waitOn c k).draws = s.draws := by cases k <;> rfl
@[simp] theorem State.waitOn_asidBase (s : State) (c : Ctx) (k : WaitKind) : (s.waitOn c k).asidBase = s.asidBase := by cases k <;> rfl
@[simp] theorem State.waitOn_asidCache (s : State) (c : Ctx) (k : WaitKind) : (s.waitOn c k).asidCache = s.asidCache := by cases k <;> rfl
@[simp] theorem State.waitOn_tlb (s : State) (c : Ctx) (k : WaitKind) : (s.waitOn c k).tlb = s.tlb := by cases k <;> rfl
@[simp] theorem State.waitOn_dying (s : State) (c : Ctx) (k : WaitKind) : (s.waitOn c k).dying = s.dying := by cases k <;> rfl
@[simp] theorem State.waitOn_faultSeq (s : State) (c : Ctx) (k : WaitKind) : (s.waitOn c k).faultSeq = s.faultSeq := by cases k <;> rfl
@[simp] theorem State.waitOn_queues (s : State) (c : Ctx) (k : WaitKind) : (s.waitOn c k).queues = s.queues := by cases k <;> rfl
@[simp] theorem State.waitOn_cores (s : State) (c : Ctx) (k : WaitKind) : (s.waitOn c k).cores = s.cores := by cases k <;> rfl
@[simp] theorem State.waitOn_nextTeam (s : State) (c : Ctx) (k : WaitKind) : (s.waitOn c k).nextTeam = s.nextTeam := by cases k <;> rfl
@[simp] theorem State.waitOn_net (s : State) (c : Ctx) (k : WaitKind) : (s.waitOn c k).net = s.net := by cases k <;> rfl
@[simp] theorem State.waitOn_hbmStacks (s : State) (c : Ctx) (k : WaitKind) : (s.waitOn c k).hbmStacks = s.hbmStacks := by cases k <;> rfl
@[simp] theorem State.waitOn_rowStores (s : State) (c : Ctx) (k : WaitKind) : (s.waitOn c k).rowStores = s.rowStores := by cases k <;> rfl
@[simp] theorem State.waitOn_dies (s : State) (c : Ctx) (k : WaitKind) : (s.waitOn c k).dies = s.dies := by cases k <;> rfl
@[simp] theorem State.waitOn_hub (s : State) (c : Ctx) (k : WaitKind) : (s.waitOn c k).hub = s.hub := by cases k <;> rfl

/-! A slot that has fired: `teams` alone may differ. -/
@[simp] theorem State.complete_tick (s : State) (c : Ctx) (v0 v1 : Option Val) (es : List Effect) : (s.complete c v0 v1 es).tick = s.tick := rfl
@[simp] theorem State.complete_agenda (s : State) (c : Ctx) (v0 v1 : Option Val) (es : List Effect) : (s.complete c v0 v1 es).agenda = s.agenda := rfl
@[simp] theorem State.complete_cur (s : State) (c : Ctx) (v0 v1 : Option Val) (es : List Effect) : (s.complete c v0 v1 es).cur = s.cur := rfl
@[simp] theorem State.complete_curElem (s : State) (c : Ctx) (v0 v1 : Option Val) (es : List Effect) : (s.complete c v0 v1 es).curElem = s.curElem := rfl
@[simp] theorem State.complete_mem (s : State) (c : Ctx) (v0 v1 : Option Val) (es : List Effect) : (s.complete c v0 v1 es).mem = s.mem := rfl
@[simp] theorem State.complete_memTag (s : State) (c : Ctx) (v0 v1 : Option Val) (es : List Effect) : (s.complete c v0 v1 es).memTag = s.memTag := rfl
@[simp] theorem State.complete_poison (s : State) (c : Ctx) (v0 v1 : Option Val) (es : List Effect) : (s.complete c v0 v1 es).poison = s.poison := rfl
@[simp] theorem State.complete_keys (s : State) (c : Ctx) (v0 v1 : Option Val) (es : List Effect) : (s.complete c v0 v1 es).keys = s.keys := rfl
@[simp] theorem State.complete_draws (s : State) (c : Ctx) (v0 v1 : Option Val) (es : List Effect) : (s.complete c v0 v1 es).draws = s.draws := rfl
@[simp] theorem State.complete_asidBase (s : State) (c : Ctx) (v0 v1 : Option Val) (es : List Effect) : (s.complete c v0 v1 es).asidBase = s.asidBase := rfl
@[simp] theorem State.complete_asidCache (s : State) (c : Ctx) (v0 v1 : Option Val) (es : List Effect) : (s.complete c v0 v1 es).asidCache = s.asidCache := rfl
@[simp] theorem State.complete_tlb (s : State) (c : Ctx) (v0 v1 : Option Val) (es : List Effect) : (s.complete c v0 v1 es).tlb = s.tlb := rfl
@[simp] theorem State.complete_dying (s : State) (c : Ctx) (v0 v1 : Option Val) (es : List Effect) : (s.complete c v0 v1 es).dying = s.dying := rfl
@[simp] theorem State.complete_faultSeq (s : State) (c : Ctx) (v0 v1 : Option Val) (es : List Effect) : (s.complete c v0 v1 es).faultSeq = s.faultSeq := rfl
@[simp] theorem State.complete_queues (s : State) (c : Ctx) (v0 v1 : Option Val) (es : List Effect) : (s.complete c v0 v1 es).queues = s.queues := rfl
@[simp] theorem State.complete_cores (s : State) (c : Ctx) (v0 v1 : Option Val) (es : List Effect) : (s.complete c v0 v1 es).cores = s.cores := rfl
@[simp] theorem State.complete_nextTeam (s : State) (c : Ctx) (v0 v1 : Option Val) (es : List Effect) : (s.complete c v0 v1 es).nextTeam = s.nextTeam := rfl
@[simp] theorem State.complete_net (s : State) (c : Ctx) (v0 v1 : Option Val) (es : List Effect) : (s.complete c v0 v1 es).net = s.net := rfl
@[simp] theorem State.complete_hbmStacks (s : State) (c : Ctx) (v0 v1 : Option Val) (es : List Effect) : (s.complete c v0 v1 es).hbmStacks = s.hbmStacks := rfl
@[simp] theorem State.complete_rowStores (s : State) (c : Ctx) (v0 v1 : Option Val) (es : List Effect) : (s.complete c v0 v1 es).rowStores = s.rowStores := rfl
@[simp] theorem State.complete_dies (s : State) (c : Ctx) (v0 v1 : Option Val) (es : List Effect) : (s.complete c v0 v1 es).dies = s.dies := rfl
@[simp] theorem State.complete_hub (s : State) (c : Ctx) (v0 v1 : Option Val) (es : List Effect) : (s.complete c v0 v1 es).hub = s.hub := rfl

/-! An answer to the host: `hub` alone may differ. -/
@[simp] theorem State.reply_tick (s : State) (r : Reply) : (s.reply r).tick = s.tick := rfl
@[simp] theorem State.reply_agenda (s : State) (r : Reply) : (s.reply r).agenda = s.agenda := rfl
@[simp] theorem State.reply_cur (s : State) (r : Reply) : (s.reply r).cur = s.cur := rfl
@[simp] theorem State.reply_curElem (s : State) (r : Reply) : (s.reply r).curElem = s.curElem := rfl
@[simp] theorem State.reply_mem (s : State) (r : Reply) : (s.reply r).mem = s.mem := rfl
@[simp] theorem State.reply_memTag (s : State) (r : Reply) : (s.reply r).memTag = s.memTag := rfl
@[simp] theorem State.reply_poison (s : State) (r : Reply) : (s.reply r).poison = s.poison := rfl
@[simp] theorem State.reply_keys (s : State) (r : Reply) : (s.reply r).keys = s.keys := rfl
@[simp] theorem State.reply_draws (s : State) (r : Reply) : (s.reply r).draws = s.draws := rfl
@[simp] theorem State.reply_asidBase (s : State) (r : Reply) : (s.reply r).asidBase = s.asidBase := rfl
@[simp] theorem State.reply_asidCache (s : State) (r : Reply) : (s.reply r).asidCache = s.asidCache := rfl
@[simp] theorem State.reply_tlb (s : State) (r : Reply) : (s.reply r).tlb = s.tlb := rfl
@[simp] theorem State.reply_dying (s : State) (r : Reply) : (s.reply r).dying = s.dying := rfl
@[simp] theorem State.reply_faultSeq (s : State) (r : Reply) : (s.reply r).faultSeq = s.faultSeq := rfl
@[simp] theorem State.reply_queues (s : State) (r : Reply) : (s.reply r).queues = s.queues := rfl
@[simp] theorem State.reply_cores (s : State) (r : Reply) : (s.reply r).cores = s.cores := rfl
@[simp] theorem State.reply_teams (s : State) (r : Reply) : (s.reply r).teams = s.teams := rfl
@[simp] theorem State.reply_nextTeam (s : State) (r : Reply) : (s.reply r).nextTeam = s.nextTeam := rfl
@[simp] theorem State.reply_net (s : State) (r : Reply) : (s.reply r).net = s.net := rfl
@[simp] theorem State.reply_hbmStacks (s : State) (r : Reply) : (s.reply r).hbmStacks = s.hbmStacks := rfl
@[simp] theorem State.reply_rowStores (s : State) (r : Reply) : (s.reply r).rowStores = s.rowStores := rfl
@[simp] theorem State.reply_dies (s : State) (r : Reply) : (s.reply r).dies = s.dies := rfl

/-! A posted event: `hub` alone may differ. -/
@[simp] theorem State.post_tick (s : State) (e d x : Nat) : (s.post e d x).tick = s.tick := rfl
@[simp] theorem State.post_agenda (s : State) (e d x : Nat) : (s.post e d x).agenda = s.agenda := rfl
@[simp] theorem State.post_cur (s : State) (e d x : Nat) : (s.post e d x).cur = s.cur := rfl
@[simp] theorem State.post_curElem (s : State) (e d x : Nat) : (s.post e d x).curElem = s.curElem := rfl
@[simp] theorem State.post_mem (s : State) (e d x : Nat) : (s.post e d x).mem = s.mem := rfl
@[simp] theorem State.post_memTag (s : State) (e d x : Nat) : (s.post e d x).memTag = s.memTag := rfl
@[simp] theorem State.post_poison (s : State) (e d x : Nat) : (s.post e d x).poison = s.poison := rfl
@[simp] theorem State.post_keys (s : State) (e d x : Nat) : (s.post e d x).keys = s.keys := rfl
@[simp] theorem State.post_draws (s : State) (e d x : Nat) : (s.post e d x).draws = s.draws := rfl
@[simp] theorem State.post_asidBase (s : State) (e d x : Nat) : (s.post e d x).asidBase = s.asidBase := rfl
@[simp] theorem State.post_asidCache (s : State) (e d x : Nat) : (s.post e d x).asidCache = s.asidCache := rfl
@[simp] theorem State.post_tlb (s : State) (e d x : Nat) : (s.post e d x).tlb = s.tlb := rfl
@[simp] theorem State.post_dying (s : State) (e d x : Nat) : (s.post e d x).dying = s.dying := rfl
@[simp] theorem State.post_faultSeq (s : State) (e d x : Nat) : (s.post e d x).faultSeq = s.faultSeq := rfl
@[simp] theorem State.post_queues (s : State) (e d x : Nat) : (s.post e d x).queues = s.queues := rfl
@[simp] theorem State.post_cores (s : State) (e d x : Nat) : (s.post e d x).cores = s.cores := rfl
@[simp] theorem State.post_teams (s : State) (e d x : Nat) : (s.post e d x).teams = s.teams := rfl
@[simp] theorem State.post_nextTeam (s : State) (e d x : Nat) : (s.post e d x).nextTeam = s.nextTeam := rfl
@[simp] theorem State.post_net (s : State) (e d x : Nat) : (s.post e d x).net = s.net := rfl
@[simp] theorem State.post_hbmStacks (s : State) (e d x : Nat) : (s.post e d x).hbmStacks = s.hbmStacks := rfl
@[simp] theorem State.post_rowStores (s : State) (e d x : Nat) : (s.post e d x).rowStores = s.rowStores := rfl
@[simp] theorem State.post_dies (s : State) (e d x : Nat) : (s.post e d x).dies = s.dies := rfl

/-! A counted event: `dies` alone may differ. -/
@[simp] theorem State.monitorEvent_tick (s : State) (d src : Nat) (a : Option W16) (v : Nat) : (s.monitorEvent d src a v).tick = s.tick := rfl
@[simp] theorem State.monitorEvent_agenda (s : State) (d src : Nat) (a : Option W16) (v : Nat) : (s.monitorEvent d src a v).agenda = s.agenda := rfl
@[simp] theorem State.monitorEvent_cur (s : State) (d src : Nat) (a : Option W16) (v : Nat) : (s.monitorEvent d src a v).cur = s.cur := rfl
@[simp] theorem State.monitorEvent_curElem (s : State) (d src : Nat) (a : Option W16) (v : Nat) : (s.monitorEvent d src a v).curElem = s.curElem := rfl
@[simp] theorem State.monitorEvent_mem (s : State) (d src : Nat) (a : Option W16) (v : Nat) : (s.monitorEvent d src a v).mem = s.mem := rfl
@[simp] theorem State.monitorEvent_memTag (s : State) (d src : Nat) (a : Option W16) (v : Nat) : (s.monitorEvent d src a v).memTag = s.memTag := rfl
@[simp] theorem State.monitorEvent_poison (s : State) (d src : Nat) (a : Option W16) (v : Nat) : (s.monitorEvent d src a v).poison = s.poison := rfl
@[simp] theorem State.monitorEvent_keys (s : State) (d src : Nat) (a : Option W16) (v : Nat) : (s.monitorEvent d src a v).keys = s.keys := rfl
@[simp] theorem State.monitorEvent_draws (s : State) (d src : Nat) (a : Option W16) (v : Nat) : (s.monitorEvent d src a v).draws = s.draws := rfl
@[simp] theorem State.monitorEvent_asidBase (s : State) (d src : Nat) (a : Option W16) (v : Nat) : (s.monitorEvent d src a v).asidBase = s.asidBase := rfl
@[simp] theorem State.monitorEvent_asidCache (s : State) (d src : Nat) (a : Option W16) (v : Nat) : (s.monitorEvent d src a v).asidCache = s.asidCache := rfl
@[simp] theorem State.monitorEvent_tlb (s : State) (d src : Nat) (a : Option W16) (v : Nat) : (s.monitorEvent d src a v).tlb = s.tlb := rfl
@[simp] theorem State.monitorEvent_dying (s : State) (d src : Nat) (a : Option W16) (v : Nat) : (s.monitorEvent d src a v).dying = s.dying := rfl
@[simp] theorem State.monitorEvent_faultSeq (s : State) (d src : Nat) (a : Option W16) (v : Nat) : (s.monitorEvent d src a v).faultSeq = s.faultSeq := rfl
@[simp] theorem State.monitorEvent_queues (s : State) (d src : Nat) (a : Option W16) (v : Nat) : (s.monitorEvent d src a v).queues = s.queues := rfl
@[simp] theorem State.monitorEvent_cores (s : State) (d src : Nat) (a : Option W16) (v : Nat) : (s.monitorEvent d src a v).cores = s.cores := rfl
@[simp] theorem State.monitorEvent_teams (s : State) (d src : Nat) (a : Option W16) (v : Nat) : (s.monitorEvent d src a v).teams = s.teams := rfl
@[simp] theorem State.monitorEvent_nextTeam (s : State) (d src : Nat) (a : Option W16) (v : Nat) : (s.monitorEvent d src a v).nextTeam = s.nextTeam := rfl
@[simp] theorem State.monitorEvent_net (s : State) (d src : Nat) (a : Option W16) (v : Nat) : (s.monitorEvent d src a v).net = s.net := rfl
@[simp] theorem State.monitorEvent_hbmStacks (s : State) (d src : Nat) (a : Option W16) (v : Nat) : (s.monitorEvent d src a v).hbmStacks = s.hbmStacks := rfl
@[simp] theorem State.monitorEvent_rowStores (s : State) (d src : Nat) (a : Option W16) (v : Nat) : (s.monitorEvent d src a v).rowStores = s.rowStores := rfl
@[simp] theorem State.monitorEvent_hub (s : State) (d src : Nat) (a : Option W16) (v : Nat) : (s.monitorEvent d src a v).hub = s.hub := rfl

/-! A token enqueued: `queues`, the corrections that `dies` count and, with a record of the queue engine, `faultSeq` may differ. -/
theorem State.enqueue_frame (s : State) (q : Nat) (tok : Token) : ∃ d qs, s.enqueue q tok = { s with dies := d, queues := qs } := by
  unfold State.enqueue State.countCorrection
  dsimp only
  split <;> exact ⟨_, _, rfl⟩
theorem State.engineEnqueue_frame (s : State) (q : Nat) (tok : Token) (r : Bool) :
    ∃ d qs n, s.engineEnqueue q tok r = { s with dies := d, queues := qs, faultSeq := n } := by
  unfold State.engineEnqueue State.engineTake
  split
  · split
    · obtain ⟨d, qs, h⟩ := State.enqueue_frame { s with faultSeq := _ } q { tok with data := _ }
      exact ⟨d, qs, _, h⟩
    · obtain ⟨d, qs, h⟩ := State.enqueue_frame s q tok
      exact ⟨d, qs, s.faultSeq, h⟩
  · exact ⟨_, _, _, rfl⟩
@[simp] theorem State.engineEnqueue_tick (s : State) (q : Nat) (tok : Token) (r : Bool) : (s.engineEnqueue q tok r).tick = s.tick := by obtain ⟨_, _, _, h⟩ := State.engineEnqueue_frame s q tok r; rw [h]
@[simp] theorem State.engineEnqueue_agenda (s : State) (q : Nat) (tok : Token) (r : Bool) : (s.engineEnqueue q tok r).agenda = s.agenda := by obtain ⟨_, _, _, h⟩ := State.engineEnqueue_frame s q tok r; rw [h]
@[simp] theorem State.engineEnqueue_cur (s : State) (q : Nat) (tok : Token) (r : Bool) : (s.engineEnqueue q tok r).cur = s.cur := by obtain ⟨_, _, _, h⟩ := State.engineEnqueue_frame s q tok r; rw [h]
@[simp] theorem State.engineEnqueue_curElem (s : State) (q : Nat) (tok : Token) (r : Bool) : (s.engineEnqueue q tok r).curElem = s.curElem := by obtain ⟨_, _, _, h⟩ := State.engineEnqueue_frame s q tok r; rw [h]
@[simp] theorem State.engineEnqueue_mem (s : State) (q : Nat) (tok : Token) (r : Bool) : (s.engineEnqueue q tok r).mem = s.mem := by obtain ⟨_, _, _, h⟩ := State.engineEnqueue_frame s q tok r; rw [h]
@[simp] theorem State.engineEnqueue_memTag (s : State) (q : Nat) (tok : Token) (r : Bool) : (s.engineEnqueue q tok r).memTag = s.memTag := by obtain ⟨_, _, _, h⟩ := State.engineEnqueue_frame s q tok r; rw [h]
@[simp] theorem State.engineEnqueue_poison (s : State) (q : Nat) (tok : Token) (r : Bool) : (s.engineEnqueue q tok r).poison = s.poison := by obtain ⟨_, _, _, h⟩ := State.engineEnqueue_frame s q tok r; rw [h]
@[simp] theorem State.engineEnqueue_keys (s : State) (q : Nat) (tok : Token) (r : Bool) : (s.engineEnqueue q tok r).keys = s.keys := by obtain ⟨_, _, _, h⟩ := State.engineEnqueue_frame s q tok r; rw [h]
@[simp] theorem State.engineEnqueue_draws (s : State) (q : Nat) (tok : Token) (r : Bool) : (s.engineEnqueue q tok r).draws = s.draws := by obtain ⟨_, _, _, h⟩ := State.engineEnqueue_frame s q tok r; rw [h]
@[simp] theorem State.engineEnqueue_asidBase (s : State) (q : Nat) (tok : Token) (r : Bool) : (s.engineEnqueue q tok r).asidBase = s.asidBase := by obtain ⟨_, _, _, h⟩ := State.engineEnqueue_frame s q tok r; rw [h]
@[simp] theorem State.engineEnqueue_asidCache (s : State) (q : Nat) (tok : Token) (r : Bool) : (s.engineEnqueue q tok r).asidCache = s.asidCache := by obtain ⟨_, _, _, h⟩ := State.engineEnqueue_frame s q tok r; rw [h]
@[simp] theorem State.engineEnqueue_tlb (s : State) (q : Nat) (tok : Token) (r : Bool) : (s.engineEnqueue q tok r).tlb = s.tlb := by obtain ⟨_, _, _, h⟩ := State.engineEnqueue_frame s q tok r; rw [h]
@[simp] theorem State.engineEnqueue_dying (s : State) (q : Nat) (tok : Token) (r : Bool) : (s.engineEnqueue q tok r).dying = s.dying := by obtain ⟨_, _, _, h⟩ := State.engineEnqueue_frame s q tok r; rw [h]
@[simp] theorem State.engineEnqueue_cores (s : State) (q : Nat) (tok : Token) (r : Bool) : (s.engineEnqueue q tok r).cores = s.cores := by obtain ⟨_, _, _, h⟩ := State.engineEnqueue_frame s q tok r; rw [h]
@[simp] theorem State.engineEnqueue_teams (s : State) (q : Nat) (tok : Token) (r : Bool) : (s.engineEnqueue q tok r).teams = s.teams := by obtain ⟨_, _, _, h⟩ := State.engineEnqueue_frame s q tok r; rw [h]
@[simp] theorem State.engineEnqueue_nextTeam (s : State) (q : Nat) (tok : Token) (r : Bool) : (s.engineEnqueue q tok r).nextTeam = s.nextTeam := by obtain ⟨_, _, _, h⟩ := State.engineEnqueue_frame s q tok r; rw [h]
@[simp] theorem State.engineEnqueue_net (s : State) (q : Nat) (tok : Token) (r : Bool) : (s.engineEnqueue q tok r).net = s.net := by obtain ⟨_, _, _, h⟩ := State.engineEnqueue_frame s q tok r; rw [h]
@[simp] theorem State.engineEnqueue_hbmStacks (s : State) (q : Nat) (tok : Token) (r : Bool) : (s.engineEnqueue q tok r).hbmStacks = s.hbmStacks := by obtain ⟨_, _, _, h⟩ := State.engineEnqueue_frame s q tok r; rw [h]
@[simp] theorem State.engineEnqueue_rowStores (s : State) (q : Nat) (tok : Token) (r : Bool) : (s.engineEnqueue q tok r).rowStores = s.rowStores := by obtain ⟨_, _, _, h⟩ := State.engineEnqueue_frame s q tok r; rw [h]
@[simp] theorem State.engineEnqueue_hub (s : State) (q : Nat) (tok : Token) (r : Bool) : (s.engineEnqueue q tok r).hub = s.hub := by obtain ⟨_, _, _, h⟩ := State.engineEnqueue_frame s q tok r; rw [h]

/-! Entry to supervisor mode: `teams` alone may differ. -/
@[simp] theorem State.enterSupervisor_tick (s : State) (t g : Nat) (e i a : W64) : (s.enterSupervisor t g e i a).tick = s.tick := by unfold State.enterSupervisor; split <;> rfl
@[simp] theorem State.enterSupervisor_agenda (s : State) (t g : Nat) (e i a : W64) : (s.enterSupervisor t g e i a).agenda = s.agenda := by unfold State.enterSupervisor; split <;> rfl
@[simp] theorem State.enterSupervisor_cur (s : State) (t g : Nat) (e i a : W64) : (s.enterSupervisor t g e i a).cur = s.cur := by unfold State.enterSupervisor; split <;> rfl
@[simp] theorem State.enterSupervisor_curElem (s : State) (t g : Nat) (e i a : W64) : (s.enterSupervisor t g e i a).curElem = s.curElem := by unfold State.enterSupervisor; split <;> rfl
@[simp] theorem State.enterSupervisor_mem (s : State) (t g : Nat) (e i a : W64) : (s.enterSupervisor t g e i a).mem = s.mem := by unfold State.enterSupervisor; split <;> rfl
@[simp] theorem State.enterSupervisor_memTag (s : State) (t g : Nat) (e i a : W64) : (s.enterSupervisor t g e i a).memTag = s.memTag := by unfold State.enterSupervisor; split <;> rfl
@[simp] theorem State.enterSupervisor_poison (s : State) (t g : Nat) (e i a : W64) : (s.enterSupervisor t g e i a).poison = s.poison := by unfold State.enterSupervisor; split <;> rfl
@[simp] theorem State.enterSupervisor_keys (s : State) (t g : Nat) (e i a : W64) : (s.enterSupervisor t g e i a).keys = s.keys := by unfold State.enterSupervisor; split <;> rfl
@[simp] theorem State.enterSupervisor_draws (s : State) (t g : Nat) (e i a : W64) : (s.enterSupervisor t g e i a).draws = s.draws := by unfold State.enterSupervisor; split <;> rfl
@[simp] theorem State.enterSupervisor_asidBase (s : State) (t g : Nat) (e i a : W64) : (s.enterSupervisor t g e i a).asidBase = s.asidBase := by unfold State.enterSupervisor; split <;> rfl
@[simp] theorem State.enterSupervisor_asidCache (s : State) (t g : Nat) (e i a : W64) : (s.enterSupervisor t g e i a).asidCache = s.asidCache := by unfold State.enterSupervisor; split <;> rfl
@[simp] theorem State.enterSupervisor_tlb (s : State) (t g : Nat) (e i a : W64) : (s.enterSupervisor t g e i a).tlb = s.tlb := by unfold State.enterSupervisor; split <;> rfl
@[simp] theorem State.enterSupervisor_dying (s : State) (t g : Nat) (e i a : W64) : (s.enterSupervisor t g e i a).dying = s.dying := by unfold State.enterSupervisor; split <;> rfl
@[simp] theorem State.enterSupervisor_faultSeq (s : State) (t g : Nat) (e i a : W64) : (s.enterSupervisor t g e i a).faultSeq = s.faultSeq := by unfold State.enterSupervisor; split <;> rfl
@[simp] theorem State.enterSupervisor_queues (s : State) (t g : Nat) (e i a : W64) : (s.enterSupervisor t g e i a).queues = s.queues := by unfold State.enterSupervisor; split <;> rfl
@[simp] theorem State.enterSupervisor_cores (s : State) (t g : Nat) (e i a : W64) : (s.enterSupervisor t g e i a).cores = s.cores := by unfold State.enterSupervisor; split <;> rfl
@[simp] theorem State.enterSupervisor_nextTeam (s : State) (t g : Nat) (e i a : W64) : (s.enterSupervisor t g e i a).nextTeam = s.nextTeam := by unfold State.enterSupervisor; split <;> rfl
@[simp] theorem State.enterSupervisor_net (s : State) (t g : Nat) (e i a : W64) : (s.enterSupervisor t g e i a).net = s.net := by unfold State.enterSupervisor; split <;> rfl
@[simp] theorem State.enterSupervisor_hbmStacks (s : State) (t g : Nat) (e i a : W64) : (s.enterSupervisor t g e i a).hbmStacks = s.hbmStacks := by unfold State.enterSupervisor; split <;> rfl
@[simp] theorem State.enterSupervisor_rowStores (s : State) (t g : Nat) (e i a : W64) : (s.enterSupervisor t g e i a).rowStores = s.rowStores := by unfold State.enterSupervisor; split <;> rfl
@[simp] theorem State.enterSupervisor_dies (s : State) (t g : Nat) (e i a : W64) : (s.enterSupervisor t g e i a).dies = s.dies := by unfold State.enterSupervisor; split <;> rfl
@[simp] theorem State.enterSupervisor_hub (s : State) (t g : Nat) (e i a : W64) : (s.enterSupervisor t g e i a).hub = s.hub := by unfold State.enterSupervisor; split <;> rfl

/-! The return from it: `teams` alone may differ. -/
@[simp] theorem State.returnFromTrap_tick (s : State) (t g : Nat) : (s.returnFromTrap t g).tick = s.tick := rfl
@[simp] theorem State.returnFromTrap_agenda (s : State) (t g : Nat) : (s.returnFromTrap t g).agenda = s.agenda := rfl
@[simp] theorem State.returnFromTrap_cur (s : State) (t g : Nat) : (s.returnFromTrap t g).cur = s.cur := rfl
@[simp] theorem State.returnFromTrap_curElem (s : State) (t g : Nat) : (s.returnFromTrap t g).curElem = s.curElem := rfl
@[simp] theorem State.returnFromTrap_mem (s : State) (t g : Nat) : (s.returnFromTrap t g).mem = s.mem := rfl
@[simp] theorem State.returnFromTrap_memTag (s : State) (t g : Nat) : (s.returnFromTrap t g).memTag = s.memTag := rfl
@[simp] theorem State.returnFromTrap_poison (s : State) (t g : Nat) : (s.returnFromTrap t g).poison = s.poison := rfl
@[simp] theorem State.returnFromTrap_keys (s : State) (t g : Nat) : (s.returnFromTrap t g).keys = s.keys := rfl
@[simp] theorem State.returnFromTrap_draws (s : State) (t g : Nat) : (s.returnFromTrap t g).draws = s.draws := rfl
@[simp] theorem State.returnFromTrap_asidBase (s : State) (t g : Nat) : (s.returnFromTrap t g).asidBase = s.asidBase := rfl
@[simp] theorem State.returnFromTrap_asidCache (s : State) (t g : Nat) : (s.returnFromTrap t g).asidCache = s.asidCache := rfl
@[simp] theorem State.returnFromTrap_tlb (s : State) (t g : Nat) : (s.returnFromTrap t g).tlb = s.tlb := rfl
@[simp] theorem State.returnFromTrap_dying (s : State) (t g : Nat) : (s.returnFromTrap t g).dying = s.dying := rfl
@[simp] theorem State.returnFromTrap_faultSeq (s : State) (t g : Nat) : (s.returnFromTrap t g).faultSeq = s.faultSeq := rfl
@[simp] theorem State.returnFromTrap_queues (s : State) (t g : Nat) : (s.returnFromTrap t g).queues = s.queues := rfl
@[simp] theorem State.returnFromTrap_cores (s : State) (t g : Nat) : (s.returnFromTrap t g).cores = s.cores := rfl
@[simp] theorem State.returnFromTrap_nextTeam (s : State) (t g : Nat) : (s.returnFromTrap t g).nextTeam = s.nextTeam := rfl
@[simp] theorem State.returnFromTrap_net (s : State) (t g : Nat) : (s.returnFromTrap t g).net = s.net := rfl
@[simp] theorem State.returnFromTrap_hbmStacks (s : State) (t g : Nat) : (s.returnFromTrap t g).hbmStacks = s.hbmStacks := rfl
@[simp] theorem State.returnFromTrap_rowStores (s : State) (t g : Nat) : (s.returnFromTrap t g).rowStores = s.rowStores := rfl
@[simp] theorem State.returnFromTrap_dies (s : State) (t g : Nat) : (s.returnFromTrap t g).dies = s.dies := rfl
@[simp] theorem State.returnFromTrap_hub (s : State) (t g : Nat) : (s.returnFromTrap t g).hub = s.hub := rfl

/-! Returned queue entries: `queues` alone may differ. -/
@[simp] theorem State.returnEntries_tick (s : State) (t g : Nat) : (s.returnEntries t g).tick = s.tick := rfl
@[simp] theorem State.returnEntries_agenda (s : State) (t g : Nat) : (s.returnEntries t g).agenda = s.agenda := rfl
@[simp] theorem State.returnEntries_cur (s : State) (t g : Nat) : (s.returnEntries t g).cur = s.cur := rfl
@[simp] theorem State.returnEntries_curElem (s : State) (t g : Nat) : (s.returnEntries t g).curElem = s.curElem := rfl
@[simp] theorem State.returnEntries_mem (s : State) (t g : Nat) : (s.returnEntries t g).mem = s.mem := rfl
@[simp] theorem State.returnEntries_memTag (s : State) (t g : Nat) : (s.returnEntries t g).memTag = s.memTag := rfl
@[simp] theorem State.returnEntries_poison (s : State) (t g : Nat) : (s.returnEntries t g).poison = s.poison := rfl
@[simp] theorem State.returnEntries_keys (s : State) (t g : Nat) : (s.returnEntries t g).keys = s.keys := rfl
@[simp] theorem State.returnEntries_draws (s : State) (t g : Nat) : (s.returnEntries t g).draws = s.draws := rfl
@[simp] theorem State.returnEntries_asidBase (s : State) (t g : Nat) : (s.returnEntries t g).asidBase = s.asidBase := rfl
@[simp] theorem State.returnEntries_asidCache (s : State) (t g : Nat) : (s.returnEntries t g).asidCache = s.asidCache := rfl
@[simp] theorem State.returnEntries_tlb (s : State) (t g : Nat) : (s.returnEntries t g).tlb = s.tlb := rfl
@[simp] theorem State.returnEntries_dying (s : State) (t g : Nat) : (s.returnEntries t g).dying = s.dying := rfl
@[simp] theorem State.returnEntries_faultSeq (s : State) (t g : Nat) : (s.returnEntries t g).faultSeq = s.faultSeq := rfl
@[simp] theorem State.returnEntries_cores (s : State) (t g : Nat) : (s.returnEntries t g).cores = s.cores := rfl
@[simp] theorem State.returnEntries_teams (s : State) (t g : Nat) : (s.returnEntries t g).teams = s.teams := rfl
@[simp] theorem State.returnEntries_nextTeam (s : State) (t g : Nat) : (s.returnEntries t g).nextTeam = s.nextTeam := rfl
@[simp] theorem State.returnEntries_net (s : State) (t g : Nat) : (s.returnEntries t g).net = s.net := rfl
@[simp] theorem State.returnEntries_hbmStacks (s : State) (t g : Nat) : (s.returnEntries t g).hbmStacks = s.hbmStacks := rfl
@[simp] theorem State.returnEntries_rowStores (s : State) (t g : Nat) : (s.returnEntries t g).rowStores = s.rowStores := rfl
@[simp] theorem State.returnEntries_dies (s : State) (t g : Nat) : (s.returnEntries t g).dies = s.dies := rfl
@[simp] theorem State.returnEntries_hub (s : State) (t g : Nat) : (s.returnEntries t g).hub = s.hub := rfl

/-! Unpinned barrier entries: `cores` alone may differ. -/
@[simp] theorem State.unpin_tick (s : State) (t g : Nat) : (s.unpin t g).tick = s.tick := rfl
@[simp] theorem State.unpin_agenda (s : State) (t g : Nat) : (s.unpin t g).agenda = s.agenda := rfl
@[simp] theorem State.unpin_cur (s : State) (t g : Nat) : (s.unpin t g).cur = s.cur := rfl
@[simp] theorem State.unpin_curElem (s : State) (t g : Nat) : (s.unpin t g).curElem = s.curElem := rfl
@[simp] theorem State.unpin_mem (s : State) (t g : Nat) : (s.unpin t g).mem = s.mem := rfl
@[simp] theorem State.unpin_memTag (s : State) (t g : Nat) : (s.unpin t g).memTag = s.memTag := rfl
@[simp] theorem State.unpin_poison (s : State) (t g : Nat) : (s.unpin t g).poison = s.poison := rfl
@[simp] theorem State.unpin_keys (s : State) (t g : Nat) : (s.unpin t g).keys = s.keys := rfl
@[simp] theorem State.unpin_draws (s : State) (t g : Nat) : (s.unpin t g).draws = s.draws := rfl
@[simp] theorem State.unpin_asidBase (s : State) (t g : Nat) : (s.unpin t g).asidBase = s.asidBase := rfl
@[simp] theorem State.unpin_asidCache (s : State) (t g : Nat) : (s.unpin t g).asidCache = s.asidCache := rfl
@[simp] theorem State.unpin_tlb (s : State) (t g : Nat) : (s.unpin t g).tlb = s.tlb := rfl
@[simp] theorem State.unpin_dying (s : State) (t g : Nat) : (s.unpin t g).dying = s.dying := rfl
@[simp] theorem State.unpin_faultSeq (s : State) (t g : Nat) : (s.unpin t g).faultSeq = s.faultSeq := rfl
@[simp] theorem State.unpin_queues (s : State) (t g : Nat) : (s.unpin t g).queues = s.queues := rfl
@[simp] theorem State.unpin_teams (s : State) (t g : Nat) : (s.unpin t g).teams = s.teams := rfl
@[simp] theorem State.unpin_nextTeam (s : State) (t g : Nat) : (s.unpin t g).nextTeam = s.nextTeam := rfl
@[simp] theorem State.unpin_net (s : State) (t g : Nat) : (s.unpin t g).net = s.net := rfl
@[simp] theorem State.unpin_hbmStacks (s : State) (t g : Nat) : (s.unpin t g).hbmStacks = s.hbmStacks := rfl
@[simp] theorem State.unpin_rowStores (s : State) (t g : Nat) : (s.unpin t g).rowStores = s.rowStores := rfl
@[simp] theorem State.unpin_dies (s : State) (t g : Nat) : (s.unpin t g).dies = s.dies := rfl
@[simp] theorem State.unpin_hub (s : State) (t g : Nat) : (s.unpin t g).hub = s.hub := rfl

/-! A reserved channel slot: `cores` alone may differ. -/
@[simp] theorem State.reserveSlot_tick (s : State) (c n : Nat) : (s.reserveSlot c n).tick = s.tick := rfl
@[simp] theorem State.reserveSlot_agenda (s : State) (c n : Nat) : (s.reserveSlot c n).agenda = s.agenda := rfl
@[simp] theorem State.reserveSlot_cur (s : State) (c n : Nat) : (s.reserveSlot c n).cur = s.cur := rfl
@[simp] theorem State.reserveSlot_curElem (s : State) (c n : Nat) : (s.reserveSlot c n).curElem = s.curElem := rfl
@[simp] theorem State.reserveSlot_mem (s : State) (c n : Nat) : (s.reserveSlot c n).mem = s.mem := rfl
@[simp] theorem State.reserveSlot_memTag (s : State) (c n : Nat) : (s.reserveSlot c n).memTag = s.memTag := rfl
@[simp] theorem State.reserveSlot_poison (s : State) (c n : Nat) : (s.reserveSlot c n).poison = s.poison := rfl
@[simp] theorem State.reserveSlot_keys (s : State) (c n : Nat) : (s.reserveSlot c n).keys = s.keys := rfl
@[simp] theorem State.reserveSlot_draws (s : State) (c n : Nat) : (s.reserveSlot c n).draws = s.draws := rfl
@[simp] theorem State.reserveSlot_asidBase (s : State) (c n : Nat) : (s.reserveSlot c n).asidBase = s.asidBase := rfl
@[simp] theorem State.reserveSlot_asidCache (s : State) (c n : Nat) : (s.reserveSlot c n).asidCache = s.asidCache := rfl
@[simp] theorem State.reserveSlot_tlb (s : State) (c n : Nat) : (s.reserveSlot c n).tlb = s.tlb := rfl
@[simp] theorem State.reserveSlot_dying (s : State) (c n : Nat) : (s.reserveSlot c n).dying = s.dying := rfl
@[simp] theorem State.reserveSlot_faultSeq (s : State) (c n : Nat) : (s.reserveSlot c n).faultSeq = s.faultSeq := rfl
@[simp] theorem State.reserveSlot_queues (s : State) (c n : Nat) : (s.reserveSlot c n).queues = s.queues := rfl
@[simp] theorem State.reserveSlot_teams (s : State) (c n : Nat) : (s.reserveSlot c n).teams = s.teams := rfl
@[simp] theorem State.reserveSlot_nextTeam (s : State) (c n : Nat) : (s.reserveSlot c n).nextTeam = s.nextTeam := rfl
@[simp] theorem State.reserveSlot_net (s : State) (c n : Nat) : (s.reserveSlot c n).net = s.net := rfl
@[simp] theorem State.reserveSlot_hbmStacks (s : State) (c n : Nat) : (s.reserveSlot c n).hbmStacks = s.hbmStacks := rfl
@[simp] theorem State.reserveSlot_rowStores (s : State) (c n : Nat) : (s.reserveSlot c n).rowStores = s.rowStores := rfl
@[simp] theorem State.reserveSlot_dies (s : State) (c n : Nat) : (s.reserveSlot c n).dies = s.dies := rfl
@[simp] theorem State.reserveSlot_hub (s : State) (c n : Nat) : (s.reserveSlot c n).hub = s.hub := rfl

/-! A correction counted: `dies` alone may differ. -/
@[simp] theorem State.countCorrection_tick (s : State) (d : Nat) (e : Config.LinkError) : (s.countCorrection d e).tick = s.tick := by
  unfold State.countCorrection; split <;> rfl
@[simp] theorem State.countCorrection_agenda (s : State) (d : Nat) (e : Config.LinkError) : (s.countCorrection d e).agenda = s.agenda := by
  unfold State.countCorrection; split <;> rfl
@[simp] theorem State.countCorrection_cur (s : State) (d : Nat) (e : Config.LinkError) : (s.countCorrection d e).cur = s.cur := by
  unfold State.countCorrection; split <;> rfl
@[simp] theorem State.countCorrection_curElem (s : State) (d : Nat) (e : Config.LinkError) : (s.countCorrection d e).curElem = s.curElem := by
  unfold State.countCorrection; split <;> rfl
@[simp] theorem State.countCorrection_mem (s : State) (d : Nat) (e : Config.LinkError) : (s.countCorrection d e).mem = s.mem := by
  unfold State.countCorrection; split <;> rfl
@[simp] theorem State.countCorrection_memTag (s : State) (d : Nat) (e : Config.LinkError) : (s.countCorrection d e).memTag = s.memTag := by
  unfold State.countCorrection; split <;> rfl
@[simp] theorem State.countCorrection_poison (s : State) (d : Nat) (e : Config.LinkError) : (s.countCorrection d e).poison = s.poison := by
  unfold State.countCorrection; split <;> rfl
@[simp] theorem State.countCorrection_keys (s : State) (d : Nat) (e : Config.LinkError) : (s.countCorrection d e).keys = s.keys := by
  unfold State.countCorrection; split <;> rfl
@[simp] theorem State.countCorrection_draws (s : State) (d : Nat) (e : Config.LinkError) : (s.countCorrection d e).draws = s.draws := by
  unfold State.countCorrection; split <;> rfl
@[simp] theorem State.countCorrection_asidBase (s : State) (d : Nat) (e : Config.LinkError) : (s.countCorrection d e).asidBase = s.asidBase := by
  unfold State.countCorrection; split <;> rfl
@[simp] theorem State.countCorrection_asidCache (s : State) (d : Nat) (e : Config.LinkError) : (s.countCorrection d e).asidCache = s.asidCache := by
  unfold State.countCorrection; split <;> rfl
@[simp] theorem State.countCorrection_tlb (s : State) (d : Nat) (e : Config.LinkError) : (s.countCorrection d e).tlb = s.tlb := by
  unfold State.countCorrection; split <;> rfl
@[simp] theorem State.countCorrection_dying (s : State) (d : Nat) (e : Config.LinkError) : (s.countCorrection d e).dying = s.dying := by
  unfold State.countCorrection; split <;> rfl
@[simp] theorem State.countCorrection_faultSeq (s : State) (d : Nat) (e : Config.LinkError) : (s.countCorrection d e).faultSeq = s.faultSeq := by
  unfold State.countCorrection; split <;> rfl
@[simp] theorem State.countCorrection_queues (s : State) (d : Nat) (e : Config.LinkError) : (s.countCorrection d e).queues = s.queues := by
  unfold State.countCorrection; split <;> rfl
@[simp] theorem State.countCorrection_cores (s : State) (d : Nat) (e : Config.LinkError) : (s.countCorrection d e).cores = s.cores := by
  unfold State.countCorrection; split <;> rfl
@[simp] theorem State.countCorrection_teams (s : State) (d : Nat) (e : Config.LinkError) : (s.countCorrection d e).teams = s.teams := by
  unfold State.countCorrection; split <;> rfl
@[simp] theorem State.countCorrection_nextTeam (s : State) (d : Nat) (e : Config.LinkError) : (s.countCorrection d e).nextTeam = s.nextTeam := by
  unfold State.countCorrection; split <;> rfl
@[simp] theorem State.countCorrection_net (s : State) (d : Nat) (e : Config.LinkError) : (s.countCorrection d e).net = s.net := by
  unfold State.countCorrection; split <;> rfl
@[simp] theorem State.countCorrection_hbmStacks (s : State) (d : Nat) (e : Config.LinkError) : (s.countCorrection d e).hbmStacks = s.hbmStacks := by
  unfold State.countCorrection; split <;> rfl
@[simp] theorem State.countCorrection_rowStores (s : State) (d : Nat) (e : Config.LinkError) : (s.countCorrection d e).rowStores = s.rowStores := by
  unfold State.countCorrection; split <;> rfl
@[simp] theorem State.countCorrection_hub (s : State) (d : Nat) (e : Config.LinkError) : (s.countCorrection d e).hub = s.hub := by
  unfold State.countCorrection; split <;> rfl

end Sys2Proof.Machine
end

