-- ==== Sys2Proof/Laws/Fire.lean ====
section
/-! SUPPORT. What the shared operations of firing do: masks and lanes, the values of operands, the fire itself with its three ends, and the
lane instructions. A proof about one instruction cites these and unfolds none of them. -/
namespace Sys2Proof

/-- The mask of a predicate has exactly its lanes. -/
@[simp] theorem laneBit_maskOf (f : Nat → Bool) (l : Nat) : laneBit (maskOf f) l = (decide (l < 16) && f l) := by
  have h : ∀ (n : Nat) (acc : Nat), n ≤ 16 → acc < 2 ^ n →
      ((List.range' n (16 - n)).foldl (fun acc l => if f l then acc + 2 ^ l else acc) acc).testBit l =
        if l < n then acc.testBit l else decide (l < 16) && f l := by
    intro n
    induction hm : 16 - n generalizing n with
    | zero =>
      intro acc hn ha
      have : n = 16 := by omega
      subst this
      simp only [List.range'_zero, List.foldl_nil]
      split
      · rfl
      · rename_i hl
        have : acc < 2 ^ l := Nat.lt_of_lt_of_le ha (Nat.pow_le_pow_right (by decide) (by omega))
        simp [Nat.testBit_lt_two_pow this, hl]
    | succ m ih =>
      intro acc hn ha
      rw [List.range'_succ, List.foldl_cons]
      have hlt : (if f n then acc + 2 ^ n else acc) < 2 ^ (n + 1) := by
        rw [Nat.pow_succ]
        split <;> omega
      rw [ih (n + 1) (by omega) _ (by omega) hlt]
      by_cases h1 : l < n
      · have h2 : l < n + 1 := by omega
        simp only [h1, h2, if_true]
        split
        · rw [Nat.add_comm, Nat.testBit_two_pow_add_gt h1]
        · rfl
      · by_cases h2 : l = n
        · subst h2
          have h3 : l < 16 := by omega
          simp only [Nat.lt_irrefl, if_false, Nat.lt_succ_self, if_true, h3, decide_true, Bool.true_and]
          split
          · rename_i hf
            rw [Nat.add_comm, Nat.testBit_two_pow_add_eq, Nat.testBit_lt_two_pow ha, hf]; rfl
          · rename_i hf
            rw [Nat.testBit_lt_two_pow ha]
            simpa using hf
        · have h3 : ¬ l < n + 1 := by omega
          simp [h1, h3]
  have := h 0 0 (by decide) (by decide)
  rw [laneBit, maskOf, BitVec.getLsbD_ofNat, List.range_eq_range', this]
  simp

namespace Machine

/-! ### Teams, groups and blocks -/

/-- An updated entry is the image of what it was. -/
@[simp] theorem PMap_get?_update_same {α : Type} (m : PMap α) (k : Nat) (f : α → α) :
    PMap.get? (PMap.update m k f) k = (PMap.get? m k).map f := by
  unfold PMap.update
  split <;> rename_i h <;> simp [h]

/-- An update leaves every other entry alone. -/
theorem PMap_get?_update_other {α : Type} (m : PMap α) {k j : Nat} (f : α → α) (h : j ≠ k) :
    PMap.get? (PMap.update m k f) j = PMap.get? m j := by
  unfold PMap.update
  split
  · exact PMap.get?_insert_other m _ h
  · rfl

@[simp] theorem State.team?_modTeam_same (s : State) (t : Nat) (f : Team → Team) : (s.modTeam t f).team? t = (s.team? t).map f :=
  PMap_get?_update_same s.teams t f

theorem State.team?_modTeam_other (s : State) {t u : Nat} (f : Team → Team) (h : u ≠ t) : (s.modTeam t f).team? u = s.team? u :=
  PMap_get?_update_other s.teams f h

/-- A changed group is the image of what it was. -/
@[simp] theorem State.group?_modGroup_same (s : State) (t g : Nat) (f : Group → Group) :
    (s.modGroup t g f).group? t g = (s.group? t g).map f := by
  unfold State.group? State.modGroup
  cases h : s.team? t <;> simp [h]

/-- A change of one group leaves every other one alone. -/
theorem State.group?_modGroup_other (s : State) {t g u h : Nat} (f : Group → Group) (ne : (u, h) ≠ (t, g)) :
    (s.modGroup t g f).group? u h = s.group? u h := by
  unfold State.group? State.modGroup
  by_cases e : u = t
  · subst e
    cases hT : s.team? u with
    | none => simp [hT]
    | some T =>
      have : h ≠ g := fun e => ne (by rw [e])
      simp [hT, modifyAt_other _ _ this]
  · rw [State.team?_modTeam_other s _ e]

/-- A changed block is the image of what it was. -/
@[simp] theorem State.group?_modFlight_same (s : State) (t g : Nat) (f : Flight → Flight) :
    (s.modFlight t g f).group? t g = (s.group? t g).map fun G => { G with blk := G.blk.map f } :=
  State.group?_modGroup_same s t g _

/-- What a context is: the acting group of its team, at a block whose slot holds its node. -/
theorem State.ctx?_spec {s : State} {c : Ctx} (h : s.ctx? = some c) :
    s.cur = some (c.t, c.g) ∧ s.team? c.t = some c.team ∧ c.team.groups[c.g]? = some c.group ∧ s.group? c.t c.g = some c.group ∧
      c.group.blk = some c.blk ∧ c.node = c.blk.node := by
  unfold State.ctx? at h
  repeat' split at h
  all_goals cases h
  rename_i hcur _ T hT _ G hG _ F hF
  exact ⟨hcur, hT, hG, by simp [State.group?, hT, hG], hF, rfl⟩

/-! ### The fire -/

theorem fire_ok {s : State} {c : Ctx} {f : Ctx → Fired} {s' : State} {v0 v1 : Option Val} {es : List Effect} (h : s.ctx? = some c)
    (hf : f c = .ok s' v0 v1 es) : fire s f = .next (s'.complete c v0 v1 es) := by simp [fire, h, hf]

theorem fire_wait {s : State} {c : Ctx} {f : Ctx → Fired} {k : WaitKind} (h : s.ctx? = some c) (hf : f c = .wait k) :
    fire s f = .next (s.waitOn c k) := by simp [fire, h, hf]

theorem fire_trap {s : State} {c : Ctx} {f : Ctx → Fired} {x : Trap} (h : s.ctx? = some c) (hf : f c = .trap x) :
    fire s f = .next (s.takeFault c.t c.g c.blk.head x) := by simp [fire, h, hf]

/-- With a block under way, every fire answers with a next state. -/
theorem fire_next {s : State} {c : Ctx} (f : Ctx → Fired) (h : s.ctx? = some c) : ∃ t, fire s f = .next t := by
  unfold fire
  rw [h]
  dsimp only
  split <;> exact ⟨_, rfl⟩

/-- No fire is refused. -/
theorem fire_not_refused (s : State) (f : Ctx → Fired) (r : Refusal) : fire s f ≠ .refused r := by
  unfold fire
  split
  · intro h; cases h
  · split <;> intro h <;> cases h

/-- All that a fire can come to: it completes, waits, or raises a fault. -/
theorem fire_cases {s t : State} {f : Ctx → Fired} (h : fire s f = .next t) : ∃ c, s.ctx? = some c ∧
    ((∃ s' v0 v1 es, f c = .ok s' v0 v1 es ∧ t = s'.complete c v0 v1 es) ∨ (∃ k, f c = .wait k ∧ t = s.waitOn c k) ∨
      (∃ s' k, f c = .waitIn s' k ∧ t = s'.waitOn c k) ∨ ∃ x, f c = .trap x ∧ t = s.takeFault c.t c.g c.blk.head x) := by
  unfold fire at h
  split at h
  · cases h
  · rename_i c hc
    refine ⟨c, hc, ?_⟩
    split at h <;> rename_i hf <;> cases h
    · exact .inl ⟨_, _, _, _, hf, rfl⟩
    · exact .inr (.inl ⟨_, hf, rfl⟩)
    · exact .inr (.inr (.inl ⟨_, _, hf, rfl⟩))
    · exact .inr (.inr (.inr ⟨_, hf, rfl⟩))

theorem withOn_some {c : Ctx} {on : W16} (k : W16 → Fired) (h : c.on? = some on) : withOn c k = k on := by simp [withOn, h]

theorem withPort_some {c : Ctx} {port : Port} {v : Val} (k : Val → Fired) (h : c.port? port = some v) : withPort c port k = k v := by
  simp [withPort, h]

theorem Ctx.portIf?_true {c : Ctx} {port : Port} : c.portIf? true port = c.port? port := rfl

theorem Ctx.portIf?_false {c : Ctx} {port : Port} : c.portIf? false port = some noVal := rfl

/-! ### Values -/

theorem laneAt_map (f : Nat → Option W64) (l : Nat) : laneAt ((List.range 16).map f) l = if l < 16 then f l else none := by
  unfold laneAt
  by_cases h : l < 16 <;> simp [h]

/-- A lane of a result: null where the instruction is not active or an input is null. -/
@[simp] theorem laneAt_overLanes (on : W16) (ins : List Lanes) (f : Nat → W64) (l : Nat) :
    laneAt (overLanes on ins f) l = if laneBit on l = true ∧ inputsPresent ins l = true then (if l < 16 then some (f l) else none) else none := by
  rw [overLanes, laneAt_map]
  by_cases h : l < 16 <;> by_cases h1 : laneBit on l = true <;> by_cases h2 : inputsPresent ins l = true <;> simp [h, h1, h2]

@[simp] theorem overLanes_length (on : W16) (ins : List Lanes) (f : Nat → W64) : (overLanes on ins f).length = 16 := by
  simp [overLanes]

/-! ### Lane instructions -/

/-- A lane instruction of one operand completes with its result in both targets. -/
theorem fireLane_one {s : State} {c : Ctx} {on : W16} {a : Val} (f : W64 → W64) (h : s.ctx? = some c) (ho : c.on? = some on)
    (ha : c.port? .a = some a) : ∃ v, fireLane s (.one f) = .next (s.complete c (some v) (some v) []) ∧ v.uni = a.uni ∧
      ∀ l, l < 16 → laneAt v.lanes l = if laneBit on l then (laneAt a.lanes l).map f else none := by
  refine ⟨_, fire_ok h (by simp only [Ctx.laneIn?, ho, LaneOp.one, Ctx.portIf?, ha, if_true]; rfl), by simp [LaneOp.value, noVal], ?_⟩
  intro l hl
  by_cases h1 : laneBit on l = true <;> cases h2 : laneAt a.lanes l <;>
    simp [LaneOp.value, LaneOp.result, LaneOp.inputs, inputsPresent, LaneIn.aAt, h1, h2, hl]

/-- A lane instruction of two operands completes with its result in both targets. -/
theorem fireLane_two {s : State} {c : Ctx} {on : W16} {a b : Val} (f : W64 → W64 → W64) (h : s.ctx? = some c) (ho : c.on? = some on)
    (ha : c.port? .a = some a) (hb : c.port? .b = some b) :
    ∃ v, fireLane s (.two f) = .next (s.complete c (some v) (some v) []) ∧ v.uni = (a.uni && b.uni) ∧
      ∀ l, l < 16 → laneAt v.lanes l =
        if laneBit on l then (laneAt a.lanes l).bind fun x => (laneAt b.lanes l).map fun y => f x y else none := by
  refine ⟨_, fire_ok h (by simp only [Ctx.laneIn?, ho, LaneOp.two, Ctx.portIf?, ha, hb, if_true]; rfl), by simp [LaneOp.value, noVal], ?_⟩
  intro l hl
  by_cases h1 : laneBit on l = true <;> cases h2 : laneAt a.lanes l <;> cases h3 : laneAt b.lanes l <;>
    simp [LaneOp.value, LaneOp.result, LaneOp.inputs, inputsPresent, LaneIn.aAt, LaneIn.bAt, h1, h2, h3, hl]

/-- A lane instruction of three operands completes with its result in both targets. -/
theorem fireLane_three {s : State} {c : Ctx} {on : W16} {a b d : Val} (f : W64 → W64 → W64 → W64) (h : s.ctx? = some c)
    (ho : c.on? = some on) (ha : c.port? .a = some a) (hb : c.port? .b = some b) (hd : c.port? .c = some d) :
    ∃ v, fireLane s (.three f) = .next (s.complete c (some v) (some v) []) ∧ v.uni = (a.uni && b.uni && d.uni) ∧
      ∀ l, l < 16 → laneAt v.lanes l = if laneBit on l then
        (laneAt a.lanes l).bind fun x => (laneAt b.lanes l).bind fun y => (laneAt d.lanes l).map fun z => f x y z else none := by
  refine ⟨_, fire_ok h (by simp only [Ctx.laneIn?, ho, LaneOp.three, Ctx.portIf?, ha, hb, hd, if_true]; rfl),
    by simp [LaneOp.value], ?_⟩
  intro l hl
  by_cases h1 : laneBit on l = true <;> cases h2 : laneAt a.lanes l <;> cases h3 : laneAt b.lanes l <;> cases h4 : laneAt d.lanes l <;>
    simp [LaneOp.value, LaneOp.result, LaneOp.inputs, inputsPresent, LaneIn.aAt, LaneIn.bAt, LaneIn.cAt, h1, h2, h3, h4, hl]

/-- A lane instruction whose shape does not follow its operands completes with its result over the lanes in which all that it uses is
present. -/
theorem fireLane_shape {s : State} {c : Ctx} {x : LaneIn} {uni : Bool} (op : LaneOp) (h : s.ctx? = some c) (hx : c.laneIn? op = some (x, uni)) :
    ∃ v, fireLane s op = .next (s.complete c (some v) (some v) []) ∧ v.reg = none ∧ v.lanes.length = 16 ∧
      (v.uni = match op.shape with | .follows => uni | .laneWise => false | .uniform => true) ∧
      ∀ l, l < 16 → laneAt v.lanes l = if laneBit x.on l = true ∧ inputsPresent (op.inputs x) l = true then some (op.lane x l) else none := by
  refine ⟨_, fire_ok h (by simp only [hx]; rfl), rfl, by simp [LaneOp.value, LaneOp.result], rfl, ?_⟩
  intro l hl
  simp [LaneOp.value, LaneOp.result, hl]

end Machine

end Sys2Proof
end

