-- ==== Sys2Proof/Tests/Slice0.lean ====
section
/-! SUPPORT. Tests: the worked values and words of the spec, a term that each check of WellFormed refuses, and for every statement with hypotheses a
state and operands that meet them. -/

set_option Elab.async false

namespace Sys2Proof.Tests
open Sys2Proof Sys2Proof.Machine Sys2Proof.Claims

/-! ### Small states -/

/-- Something of an option meets a decidable condition. -/
theorem exists_of_any {α : Type} {o : Option α} {p : α → Prop} [DecidablePred p] (h : (o.any fun c => decide (p c)) = true) :
    ∃ c, o = some c ∧ p c := by
  cases o with
  | none => cases h
  | some c => exact ⟨c, rfl, of_decide_eq_true (by simpa using h)⟩

/-- A group of 16 lanes whose block of one instruction, with targets in slot 1, is under way, with values on ports of its slot 0. -/
def demo (ports : List (Port × Val)) : State :=
  let s : State := { (State.reset.placed [0x20010341, 0x01000000]) with cur := some (0, 0), agenda := [] }
  s.modFlight 0 0 fun F => { F with ports := ports.map fun p => ⟨0, p.1, p.2⟩ }

/-- One value in all lanes. -/
def uni (x : W64) : Val := uniformVal 0xFFFF x

/-- A value per lane. -/
def each (f : Nat → Option W64) : Val := ⟨(List.range 16).map f, false, none⟩

/-- The last value that an instruction delivers in a lane, with the values given on its ports a, b and c. -/
def outOf (i : Instr) (ports : List Val) (l : Nat) : Option W64 :=
  match exec i (demo ([Port.a, .b, .c].zip ports)) with
  | .next t => ((t.group? 0 0).bind (·.blk)).bind fun F => F.ports.getLast?.bind fun p => lane p.val l
  | _ => none

/-- The same for uniform operands. -/
def out (i : Instr) (ports : List W64) (l : Nat := 3) : Option W64 := outOf i (ports.map uni) l

/-! ### Values that the spec writes out: integers (R119 and the worked block of chapter 5) -/

theorem test_add_wraps : out .addB32 [0x7FFFFFF0, 0x20] = some 0x80000010 ∧ out .addB32 [0x80000000, 0xFFFFFFFF] = some 0x7FFFFFFF := by
  decide +kernel
theorem test_add_saturates :
    out .addSatI32 [0x7FFFFFF0, 0x20] = some 0x7FFFFFFF ∧ out .addSatI32 [0x80000000, 0xFFFFFFFF] = some 0x80000000 ∧
      out .addSatI32 [5, 0xFFFFFFF9] = some 0xFFFFFFFE := by decide +kernel
theorem test_high_bits_of_a_port_are_not_used : out .addB32 [0x100000001, 1] = some 2 := by decide +kernel
theorem test_div_by_zero : out .divI32 [7, 0] = some 0xFFFFFFFF ∧ out .remI32 [7, 0] = some 7 := by decide +kernel
theorem test_div_minimum : out .divI32 [0x80000000, 0xFFFFFFFF] = some 0x80000000 ∧ out .remI32 [0x80000000, 0xFFFFFFFF] = some 0 := by
  decide +kernel
theorem test_div_zero_extends : out .divI64 [0xFFFFFFFF, 1] = some 4294967295 := by decide +kernel
theorem test_abs : out (.abs false .b32) [0x80000000] = some 0x80000000 ∧ out (.abs true .b32) [0x80000000] = some 0x7FFFFFFF := by
  decide +kernel
theorem test_sub_saturates : out .subSatN32 [3, 5] = some 0 := by decide +kernel
theorem test_shift_counts : out (.shl .b32) [1, 0x80000000] = some 0 ∧ out (.shr .n32) [0xFFFFFFFF, 32] = some 0 ∧
    out (.shr .i32) [0x80000000, 32] = some 0xFFFFFFFF := by decide +kernel
theorem test_clz_popc : out (.clz .b32) [0] = some 32 ∧ out (.popc .b64) [0xFFFFFFFFFFFFFFFF] = some 64 := by decide +kernel
theorem test_bfe_bfi : out (.bfe .i32) [0x12345678, 4] = some 0 ∧ out (.bfi .b32) [5, 9, 0] = some 9 ∧
    out (.bfi .b32) [5, 9, 0x120] = some 9 ∧ out (.bfe .i32) [0x80000000, 0x120] = some 0xFFFFFFFF := by decide +kernel
theorem test_sel_null : outOf (.sel .b32) [uni 1, uni 2, each fun _ => none] 3 = none := by decide +kernel
theorem test_lea : out (.leaLong .x8 0x20) [0x0000004000001000, 0xFFFFFFFD] = some 0x0000004000001008 := by decide +kernel

/-! ### Floating point (R142, the worked blocks of chapters 4 and 6) -/

theorem test_fadd_zeros : out (.faddF32 .rne) [0, 0x80000000] = some 0 ∧ out (.faddF32 .rdn) [0, 0x80000000] = some 0x80000000 := by
  decide +kernel
theorem test_fma_infinities : out (.fmaF32 .rne) [0x7F800000, 0x3F800000, 0xFF800000] = some 0x7FC00000 ∧
    out (.fmaF32 .rne) [0, 0x7F800000, 0x7FC00000] = some 0x7FC00000 := by decide +kernel
theorem test_fma_rounds_once : out (.fmaF32 .rne) [0x3F800800, 0x3F800800, 0xBF801000] = some 0x33800000 ∧
    out (.fmulF32 .rne) [0x3F800800, 0x3F800800] = some 0x3F801000 ∧ out (.fmulF32 .rup) [0x3F800800, 0x3F800800] = some 0x3F801001 := by
  decide +kernel
theorem test_fadd_cancels : out (.faddF32 .rne) [0x3F801000, 0xBF801000] = some 0 ∧
    out (.faddF32 .rdn) [0x3F801000, 0xBF801000] = some 0x80000000 ∧ out (.faddF32 .rne) [0x3F801001, 0xBF801000] = some 0x34000000 := by
  decide +kernel
theorem test_fmin : out .fminF32 [0, 0x80000000] = some 0x80000000 ∧ out .fminF32 [0x80000000, 0] = some 0x80000000 ∧
    out .fminF32 [0x7FC00000, 0x40400000] = some 0x40400000 := by decide +kernel
theorem test_fcmp : out (.fcmpF32 .ne) [0x7FC00000, 0] = some 1 ∧ out (.fcmpF32 .eq) [0, 0x80000000] = some 1 := by decide +kernel
theorem test_cvt_e4m3 : out .cvtF32E4m3 [0xFF] = some 0x7FC00000 ∧ out (.cvtE4m3F32 .rne false) [0x43FA0000] = some 0x7F ∧
    out (.cvtE4m3F32 .rz false) [0x43FA0000] = some 0x7E := by decide +kernel
theorem test_cvt_e2m1_tie : out (.cvtE2m1F32 .rne false) [0x40A00000] = some 6 := by decide +kernel
theorem test_cvt_i32 : out (.cvtI32F32 .rne) [0x50DF8476] = some 0x7FFFFFFF ∧ out (.cvtI32F32 .rne) [0xFF800000] = some 0x80000000 ∧
    out (.cvtI32F32 .rne) [0x7FC00000] = some 0 := by decide +kernel
theorem test_cvt_e8m0 : out (.cvtE8m0F32 .rne) [0x3FC00000] = some 0x7F ∧ out (.cvtE8m0F32 .rne) [0x40400000] = some 0x81 := by decide +kernel
theorem test_rcp_of_least : out .rcpF32 [1] = some 0x7F800000 := by decide +kernel
theorem test_exp2_sinpi : out .exp2F32 [0x43000000] = some 0x7F800000 ∧ out .sinpiF32 [0xC0000000] = some 0x80000000 := by decide +kernel
theorem test_generator_steps : genSteps 1 0x00000001 = 0x00042021 ∧ genSteps 1 0xC2B2AE36 = 0x79F0940C := by decide +kernel
theorem test_cvt_sr : stochasticOf fmtE4m3 false 0x00042021 0x3FA40000 = 0x3B ∧ stochasticOf fmtE4m3 false 0x79F0940C 0x3FA40000 = 0x3A ∧
    out (.cvtE4m3F32 .rne false) [0x3FA40000] = some 0x3A := by decide +kernel

/-! ### Lanes (the worked blocks of chapters 7 and 9) -/

theorem test_reduction_tree :
    outOf .gredAddF32 [each fun l => if l = 0 then some 0x4B800000 else if l < 4 then some 0x3F800000 else none] 2 = some 0x4B800001 := by
  decide +kernel
theorem test_sexp_tree : outOf .gredSexp [each fun l => match l with
    | 0 => some 0x3F80000040400000 | 1 => some 0x4000000040A00000 | 2 => some 0x3F00000040A00000 | 3 => some 0x410000003F800000
    | _ => none] 0 = some 0x4050000040A00000 := by decide +kernel

/-- The group of R145's example: lanes 12 to 15 are empty, lane 5 has exited, and lanes 2 and 3 are masked off. -/
def neighbours (direct : Bool) : State :=
  let live : W16 := 0x0FD3
  let v0 : Val := ⟨(List.range 16).map fun l => if laneBit live l then some (BitVec.ofNat 64 (0x100 + l)) else none, false,
    if direct then some (0, false) else none⟩
  ((demo [(.a, v0), (.b, uniformVal live 1), (.c, uniformVal live 0xFFFFFFFF)]).modFlight 0 0 fun F => { F with mask := live }).modGroup
    0 0 fun G => { G with launched := 0x0FFF, exited := 0x0020, mask := live, v := (List.range 12).map fun l => (l, BitVec.ofNat 32 (0x100 + l)) }

/-- What `xlane.lo.b32` gives a lane there. -/
def neighbour (direct : Bool) (l : Nat) : Option W64 :=
  match exec (.xlaneB32 .lo false) (neighbours direct) with
  | .next t => ((t.group? 0 0).bind (·.blk)).bind fun F => F.ports.getLast?.bind fun p => lane p.val l
  | _ => none

theorem test_xlane : [0, 1, 2, 4, 6, 7, 11].map (neighbour true) =
    [some 0xFFFFFFFF, some 0x100, none, some 0x103, some 0xFFFFFFFF, some 0x106, some 0x10A] := by decide +kernel
theorem test_xlane_of_a_computed_value : neighbour false 4 = some 0xFFFFFFFF := by decide +kernel

/-! ### Atomics (the worked block of chapter 12) -/

theorem test_atomics_take_turns :
    let s := (demo []).writeNat 0 0x10100000100 4 7
    let r := s.doAtomic .add .spad false 0 0 ((List.range 16).map fun l => { lane := l, addr := 0x10100000100, b := 1, c := 0 })
    r.2 = ((List.range 16).map fun l => (l, BitVec.ofNat 64 (7 + l))) ∧ r.1.load .spad 0 0 0x10100000100 4 = 23 := by decide +kernel

/-! ### Words that the spec writes out, one family after another -/

/-- What one word decodes to, with what is left. -/
def word (w : W32) : Option (Node × List W8) := (decodeBytes (wordBytes w)).toOption
def words (w x : W32) : Option (Node × List W8) := (decodeBytes (wordBytes w ++ wordBytes x)).toOption

theorem test_decode_registers : word 0x00828142 = some (⟨.rd (.lane 5 false), some ⟨2, .w⟩, none, .always⟩, []) ∧
    word 0x00811042 = some (⟨.rd (.uniform 2), some ⟨2, .a⟩, none, .always⟩, []) ∧
    word 0x01038000 = some (⟨.wr (.lane 7 false), none, none, .always⟩, []) := by decide
theorem test_decode_constants : word 0x01800F43 = some (⟨.moviShort 7, some ⟨3, .w⟩, none, .always⟩, []) ∧
    word 0x019FFEC3 = some (⟨.moviShort 0xFFF, some ⟨3, .c⟩, none, .always⟩, []) := by decide
theorem test_decode_exits : word 0x04200002 = some (⟨.br 0 2, none, none, .when⟩, []) ∧ word 0x04480004 = some (⟨.br 1 4, none, none, .unless⟩, []) ∧
    word 0x06800000 = some (⟨.exit 0, none, none, .always⟩, []) ∧ word 0x08800005 = some (⟨.jset 5, none, none, .always⟩, []) := by decide
theorem test_decode_integer : word 0x20000146 = some (⟨.addB32, some ⟨6, .w⟩, none, .always⟩, []) ∧
    word 0x21000147 = some (⟨.addSatI32, some ⟨7, .w⟩, none, .always⟩, []) ∧
    word 0x300A0903 = some (⟨.cmpI32 .lt, some ⟨3, .p⟩, some ⟨4, .p⟩, .always⟩, []) ∧
    words 0x378C0149 0x00000020 = some (⟨.leaLong .x8 0x20, some ⟨9, .w⟩, none, .always⟩, []) := by decide
theorem test_decode_floating : word 0x49800149 = some (⟨.fmaF32 .rne, some ⟨9, .w⟩, none, .always⟩, []) ∧
    word 0x46880048 = some (⟨.fmulF32 .rup, some ⟨8, .a⟩, none, .always⟩, []) ∧
    word 0x408C014A = some (⟨.faddF32 .rdn, some ⟨10, .w⟩, none, .always⟩, []) ∧
    word 0x66000142 = some (⟨.cvtSrE4m3F32 false, some ⟨2, .w⟩, none, .always⟩, []) := by decide
theorem test_decode_lanes : word 0x81000144 = some (⟨.xlaneB32 .lo false, some ⟨4, .w⟩, none, .always⟩, []) ∧
    word 0x85800142 = some (⟨.gredAdd false false, some ⟨2, .w⟩, none, .always⟩, []) := by decide
theorem test_decode_memory : words 0xA3000144 0x00000024 =
    some (⟨.atomAdd ⟨.device, .rlx, .spad⟩ false, some ⟨4, .w⟩, none, .always⟩, []) := by decide
theorem test_decode_streams : word 0xC0000000 = some (⟨.cpy false, none, none, .always⟩, []) ∧
    word 0xC0800143 = some (⟨.cpyBatch, some ⟨3, .w⟩, none, .always⟩, []) := by decide
theorem test_decode_matrix : words 0xC8800000 0x00000018 = some (⟨.mmaF16 ⟨0, true, true⟩, none, none, .always⟩, []) := by decide
theorem test_decode_tape : word 0xCE000000 = some (⟨.tapeRec, none, none, .always⟩, []) ∧
    word 0xCF028D43 = some (⟨.tapePop, some ⟨3, .w⟩, some ⟨6, .w⟩, .always⟩, []) := by decide
theorem test_decode_fabric : word 0xE7800143 = some (⟨.cfgLaunch, some ⟨3, .w⟩, none, .always⟩, []) := by decide
theorem test_decode_tasks : word 0xE9A00000 = some (⟨.spawn, none, none, .when⟩, []) := by decide
theorem test_decode_system : word 0xED800000 = some (⟨.asidKill, none, none, .always⟩, []) ∧
    word 0xEF800000 = some (⟨.keydrop, none, none, .always⟩, []) := by decide

/-! ### A term that each check of WellFormed refuses -/

theorem ill_formed_pairs : WellFormed (.rd (.lane 3 true)) = false ∧ WellFormed (.rd (.lane 248 true)) = false ∧
    WellFormed (.wr (.lane 5 true)) = false := by decide
theorem ill_formed_kind_write : WellFormed (.wr (.kind 0)) = false := by decide
theorem ill_formed_control_write : WellFormed (.srw .laneid) = false := by decide
theorem ill_formed_spin : WellFormed (.spin 0) = false := by decide
theorem ill_formed_bf16_rounding : WellFormed (.faddBf16 .rz) = false ∧ WellFormed (.faddBf16x2 .rup) = false ∧
    WellFormed (.cvtBf16F32 .rz false) = false ∧ WellFormed (.cvtBf16x2F32 .rup true) = false := by decide
theorem ill_formed_rotation : WellFormed (.xlaneB32 .flip true) = false ∧ WellFormed (.xlaneB64 .at true) = false := by decide
theorem ill_formed_iter : WellFormed (.iter 7) = false := by decide
theorem ill_formed_atomic_target : Node.wf ⟨.atomAdd ⟨.device, .rlx, .spad⟩ false, some ⟨4, .a⟩, none, .always⟩ = false := by decide
theorem refused_words : word 0x0C000000 = none ∧
    word 0xFF800000 = none := by decide

/-! ### What meets the hypotheses of the statements: lanes, floating point, registers -/

/-- A block stands whose instruction is active in all lanes, with operands on three ports. -/
def OperandsStand : Prop :=
  ∃ (s : State) (c : Ctx), s.ctx? = some c ∧ c.on? = some 0xFFFF ∧ c.port? .a = some (uni 5) ∧ c.port? .b = some (uni 7) ∧ c.port? .c = some (uni 9)

theorem operands_stand : OperandsStand := ⟨demo [(.a, uni 5), (.b, uni 7), (.c, uni 9)], exists_of_any (by decide +kernel)⟩

theorem witness_IntegerArithmeticDelivers : OperandsStand := operands_stand
theorem witness_LogicAndFieldsDeliver : OperandsStand := operands_stand
theorem witness_EncodingsHaveTheirValue :
    fmtF32 ∈ formats ∧ 0 < 254 ∧ 254 < 2 ^ (fmtF32.w - 1 - fmtF32.f) - 1 ∧ 2 ^ 23 - 1 < 2 ^ fmtF32.f ∧ fmtE4m3 ∈ formats ∧
      15 = 2 ^ (fmtE4m3.w - 1 - fmtE4m3.f) - 1 ∧ 7 < 2 ^ fmtE4m3.f ∧ fmtE2m1 ∈ formats ∧ 3 = 2 ^ (fmtE2m1.w - 1 - fmtE2m1.f) - 1 := by
  decide +kernel
theorem witness_RoundingModesChooseTheirValue :
    fmtE4m3 ∈ formats ∧ ∃ big, real fmtE4m3 fmtE4m3.maxEnc = some big ∧ dyadic false 448 0 ≤ big ∧ dyadic false 1 (-9) ≤ big :=
  ⟨by decide +kernel, exists_of_any (by decide +kernel)⟩
theorem witness_SumsAndProductsRoundOnce :
    dyadic false 3 0 + dyadic true 1 2 ≠ 0 ∧ dyadic false 1 2 + dyadic true 4 0 = 0 ∧
      dyadic false 3 0 * dyadic false 1 1 + dyadic true 5 0 ≠ 0 := by decide +kernel
theorem witness_FloatingInstructionsDeliver : OperandsStand ∧
    (tyF32 ∈ types ∧ 0 < (if tyF32.packed then 2 else 1) ∧ tyF32.fmt.isNan (tyF32.elem 0x7FC00000 0) = true ∧
      ¬ tyF32.fmt.isNan (tyF32.elem 0x3F800000 0) = true) ∧
    (∃ p, number tyF32.fmt (tyF32.elem 0xFF800000 0) = some p ∧ ∃ q, number tyF32.fmt (tyF32.elem 0x7F7FFFFF 0) = some q ∧ p < q) ∧
    (∃ p, number tyF32.fmt (tyF32.elem 0 0) = some p ∧ number tyF32.fmt (tyF32.elem 0x80000000 0) = some p) ∧
    fmtF32.isNan (lo 0x7F800001).toNat = true :=
  ⟨operands_stand, by decide +kernel,
    ⟨_, rfl, _, rfl, by decide +kernel⟩, exists_of_any (by decide +kernel), by decide +kernel⟩
theorem witness_SquareRootsAndReciprocalsTruncate :
    (∃ p, real fmtF32 (lo 1).toNat = some p ∧ 0 < p) ∧ ∃ p, real fmtF32 (lo 0x00800000).toNat = some p ∧ (2 : Rat) ^ (-126 : Int) ≤ p :=
  ⟨exists_of_any (by decide +kernel), exists_of_any (by decide +kernel)⟩
theorem witness_ConversionsDeliver : OperandsStand ∧ (real fmtF32 (ux 32 0x3F800000)).isSome = true ∧
    (real fmtE4m3 (ux 8 0x7E)).isSome = true := ⟨operands_stand, by decide +kernel⟩
theorem witness_StochasticRoundingDrawsAndRounds : OperandsStand ∧
    ∃ p, real fmtF32 (lo 0x3FA40000).toNat = some p ∧ ∃ big, real fmtE4m3 fmtE4m3.maxEnc = some big ∧ apart 0 p ≤ big :=
  ⟨operands_stand, _, rfl, exists_of_any (by decide +kernel)⟩
theorem witness_LanesExchangeAndVote : OperandsStand := operands_stand
theorem witness_ReductionsAndScansUseOneTree : OperandsStand := operands_stand

/-- A group whose eyelets 0 and 1 are bound for input and for output, with two tokens in the channel of eyelet 0. -/
def withEyelets : State :=
  ((demo [(.w, uni 5)]).modGroup 0 0 fun G =>
    { G with eyelets := [(0, { output := false, core := 0, channel := 3, tag := 0 }), (1, { output := true, core := 0, channel := 4, tag := 0 })] }).modCore 0
      fun C => { C with channels := [(3, [dataToken [1] 0xFFFF 0, dataToken [2] 0xFFFF 0])] }

theorem witness_RegistersReadAndWrite : OperandsStand ∧
    (∃ c, withEyelets.ctx? = some c ∧ (247 : BitVec 8).toNat < 248 ∧ Spot.register c.t c.g 0 247 ∉ withEyelets.poison ∧
      Spot.register c.t c.g 1 63 ∉ withEyelets.poison ∧ Spot.register c.t c.g 2 7 ∉ withEyelets.poison ∧
      PMap.get? c.group.latches 0 = none ∧ (PMap.get? c.group.eyelets 0).any (fun e => !e.output && e.channel == 3) = true ∧
      (PMap.getD (withEyelets.core c.team.core).channels 3 []).length = 2 ∧ (c.port? .w).isSome = true ∧
      (PMap.get? c.group.eyelets 1).any (fun e => e.output &&
        decide ((PMap.getD (withEyelets.core e.core).channels e.channel []).length +
          PMap.getD (withEyelets.core e.core).reservedSlots e.channel 0 < 4)) = true) ∧
    ∃ c, { demo [] with poison := [.register 0 0 0 247] }.ctx? = some c ∧
      Spot.register c.t c.g 0 247 ∈ { demo [] with poison := [.register 0 0 0 247] }.poison :=
  ⟨operands_stand, exists_of_any (by decide +kernel), exists_of_any (by decide +kernel)⟩

/-- A block stands with a value on port a. -/
def OnA (x : W64) (p : Ctx → Prop) : Prop :=
  ∃ (s : State) (c : Ctx), s.ctx? = some c ∧ c.on? = some 0xFFFF ∧ c.port? .a = some (uni x) ∧ (uni x).lanes.findSome? id = some x ∧ p c

theorem witness_ExitsNameTheirTargets :
    OnA 0x1230 (fun _ => (0x1230 : W64).toNat % 16 = 0) ∧ OnA 0x1238 fun _ => (0x1238 : W64).toNat % 16 ≠ 0 :=
  ⟨⟨demo [(.a, uni 0x1230)], exists_of_any (by decide +kernel)⟩, demo [(.a, uni 0x1238)], exists_of_any (by decide +kernel)⟩

/-- The same as a user's team. -/
def user (ports : List (Port × Val)) : State := (demo ports).modTeam 0 fun T => { T with sup := false }

theorem witness_ControlRegistersReadAndWrite :
    OnA 31 (fun c => (31 : W64).toNat < 2 ^ ctlReserved .prio ∧ c.team.sup = true) ∧
    OnA 0 (fun c => (0 : W64).toNat < 2 ^ ctlReserved .prio ∧ c.team.sup = false ∧ (0 : W64).toNat ≤ c.team.entryPrio) ∧
    OnA 32 (fun _ => 2 ^ ctlReserved .prio ≤ (32 : W64).toNat) ∧
    OnA 31 (fun c => (31 : W64).toNat < 2 ^ ctlReserved .prio ∧ c.team.sup = false ∧ c.group.sup = none ∧ c.team.entryPrio < 31) :=
  ⟨⟨demo [(.a, uni 31)], exists_of_any (by decide +kernel)⟩, ⟨user [(.a, uni 0)], exists_of_any (by decide +kernel)⟩,
    ⟨demo [(.a, uni 32)], exists_of_any (by decide +kernel)⟩, user [(.a, uni 31)], exists_of_any (by decide +kernel)⟩

/-! ### What meets the hypotheses: memory, copies, queues -/

/-- The context of a state in which a block stands. -/
def ctxOf (s : State) (h : s.ctx?.isSome = true) : Ctx := s.ctx?.get h
theorem ctxOf_spec {s : State} (h : s.ctx?.isSome = true) : s.ctx? = some (ctxOf s h) := (Option.some_get h).symm

/-- The check that `Reaches` states. -/
def reachB (s : State) (c : Ctx) (sp : MemSpace) (need : Perm) (size : Nat) (x : W64) (addr : Nat) : Bool :=
  match sp with
  | .shared => decide (addr = x.toNat % 2 ^ 32 ∧ addr + size ≤ c.team.sharedSize ∧ addr % size = 0)
  | .spill => decide (addr = x.toNat % 2 ^ 32 ∧ addr + size ≤ c.team.spillSize - c.group.spilledBytes ∧ addr % size = 0)
  | .spad => decide (x.toNat % size = 0) &&
      decide ((s.translate c.team.asid c.sup need Window.isScratchpad x).toOption.map (·.pa) = some addr)

theorem some_of_toOption {ε α β : Type} {r : Except ε α} {f : α → β} {y : β} (h : r.toOption.map f = some y) : ∃ p, r = .ok p ∧ f p = y := by
  cases r with
  | error e => cases h
  | ok p => exact ⟨p, rfl, by simpa [Except.toOption] using h⟩

theorem reaches_of {s : State} {c : Ctx} {sp : MemSpace} {need : Perm} {size : Nat} {x : W64} {addr : Nat}
    (h : reachB s c sp need size x addr = true) : Reaches s c sp need size x addr := by
  cases sp <;> simp only [reachB, Bool.and_eq_true, decide_eq_true_eq] at h
  · exact h
  · exact h
  · exact ⟨h.1, some_of_toOption h.2⟩

theorem allReach_of {s : State} {c : Ctx} {sp : MemSpace} {need : Perm} {size : Nat} {on : Nat → Bool} {a : Val} {addr : Nat → Nat}
    (h : (List.range 16).all (fun l => !on l || (lane a l).all fun x => reachB s c sp need size x (addr l)) = true) :
    AllReach s c sp need size on a addr := by
  intro l x hl ho hx
  have := List.all_eq_true.1 h l (List.mem_range.2 hl)
  simp [ho, hx] at this
  exact reaches_of this

/-- Lane l's address in a demonstration: 64 and up, every eight bytes; lane 3 is null. -/
def ladder : Val := each fun l => if l = 3 then none else some (BitVec.ofNat 64 (64 + 8 * l))
/-- One value in lanes 0 to 4, and another in the others. -/
def step5 (x y : W64) : Val := each fun l => some (if l < 5 then x else y)
def data : Val := each fun l => if l = 7 then none else some (BitVec.ofNat 64 (0x1122334455667788 * (l + 1)))

/-- The address in a scratchpad of die 0 that the demonstration's page holds, or the offset itself. -/
def placeIn (sp : MemSpace) (l : Nat) : Nat := (if sp = .spad then 0x10100000000 else 0) + 64 + 8 * l

theorem witness_LoadsDeliverMemory :
    (∀ i, i ∈ [Instr.lds .b64, .ldx .b64, .ldk .i8] → ∃ sp w s c, loads i = some (sp, w) ∧ Stands s c 0xFFFF ∧ c.port? .a = some ladder ∧
      AllReach s c sp .r (loadBytes w) (live 0xFFFF [ladder]) ladder (placeIn sp) ∧
      ∀ l, l < 16 → s.spoiledIn sp c.t c.g (placeIn sp l) (loadBytes w) = none) ∧
    ∃ s c a, Stands s c 0xFFFF ∧ c.port? .a = some a ∧ live 0xFFFF [a] 5 = true ∧ lane a 5 = some 65533 ∧
      AllReach s c .shared .r 4 (fun k => live 0xFFFF [a] k && decide (k < 5)) a (fun _ => 65532) ∧
      c.team.sharedSize < (65533 : W64).toNat % 2 ^ 32 + 4 := by
  refine ⟨?_, demo [(.a, step5 65532 65533)], ctxOf _ (by decide +kernel), step5 65532 65533,
    ⟨ctxOf_spec _, by decide +kernel⟩, by decide +kernel, by decide +kernel, by decide +kernel, allReach_of (by decide +kernel),
    by decide +kernel⟩
  intro i hi
  simp only [List.mem_cons, List.not_mem_nil, or_false] at hi
  rcases hi with rfl | rfl | rfl <;>
  exact ⟨_, _, demo [(.a, ladder)], ctxOf _ (by decide +kernel), rfl, ⟨ctxOf_spec _, by decide +kernel⟩, by decide +kernel,
    allReach_of (by decide +kernel), by decide +kernel⟩

theorem witness_StoresChangeTheirBytes :
    (∀ i, i ∈ [Instr.sts .b64, .stx .b32, .stk .b8] → ∃ sp size s c, stores i = some (sp, size) ∧ Stands s c 0xFFFF ∧
      c.port? .a = some ladder ∧ c.port? .b = some data ∧ AllReach s c sp .w size (live 0xFFFF [ladder, data]) ladder (placeIn sp)) ∧
    (∃ s c a, Stands s c 0xFFFF ∧ c.port? .a = some a ∧ c.port? .b = some data ∧ live 0xFFFF [a, data] 5 = true ∧ lane a 5 = some 9 ∧
      AllReach s c .shared .w 4 (fun k => live 0xFFFF [a, data] k && decide (k < 5)) a (fun _ => 8) ∧
      (9 : W64).toNat % 2 ^ 32 + 4 ≤ c.team.sharedSize ∧ (9 : W64).toNat % 2 ^ 32 % 4 ≠ 0) ∧
    (∃ s c a, Stands s c 0xFFFF ∧ c.port? .a = some a ∧ c.port? .b = some data ∧ c.port? .c = some (uni 1) ∧
      (1 : W64).toNat < 2 ^ (c.team.cw * c.team.ch) ∧ AllReach s c .shared .w 4 (live 0xFFFF [a, data, uni 1]) a fun _ => 8) ∧
    (∃ c, (demo [(.c, uni 2)]).ctx? = some c ∧ 2 ^ (c.team.cw * c.team.ch) ≤ (2 : W64).toNat) ∧
    (demo []).team? 0 ≠ none ∧ (demo []).group? 0 0 ≠ none ∧
    (∀ i, i < 8 → ∀ j, j < 8 → i ≠ j → (demo []).storageAddr (0x10100000040 + i) ≠ (demo []).storageAddr (0x10100000040 + j)) ∧
    ∀ i, i < 8 → ((demo []).storageAddr (0x10100000040 + i)).isSome = true := by
  refine ⟨?_, ⟨demo [(.a, step5 8 9), (.b, data)], ctxOf _ (by decide +kernel), step5 8 9,
      ⟨ctxOf_spec _, by decide +kernel⟩, by decide +kernel, by decide +kernel, by decide +kernel, by decide +kernel,
      allReach_of (by decide +kernel), by decide +kernel, by decide +kernel⟩,
    ⟨demo [(.a, uni 8), (.b, data), (.c, uni 1)], ctxOf _ (by decide +kernel), uni 8, ⟨ctxOf_spec _, by decide +kernel⟩, by decide +kernel,
      by decide +kernel, by decide +kernel, by decide +kernel, allReach_of (by decide +kernel)⟩,
    exists_of_any (by decide +kernel), by decide +kernel, by decide +kernel, by decide +kernel, by decide +kernel⟩
  intro i hi
  simp only [List.mem_cons, List.not_mem_nil, or_false] at hi
  rcases hi with rfl | rfl | rfl <;>
  exact ⟨_, _, demo [(.a, ladder), (.b, data)], ctxOf _ (by decide +kernel), rfl, ⟨ctxOf_spec _, by decide +kernel⟩, by decide +kernel,
    by decide +kernel, allReach_of (by decide +kernel)⟩

theorem witness_AtomicsReadModifyWriteInTurn :
    ∀ i, i ∈ [Instr.atomCas ⟨.team, .rlx, .shared⟩ true, .atomAdd ⟨.device, .acqrel, .spad⟩ false] →
      ∃ op sp wide useC s c, atomics i = some (op, sp, wide, useC) ∧ Stands s c 0xFFFF ∧ c.port? .a = some ladder ∧ c.port? .b = some data ∧
        c.port? .c = some data ∧ AllReach s c (spaceAt sp) .rw (if wide then 8 else 4)
          (live 0xFFFF (if useC then [ladder, data, data] else [ladder, data])) ladder (placeIn (spaceAt sp)) := by
  intro i hi
  simp only [List.mem_cons, List.not_mem_nil, or_false] at hi
  rcases hi with rfl | rfl <;>
  exact ⟨_, _, _, _, demo [(.a, ladder), (.b, data), (.c, data)], ctxOf _ (by decide +kernel), rfl, ⟨ctxOf_spec _, by decide +kernel⟩,
    by decide +kernel, by decide +kernel, by decide +kernel, allReach_of (by decide +kernel)⟩

/-- A state with a word at the address 0x100 of the scratchpad. -/
def withWord (ports : List (Port × Val)) (w : Nat) : State := (demo ports).writeNat 0 0x10100000100 8 w

/-- The demonstration beside 32 barrier entries of another team. -/
def fullBars : State := (demo [(.a, uni 0)]).modCore 0 fun C => { C with
  bars := (List.range 32).map fun i =>
    { id := i, cluster := false, scope := 0, expected := 2, counted := true, arrived := 1, phase := false, owner := 99 } }

theorem witness_FencesAndBarriersAct : OperandsStand ∧
    (∃ s c w, Stands s c 0xFFFF ∧ Uniform c .a (uni 0) 0 ∧ someLive 0xFFFF [uni 0] = true ∧ barWordOf false 0 = some w ∧
      (w.cluster, w.id) ∉ c.group.arrivals ∧ c.group.barSpill ≠ some c.blk.head ∧ s.barReady c.team w = true) ∧
    (∃ s c w, Stands s c 0xFFFF ∧ Uniform c .a (uni 0) 0 ∧ someLive 0xFFFF [uni 0] = true ∧ barWordOf false 0 = some w ∧
      (w.cluster, w.id) ∉ c.group.arrivals ∧ c.group.barSpill ≠ some c.blk.head ∧ s.barReady c.team w = false) ∧
    (∃ s c w, Stands s c 0xFFFF ∧ Uniform c .a (uni 0) 0 ∧ c.port? .b = some data ∧ someLive 0xFFFF [uni 0, data] = true ∧
      barWordOf true 0 = some w ∧ (w.cluster, w.id) ∉ c.group.arrivals ∧ s.barReady c.team w = true ∧
      c.group.barSpill ≠ some c.blk.head) ∧
    (∃ s c, Stands s c 0xFFFF ∧ Uniform c .a (uni 0x104) 0x104 ∧ someLive 0xFFFF [uni 0x104] = true ∧
      Reaches s c .spad .w 8 0x100 0x10100000100 ∧ Reaches s c .spad .rw 8 0x100 0x10100000100 ∧ Uniform c .b (uni 5) 5 ∧
      someLive 0xFFFF [uni 0x104, uni 5] = true ∧ s.spoiled 0x10100000100 8 = false ∧ Reaches s c .spad .r 8 0x100 0x10100000100 ∧
      2 ^ 63 ≤ s.readNat 0 0x10100000100 8 ∧ s.readNat 0 0x10100000100 8 / 2 ^ 48 % 2 ^ 8 = 7) ∧
    2 ≤ bitsOf (2 ^ 63 + 2) 0 24 ∧ bitsOf (2 ^ 63 + 2) 63 1 = 1 ∧ bitsOf (2 ^ 63 + 1) 0 24 ≤ 1 :=
  ⟨operands_stand,
    ⟨demo [(.a, uni 0)], ctxOf _ (by decide +kernel), (barWordOf false 0).get (by decide +kernel), ⟨ctxOf_spec _, by decide +kernel⟩,
      ⟨by decide +kernel, by decide +kernel⟩, by decide +kernel, (Option.some_get _).symm, by decide +kernel, by decide +kernel,
      by decide +kernel⟩,
    ⟨fullBars, ctxOf _ (by decide +kernel), (barWordOf false 0).get (by decide +kernel), ⟨ctxOf_spec _, by decide +kernel⟩,
      ⟨by decide +kernel, by decide +kernel⟩, by decide +kernel, (Option.some_get _).symm, by decide +kernel, by decide +kernel,
      by decide +kernel⟩,
    ⟨demo [(.a, uni 0), (.b, data)], ctxOf _ (by decide +kernel), (barWordOf true 0).get (by decide +kernel),
      ⟨ctxOf_spec _, by decide +kernel⟩, ⟨by decide +kernel, by decide +kernel⟩, by decide +kernel, by decide +kernel,
      (Option.some_get _).symm, by decide +kernel, by decide +kernel, by decide +kernel⟩,
    ⟨withWord [(.a, uni 0x104), (.b, uni 5)] (2 ^ 63 + 7 * 2 ^ 48 + 3 * 2 ^ 24 + 2), ctxOf _ (by decide +kernel),
      ⟨ctxOf_spec _, by decide +kernel⟩, ⟨by decide +kernel, by decide +kernel⟩, by decide +kernel, reaches_of (by decide +kernel),
      reaches_of (by decide +kernel), ⟨by decide +kernel, by decide +kernel⟩, by decide +kernel, by decide +kernel,
      reaches_of (by decide +kernel), by decide +kernel, by decide +kernel⟩,
    by decide +kernel⟩

/-! ### What meets the hypotheses: copies, streams, queues -/

/-- A block stands that is active in all lanes, with a uniform operand on port a. -/
def At (s : State) (c : Ctx) (x : W64) : Prop := Stands s c 0xFFFF ∧ Uniform c .a (uni x) x ∧ someLive 0xFFFF [uni x] = true

theorem at_of {s : State} {x : W64} {h : s.ctx?.isSome = true}
    (h1 : (ctxOf s h).on? = some 0xFFFF ∧ (ctxOf s h).port? .a = some (uni x) ∧ (uni x).lanes.findSome? id = some x ∧
      someLive 0xFFFF [uni x] = true) : At s (ctxOf s h) x :=
  ⟨⟨ctxOf_spec h, h1.1⟩, ⟨h1.2.1, h1.2.2.1⟩, h1.2.2.2⟩

theorem readsObject_of {s : State} {c : Ctx} {va : W64} {n pa : Nat} (h : reachB s c .spad .r 1 va pa = true)
    (h1 : s.spoiled pa (8 * n) = false) : ReadsObject s c va n (s.readWords 0 pa n) := ⟨pa, reaches_of h, h1, rfl⟩

theorem readsRecord_of {s : State} {c : Ctx} {va : W64} {pa : Nat} (h : reachB s c .spad .r 1 va pa = true)
    (h1 : s.spoiled pa (8 * 8) = false) (h2 : Rec.check (s.readWords 0 pa 8) c.team.sharedSize = none) :
    ReadsRecord s c va (s.readWords 0 pa 8) := ⟨readsObject_of h h1, h2⟩

theorem namesQueue_of {s : State} {c : Ctx} {need : Perm} {al : Bool} {va : W64} {q o : Nat}
    (h : (s.translate c.team.asid c.sup need Window.isQueue va).toOption.map (fun p => windowOf p.pa) = some (.queue q o))
    (h1 : al = true → va.toNat % 4096 = 0) (h2 : (s.queue q).enable = true) : NamesQueue s c need al va q := by
  obtain ⟨p, hp, hw⟩ := some_of_toOption h
  exact ⟨p, o, hp, hw, h1, h2⟩

/-- A scratchpad address of die 0 that holds 64-bit words. -/
def pokeWords (s : State) (at_ : Nat) (ws : RecWords) : State :=
  (List.range ws.length).foldl (fun s i => s.writeNat 0 (0x10100000000 + at_ + 8 * i) 8 (ws.getD i 0).toNat) s

/-- A record of n elements of a type at a base, one after another. -/
def plainRecord (base type n : Nat) : RecWords :=
  [BitVec.ofNat 64 (base + type * 2 ^ 56), 0, BitVec.ofNat 64 (n - 1 + 2 ^ 24), 0, 0, 0, 0, 0]

/-- A page of ASID 0 at a virtual address. -/
def page (s : State) (va pa size : Nat) : State :=
  { s with tlb := { asid := 0, va := va, size := size, pa := pa, r := true, w := true, x := true, s := true, key := 0 } :: s.tlb }

def withCopy : State := pokeWords (pokeWords (demo [(.a, uni 0x100)]) 0x100 (plainRecord 0x400 11 8)) 0x140 (plainRecord 0x800 11 8)
def layoutWords : RecWords := [0x0B00000000000400, BitVec.ofNat 64 (4 + 4 * 2 ^ 16 + 3 * 2 ^ 32), BitVec.ofNat 64 (12 + 3 * 2 ^ 32),
  BitVec.ofNat 64 (2 ^ 32 + 2 ^ 38 + 2 ^ 48 + 2 ^ 52), 0, 0x2000000000, 0, 0]
def withLayout : State := pokeWords (demo [(.a, uni 0x100)]) 0x100 layoutWords
def withBatches (x : W64) (members : List (Nat × Nat × Nat)) : State :=
  ((demo [(.a, uni x)]).modGroup 0 0 fun G => { G with batches := 3 }).modTeam 0 fun T => { T with members := members }
def withStream (x : W64) : State :=
  pokeWords (demo [(.a, uni x), (.b, uni 7)]) 0x100
    ((plainRecord 0x400 11 8).zipIdx.map fun (w, i) => if i = 6 then BitVec.ofNat 64 (2 * 2 ^ 8 + 5 * 2 ^ 10) else w)

theorem witness_CopiesAndStreamsFire :
    (∃ s c src dst, At s c 0x100 ∧ (0x100 : W64).toNat % 64 = 0 ∧ ReadsRecord s c 0x100 src ∧ ReadsRecord s c (0x100 + 64) dst ∧
      copyPairOk (recOf src) (recOf dst) (match s.sideWindow c.agent (recOf src) .r with
        | some .hbm => true | none => (recOf src).space == 0 | _ => false) = true) ∧
    (∃ s c ws, At s c 0x100 ∧ ReadsObject s c 0x100 8 ws ∧ LayoutRec.check ws c.team.sharedSize = none) ∧
    (∃ s c, At s c 2 ∧ (2 : W64).toNat ≤ c.group.batches ∧ (∀ m, m ∈ c.team.members → m.1 = c.g → (2 : W64).toNat < m.2.1) ∧
      ∀ m, m ∈ c.team.strictFaults → m.1 = c.g → (2 : W64).toNat < m.2.1) ∧
    (∃ s c, At s c 2 ∧ (2 : W64).toNat ≤ c.group.batches ∧ ∃ m, m ∈ c.team.members ∧ m.1 = c.g ∧ m.2.1 ≤ (2 : W64).toNat) ∧
    (∃ s c, At s c 1 ∧ c.group.batches < (1 : W64).toNat) ∧
    (∃ s c, At s c 255 ∧ PMap.get? c.group.eyelets 7 = none ∧ (255 : W64).toNat < 2 ^ 8 ∧ s.eyeletOn c.team.core 255 = false ∧
      s.handlerOn c.team.core 255 = false) ∧
    (∃ s c y, At s c 5 ∧ PMap.get? c.group.eyelets 1 = some y) ∧
    (∃ s c ws, At s c 0x100 ∧ Uniform c .b (uni 7) 7 ∧ ReadsRecord s c (0x100 &&& ~~~1) ws ∧
      streamRecOk (recOf ws) ((0x100 : W64).getLsbD 0) = true ∧ (PMap.getD c.team.streams 7 {}).running = false) :=
  ⟨⟨withCopy, ctxOf _ (by decide +kernel), _, _, at_of (by decide +kernel), by decide +kernel,
      readsRecord_of (pa := 0x10100000100) (by decide +kernel) (by decide +kernel) (by decide +kernel),
      readsRecord_of (pa := 0x10100000140) (by decide +kernel) (by decide +kernel) (by decide +kernel), by decide +kernel⟩,
    ⟨withLayout, ctxOf _ (by decide +kernel), _, at_of (by decide +kernel),
      readsObject_of (pa := 0x10100000100) (by decide +kernel) (by decide +kernel), by decide +kernel⟩,
    ⟨withBatches 2 [(0, 3, 5), (1, 2, 7)], ctxOf _ (by decide +kernel), at_of (by decide +kernel), by decide +kernel, by decide +kernel,
      by decide +kernel⟩,
    ⟨withBatches 2 [(0, 2, 5)], ctxOf _ (by decide +kernel), at_of (by decide +kernel), by decide +kernel, by decide +kernel⟩,
    ⟨demo [(.a, uni 1)], ctxOf _ (by decide +kernel), at_of (by decide +kernel), by decide +kernel⟩,
    ⟨demo [(.a, uni 255)], ctxOf _ (by decide +kernel), at_of (by decide +kernel), by decide +kernel, by decide +kernel, by decide +kernel,
      by decide +kernel⟩,
    ⟨(demo [(.a, uni 5)]).modGroup 0 0 fun G => { G with eyelets := [(1, { output := true, core := 0, channel := 4, tag := 0 })] },
      ctxOf _ (by decide +kernel), { output := true, core := 0, channel := 4, tag := 0 }, at_of (by decide +kernel), by decide +kernel⟩,
    ⟨withStream 0x100, ctxOf _ (by decide +kernel), _, at_of (by decide +kernel), ⟨by decide +kernel, by decide +kernel⟩,
      readsRecord_of (pa := 0x10100000100) (by decide +kernel) (by decide +kernel) (by decide +kernel), by decide +kernel,
      by decide +kernel⟩⟩

/-- A state with queue 5 on the page at 0x100000. -/
def withQueue (ports : List (Port × Val)) (Q : Queue) : State :=
  (page (demo ports) 0x100000 0x10200000000 65536).modQueue 5 fun _ => { Q with enable := true, depthLog := 4 }
def token (n : Nat) : Token := dataToken [BitVec.ofNat 32 n] 1 (BitVec.ofNat 16 n)
def entry (n : Nat) (held : Option (Nat × Nat × Nat)) : QEntry := ⟨token n, held, 0⟩
def two : Queue := { entries := [entry 1 (some (9, 9, 0)), entry 2 none] }

theorem witness_QueuesAndTasksFire_queues :
    (∃ s c, At s c 0x105123 ∧ NamesQueue s c .w false 0x105123 5 ∧ c.port? .b = some data ∧ someLive 0xFFFF [uni 0x105123, data] = true) ∧
    (∃ s c, At s c 0x105000 ∧ NamesQueue s c .rw true 0x105000 5 ∧ (freeEntries (s.queue 5)).getLast? = some 1 ∧
      (freeEntries (s.queue 5)).head? = some 1 ∧ (s.queue 5).entries[1]? = some (entry 2 none) ∧ (entry 2 none).tok.damaged = false ∧ freeEntries (s.queue 5) ≠ []) ∧
    (∃ s c, At s c 0x105000 ∧ NamesQueue s c .r true 0x105000 5 ∧ freeEntries (s.queue 5) = [] ∧ PMap.get? c.group.kept 5 = none) ∧
    (∃ s c p, At s c 0x1050C0 ∧ Uniform c .b (uni 7) 7 ∧
      s.translate c.team.asid c.sup .w (fun w => match w with | .queue _ _ | .notify _ _ _ => true | _ => false) 0x1050C0 = .ok p ∧
      windowOf p.pa = .queue 5 0x0C0 ∧ (s.queue 5).enable = true) := by
  refine ⟨⟨withQueue [(.a, uni 0x105123), (.b, data)] {}, ctxOf _ (by decide +kernel), at_of (by decide +kernel),
      namesQueue_of (o := 0x123) (by decide +kernel) (by decide) (by decide +kernel), by decide +kernel, by decide +kernel⟩,
    ⟨withQueue [(.a, uni 0x105000)] two, ctxOf _ (by decide +kernel), at_of (by decide +kernel),
      namesQueue_of (o := 0) (by decide +kernel) (by decide) (by decide +kernel), by decide +kernel, by decide +kernel, by decide +kernel,
      by decide +kernel⟩,
    ⟨withQueue [(.a, uni 0x105000)] {}, ctxOf _ (by decide +kernel), at_of (by decide +kernel),
      namesQueue_of (o := 0) (by decide +kernel) (by decide) (by decide +kernel), by decide +kernel, by decide +kernel⟩, ?_⟩
  obtain ⟨p, hp, hw⟩ := some_of_toOption (f := fun p : Phys => windowOf p.pa) (y := .queue 5 0x0C0)
    (r := (withQueue [(.a, uni 0x1050C0), (.b, uni 7)] {}).translate 0 true .w
      (fun w => match w with | .queue _ _ | .notify _ _ _ => true | _ => false) 0x1050C0) (by decide +kernel)
  exact ⟨_, ctxOf (withQueue [(.a, uni 0x1050C0), (.b, uni 7)] {}) (by decide +kernel), p, at_of (by decide +kernel),
    ⟨by decide +kernel, by decide +kernel⟩, hp, hw, by decide +kernel⟩

theorem witness_EngineEffectsAtTheCommit_queues :
    ((demo []).modQueue 5 fun _ => { entries := [entry 1 none, entry 2 (some (0, 0, 4)), entry 3 none] }).queue 5 =
      { entries := [entry 1 none] ++ entry 2 (some (0, 0, 4)) :: [entry 3 none] } ∧
    (∀ b, b ∈ [entry 1 none] → b.held ≠ some (0, 0, 4)) ∧ (∀ b, b ∈ [entry 3 none] → b.held ≠ some (0, 0, 4)) ∧ (6 : Nat) ≠ 5 := by
  decide +kernel
theorem witness_CodingsRoundTrip : OperandsStand ∧ (List.replicate 16 (7 : W32)).length = 16 ∧
    (List.replicate 16 (some (7 : W32))).length = 16 := ⟨operands_stand, by decide⟩

/-! ### What meets the hypotheses: matrix, tape, tasks -/

/-- What answers a value that satisfies a condition. -/
theorem answers {ε α : Type} {o : Except ε α} {p : α → Prop} [DecidablePred p] (h : (o.toOption.any fun x => decide (p x)) = true) :
    ∃ x, o = .ok x ∧ p x := by
  cases o with
  | error e => cases h
  | ok x => exact ⟨x, rfl, of_decide_eq_true (by simpa [Except.toOption] using h)⟩

def full : MatBuffer := { filled := true, full := true }
/-- A claim of three tiles whose buffers are full or empty. -/
def claim (filled : Bool) : Matrix :=
  let bs : PMap MatBuffer := if filled then [(0, full), (1, full), (2, full), (3, full)] else []
  { tiles := 3, depthA := 4, depthB := 4, acc := [(7, 5)], bufA := bs, bufB := bs }
def withClaim (x : W64) (M : Matrix) (more : List (Port × Val) := []) : State :=
  (demo ((.a, uni x) :: more)).modTeam 0 fun T => { T with matrix := some M }

theorem witness_MatrixInstructionsFire_products :
    (∃ s c M, At s c 0xC8 ∧ c.team.matrix = some M ∧ products (.mmaI8 3) = some (0x199, 3, some false, 3) ∧ (0xC8 : W64).toNat % 4 < M.tiles ∧
      (0xC8 : W64).toNat / 8 % 8 < M.depthA ∧ (0xC8 : W64).toNat / 64 % 8 < M.depthB ∧ (0xC8 : W64).getLsbD 9 = false ∧
      2 ^ (3 - 3) ≤ M.depthA ∧ InTurn c M { op := 0x199, a := 0xC8, ext := 3 }) ∧
    (∃ s c M ws, At s c 0x102 ∧ c.team.matrix = some M ∧ (0x102 : W64).getLsbD 5 = false ∧ (0x102 : W64).toNat / 2 % 8 < M.depthA ∧
      (0x102 : W64).toNat / 4 % 16 = 0 ∧ (0x102 : W64).toNat % 4 < M.tiles ∧
      ReadsRecord s c (BitVec.ofNat 64 ((0x102 : W64).toNat / 64 * 64)) ws ∧
      (∀ x : Nat × Perm, x ∈ [(0x18F, .r), (0x190, .w)] → transferRecFault x.1 0x102 false (recOf ws)
        (match s.sideWindow c.agent (recOf ws) x.2 with | some .hbm => true | none => (recOf ws).space == 0 | _ => false) = none) ∧
      InTurn c M { op := 0x18F, a := 0x102, record := ws } ∧
      InTurn c M { op := 0x190, a := 0x102, record := ws }) ∧
    (∃ s c M, At s c 2 ∧ c.team.matrix = some M ∧ (2 : W64).toNat < M.tiles ∧ (∀ y, y ∈ M.queue → y.tile? ≠ some 2) ∧ c.port? .b = some data) ∧
    (∃ s c M, At s c 2 ∧ c.team.matrix = some M ∧ ∃ y, y ∈ M.queue ∧ y.tile? = some 2) ∧
    (∃ s c M, At s c 0 ∧ c.team.matrix = some M ∧ M.busy = false) ∧
    (∃ s c, Stands s c 0xFFFF ∧ c.team.matrix = none) :=
  ⟨⟨withClaim 0xC8 (claim true), ctxOf _ (by decide +kernel), claim true, at_of (by decide +kernel), by decide +kernel, by decide +kernel,
      by decide +kernel, by decide +kernel, by decide +kernel, by decide +kernel, by decide +kernel,
      show (_ : Bool) = true by decide +kernel⟩,
    ⟨pokeWords (withClaim 0x102 (claim false)) 0x100 (plainRecord 0x400 7 64), ctxOf _ (by decide +kernel), claim false, _,
      at_of (by decide +kernel), by decide +kernel, by decide +kernel, by decide +kernel, by decide +kernel, by decide +kernel,
      readsRecord_of (pa := 0x10100000100) (by decide +kernel) (by decide +kernel) (by decide +kernel), by decide +kernel,
      show (_ : Bool) = true by decide +kernel,
      show (_ : Bool) = true by decide +kernel⟩,
    ⟨withClaim 2 (claim true) [(.b, data)], ctxOf _ (by decide +kernel), claim true, at_of (by decide +kernel), by decide +kernel,
      by decide +kernel, by decide +kernel, by decide +kernel⟩,
    ⟨withClaim 2 { claim true with queue := [{ op := 0x192, a := 2 }] }, ctxOf _ (by decide +kernel),
      { claim true with queue := [{ op := 0x192, a := 2 }] }, at_of (by decide +kernel), by decide +kernel, by decide +kernel⟩,
    ⟨withClaim 0 (claim true), ctxOf _ (by decide +kernel), claim true, at_of (by decide +kernel), by decide +kernel, by decide +kernel⟩,
    ⟨demo [], ctxOf _ (by decide +kernel), ⟨ctxOf_spec _, by decide +kernel⟩, by decide +kernel⟩⟩

/-- The head of a sequencer image with no controller. -/
def imageHead (done : Nat) : RecWords := [BitVec.ofNat 64 (2 + 4 * 8 + 2 * 128), BitVec.ofNat 64 done, 0, 0, 0, 0, 0, 0]

theorem translates_of {r : Except XlatFault Phys} {pa : Nat} (h : r.toOption.map (·.pa) = some pa) : ∃ p, r = .ok p :=
  let ⟨p, hp, _⟩ := some_of_toOption h
  ⟨p, hp⟩

theorem witness_MatrixInstructionsFire_images :
    (∃ s c h, At s c 0x100 ∧ ReadsObject s c 0x100 8 h ∧ fieldOf h 11 5 = 0 ∧ imageRefused h [] = false ∧ fieldOf h 64 56 = 0) ∧
    (∃ s c h, At s c 0x100 ∧ ReadsObject s c 0x100 8 h ∧ fieldOf h 11 5 = 0 ∧ imageRefused h [] = false ∧ fieldOf h 64 56 = 0x208 ∧
      ∃ p, s.translate c.team.asid c.sup .rw Window.isScratchpad 0x208 = .ok p) :=
  ⟨⟨pokeWords (demo [(.a, uni 0x100)]) 0x100 (imageHead 0), ctxOf _ (by decide +kernel), _, at_of (by decide +kernel),
      readsObject_of (pa := 0x10100000100) (by decide +kernel) (by decide +kernel), by decide +kernel⟩,
    pokeWords (demo [(.a, uni 0x100)]) 0x100 (imageHead 0x208), ctxOf _ (by decide +kernel), _, at_of (by decide +kernel),
      readsObject_of (pa := 0x10100000100) (by decide +kernel) (by decide +kernel), by decide +kernel, by decide +kernel,
      by decide +kernel, translates_of (pa := 0x10100000208) (by decide +kernel)⟩

theorem witness_EngineEffectsAtTheCommit_matrix : ∃ T, (withClaim 0 { claim true with controllers := [{ words := [] }] }).team? 0 = some T ∧
    T.matrix = some { claim true with controllers := [{ words := [] }] } :=
  ⟨((withClaim 0 { claim true with controllers := [{ words := [] }] }).team? 0).get (by decide +kernel), (Option.some_get _).symm,
    by decide +kernel⟩

/-- A tape whose records stand in buffered pages from 2^21 on. -/
def withTape (ports : List (Port × Val)) (T : Tape) (bytes : List W8) : State :=
  (bytes.zipIdx).foldl (fun s (b, i) => s.writeByte 1 i b)
    ((page (demo ports) (2 ^ 21) 0 (2 ^ 21)).modTeam 0 fun X => { X with tape := T })
/-- Two value records of one chain. -/
def lanesOf16 (k : Nat) : List (Option W32) := (List.range 16).map fun l => if l % 5 = 2 then none else some (BitVec.ofNat 32 (l * l + k))
def body1 := valueBody 0 (lanesOf16 3)
def body2 := valueBody body1.2 (lanesOf16 77)
def records : List W8 := List.replicate 64 0 ++
  bytesOfUnits (body1.1 ++ tailUnits (tailWord 1 0 body1.1.length 0) ++ body2.1 ++ tailUnits (tailWord 1 0 body2.1.length 0))
def reversing (finish : Nat) : Tape :=
  { mode := .reversing, quota := 4, used := 1, base := 0x200000, finish := finish, prev := [(0, body2.2)], stored := 2 }
def isBody {ε : Type} : Except ε TapePopped → Bool
  | .ok (.body _ _ _ _) => true
  | _ => false
def isStatus {ε : Type} : Except ε TapePopped → Bool
  | .ok (.status 2) => true
  | _ => false

/-- A closed tape area of one page without records. -/
def closedArea : List W8 := [204, 0, 0, 0, 0, 0, 1, 0, 1, 0] ++ List.replicate 194 0

theorem witness_TapeInstructionsFire_areas :
    (∃ s c, At s c 0x200000 ∧ (0x200000 : W64).toNat % 2 ^ 21 = 0 ∧ c.team.tape.mode ≠ .recording ∧ c.team.tape.stalled = none ∧
      ∃ x, s.tapeInfo c.team 0x200000 = .ok x ∧ x = some (64, (List.range 32).foldl (fun m i => PMap.set m 0 i 0) [], false, 1)) ∧
    (∃ s c, Stands s c 0xFFFF ∧ c.port? .a = some data ∧ someLive 0xFFFF [data] = true) ∧
    (∃ s c, Stands s c 0xFFFF ∧ c.team.tape.mode = .idle) ∧
    (∃ s c, Stands s c 0xFFFF ∧ c.team.tape.mode = .closed ∧ c.team.tape.uncounted = false) ∧
    (∃ s c, Stands s c 0xFFFF ∧ c.team.tape.mode = .reversing ∧ c.team.tape.stalled = none ∧ PMap.get? c.team.tape.cursors c.g = none ∧
      ∃ n, s.tapeCount c.team c.team.tape.base (some c.g) (c.team.tape.finish + 1) c.team.tape.finish = .ok n ∧ n = 2) :=
  ⟨⟨withTape [(.a, uni 0x200000)] { quota := 4 } closedArea, ctxOf _ (by decide +kernel), at_of (by decide +kernel), by decide +kernel,
      by decide +kernel, by decide +kernel, answers (by decide +kernel)⟩,
    ⟨demo [(.a, data)], ctxOf _ (by decide +kernel), ⟨ctxOf_spec _, by decide +kernel⟩, by decide +kernel⟩,
    ⟨demo [], ctxOf _ (by decide +kernel), ⟨ctxOf_spec _, by decide +kernel⟩, by decide +kernel⟩,
    ⟨withTape [] { mode := .closed } [], ctxOf _ (by decide +kernel), ⟨ctxOf_spec _, by decide +kernel⟩, by decide +kernel⟩,
    ⟨withTape [] (reversing records.length) records, ctxOf _ (by decide +kernel), ⟨ctxOf_spec _, by decide +kernel⟩, by decide +kernel,
      by decide +kernel, by decide +kernel, answers (by decide +kernel)⟩⟩

theorem witness_TapeInstructionsFire :
    (∃ s c, At s c 0x400000 ∧ (0x400000 : W64).toNat % 2 ^ 21 = 0 ∧ c.team.tape.mode ≠ .recording ∧ c.team.tape.quota ≠ 0) ∧
    (∃ s c, At s c 0x100000 ∧ (0x100000 : W64).toNat % 2 ^ 21 ≠ 0) ∧
    (∃ s c, At s c 65532 ∧ c.team.tape.quota + (65532 : W64).toNat ≤ 65535) ∧
    (∃ s c, At s c 0 ∧ c.team.tape.mode = .reversing ∧ c.team.tape.stalled = none) ∧
    (∃ s c, Stands s c 0xFFFF ∧ c.team.tape.mode ≠ .reversing) ∧
    (∃ s c, Stands s c 0xFFFF ∧ c.team.tape.mode = .reversing ∧ c.team.tape.stalled = none ∧ c.team.tape.marker = true ∧ c.g ∉ c.team.tape.told) ∧
    (∃ s c, Stands s c 0xFFFF ∧ c.team.tape.mode = .reversing ∧ c.team.tape.stalled = none ∧ c.team.tape.marker = false ∧
      isStatus (s.tapePop c.team c.team.tape.base c.g 1 c.tapeCursor.1.1 c.tapeCursor.1.2) = true) ∧
    (∃ s c, Stands s c 0xFFFF ∧ c.team.tape.mode = .reversing ∧ c.team.tape.stalled = none ∧ c.team.tape.marker = false ∧
      PMap.get? c.team.tape.cursors c.g = none ∧
      isBody (s.tapePop c.team c.team.tape.base c.g 1 c.tapeCursor.1.1 c.tapeCursor.1.2) = true) :=
  ⟨⟨withTape [(.a, uni 0x400000)] { quota := 3 } [], ctxOf _ (by decide +kernel), at_of (by decide +kernel), by decide +kernel⟩,
    ⟨withTape [(.a, uni 0x100000)] { quota := 3 } [], ctxOf _ (by decide +kernel), at_of (by decide +kernel), by decide +kernel⟩,
    ⟨withTape [(.a, uni 65532)] { quota := 3 } [], ctxOf _ (by decide +kernel), at_of (by decide +kernel), by decide +kernel⟩,
    ⟨withTape [(.a, uni 0)] (reversing 64) [], ctxOf _ (by decide +kernel), at_of (by decide +kernel), by decide +kernel⟩,
    ⟨demo [], ctxOf _ (by decide +kernel), ⟨ctxOf_spec _, by decide +kernel⟩, by decide +kernel⟩,
    ⟨withTape [] { reversing 64 with marker := true } [], ctxOf _ (by decide +kernel), ⟨ctxOf_spec _, by decide +kernel⟩, by decide +kernel⟩,
    ⟨withTape [] (reversing 64) [], ctxOf _ (by decide +kernel), ⟨ctxOf_spec _, by decide +kernel⟩, by decide +kernel⟩,
    ⟨withTape [] (reversing records.length) records, ctxOf _ (by decide +kernel), ⟨ctxOf_spec _, by decide +kernel⟩, by decide +kernel⟩⟩

theorem namesJoin_of {s : State} {c : Ctx} {va : W64} {low high : Phys}
    (h : (s.joinRecord c.team.asid c.sup va).toOption.map id = some (low, high)) : NamesJoin s c va low high := by
  obtain ⟨p, hp, rfl⟩ := some_of_toOption h
  exact hp

def taskWords : RecWords := [0x105000, 0x40, 0x10000, 0, 0, 0, 0, 0]
def withTask : State :=
  ((pokeWords (page (demo [(.a, uni 0x100), (.b, data)]) 0x100000 0x10200000000 65536) 0x100 taskWords).modQueue 5 fun _ =>
    { enable := true }).modTeam 0 fun T => { T with topup := true }

theorem witness_QueuesAndTasksFire_tasks :
    (∃ s c, At s c 48 ∧ (48 : W64).toNat % 16 = 0) ∧
    (∃ s c low high, At s c 0x101 ∧ NamesJoin s c 0x100 low high ∧ s.spoiled low.pa 64 = false ∧ s.spoiled high.pa 64 = false ∧
      c.retireRecorded = false ∧ Uniform c .b (uni 5) 5) ∧
    (∃ s c ws, At s c 0x100 ∧ c.port? .b = some data ∧ someLive 0xFFFF [uni 0x100, data] = true ∧ ReadsObject s c 0x100 8 ws ∧
      fieldOf ws 56 8 = 0 ∧ fieldOf ws 120 8 = 0 ∧ fieldOf ws 145 47 = 0 ∧ fieldOf ws 352 160 = 0 ∧ fieldOf ws 0 56 % 4096 = 0 ∧
      NamesQueue s c .w true (BitVec.ofNat 64 (fieldOf ws 0 56)) 5 ∧ fieldOf ws 64 6 = 0 ∧ fieldOf ws 144 1 = 1 ∧ c.team.topup = true) ∧
    (∃ s c, At s c 0 ∧ Uniform c .b (uni 5) 5 ∧ c.sup = true ∧ c.budTarget s 0 ≠ .none_) ∧
    (∃ s c, At s c 0 ∧ c.sup = false ∧ c.team.topup = false) := by
  refine ⟨⟨demo [(.a, uni 48)], ctxOf _ (by decide +kernel), at_of (by decide +kernel), by decide +kernel⟩,
    ⟨demo [(.a, uni 0x101), (.b, uni 5)], ctxOf _ (by decide +kernel), ⟨0x10100000100, 0, 0⟩, ⟨0x10100000140, 0, 0⟩,
      at_of (by decide +kernel), namesJoin_of (by decide +kernel), by decide +kernel, by decide +kernel, by decide +kernel, by decide +kernel, by decide +kernel⟩,
    ⟨withTask, ctxOf _ (by decide +kernel), _, at_of (by decide +kernel), by decide +kernel, by decide +kernel,
      readsObject_of (pa := 0x10100000100) (by decide +kernel) (by decide +kernel), by decide +kernel, by decide +kernel,
      by decide +kernel, by decide +kernel, by decide +kernel, namesQueue_of (o := 0) (by decide +kernel) (by decide +kernel) (by decide +kernel),
      by decide +kernel, by decide +kernel, by decide +kernel⟩,
    ⟨demo [(.a, uni 0), (.b, uni 5)], ctxOf _ (by decide +kernel), at_of (by decide +kernel), ⟨by decide +kernel, by decide +kernel⟩,
      by decide +kernel, by decide +kernel⟩,
    ⟨user [(.a, uni 0)], ctxOf _ (by decide +kernel), at_of (by decide +kernel), by decide +kernel, by decide +kernel⟩⟩

theorem witness_EngineEffectsAtTheCommit_budgets : ∃ T, (demo []).team? 0 = some T ∧ T.place = .resident ∧
    grantsOf (taskToken taskWords 15 99 (2 ^ 48 - 1) 0) = some (2 ^ 48 - 1, 0) ∧
    (((demo []).modQueue 5 fun Q => { Q with entries := [entry 1 none, ⟨taskToken taskWords 15 99 (2 ^ 48 - 1) 0, some (0, 0, 4), 0⟩] }).queue
      5).entries = [entry 1 none] ++ ⟨taskToken taskWords 15 99 (2 ^ 48 - 1) 0, some (0, 0, 4), 0⟩ :: [] := exists_of_any (by decide +kernel)

/-! ### What meets the hypotheses: residencies, system instructions, operators of a fabric -/

/-- Stack 3 in service, with a page of its memory at 2^21, and residencies in its slots. -/
def withStack (ports : List (Port × Val)) (rs : PMap Residency) : State :=
  (page (demo ports) (2 ^ 21) 0 (2 ^ 21)).modStack 3 fun S => { S with trained := true, inService := true, residencies := rs }
def residency (id : W32) (images : List W64) : Residency :=
  { id := id, stack := 3, asid := 0, sup := true, topup := false, prio := 0, fbud := 77, tbud := 0, images := images, holds := [false, true],
    held := false, done := 0, save := 0, yq := 0 }
def launchWords : RecWords := [BitVec.ofNat 64 (0x200 + 2 ^ 56), 5, 5, 0x300, BitVec.ofNat 64 (2 ^ 21 + 4096), 0, 0, 0]
def withLaunch : State :=
  pokeWords (pokeWords (withStack [(.a, uni 0x100), (.b, uni 0x1F3)] []) 0x100 launchWords) 0x200 [0x400, BitVec.ofNat 64 (0x800 + 2 ^ 56)]
/-- Two residencies, the first with an image whose binding 0 is an input and binding 1 an output, the second with one whose binding 0 is an output. -/
def withResidencies (x y : W64) (R : Residency) : State :=
  pokeWords (pokeWords (pokeWords (withStack [(.a, uni x), (.b, uni y)] [(0, R), (1, residency 0x00010013 [0xC00])]) 0x400
    [0, 3, 2, 0, 0, 0, 0, 0]) 0xC00 [0, 3, 1, 0, 0, 0, 0, 0]) 0x140 (plainRecord 0x400 11 8)

theorem readHead_of {c : Ctx} {s : State} {a : W64} {p : RecWords → Prop} [DecidablePred p]
    (h : ((c.readHead s a).toOption.any fun h => decide (p h)) = true) : ∃ h, c.readHead s a = .ok h ∧ p h := by
  cases e : c.readHead s a with
  | error x => rw [e] at h; cases h
  | ok w => rw [e] at h; exact ⟨w, rfl, of_decide_eq_true (by simpa [Except.toOption] using h)⟩

theorem readsObject_eq {s : State} {c : Ctx} {va : W64} {n : Nat} {ws : RecWords} (pa : Nat) (h : reachB s c .spad .r 1 va pa = true)
    (h1 : s.spoiled pa (8 * n) = false) (h2 : s.readWords 0 pa n = ws) : ReadsObject s c va n ws := ⟨pa, reaches_of h, h1, h2.symm⟩

theorem witness_ResidencyInstructionsFire_launch :
    ∃ s c d images, At s c 0x100 ∧ Uniform c .b (uni 0x1F3) 0x1F3 ∧ (0x1F3 : W64).toNat < 2 ^ 9 ∧ ReadsObject s c 0x100 8 d ∧
      LaunchDescriptor d ∧ ReadsObject s c (BitVec.ofNat 64 (fieldOf d 0 56)) (fieldOf d 56 3 + 1) images ∧
      (∀ e, e ∈ images → e.toNat < 2 ^ 57 ∧ e.toNat % 2 ^ 56 % 64 = 0) ∧ (images.headD 0).getLsbD 56 = false ∧
      (∃ p, s.translate c.team.asid c.sup .rw Window.isScratchpad (BitVec.ofNat 64 (fieldOf d 192 56)) = .ok p) ∧
      (∃ p, s.translate c.team.asid c.sup .rw (fun w => w == .hbm) (BitVec.ofNat 64 (fieldOf d 256 56)) = .ok p) ∧
      (s.stack ((0x1F3 : W64).toNat % 16)).inService = true ∧ (s.newResidencyId ((0x1F3 : W64).toNat % 16)).isSome = true :=
  ⟨withLaunch, ctxOf _ (by decide +kernel), launchWords, [0x400, BitVec.ofNat 64 (0x800 + 2 ^ 56)], at_of (by decide +kernel), ⟨by decide +kernel, by decide +kernel⟩, by decide +kernel,
    readsObject_eq 0x10100000100 (by decide +kernel) (by decide +kernel) (by decide +kernel), by unfold LaunchDescriptor; decide +kernel,
    readsObject_eq 0x10100000200 (by decide +kernel) (by decide +kernel) (by decide +kernel), List.forall_mem_cons.2
      ⟨by decide, List.forall_mem_cons.2 ⟨by decide, fun _ h => absurd h List.not_mem_nil⟩⟩, by decide +kernel,
    translates_of (pa := 0x10100000300) (by decide +kernel), translates_of (pa := 4096) (by decide +kernel), by decide +kernel,
    by decide +kernel⟩

theorem witness_ResidencyInstructionsFire_bind :
    (∃ s c ws, At s c 0x00010003 ∧ (s.residencyFor c.team.asid (lo 0x00010003)).any (fun r => r.1 = 3 && r.2.1 = 0 && r.2.2.state != .ended &&
        decide (0 < r.2.2.images.length)) = true ∧
      (∃ h, c.readHead s 0x400 = .ok h ∧ fieldOf h 64 1 = 1) ∧ (0x140 : W64).toNat % 4 = 0 ∧ (0x140 : W64).toNat / 4 % 16 = 0 ∧
      Uniform c .b (uni 0x140) 0x140 ∧ ReadsRecord s c (BitVec.ofNat 64 ((0x140 : W64).toNat / 64 * 64)) ws ∧ (recOf ws).space = 0) ∧
    (∃ s c, At s c 0x100010003 ∧ (∃ h, c.readHead s 0x400 = .ok h ∧ fieldOf h 65 1 = 1 ∧ fieldOf h 129 1 = 1) ∧
      (∃ core chan tag, bindingOf 0x15 [] = some (.channel core chan tag))) ∧
    (∃ s c, At s c 0x00010003 ∧ (∃ h, c.readHead s 0x400 = .ok h ∧ fieldOf h 64 1 = 1 ∧ fieldOf h 128 1 = 0) ∧
      bindingOf (BitVec.ofNat 64 (2 + 4 * 0x00010013)) [] = some (.peer 0x00010013 0 0) ∧
      (s.residencyFor c.team.asid 0x00010013).isSome = true ∧ ∃ g, c.readHead s 0xC00 = .ok g ∧ fieldOf g 64 1 = 1 ∧ fieldOf g 128 1 = 1) :=
  ⟨⟨withResidencies 0x00010003 0x140 (residency 0x00010003 [0x400]), ctxOf _ (by decide +kernel), _, at_of (by decide +kernel),
      by decide +kernel, readHead_of (by decide +kernel), by decide +kernel, by decide +kernel, ⟨by decide +kernel, by decide +kernel⟩,
      readsRecord_of (pa := 0x10100000140) (by decide +kernel) (by decide +kernel) (by decide +kernel), by decide +kernel⟩,
    ⟨withResidencies 0x100010003 0x15 (residency 0x00010003 [0x400]), ctxOf _ (by decide +kernel), at_of (by decide +kernel),
      readHead_of (by decide +kernel), _, _, _, rfl⟩,
    ⟨withResidencies 0x00010003 2 (residency 0x00010003 [0x400]), ctxOf _ (by decide +kernel), at_of (by decide +kernel),
      readHead_of (by decide +kernel), by decide +kernel, by decide +kernel, readHead_of (by decide +kernel)⟩⟩

theorem witness_ResidencyInstructionsFire_signals :
    (∃ s c, At s c 0x400010003 ∧ (Instr.cfgSignalPriority, 4) ∈ signals ∧ (s.residencyFor c.team.asid (lo 0x400010003)).isSome = true ∧
      (0x400010003 : W64).toNat / 2 ^ 32 % 8 = 4) ∧
    (∃ s c, At s c 0x100010003 ∧ (Instr.cfgEvictKill, 1) ∈ evictions ∧ s.residencyOf (lo 0x100010003) = some (3, 0) ∧
      (s.residency? 3 0).isSome = true ∧ (0x100010003 : W64).toNat / 2 ^ 32 = 1) :=
  ⟨⟨withResidencies 0x400010003 0 (residency 0x00010003 [0x400]), ctxOf _ (by decide +kernel), at_of (by decide +kernel), by decide +kernel⟩,
    withResidencies 0x100010003 0 (residency 0x00010003 [0x400]), ctxOf _ (by decide +kernel), at_of (by decide +kernel), by decide +kernel⟩

def withKeys (x y : W64) : State := { demo [(.a, uni x), (.b, uni y)] with keys := [(0, .bound 0 1), (5, .bound 3 2)] }

theorem witness_SystemInstructionsFire :
    (∃ s c, At s c 5 ∧ (5 : W64).setWidth 16 ≠ c.team.asid ∧ (s.asidEntryInTable ((5 : W64).setWidth 16)).state = .live) ∧
    (∃ s c, At s c 0x1001 ∧ (Instr.tlbinvVa, 1) ∈ invalidations ∧ (0x1001 : W64).toNat % 4 = 1) ∧
    (∃ s c, At s c 5 ∧ s.keyBound (5 : W64).toNat = true) ∧
    (∃ s c, At s c 4095 ∧ s.keyBound (4095 : W64).toNat = false ∧ Uniform c .b (uni 7) 7) ∧
    (∃ s c, At s c 0x0FF ∧ (0x0FF : W64).toNat / 2 ^ 8 = 0 ∧ Uniform c .b (uni 5) 5 ∧ (5 : W64).toNat % 16 ≤ 5) ∧
    (∃ s c, At s c 0x1FF ∧ (0x1FF : W64).toNat / 2 ^ 8 = 1 ∧ Uniform c .b (uni 0) 0) ∧
    (∃ s c, At s c 0x2FF ∧ (0x2FF : W64).toNat / 2 ^ 8 = 2 ∧ Uniform c .b (uni 0x100) 0x100 ∧
      ∀ i, i < 5 → Reaches s c .spad .w 1 (0x100 + BitVec.ofNat 64 (64 * i)) (0x10100000100 + 64 * i)) := by
  refine ⟨⟨(List.range 8).foldl (fun s k => s.writeNat 1 (320 + 8 * k) 8 (if k = 0 then 3 else 0)) { demo [(.a, uni 5)] with asidBase := some 0 }, ctxOf _ (by decide +kernel), at_of (by decide +kernel),
      by decide +kernel⟩,
    ⟨demo [(.a, uni 0x1001)], ctxOf _ (by decide +kernel), at_of (by decide +kernel), by decide +kernel⟩,
    ⟨withKeys 5 0, ctxOf _ (by decide +kernel), at_of (by decide +kernel), by decide +kernel⟩,
    ⟨withKeys 4095 7, ctxOf _ (by decide +kernel), at_of (by decide +kernel), by decide +kernel, ⟨by decide +kernel, by decide +kernel⟩⟩,
    ⟨withKeys 0x0FF 5, ctxOf _ (by decide +kernel), at_of (by decide +kernel), by decide +kernel, ⟨by decide +kernel, by decide +kernel⟩,
      by decide⟩,
    ⟨withKeys 0x1FF 0, ctxOf _ (by decide +kernel), at_of (by decide +kernel), by decide +kernel, ⟨by decide +kernel, by decide +kernel⟩⟩,
    withKeys 0x2FF 0x100, ctxOf _ (by decide +kernel), at_of (by decide +kernel), by decide +kernel, ⟨by decide +kernel, by decide +kernel⟩, ?_⟩
  intro i hi
  exact reaches_of (List.all_eq_true.1 (show (List.range 5).all (fun i => reachB (withKeys 0x2FF 0x100) (ctxOf (withKeys 0x2FF 0x100)
    (by decide +kernel)) .spad .w 1 (0x100 + BitVec.ofNat 64 (64 * i)) (0x10100000100 + 64 * i)) = true by decide +kernel) i (List.mem_range.2 hi))

/-- Two bank units whose rows belong to different slots. -/
def withBank : State := (demo []).modStack 3 fun S => { S with banks := [(1, { owner := 5, keyed := true }), (2, { owner := 6 })] }

theorem witness_SystemEffectsAtTheCommit :
    (withResidencies 0 0 (residency 0x00010003 [0x400])).residencyOf (lo 0x300010003) = some (3, 0) ∧
      ((withResidencies 0 0 (residency 0x00010003 [0x400])).residency? 3 0).isSome = true ∧ (4 : Nat) ≠ 5 ∧
      ((withBank.stack 3).banks.map fun p => (p.1, p.2.owner)) = [(1, 5), (2, 6)] ∧ (0x1000 : W64).toNat % 4 = 0 ∧ (0x1001 : W64).toNat % 4 = 1 ∧ (0x1002 : W64).toNat % 4 = 2 ∧ (0x1003 : W64).toNat % 4 = 3 := by
  decide +kernel

/-- A token of 16 elements from a number on. -/
def rising16 (n d : Nat) (valid : W16) : Token :=
  { dataToken ((List.range 16).map fun l => BitVec.ofNat 32 (n + d * l)) valid 0 with tag := BitVec.ofNat 16 n }
def opWord (ports : Nat) : OpWord :=
  { a := .i0, b := if 1 < ports then .i1 else .none, c := if 2 < ports then .i2 else .none, p := .none, sense := false, o0 := true, o1 := true,
    tagsel := false, tbase := 0, tsize := 2 }
/-- An element with an operator and the tokens at its inputs. -/
def element (op : Instr) (toks : List Token) (ports : Nat := toks.length) : ElemCtx :=
  { op := some (op, opWord ports), outs := [(0, 192), (1, 193)], bufs := toks.zipIdx.map fun (t, i) => (i, [⟨t, [], 7, []⟩]) }
/-- A running residency of one element, which acts next. -/
def fabric (x : ElemCtx) (held : List Carried := []) : State :=
  let F : Fabric := { image := 0, slots := [0], loaded := true, started := true, counters := [(2, 40)], elems := [(0, x)]
                      nodes := [(0, { role := .storer none, binding := .queue 0, buf := held }), (1, { role := .storer none, binding := .queue 0 })] }
  { withStack [] [(0, { residency 3 [0] with state := .running, fab := some F })] with curElem := some (3, 0, 0) }
/-- The element acts, and a condition holds of it. -/
def Fab (s : State) (p : Elem → Prop) : Prop := ∃ E, Acts s E ∧ p E
theorem fab_of {s : State} {p : Elem → Prop} [DecidablePred p]
    (h : ((s.elem? 3 0 0).any fun E => ({ s with curElem := none }).chosen E && decide (p E)) = true)
    (h1 : s.curElem = some (3, 0, 0)) : Fab s p := by
  cases e : s.elem? 3 0 0 with
  | none => rw [e] at h; cases h
  | some E =>
    rw [e] at h
    simp only [Option.any_some, Bool.and_eq_true, decide_eq_true_eq] at h
    exact ⟨E, ⟨3, 0, 0, h1, e, h.1⟩, h.2⟩

def tokA : Token := rising16 100 3 0xF0FF
def tokB : Token := rising16 200 5 0x3FFC
def tokC : Token := rising16 7 1 0x0FFF

theorem witness_RoutingOperatorsFire :
    Fab (fabric (element (.steer true) [tokA, tokB])) (fun E => E.op = .steer true ∧ srcToken E.x E.w.a = some tokA ∧
      srcToken E.x E.w.b = some tokB ∧ E.allData = true) ∧
    Fab (fabric (element (.merge false) [tokA, tokB, tokC])) (fun E => E.op = .merge false ∧ srcToken E.x E.w.a = some tokA ∧
      srcToken E.x E.w.b = some tokB ∧ srcToken E.x E.w.c = some tokC ∧ E.allData = true) ∧
    Fab (fabric (element (.merge true) [tokA, { tokB with kind := .endOfTile }, tokC])) (fun E => E.op = .merge true ∧
      srcToken E.x E.w.c = some tokC ∧ (tokC.data.getD 0 0).getLsbD 0 = true ∧ srcToken E.x E.w.b = some { tokB with kind := .endOfTile }) ∧
    Fab (fabric (element .carry [tokA, tokB])) (fun E => E.op = .carry ∧ srcToken E.x E.w.b = some tokB) ∧
    Fab (fabric (element .inv [tokA, tokB])) fun E => E.op = .inv ∧ srcToken E.x E.w.a = some tokA ∧ srcToken E.x E.w.b = some tokB :=
  ⟨fab_of (by decide +kernel) rfl, fab_of (by decide +kernel) rfl, fab_of (by decide +kernel) rfl, fab_of (by decide +kernel) rfl,
    fab_of (by decide +kernel) rfl⟩

theorem witness_SequencingOperatorsFire :
    Fab (fabric { element .join [tokA] with pack := (List.range 16).map fun i => (BitVec.ofNat 32 i, 0) }) (fun E => E.op = .join ∧
      16 ≤ E.x.pack.length) ∧
    Fab (fabric { element .isect [tokA, tokB] with pack := (List.range 32).map fun i => (BitVec.ofNat 32 i, 0) }) (fun E => E.op = .isect ∧
      16 ≤ E.x.pack.length) ∧
    Fab (fabric (element .join [tokA])) (fun E => E.op = .join ∧ MayConsume E 16 ∧ E.allData = true ∧ srcToken E.x E.w.a = some tokA) ∧
    Fab (fabric { element .join [tokA] with pack := (List.range 16).map fun i => (BitVec.ofNat 32 i, 0) } (List.replicate 4 ⟨tokB, [], 1, []⟩))
      (fun E => E.op = .join ∧ 16 ≤ E.x.pack.length ∧ MayConsume E 16 ∧ E.allData = true ∧ srcToken E.x E.w.a = some tokA) ∧
    Fab (fabric { element (.win ⟨1, 0, 0, 2⟩) [tokA] with n0 := 1 }) (fun E => E.op = .win ⟨1, 0, 0, 2⟩ ∧ srcToken E.x E.w.a = some tokA ∧
      E.x.n0 / 3 < 1) ∧
    Fab (fabric { element (.win ⟨1, 0, 0, 2⟩) [tokA] with n0 := 4 }) (fun E => 1 ≤ E.x.n0 / 3 ∧ E.x.n1 < 1) ∧
    Fab (fabric { element (.win ⟨1, 0, 0, 2⟩) [tokA] with n0 := 4, n1 := 1 }) (fun E => 1 ≤ E.x.n0 / 3 ∧ E.x.n1 = 1) ∧
    Fab (fabric { element .isect [tokA, tokB] with n0 := 3, lastB := some 4 }) (fun E => E.op = .isect ∧ MayConsume E 32 ∧ E.x.flag = false ∧
      srcToken E.x E.w.b = some tokB ∧ rising E.x.lastB ((lanesOf tokB.valid).map fun e => tokB.data.getD e 0) = true ∧
      E.x.n0 + 12 ≤ 256 * E.w.tsize.toNat - 96) ∧
    Fab (fabric { element .isect [tokA, tokB] with n0 := 3, flag := true, lastA := some 4 }) (fun E => E.op = .isect ∧ MayConsume E 32 ∧ E.x.flag = true ∧
      srcToken E.x E.w.a = some tokA ∧ rising E.x.lastA ((lanesOf tokA.valid).map fun e => tokA.data.getD e 0) = true) ∧
    Fab (fabric { element (.iter 2) [tokA] with n0 := 2 }) fun E => E.op = .iter 2 ∧
      PMap.getD E.fab.counters (64 * (E.key / 256) + 8 * (E.key % 256 / 32) + 2) 0 = 40 ∧ E.x.n0 ≤ 40 / 16 ∧ E.w.a ≠ .none ∧
      srcToken E.x E.w.a = some tokA :=
  ⟨fab_of (by decide +kernel) rfl, fab_of (by decide +kernel) rfl, fab_of (by decide +kernel) rfl, fab_of (by decide +kernel) rfl,
    fab_of (by decide +kernel) rfl, fab_of (by decide +kernel) rfl, fab_of (by decide +kernel) rfl, fab_of (by decide +kernel) rfl,
    fab_of (by decide +kernel) rfl, fab_of (by decide +kernel) rfl⟩

/-- The same with a barrier word at 0x100, whose address the element's constants hold. -/
def withBarrier (op : Instr) (phase : W8) : State :=
  (fabric { element op [tokA] with op := some (op, { opWord 1 with b := .k0, c := .k1 }), consts := [(0, 0x100), (1, 0)], phase := phase }).writeNat 0
    0x10100000100 8 (2 ^ 63 + 7 * 2 ^ 48 + 3 * 2 ^ 24 + 2)

theorem witness_ReducingAndOrderingOperatorsFire :
    Fab (fabric (element (.tredSum true) [tokA, tokB])) (fun E => E.op = .tredSum true ∧ E.allData = true) ∧
    Fab (fabric (element (.tredMax false) [tokA, tokB])) (fun E => E.op = .tredMax false ∧ E.allData = true) ∧
    Fab (fabric (element (.tredSexp false) [tokA, tokB])) (fun E => E.op = .tredSexp false ∧ E.allData = true) ∧
    Fab (fabric (element (.twillFence .stack) [tokA])) (fun E => E.op = .twillFence .stack ∧ srcToken E.x E.w.a = some tokA ∧ E.fenceOpen = true) ∧
    Fab (withBarrier .mbarvArrive 0) (fun E => E.op = .mbarvArrive ∧ srcToken E.x E.w.a = some tokA ∧ (∀ n, n ∈ E.fab.nodes → n.2.tileDue = false) ∧
      ((withBarrier .mbarvArrive 0).translate E.res.asid E.res.sup .rw Window.isJoin E.mbarWord).toOption = some ⟨0x10100000100, 0, 0⟩) ∧
    Fab (withBarrier (.mbarvWait 6) 6) fun E => E.op = .mbarvWait 6 ∧
      ((withBarrier (.mbarvWait 6) 6).translate E.res.asid E.res.sup .r Window.isJoin E.mbarWord).toOption = some ⟨0x10100000100, 0, 0⟩ ∧
      (withBarrier (.mbarvWait 6) 6).spoiled 0x10100000100 8 = false ∧ 2 ^ 63 ≤ (withBarrier (.mbarvWait 6) 6).readNat 0 0x10100000100 8 ∧
      BitVec.ofNat 8 ((withBarrier (.mbarvWait 6) 6).readNat 0 0x10100000100 8 / 2 ^ 48) ≠ E.x.phase :=
  ⟨fab_of (by decide +kernel) rfl, fab_of (by decide +kernel) rfl, fab_of (by decide +kernel) rfl, fab_of (by decide +kernel) rfl,
    fab_of (by decide +kernel) rfl, fab_of (by decide +kernel) rfl⟩

/-! ### What meets the hypotheses: bring-up, the mailbox, the host

Whether an image is accepted, a stack's training passes, and what the sensors read is a free value of Config: nothing shows which case holds. -/

/-- The part in a phase, with every die and stack up or none. -/
def inPhase (p : Phase) (up : Bool) : State :=
  let s : State := { State.reset with hub := { State.reset.hub with phase := p, sampleAt := 0 } }
  if up then
    (List.range 16).foldl (fun s n => s.modStack n fun S => { S with trained := true })
      ((List.range 4).foldl (fun s d => s.modDie d fun D => { D with calibrated := true }) s)
  else s

theorem witness_BringUpAndClockEvents :
    State.reset.hub.phase = .reset ∧ (inPhase .mailboxOnly false).hub.phase = .mailboxOnly ∧ (inPhase .stopped false).hub.phase = .stopped ∧
    (inPhase .bringUp false).hub.phase = .bringUp ∧ ((inPhase .bringUp false).stack 0).trained = false ∧
    ((inPhase .bringUp false).stack 0).failed = false ∧ ((inPhase .bringUp false).die 3).calibrated = false ∧
    (∀ n, n < 16 → ((inPhase (.early false) true).stack n).trained = true) ∧
    (∀ d, d < 4 → ((inPhase (.early false) true).die d).calibrated = true) ∧ (inPhase (.early false) true).hub.ready = false ∧
    (withHub (inPhase (.early false) true) fun h => { h with ready := true }).hub.ready = true ∧ (inPhase (.early true) true).teams = [] ∧
    Managed (inPhase .full true) ∧ (inPhase .full true).hub.sampleAt ≤ (inPhase .full true).hub.clk ∧ Runs (inPhase .full true) 3 ∧
    (((inPhase .full true).modDie 3 fun D => { D with clk := 1024 }).die 3).samples <
      (((inPhase .full true).modDie 3 fun D => { D with clk := 1024 }).die 3).clk / 1024 := by
  refine ⟨rfl, rfl, rfl, rfl, by decide +kernel, by decide +kernel, by decide +kernel, by decide +kernel, by decide +kernel, rfl, rfl, rfl,
    Or.inl (Or.inl rfl), by decide +kernel, Or.inl rfl, by decide +kernel⟩

theorem witness_MailboxEvents :
    Managed (inPhase .bringUp false) ∧ Serving (inPhase .full true) ∧ PlatformSetting.names (.asidTable (2 ^ 40 - 2 ^ 22)) = true ∧
    (2 ^ 40 - 2 ^ 22) % 64 = 0 ∧ PlatformSetting.names (.asidTable 1) = false ∧
    (((inPhase .full true).core 767).entryVerdict ((inPhase .full true).eyeletOn 767) 63 (handlerOf 1 0)) = .pass ∧
    (((inPhase .full true).core 0).entryVerdict ((inPhase .full true).eyeletOn 0) 63 (handlerOf 0x8001 0)) = .refused .slots :=
  ⟨Or.inr rfl, Or.inl rfl, by decide +kernel, by decide, by decide +kernel, by decide +kernel, by decide +kernel⟩

/-- A part in full service with queue 5, of which function 3 reaches windows 4 to 7 as its 0 to 3. -/
def served (Q : Queue) : State :=
  (withHub (inPhase .full true) fun h => { h with windows := [(3, (4, 4))], functions := [(3, 9)] }).modQueue 5 fun _ => Q

theorem witness_HostQueuesAndOutsideRequests_queues :
    Serving (served two) ∧ ReachesQueue (served two) none 5 5 ∧ ReachesQueue (served two) (some 3) 1 5 ∧
    (∀ q, ¬ ReachesQueue (served two) (some 3) 4 q) ∧
    ((served { two with enable := true }).queue 5).enable = true ∧ ((served { two with enable := true }).queue 5).entries.length < 16 * 2 ^ 0 ∧
    ((served two).queue 5).enable = false ∧ (freeEntries ((served two).queue 5)).head? = some 1 ∧
    (freeEntries ((served two).queue 5)).getLast? = some 1 ∧ ((served two).queue 5).entries[1]? = some (entry 2 none) ∧
    freeEntries ((served {}).queue 5) = [] := by
  refine ⟨Or.inl rfl, Or.inl ⟨rfl, by decide, rfl⟩, Or.inr ⟨3, 4, 4, rfl, by decide +kernel, by decide, rfl⟩, ?_, by decide +kernel,
    by decide +kernel, by decide +kernel, by decide +kernel, by decide +kernel, by decide +kernel, by decide +kernel⟩
  rintro q (⟨h, -, -⟩ | ⟨v, base, count, hv, hw, hn, -⟩)
  · cases h
  · cases hv
    have : some (4, 4) = some (base, count) := hw
    cases this
    exact absurd hn (by decide)

/-- The part in full service with a page of ASID 9 in stack 0 and another at queue 5, a sender bound on port 2, and the bytes 0 to 7 of HBM written. -/
def outside (flits : Nat) : State :=
  let e : TlbEntry := { asid := 9, va := 2 ^ 21, size := 2 ^ 21, pa := 0, r := true, w := true, x := true, s := false, key := 0 }
  ({ (served { enable := true }) with
      tlb := [e, { e with va := 0x100000, size := 65536, pa := 0x10200000000 }]
      asidCache := [(9, { valid := true, state := .live, tenant := 0, root := 0, tvec := 0, yq := 0, fq := 0, killmb := 0 })] }.modSeam 2
    fun P => { P with up := true, flits := flits, bindings := [(0, 7, 9)] }).writeNat 1 0 8 0x1122334455667788

theorem witness_HostQueuesAndOutsideRequests_outside :
    PMap.get? (outside 0).hub.functions 4 = none ∧ PMap.get? (outside 0).hub.functions 3 = some 9 ∧
    ((outside 0).outside 9 .r Window.isHbm 0x200000 8).toOption.map List.length = some 8 ∧
    ((outside 0).outside 9 .w Window.isHbm 0x200000 8).toOption.map List.length = some 8 ∧
    ((outside 0).outside 9 .w Window.isMain 0x200000 8).toOption.map List.length = some 8 ∧
    ((outside 0).seam 23).up = false ∧ ((outside (2 ^ 32)).seam 2).up = true ∧ 2 ^ 32 ≤ ((outside (2 ^ 32)).seam 2).flits ∧
    ((outside (2 ^ 32 - 1)).seam 2).flits < 2 ^ 32 ∧ ((outside 0).seam 2).held = [] ∧ ((outside 0).seam 2).here 7 = some 9 ∧
    ((outside 0).seam 2).here 8 = none ∧
    ((outside 0).translate 9 false .w Window.isQueue 0x105000).toOption.map (fun p => windowOf p.pa) = some (.queue 5 0) := by
  decide +kernel

/-! ### What meets the hypotheses: tokens, teams and blocks -/

def withNet : State :=
  let x : NetToken := { core := 0, chan := 4, sender := .queue 1, tok := token 1 }
  { demo [] with net := [{ x with sender := .queue 2 }, x, x] }
def boundQueue (waiting : List EngineToken) : State :=
  (demo []).modQueue 5 fun _ => { two with enable := true, bound := true, core := 3, channel := 9, waiting := waiting }

def token16 : Token := { token 3 with data := List.replicate 16 7 }

theorem witness_TokensMoveOn :
    (∃ x, withNet.net[1]? = some x ∧ (withNet.net[0]?).all (fun y => y.sender != x.sender) = true) ∧
    ((boundQueue []).queue 5).enable = true ∧ ((boundQueue []).queue 5).bound = true ∧ Runs (boundQueue []) (dieOf 3) ∧
    (boundQueue []).channelRoom 3 9 ≠ 0 ∧ (freeEntries ((boundQueue []).queue 5)).head? = some 1 ∧
    ((boundQueue []).queue 5).entries[1]? = some (entry 2 none) ∧ ((boundQueue [⟨token16, true⟩]).queue 5).waiting = ⟨token16, true⟩ :: [] ∧ token16.data.length = 16 ∧
    ((boundQueue [⟨token16, true⟩]).queue 5).entries.length < 16 * 2 ^ ((boundQueue [⟨token16, true⟩]).queue 5).depthLog :=
  ⟨⟨_, rfl, by decide +kernel⟩, by decide +kernel, by decide +kernel, Or.inl rfl, by decide +kernel, by decide +kernel, by decide +kernel,
    by decide +kernel, by decide +kernel⟩

/-- The team of the demonstration, changed, with others beside it. -/
def teamsAre (f : Team → PMap Team) : State :=
  match (demo []).team? 0 with
  | some T => { demo [] with teams := f T, cur := none }
  | none => demo []
def outTeam (T : Team) (k prio : Nat) (ready : Bool) : Nat × Team := (k, { T with id := k, lead := k, prio := prio, place := .out ready })
def twoOut : State := teamsAre fun T => [outTeam T 0 9 true, outTeam T 1 3 true]

theorem witness_TeamsAreScheduled_selection :
    (twoOut.settleCore 0).decides 0 = true ∧ ((twoOut.settleCore 0).core 0).busyTo ≤ (twoOut.settleCore 0).clk (dieOf 0) ∧
    (twoOut.settleCore 0).blockedOf 0 = none ∧ ((twoOut.core 0).decisions + 1) % 64 ≠ 0 ∧
    (((twoOut.settleCore 0).candidates 0).map fun x => (x.who, x.prio)) = [(.team 0, 9), (.team 1, 3)] ∧
    (∃ x, ((twoOut.settleCore 0).candidates 0)[0]? = some x ∧
      ((((twoOut.settleCore 0).decided 0).modCore 0 fun C => { C with blocked := none }).noteChoice 0 x).attempt 0 x.who
        ≠ none) := by
  refine ⟨by decide +kernel, by decide +kernel, by decide +kernel, by decide +kernel, by decide +kernel, exists_of_any (by decide +kernel)⟩

/-- A large team in place of lower priority, one that fills the core's memory besides, and a small one elsewhere. -/
def crowded : State :=
  (teamsAre fun T =>
    let big : Team := { T with sharedSize := 262144, groups := [{ launched := 0xFFFF, mask := 0xFFFF }] }
    [(0, { big with prio := 1 }), (1, { big with id := 1, lead := 1, prio := 9, place := .out true }),
      (2, { big with id := 2, lead := 2, sharedSize := 256, core := 1 })]).modCore 0 fun C => { C with blocked := some (.team 1, 0) }
/-- A team whose one group waits for its queue, and another. -/
def waiting : State :=
  match ((demo []).group? 0 0).bind (·.blk) with
  | some F => teamsAre fun T =>
    [(0, { T with waitswap := 5, waitCount := 5
                  groups := [{ launched := 0xFFFF, mask := 0xFFFF, blk := some { F with wait := some (.pop 1) } }] }),
      (1, { T with id := 1, lead := 1 })]
  | none => demo []

theorem witness_TeamsAreScheduled_leaving :
    crowded.decides 0 = true ∧
    (∃ b, crowded.blockedOf 0 = some b ∧ (crowded.options 0 b.who).toOption.any (fun ps => match ps with
      | place :: _ => place.any (fun x => !crowded.fitsOn crowded.leaving x) &&
          place.all (fun x => crowded.fitsOn (crowded.takeUntil place crowded.leaving
            (crowded.victims (place.map (·.1)) b.prio ((crowded.core 0).overdue.contains b.who))) x)
      | [] => false) = true) ∧
    (∃ T, waiting.team? 0 = some T ∧ T.place = .resident ∧ T.gone = false ∧ T.taken = none ∧
      (∀ G, G ∈ T.groups → T.groupCounts G = true ∧ G.phase ≠ .ended) ∧ 0 < T.waitswap ∧ T.waitswap ≤ T.waitCount) ∧
    (∃ T, (teamsAre fun T => [outTeam T 0 9 false]).team? 0 = some T ∧ T.place = .out false ∧ T.gone = false ∧
      (T.groups[0]?).any (fun G => G.phase != .ended && (teamsAre fun T => [outTeam T 0 9 false]).satisfied T 0 G) = true) ∧
    (∃ b, crowded.blockedOf 0 = some b ∧ (crowded.core 0).blocked = some (b.who, 0) ∧ b.who ∉ (crowded.core 0).overdue) ∧
    (crowded.modDie 0 fun D => { D with clk := 1048576 }).blockedOf 0 = crowded.blockedOf 0 ∧
    0 + 1048576 ≤ (crowded.modDie 0 fun D => { D with clk := 1048576 }).clk (dieOf 0) :=
  ⟨by decide +kernel, exists_of_any (by decide +kernel), exists_of_any (by decide +kernel), exists_of_any (by decide +kernel),
    exists_of_any (by decide +kernel), by decide +kernel, by decide +kernel⟩

def allEnded (f : Team → Team) : State := teamsAre fun T =>
  let U := f { T with groups := [{ launched := 0xFFFF, exited := 0xFFFF, phase := .ended }] }
  [(0, U), (1, { U with id := 1, gone := U.retire.isSome })]

theorem witness_TeamsAreScheduled_retiring : ∀ f, f ∈ [id, fun T : Team => { T with tape := { mode := .recording } }] →
    ∃ T, (allEnded f).team? 0 = some T ∧ T.gone = false ∧ T.place = .resident ∧ (∀ G, G ∈ T.groups → G.phase = .ended) ∧ T.copies = [] ∧
      T.matrix = none ∧ T.tape.stalled = none ∧ (allEnded f).teams.any (fun p => p.1 != 0 && decide (p.2.lead = T.lead)) = true := by
  intro f hf
  simp only [List.mem_cons, List.not_mem_nil, or_false] at hf
  rcases hf with rfl | rfl <;> exact exists_of_any (by decide +kernel)

/-- A block of an `exit` stands in memory at 0x2000, where the group goes next. -/
def atBlock (header : Nat) (budget : Nat) : State :=
  ((((demo []).writeNat 0 0x10100002000 4 header).writeNat 0 0x10100002004 4 0x06800000).modTeam 0 fun T => { T with ibud := budget }).modGroup
    0 0 fun G => { G with blk := none, pc := 0x2000, path := .jump }
def fetches (s : State) (p : Except Trap (Header × List W32) → Bool) : Bool :=
  (s.team? 0).any fun T => (s.group? 0 0).any fun G =>
    s.mayFetch T G && decide (T.cmdFault = none) && decide (G.trapDue = none) && decide (G.sup = none) && p (s.blockAt T G G.pc)

theorem witness_BlocksStartAndCommit_fetch :
    (atBlock 0x00040000 99).cur = some (0, 0) ∧
    fetches (atBlock 0x00040000 4) (fun r => match r with | .ok (h, _) => h.charge == 4 | .error _ => false) = true ∧
    fetches (atBlock 0x00040000 3) (fun r => match r with | .ok (h, _) => decide (3 < h.charge) | .error _ => false) = true ∧
    fetches (atBlock 0x00050000 99) (fun r => match r with | .ok _ => false | .error _ => true) = true := by decide +kernel

/-- The demonstration's block after its last slot, with effects and a mask. -/
def committing (f : Flight → Flight) (h : Group → Group := id) : State :=
  ((demo []).modFlight 0 0 fun F => f { F with slot := 2 }).modGroup 0 0 h
def branching (m : W16) : Flight → Flight := fun F =>
  { F with effects := [.exit 0 0 .br ((lanesOf m).map fun l => (l, 0x2000))], mask := m, hdr := { F.hdr with exits := 1 } }
def commits (s : State) (p : Ctx → Bool) : Bool :=
  s.ctx?.any fun c => decide (c.blk.hdr.count < c.blk.slot) && p c

/-- A team whose copy moves more than TBUD has. -/
def poor : State :=
  (committing fun F => { branching 0xFFFF F with effects := [.copy 0 (.copy (plainRecord 0x400 11 8) (plainRecord 0x800 11 8) false) 6] ++ (branching 0xFFFF F).effects }).modTeam 0 fun T =>
    { T with tbud := 5 }

theorem witness_BlocksStartAndCommit_commit :
    commits (committing (branching 0x00F0) fun G => { G with launched := 0x00F0, mask := 0x00F0 }) (fun c =>
      let s := committing (branching 0x00F0) fun G => { G with launched := 0x00F0, mask := 0x00F0 }
      decide (s.commitFault c.t c.g c.team c.group c.blk = none) && decide (shortfall c.team (commitCost c.team c.g c.group c.blk) = none) &&
        decide (s.commitWait c.t c.g c.team c.group c.blk = none) && !c.blk.hdr.pack && !c.blk.hdr.tape && decide (c.blk.mask ≠ 0) &&
        decide (c.group.launched &&& ~~~c.group.exited = c.blk.mask) && decide (c.group.recon = []) && decide (c.group.calls = []) &&
        decide (c.team.packing = none)) = true ∧
    commits (committing id) (fun c => decide ((committing id).commitFault c.t c.g c.team c.group c.blk ≠ none)) = true ∧
    commits (committing fun F => { branching 0xFFFF F with effects := [.spin 0 4095] ++ (branching 0xFFFF F).effects }) (fun c =>
      let s := committing fun F => { branching 0xFFFF F with effects := [.spin 0 4095] ++ (branching 0xFFFF F).effects }
      decide (s.commitFault c.t c.g c.team c.group c.blk = none) && decide (shortfall c.team (commitCost c.team c.g c.group c.blk) = none) &&
        decide (s.commitWait c.t c.g c.team c.group c.blk ≠ none)) = true ∧
    commits poor (fun c => decide (poor.commitFault c.t c.g c.team c.group c.blk = none) &&
      decide (shortfall c.team (commitCost c.team c.g c.group c.blk) ≠ none)) = true := by
  decide +kernel

theorem witness_ExitsSplitTheGroup :
    let xs : List Going := (List.range 16).map fun l => { lane := l, target := if l < 5 then 0x200 else 0x400, path := .jump }
    xs ≠ [] ∧ (xs.map (·.lane)).Nodup ∧ (∀ x, x ∈ xs → x.lane < 16) ∧ ∃ x, x ∈ xs ∧ x.target ≠ 0x400 := by decide +kernel

/-- A team of two groups at a pack block. -/
def packing (open_ : Bool) (phase : GroupPhase) : State := teamsAre fun T =>
  let G : Group := { launched := 0xFFFF, mask := 0xFFFF, seats := 0xFFFF, phase := phase, targets := (List.range 16).map fun l => (l, 0x100) }
  [(0, { T with groups := [G, G], packing := some { addr := 0x500, open_ := open_, tape := false } })]

theorem witness_ThreadsPackAndReturn :
    (∃ T, (packing false .gathered).team? 0 = some T ∧ T.packing = some { addr := 0x500, open_ := false, tape := false } ∧ T.place = .resident ∧
      (∀ G, G ∈ T.groups → G.phase = .gathered ∨ G.phase = .ended)) ∧
    ∃ T, (packing true .rejoining).team? 0 = some T ∧ T.packing = some { addr := 0x500, open_ := true, tape := false } ∧ T.place = .resident ∧
      (∀ G, G ∈ T.groups → G.phase ≠ .running ∧ G.phase ≠ .gathered) ∧ T.tape.mode ≠ .recording :=
  ⟨exists_of_any (by decide +kernel), exists_of_any (by decide +kernel)⟩

/-! ### What meets the hypotheses: transfers, bank units, the matrix engine at work -/

/-- A condition of a team in a state. -/
def TeamMeets (s : State) (k : Nat) (p : Team → Prop) : Prop := ∃ T, s.team? k = some T ∧ p T
theorem team_of {s : State} {k : Nat} {p : Team → Prop} [DecidablePred p] (h : ((s.team? k).any fun T => decide (p T)) = true) :
    TeamMeets s k p := exists_of_any h

def copyOf (src : RecWords) (started : Bool) (pos : Nat) : CopyCmd :=
  { kind := .copy src (plainRecord 0x800 11 8) false, group := 0, batch := 1, seq := 5, sup := true, asid := 0, started := started, pos := pos }
def withCopies (x : CopyCmd) : State := (demo []).modTeam 0 fun T => { T with copies := [x], members := [(0, 1, 5)] }
/-- The state with a page that grants no access. -/
def barred (s : State) (va : Nat) : State :=
  { s with tlb := { asid := 0, va := va, size := 2 ^ 21, pa := 0, r := false, w := false, x := false, s := false, key := 0 } :: s.tlb }
/-- A copy after one that has issued its accesses. -/
def twoCopies : State := (demo []).modTeam 0 fun T => { T with copies :=
  [copyOf (plainRecord 0x400 11 8) true 0, { copyOf (plainRecord 0x400 11 8) false 0 with seq := 6 }] }
/-- A record with a fused operator. -/
def fusedRecord (op combine : Nat) : RecWords :=
  [BitVec.ofNat 64 (2 ^ 21 + 11 * 2 ^ 56), 0, BitVec.ofNat 64 (8 - 1 + 2 ^ 24), 0, 0, 0, BitVec.ofNat 64 (op + 8 * combine), 0]

theorem witness_CopiesAndStreamsMove_copies :
    TeamMeets (withCopies (copyOf (plainRecord 0x400 11 8) false 0)) 0 (fun T =>
      T.copies.find? (fun y => !y.started) = some (copyOf (plainRecord 0x400 11 8) false 0)) ∧
    TeamMeets twoCopies 0 (fun T => T.copies.find? (fun y => !y.started) = some { copyOf (plainRecord 0x400 11 8) false 0 with seq := 6 } ∧
      ∀ y, y ∈ T.copies → y.seq < 6 → twoCopies.issued 0 y = true) ∧
    ((barred (withCopies (copyOf (plainRecord 0x40000000 11 8) true 0)) 0x40000000).activeCopy 0 5 = some (copyOf (plainRecord 0x40000000 11 8) true 0) ∧
      ((barred (withCopies (copyOf (plainRecord 0x40000000 11 8) true 0)) 0x40000000).copyRest 0 (copyOf (plainRecord 0x40000000 11 8) true 0) 8).toOption.isNone = true) ∧
    ((copyOf (fusedRecord 3 1) true 0).fusedRec?.isSome = true ∧ (copyOf (fusedRecord 3 1) true 0).pos < (copyOf (fusedRecord 3 1) true 0).total ∧
      ((page (withCopies (copyOf (fusedRecord 3 1) true 0)) (2 ^ 21) 0 (2 ^ 21)).copyOne 0 (copyOf (fusedRecord 3 1) true 0)).toOption.isSome = true ∧
      ((barred (withCopies (copyOf (fusedRecord 3 1) true 0)) (2 ^ 21)).copyOne 0 (copyOf (fusedRecord 3 1) true 0)).toOption.isNone = true) ∧
    ((withCopies (copyOf (plainRecord 0x400 11 8) true 0)).activeCopy 0 5 = some (copyOf (plainRecord 0x400 11 8) true 0) ∧
      (copyOf (plainRecord 0x400 11 8) true 0).fusedRec? = none ∧
      ((withCopies (copyOf (plainRecord 0x400 11 8) true 0)).copyRest 0 (copyOf (plainRecord 0x400 11 8) true 0) 8).toOption.isSome = true) ∧
    ((withCopies (copyOf (fusedRecord 3 1) true 8)).activeCopy 0 5 = some (copyOf (fusedRecord 3 1) true 8) ∧
      (copyOf (fusedRecord 3 1) true 8).fusedRec?.any (fun r => r.fused = 3 && r.combine != 0 && decide (r.elements ≤ 8)) = true ∧
      (copyOf (fusedRecord 3 1) true 8).outs = [] ∧ (copyOf (fusedRecord 3 1) true 8).mac.pending = []) ∧
    ((copyOf (fusedRecord 3 0) true 8).fusedRec?.any (fun r => r.combine = 0) = true ∧ (copyOf (fusedRecord 3 0) true 8).total ≤ 8 ∧
      ((withCopies (copyOf (fusedRecord 3 0) true 8)).copyRest 0 (copyOf (fusedRecord 3 0) true 8) 0).toOption.isSome = true) := by
  refine ⟨team_of (by decide +kernel), team_of (by decide +kernel), by decide +kernel, by decide +kernel, by decide +kernel, by decide +kernel,
    by decide +kernel⟩

/-- A running stream in slot 1, with a channel's tokens. -/
def withStreams (x : Stream) (toks : List Token) : State :=
  ((page (demo []) (2 ^ 21) 0 (2 ^ 21)).modTeam 0 fun T => { T with streams := [(1, x)] }).modCore 0 fun C => { C with channels := [(5, toks)] }
def streamRecord (eot : Bool) : RecWords :=
  [BitVec.ofNat 64 (2 ^ 21 + 11 * 2 ^ 56), 0, BitVec.ofNat 64 (8 - 1 + 2 ^ 24), 0, 0, 0,
    BitVec.ofNat 64 (2 * 2 ^ 8 + 5 * 2 ^ 10 + if eot then 2 ^ 34 else 0), 0]
def stream (eot store : Bool) (pos : Nat) : Stream := { running := true, sup := true, store := store, record := streamRecord eot, seq := 9, pos := pos }

theorem witness_CopiesAndStreamsMove_streams :
    TeamMeets (withStreams (stream true false 0) []) 0 (fun T => PMap.getD T.streams 1 {} = stream true false 0 ∧
      coreOfDest ((recOf (streamRecord true)).dest / 256) = some 0 ∧ (withStreams (stream true false 0) []).channelRoom 0 5 ≠ 0 ∧
      (recOf (streamRecord true)).codec = 0 ∧ (recOf (streamRecord true)).fused = 0 ∧ 0 < (recOf (streamRecord true)).elements ∧
      ((withStreams (stream true false 0) []).readElements ((stream true false 0).agent T 0) (recOf (streamRecord true)) 0
        (min (512 / typeWidth 11) ((recOf (streamRecord true)).tileEnd 0 - 0))).toOption.isSome = true) ∧
    TeamMeets (withStreams { stream true false 8 with eotDue := true } []) 0 (fun T => (PMap.getD T.streams 1 {}).eotDue = true) ∧
    TeamMeets (withStreams (stream false false 8) []) 0 (fun T => (recOf (PMap.getD T.streams 1 {}).record).elements ≤ 8) ∧
    TeamMeets (withStreams (stream false true 0) [rising16 1 1 0xFFFF]) 0 (fun T =>
      PMap.getD ((withStreams (stream false true 0) [rising16 1 1 0xFFFF]).core T.core).channels 5 [] = rising16 1 1 0xFFFF :: [] ∧
      (recOf (streamRecord false)).elements < (tokenElements 32 (rising16 1 1 0xFFFF)).length ∧
      (withStreams (stream false true 0) [rising16 1 1 0xFFFF]).firstBad ((stream false true 0).agent T 0) (recOf (streamRecord false)) 0
        ((tokenElements 32 (rising16 1 1 0xFFFF)).take 8) = none) ∧
    TeamMeets (withStreams (stream false true 3) [{ token 1 with kind := .endOfStream }]) 0 fun T => (PMap.getD T.streams 1 {}).code = 0 :=
  ⟨team_of (by decide +kernel), team_of (by decide +kernel), team_of (by decide +kernel), team_of (by decide +kernel),
    team_of (by decide +kernel)⟩

/-- A store to byte 24 of control row 0 of pseudo-channel 5 of stack 2, or to another byte of it. -/
def rowStore (o : Nat) (b : W8) : RowStore := { pa := 0x10000214000 + o, bytes := [b], keeps := [0], key := 0, who := .copy 0 1 }
def withRow (o : Nat) (b : W8) (m : PMap AllBank) : State :=
  { (demo []).modStack 2 (fun S => { S with trained := true, inService := true, allBank := m }) with rowStores := [rowStore o b] }

theorem witness_ControlRowsAndAllBankMode :
    NextStore (withRow 16 1 []) .controlRowStore (rowStore 16 1) [] ∧ NextStore (withRow 24 1 []) .abmRequest (rowStore 24 1) [] ∧
    NextStore (withRow 24 0 [(5, .active)]) .abmLeave (rowStore 24 0) [] ∧
    (({ withRow 24 0 [(5, .active)] with rowStores := [] }).rowStored (rowStore 24 0)).allBank 2 5 = .active ∧
    (({ withRow 24 0 [(5, .granted 7)] with rowStores := [] }).rowStored (rowStore 24 0)).allBank 2 5 = .granted 7 ∧ windowOf (rowStore 24 1).pa = .controlRow 2 5 0 24 ∧
    (({ withRow 24 1 [] with rowStores := [] }).rowStored (rowStore 24 1)).allBank 2 5 = .off ∧
    ((withRow 24 1 [(6, .waiting 0 0)]).stack 2).firstWaiting ≠ none ∧ ((withRow 24 1 [(6, .waiting 0 0)]).stack 2).places < 16 ∧
    ((demo []).modDie 0 fun D => { D with clk := 128 }).clk 0 = 128 ∧ (withRow 24 1 [(5, .leaving)]).allBank 2 5 = .leaving :=
  ⟨⟨rfl, by decide +kernel⟩, ⟨rfl, by decide +kernel⟩, ⟨rfl, by decide +kernel⟩, by decide +kernel, by decide +kernel, by decide +kernel, by decide +kernel, by decide +kernel,
    by decide +kernel, by decide +kernel, by decide +kernel⟩

/-- The claim with one command in its queue, not started. -/
def commanded (filled : Bool) (x : MatCmd) : State := withClaim 0 { claim filled with queue := [x] }
/-- The turn of a command has come. -/
def turn (filled : Bool) (x : MatCmd) : Bool :=
  (commanded filled x).team? 0 |>.any fun T => T.place = .resident && T.taken.isNone && (match T.matrix with
    | some M => decide (M.queue.find? (fun y => y.seq = x.seq) = some x) && !x.started && M.inOrder x
    | none => false)

theorem witness_MatrixCommandsStart :
    turn false { op := 0x18F, a := 0 } = true ∧ ((claim false).buf false 0).full = false ∧ turn true { op := 0x190, a := 0 } = true ∧
    turn true { op := 0x192, a := 2 } = true ∧ turn true { op := 0x1A3, a := 0, vals := List.replicate 16 (some 1) } = true ∧
    turn true { op := 0x193, a := 3 } = true ∧ turn true { op := 0x199, a := 0 } = true ∧ (claim true).ready { op := 0x199, a := 0 } = true ∧
    (commanded true { op := 0x199, a := 0 }).arrayTurn 0 0 = true ∧
    (∃ T, ((commanded true { op := 0x193, a := 1 })).team? 0 = some T ∧
      { commanded true { op := 0x193, a := 1 } with teams := (commanded true { op := 0x193, a := 1 }).teams ++ [(1, { T with core := 1 })] }.neighbour
        T true = some 1) :=
  ⟨by decide +kernel, by decide +kernel, by decide +kernel, by decide +kernel, by decide +kernel, by decide +kernel, by decide +kernel,
    by decide +kernel, by decide +kernel, exists_of_any (by decide +kernel)⟩

def running (x : MatCmd) : MatCmd := { x with started := true }
/-- That a product's checksums agree is a free value of Config; the other hypotheses are met. -/
theorem witness_MatrixCommandsComplete :
    (claim true).ask = none ∧ { claim true with queue := [running { op := 0x199, a := 0 }] }.running = some (running { op := 0x199, a := 0 }) ∧
    (running { op := 0x199, a := 0 }).paired = false ∧
    { claim false with queue := [running { op := 0x18F, a := 0, record := plainRecord 0x400 7 64 }] }.moving 0x18F =
      some (running { op := 0x18F, a := 0, record := plainRecord 0x400 7 64 }) ∧
    { claim true with queue := [running { op := 0x190, a := 0, record := plainRecord 0x400 7 64 }] }.moving 0x190 =
      some (running { op := 0x190, a := 0, record := plainRecord 0x400 7 64 }) := by decide +kernel

/-- Two teams side by side that ask for a pair, or whose products wait for each other. -/
def pairing (x : MatCmd) (met : Bool) (timedOut : Bool) : State :=
  let M (partner : Nat) (east : Bool) : Matrix := { claim true with
    queue := [running x], ask := some { sent := 0, partner := partner, east := east, other := if met then some 0 else none } }
  match (demo []).team? 0 with
  | some T => { demo [] with
      teams := [(0, { T with matrix := some (M 1 true) }), (1, { T with id := 1, core := 1, matrix := some (M 0 false) })]
      dies := [(0, { clk := if timedOut then 65536 else 32 })] }
  | none => demo []
def asks (s : State) (k : Nat) : Option PairAsk := ((s.team? k).bind (·.matrix)).bind (·.ask)

theorem witness_PairingAndSequencing_pairs :
    asks (pairing { op := 0x193, a := 1 } false false) 0 = some { sent := 0, partner := 1, east := true } ∧
    asks (pairing { op := 0x193, a := 1 } false false) 1 = some { sent := 0, partner := 0, east := false } ∧
    (pairing { op := 0x193, a := 1 } false false).clk 0 = 32 ∧
    (((pairing { op := 0x193, a := 1 } true false).team? 1).bind (·.matrix)).bind (·.asking) = some (running { op := 0x193, a := 1 }) ∧
    (asks (pairing { op := 0x193, a := 1 } true false) 0).any (fun a => a.other = some 0) = true ∧
    (((pairing { op := 0x191, a := 0x400 } true false).team? 1).bind (·.matrix)).bind (·.asking) = some (running { op := 0x191, a := 0x400 }) ∧
    ((pairing { op := 0x191, a := 0x400 } true false).teams.all fun (_, T) => T.place = .resident && !T.holdsArray) = true ∧
    (pairing { op := 0x193, a := 1 } false true).clk 0 = 65536 := by decide +kernel

/-- A root loop over a leaf that clears tile 1, in a sequencer that runs. -/
def loopWords : RecWords := [BitVec.ofNat 64 (1 * 2 ^ 12), 0, 0, 0]
def leafWords : RecWords := [BitVec.ofNat 64 (4 * 2 ^ 9 + 1 * 2 ^ 12 + 1 * 2 ^ 32), 0, 0, 0]
def sequencing (root leaf : Controller) : State :=
  withClaim 0 { claim true with busy := true, controllers := [{ root with words := loopWords }, { leaf with words := leafWords }] }
def stepsAt (s : State) (n : Nat) (p : State → Team → Matrix → Controller → Bool) : Bool :=
  (s.team? 0).any fun T => T.matrix.any fun M => (M.controllers[n]?).any fun c =>
    T.place = .resident && T.taken.isNone && M.busy && p s T M c

theorem witness_PairingAndSequencing_controllers :
    stepsAt (sequencing { words := [], enables := 1 } { words := [] }) 0 (fun _ _ _ c => !c.active && decide (0 < c.enables)) = true ∧
    stepsAt (sequencing { words := [], active := true } { words := [] }) 0 (fun _ _ M c => c.active && M.mayIterate 0 c && fieldOf c.words 9 3 == 0) = true ∧
    stepsAt (sequencing { words := [] } { words := [], active := true, taken := 1 }) 1 (fun s T M c =>
      M.mayIterate 1 c && fieldOf c.words 9 3 != 0 && decide (M.queue.length < 16) &&
        (s.checkEmitted 0 T M (c.emit M c.begun (c.taken - 1)).1 (c.emit M c.begun (c.taken - 1)).2).toOption.any fun x =>
          decide (x.charge ≤ T.ibud ∧ x.traffic ≤ T.tbud)) = true ∧
    stepsAt (sequencing { words := [] } { words := [], active := true, begun := 2 }) 1 (fun _ _ M c =>
      c.active && decide (c.iterations ≤ M.completed 1 c) && decide (1 ≠ M.root)) = true ∧
    stepsAt (sequencing { words := [], active := true, begun := 2, dones := [(1, 2)] } { words := [] }) 0 (fun _ _ M c =>
      c.active && decide (c.iterations ≤ M.completed 0 c) && decide (0 = M.root) && decide (c.enables = 0) && decide (M.done = none)) = true := by
  decide +kernel

/-! ### What meets the hypotheses: residencies at work -/

/-- A fabric without elements, under way. -/
def idle : Fabric := { image := 0, slots := [0], loaded := true, started := true, rows := 4, cols := 4 }
/-- A residency of two images that runs it. -/
def runner (F : Fabric) : Residency :=
  { residency 0x00010003 [0x400, 0x440] with state := .running, holds := [], tbud := 100, fab := some F }
def withRunner (R : Residency) : State := withStack [] [(0, R)]
/-- The residency of slot 0 of stack 3 runs a fabric, and a condition holds of them. -/
def RunsHere (s : State) (p : Residency → Fabric → Prop) : Prop := ∃ R F, RunsFabric s 3 0 R F ∧ p R F
theorem runs_of {s : State} {p : Residency → Fabric → Prop} [∀ R F, Decidable (p R F)]
    (h : ((s.residency? 3 0).any fun R => decide (R.state = .running) && R.fab.any fun F => F.started && decide (p R F)) = true) :
    RunsHere s p := by
  cases e : s.residency? 3 0 with
  | none => rw [e] at h; cases h
  | some R =>
    cases e1 : R.fab with
    | none => simp [e, e1] at h
    | some F =>
      simp only [e, e1, Option.any_some, Bool.and_eq_true, decide_eq_true_eq] at h
      exact ⟨R, F, ⟨e, e1, h.1, h.2.1⟩, h.2.2⟩

def waitingRes : Residency := residency 0x00010003 [0x400]
def loadingRes : Residency := { waitingRes with state := .loading, fab := some { idle with loaded := false, started := false } }
/-- An image of one context of four empty rows. -/
def withImage : State :=
  pokeWords (withRunner loadingRes) 0x400 ([0x400, 0, 0, 0, 0, 0, 0, 0] ++ [0x0050000000000000, 0x0050000000000000, 0x0050000000000000,
    0x0050000000000200])
def nextRes : Residency := { runner idle with next := some { idle with image := 1, slots := [1], started := false } }

/-- That no link damages a configuration word is a free value of Config; the other hypotheses are met. -/
theorem witness_ResidenciesStart :
    ((withRunner waitingRes).stack 3).order = [(0, waitingRes)] ∧
    (∃ x, (withRunner waitingRes).loadHead 3 0 waitingRes.image waitingRes = .ok x ∧
      ((x.1.stack 3).candidate x.2).isSome = true ∧ x.1.residency? 3 0 = some waitingRes) ∧
    (withRunner waitingRes).residency? 3 0 = some waitingRes ∧
    (∃ L, withImage.residency? 3 0 = some loadingRes ∧ loadingRes.state = .loading ∧ loadingRes.fab = some L ∧
      loadingRes.drain = none ∧ ((∀ m n, Config.configError m n = .none) → ∃ x, withImage.loadImage 3 0 loadingRes L = .ok x ∧
        (x.1.nodesOf loadingRes x.2).isSome = true ∧ (x.1.residency? 3 0).isSome = true)) ∧
    RunsHere (withRunner nextRes) fun R F => F.elems = [] ∧ F.nodes = [] ∧ F.flying = [] ∧ R.lastImage = false ∧ R.drain = none ∧
      R.next = some { idle with image := 1, slots := [1], started := false } ∧
      ((withRunner nextRes).nodesOf R { idle with image := 1, slots := [1], started := false }).isSome = true :=
  ⟨by decide +kernel, answers (by decide +kernel), by decide +kernel, ⟨_, by decide +kernel, rfl, rfl, rfl, fun h => answers (by
      unfold State.loadImage
      simp only [h]
      decide +kernel)⟩,
    runs_of (by decide +kernel)⟩

/-- A fault that stands at a node of the residency. -/
def standing : Outstanding :=
  { record := { code := .page, source := 2, asid := 0, address := 2 ^ 21 + 64 }, seq := 7, node := some 0, since := 0 }
def faulted : Residency := runner { idle with nodes := [(0, { role := .loader, binding := .queue 0, number := 5, fault := some standing })] }

theorem witness_ResidenciesStop :
    RunsHere (withRunner { runner idle with fbud := 0 }) (fun R _ => R.fbud = 0 ∧ R.drain = none) ∧
    RunsHere (withRunner { runner idle with drain := some .firings }) (fun R F => R.drain = some .firings ∧ DrainCause.firings ≠ .fault ∧
      (withRunner { runner idle with drain := some .firings }).quiet 3 0 R F = true) ∧
    RunsHere (withRunner { runner idle with drain := some .killed }) (fun R F => R.drain = some .killed ∧
      (withRunner { runner idle with drain := some .killed }).quiet 3 0 R F = true) ∧
    RunsHere (withRunner { runner idle with images := [0x400] }) (fun R F => R.lastImage = true ∧ F.flying = [] ∧ F.elems = [] ∧
      F.nodes = []) ∧
    (withRunner faulted).hub.phase = .full ∧ (withRunner faulted).outstanding? 3 5 7 = some (0, faulted, some 0, standing) ∧
    (∃ p, (withRunner faulted).translate faulted.asid faulted.sup .r Means.loader.reaches standing.record.address = .ok p) ∧
    (withRunner faulted).residency? 3 0 = some faulted ∧ faulted.state = .running ∧ (withRunner faulted).outstanding? 3 5 8 = none :=
  ⟨runs_of (by decide +kernel), runs_of (by decide +kernel), runs_of (by decide +kernel), runs_of (by decide +kernel), by decide +kernel,
    by decide +kernel, translates_of (pa := 64) (by decide +kernel), by decide +kernel, by decide +kernel, by decide +kernel⟩

theorem witness_ElementsRunInstructions :
    Fab (fabric (element .addB32 [tokA, tokB])) (fun E => E.allData = true ∧ E.op = .addB32 ∧ srcToken E.x E.w.a = some tokA ∧
      srcToken E.x E.w.b = some tokB ∧ (∀ o, o ∈ [0, 1] → E.fab.canSend E.x o = true) ∧ 0 < E.res.fbud) ∧
    Fab (fabric (element .madB32 [tokA, tokB, tokC])) fun E => E.allData = true ∧ E.op = .madB32 ∧ srcToken E.x E.w.a = some tokA ∧
      srcToken E.x E.w.b = some tokB ∧ srcToken E.x E.w.c = some tokC ∧ (∀ o, o ∈ [0, 1] → E.fab.canSend E.x o = true) ∧ 0 < E.res.fbud :=
  ⟨fab_of (by decide +kernel) rfl, fab_of (by decide +kernel) rfl⟩

/-- What an element's operator attempts is a firing that is enabled. -/
def fires (E : Elem) (x : Attempt) : Bool := (match x with | .fires _ => true | _ => false) && E.enabled x

theorem witness_ElementsFire :
    (∃ E, (fabric (element .addB32 [tokA, tokB])).elem? 3 0 0 = some E ∧
      fires E (E.data (fabric (element .addB32 [tokA, tokB]))) = true ∧ ({ fabric (element .addB32 [tokA, tokB]) with curElem := none }).chosen E = true) ∧
    (∃ E, (fabric (element .addB32 [{ tokA with kind := .endOfTile }, { tokB with kind := .endOfTile }])).elem? 3 0 0 = some E ∧
      E.enabled (E.data (fabric (element .addB32 [{ tokA with kind := .endOfTile }, { tokB with kind := .endOfTile }]))) = false ∧
      fires E (E.ctl (fabric (element .addB32 [{ tokA with kind := .endOfTile }, { tokB with kind := .endOfTile }]))) = true) ∧
    ∃ E, (fabric (element .addB32 [tokA, { tokB with kind := .faultStall }])).elem? 3 0 0 = some E ∧
      (E.heads.find? (fun h => match h.2 with | some t => t.tok.kind == .faultStall | none => false)).isSome = true ∧
      ∀ o, o ∈ E.x.outs → E.fab.canSend E.x o.1 = true :=
  ⟨exists_of_any (by decide +kernel), exists_of_any (by decide +kernel), exists_of_any (by decide +kernel)⟩

/-- A fabric of one element whose input is circuit 192, with a node at the outside end of that circuit. -/
def inward (n : AgNode) (bufs : List Carried := []) : Fabric :=
  { idle with extused := 1, elems := [(0, { op := some (.addB32, opWord 1), ins := [(0, (192, 4))], bufs := [(0, bufs)] })], nodes := [(0, n)] }
/-- A fabric with an outgoing circuit and a node there. -/
def outward (n : AgNode) : Fabric := { idle with extused := 1, extout := 1, nodes := [(0, n)] }
def arriving : Flying := ⟨⟨tokA, [], 3, []⟩, 192, .port 0 0⟩
def linkNode (b : Binding) (buf : List Carried := []) : AgNode := { role := .link, binding := b, buf := buf }
/-- The runner beside queue 5, which holds two entries, the second of them free. -/
def besideQueue (R : Residency) : State := (withRunner R).modQueue 5 fun _ => { two with enable := true }

/-- That a token is not damaged on its way is a free value of Config; the other hypotheses are met. -/
theorem witness_CircuitsCarryTokens :
    RunsHere (withRunner (runner { inward (linkNode (.queue 5)) with flying := [arriving, { arriving with inlet := .node 0 }] }))
      (fun _ F => F.flying[1]? = some { arriving with inlet := .node 0 } ∧ F.flying[0]? = some arriving ∧
        arriving.inlet ≠ ({ arriving with inlet := .node 0 } : Flying).inlet ∧ arriving.item.tok.damaged = false ∧
        (PMap.get? F.elems 0).any (fun x => !x.passed) = true ∧ (PMap.get? F.nodes 0).isSome = true) ∧
    RunsHere (withRunner (runner (outward (linkNode (.channel 3 9 0x77) [⟨tokA, [], 3, []⟩])))) (fun _ F =>
      PMap.get? F.nodes 0 = some (linkNode (.channel 3 9 0x77) [⟨tokA, [], 3, []⟩]) ∧ F.extout.testBit 0 = true ∧ tokA.kind = .data ∧
      (withRunner (runner (outward (linkNode (.channel 3 9 0x77) [⟨tokA, [], 3, []⟩])))).channelRoom 3 9 ≠ 0) ∧
    RunsHere (besideQueue (runner (outward (linkNode (.queue 5) [⟨tokA, [], 3, []⟩])))) (fun _ F =>
      PMap.get? F.nodes 0 = some (linkNode (.queue 5) [⟨tokA, [], 3, []⟩]) ∧
      ((besideQueue (runner (outward (linkNode (.queue 5) [⟨tokA, [], 3, []⟩])))).queue 5).enable = true ∧
      ((besideQueue (runner (outward (linkNode (.queue 5) [⟨tokA, [], 3, []⟩])))).queue 5).entries.length < 16 * 2 ^ 0) ∧
    RunsHere (besideQueue (runner (inward (linkNode (.queue 5))))) fun R F =>
      PMap.get? F.nodes 0 = some (linkNode (.queue 5)) ∧ R.stopping = false ∧ R.drain = none ∧ F.extout.testBit 0 = false ∧
      (freeEntries ((besideQueue (runner (inward (linkNode (.queue 5))))).queue 5)).head? = some 1 ∧
      ((besideQueue (runner (inward (linkNode (.queue 5))))).queue 5).entries[1]? = some (entry 2 none) ∧ (entry 2 none).tok.kind = .data ∧
      F.canFeed 0 = true :=
  ⟨runs_of (by decide +kernel), runs_of (by decide +kernel), runs_of (by decide +kernel), runs_of (by decide +kernel)⟩

/-- A node that serves a record in HBM of 20 elements of 32 bits in one tile. -/
def recordNode (role : NodeRole) (eot : Bool) (buf : List Carried := []) : AgNode :=
  { role := role, buf := buf
    binding := .record [BitVec.ofNat 64 (2 ^ 21 + 11 * 2 ^ 56), 0, BitVec.ofNat 64 (20 - 1 + 2 ^ 24), 0, 0, 0,
      BitVec.ofNat 64 (if eot then 2 ^ 34 else 0), 0] (2 ^ 21) }
/-- The node of circuit 0 serves its record, and a condition holds of it. -/
def ServesHere (s : State) (role : NodeRole) (p : Residency → Fabric → AgNode → Rec → Prop) : Prop :=
  ∃ R F x ws, Serves s 3 0 0 R F x role ws ∧ p R F x (recOf ws)
theorem serves_of {s : State} {role : NodeRole} {p : Residency → Fabric → AgNode → Rec → Prop} [∀ R F x r, Decidable (p R F x r)]
    (h : ((s.residency? 3 0).any fun R => decide (R.state = .running) && R.fab.any fun F => F.started &&
      ((PMap.get? F.nodes 0).any fun x => (match x.binding with
        | .record ws _ => decide (x.role = role ∧ (recOf ws).codec = 0 ∧ (recOf ws).fused = 0 ∧ x.ended = false ∧ x.sent = false ∧ x.fault = none ∧
            p R F x (recOf ws))
        | _ => false))) = true) : ServesHere s role p := by
  obtain ⟨R, F, hr, hp⟩ : RunsHere s fun R F => ((PMap.get? F.nodes 0).any fun x => (match x.binding with
        | .record ws _ => decide (x.role = role ∧ (recOf ws).codec = 0 ∧ (recOf ws).fused = 0 ∧ x.ended = false ∧ x.sent = false ∧ x.fault = none ∧
            p R F x (recOf ws))
        | _ => false)) = true := runs_of (by simpa only [Bool.decide_eq_true] using h)
  cases e : PMap.get? F.nodes 0 with
  | none => rw [e] at hp; cases hp
  | some x =>
    rw [e] at hp
    cases eb : x.binding with
    | record ws va =>
      simp only [Option.any_some, eb, decide_eq_true_eq] at hp
      obtain ⟨h1, h2, h3, h4, h5, h6, h7⟩ := hp
      exact ⟨R, F, x, ws, ⟨hr, e, h1, ⟨va, eb⟩, h2, h3, h4, h5, h6⟩, h7⟩
    | channel _ _ _ => simp [eb] at hp
    | peer _ _ _ => simp [eb] at hp
    | queue _ => simp [eb] at hp

/-- The bytes of the record. -/
def withData (R : Residency) : State :=
  (List.range 20).foldl (fun s i => s.writeNat 1 (4 * i) 4 (1000 + i)) (withRunner R)
def loader (f : AgNode → AgNode) : State := withData (runner (inward (f (recordNode .loader false))))

theorem witness_NodesServeRecords_loaders :
    ServesHere (loader id) .loader (fun R F x r => x.stopped = false ∧ R.drain = none ∧ F.canFeed 0 = true ∧ x.eotDue = false ∧ x.part = [] ∧
      x.tileOpen = false ∧ x.pos < r.elements ∧ R.stopping = false ∧ ((r.tileEnd x.pos - x.pos) * typeWidth r.type + 511) / 512 ≤ R.tbud) ∧
    ServesHere (withData { runner (inward (recordNode .loader false)) with tbud := 1 }) .loader (fun R _ x r =>
      R.tbud < ((r.tileEnd x.pos - x.pos) * typeWidth r.type + 511) / 512) ∧
    ServesHere (loader fun n => { n with tileOpen := true }) .loader (fun R _ x r => x.tileOpen = true ∧
      ((loader fun n => { n with tileOpen := true }).readElements R.agent r x.pos (min r.perToken (r.tileEnd x.pos - x.pos))).toOption.isSome = true) ∧
    ServesHere (loader fun n => { n with pos := 20, eotDue := true }) .loader (fun _ F x _ => x.eotDue = true ∧ F.canFeed 0 = true) ∧
    ServesHere (withData { runner (inward { recordNode .loader false with pos := 20 }) with images := [0x400] }) .loader (fun R _ x r =>
      r.elements ≤ x.pos ∧ x.tileOpen = false ∧ R.lastImage = true) ∧
    ServesHere (withData { runner (inward (recordNode .loader false)) with drain := some .traffic }) .loader fun R F x _ => x.stopped = false ∧
      R.drain ≠ none ∧ F.canFeed 0 = true ∧ x.eotDue = false ∧ x.part = [] ∧ x.tileOpen = false :=
  ⟨serves_of (by decide +kernel), serves_of (by decide +kernel), serves_of (by decide +kernel), serves_of (by decide +kernel), serves_of (by decide +kernel),
    serves_of (by decide +kernel)⟩

def storer (f : AgNode → AgNode) (tok : Token) (eot : Bool := false) : State :=
  withData (runner (outward (f (recordNode (.storer none) eot [⟨tok, [], 3, []⟩]))))
/-- A fabric with a request circuit, at whose end the node stands, and its reply circuit 193. -/
def requesting (tok : Token) : State :=
  withData (runner { idle with
    extused := 3, extout := 1, elems := [(0, { op := some (.addB32, opWord 1), ins := [(0, (193, 4))] })]
    nodes := [(0, recordNode (.requests [1]) false [⟨tok, [], 3, []⟩]), (1, recordNode .reply false)] })
/-- A storer at the end of its tile, which tells on circuit 193. -/
def telling : State :=
  withData (runner { idle with
    extused := 3, extout := 1, elems := [(0, { op := some (.addB32, opWord 1), ins := [(0, (193, 4))] })]
    nodes := [(0, { recordNode (.storer (some 1)) true with tileDue := true, endDue := 1, pending := [(0, 5)], tileTok := 1 }),
      (1, recordNode .reply false)] })
def request : Token := { rising16 2 1 0x00FF with tag := 0 }

theorem witness_NodesServeRecords_storers_and_requests :
    ServesHere (storer id tokA) (.storer none) (fun R F x r => x.buf.head?.any (fun q => decide (q.tok = tokA)) = true ∧ x.tileDue = false ∧
      R.halts = [] ∧ x.done ≤ x.taken.length ∧ x.eotDue = false ∧ r.eot = false ∧ tokA.kind = .data ∧
      (storer id tokA).firstBad R.storerAgent r x.pos ((tokenElements (typeWidth r.type) tokA).take (r.elements - x.pos)) = none ∧ F.started = true) ∧
    ServesHere (storer id { tokA with kind := .endOfTile } true) (.storer none) (fun _ _ x r =>
      r.eot = true ∧ x.buf.head?.any (fun q => decide (q.tok.kind = .endOfTile)) = true) ∧
    ServesHere (storer id { tokA with kind := .endOfStream }) (.storer none) (fun _ _ x _ =>
      x.buf.head?.any (fun q => decide (q.tok.kind = .endOfStream)) = true) ∧
    ServesHere (storer (fun n => { n with tileDue := true, endDue := 1 }) tokA) (.storer none) (fun _ _ x _ => x.tileDue = true ∧ x.endDue ≠ 0 ∧
      x.pending = [] ∧ x.tileTok = 0) ∧
    ServesHere telling (.storer (some 1)) (fun R F x r => x.tileDue = true ∧ F.canFeed 1 = true ∧ x.endDue = 1 ∧
      x.pending ≠ [] ∧ R.halts = [] ∧ r.eot = true ∧ ((PMap.get? F.nodes 1).any fun y => decide (y.log.length ≤ y.tile)) = true ∧
      telling.unstorable R.storerAgent r (x.pending.map fun p => (p.1, some p.2)) = none) ∧
    ServesHere (requesting { request with kind := .endOfTile }) (.requests [1]) (fun _ F x _ =>
      x.buf.head?.any (fun q => decide (q.tok.kind = .endOfTile)) = true ∧ F.consumer [1] 0 0 = some (1, .port 0 0) ∧ F.hasSlot (.port 0 0) = true) ∧
    ServesHere (requesting request) (.requests [1]) fun R F x r => x.buf.head?.any (fun q => decide (q.tok = request)) = true ∧ x.part = [] ∧
      x.tileOpen = false ∧ F.consumer [1] (F.logical request.ctx.toNat) request.tag = some (1, .port 0 0) ∧ F.hasSlot (.port 0 0) = true ∧ typeWidth r.type ≠ 64 ∧
      (∀ l, l ∈ List.range 8 → (request.data.getD l 0).toNat < r.elements ∧
        ((requesting request).readElement R.agent r (request.data.getD l 0).toNat).toOption.isSome = true) ∧
      (maskCount request.valid * typeWidth r.type + 511) / 512 ≤ R.tbud :=
  ⟨serves_of (by decide +kernel), serves_of (by decide +kernel), serves_of (by decide +kernel), serves_of (by decide +kernel),
    serves_of (by decide +kernel), serves_of (by decide +kernel), serves_of (by decide +kernel)⟩

/-- An element whose one input has the reconfiguration token at its head. -/
def passing : State := withRunner (runner (inward (linkNode (.queue 5)) [⟨{ tokA with kind := .reconfig }, [], 3, []⟩]))

theorem witness_ReconfigurationTokensPass :
    ServesHere (loader fun n => { n with pos := 20 }) .loader (fun R F x _ => x.recordEnded R = true ∧
      R.mayReconfigure = true ∧ F.canFeed 0 = true) ∧
    RunsHere passing fun _ F => ((PMap.get? F.elems 0).any fun x => decide (x.passed = false ∧ (∃ p, p ∈ x.ins ∧ F.carriedPort x p.1 = false) ∧
      (∀ p, p ∈ x.ins → F.carriedPort x p.1 = false → (headOf x p.1).any (fun c => c.tok.kind == .reconfig) = true) ∧
      ∀ o, o ∈ x.outs → F.canSend x o.1 = true)) = true :=
  ⟨serves_of (by decide +kernel), runs_of (by decide +kernel)⟩

/-! ### What meets the hypotheses: the machine as a whole -/

theorem next_of {o : Host.Outcome State Fault Refusal} (h : (match o with | .next _ => true | _ => false) = true) : ∃ t, o = .next t := by
  cases o with
  | next t => exact ⟨t, rfl⟩
  | fault _ => cases h
  | refused _ => cases h

def asidEntryOf (state : AsidState) (tvec fq : W64) : AsidEntry :=
  { valid := true, state := state, tenant := 0, root := 0, tvec := tvec, yq := 0, fq := fq, killmb := 0 }
/-- The demonstration under a cached ASID entry, with a page table in HBM that maps a page of 2^30 bytes at 2^30, and nothing at 2^39. -/
def tabled (e : AsidEntry) (ports : List (Port × Val) := []) : State :=
  { ((((demo ports).writeNat 1 0 8 4097).writeNat 1 4104 8 31).writeNat 1 8 8 0x100) with asidCache := [(0, e)] }

theorem witness_IsolationEvents :
    (∃ c, (demo []).ctx? = some c ∧
      (demo []).hent0Verdict c.team.core ((demo []).core c.team.core) (0 : W64) = .pass ∧ (0 : W64).getLsbD 0 = false ∧
      (0 : W64).getLsbD 15 = false ∧
      (PMap.getD ((demo []).core c.team.core).handlers (((demo []).core c.team.core).hsel.toNat % 64) {}).present = 0 ∧
      (demo []).hent0Verdict c.team.core ((demo []).core c.team.core) (0x8001 : W64) = .refused .slots) ∧
    ((tabled (asidEntryOf .live 0 0)).cached 0 (2 ^ 30) = none ∧ ((tabled (asidEntryOf .live 0 0)).asidEntry 0).state ≠ .dying ∧
      ∃ e, (tabled (asidEntryOf .live 0 0)).walk 0 (2 ^ 30) = .ok e ∧ e.va = 2 ^ 30) ∧
    ((5 : W16) ∈ ({ demo [] with dying := [5, 3, 5] } : State).dying ∧
      (∀ x, x ∈ ({ demo [] with dying := [5, 3, 5] } : State).teams → x.2.asid = 5 → x.2.gone = true) ∧
      ∀ x, x ∈ ({ demo [] with dying := [5, 3, 5] } : State).hbmStacks → ∀ y, y ∈ x.2.residencies → y.2.asid = 5 → y.2.state = .ended) :=
  ⟨exists_of_any (by decide +kernel), ⟨by decide +kernel, by decide +kernel, answers (by decide +kernel)⟩,
    ⟨by decide, by decide +kernel, by decide +kernel⟩⟩

/-- Pages at 2^32 in HBM under a key, at 2^33 in no window, and at 2^34 in a control row. -/
def paged (key : Nat) : State :=
  let s := tabled (asidEntryOf .live 0 0)
  let e : TlbEntry := { asid := 0, va := 2 ^ 32, size := 2 ^ 21, pa := 0, r := true, w := false, x := true, s := true, key := key }
  { s with tlb := [e, { e with va := 2 ^ 33, pa := 0x10000000000, w := true }, { e with va := 2 ^ 34, pa := 0x10000200000, w := true },
      { e with va := 2 ^ 35, pa := 0x10100000000 }]
           keys := [(0, .bound 0 1), (7, .bound 0 4), (8, .bound 3 2)] }
def pageAt (s : State) (va : Nat) : Option (TlbEntry × Window) :=
  (s.cached 0 va).map fun e => (e, windowOf (e.pa + (va - e.va)))

theorem witness_TranslationChecks :
    ((tabled (asidEntryOf .dying 0 0)).asidEntry 0).state = .dying ∧ ((paged 7).asidEntry 0).state ≠ .dying ∧
    2 ^ 56 ≤ (0x0100000000000000 : W64).toNat ∧
    (pageAt (paged 7) (2 ^ 32 + 5)).any (fun x => !x.1.grants .w && x.1.grants .r && x.1.s && x.2 == .hbm) = true ∧
    ((paged 7).storageAddr 5).isSome = true ∧ PMap.get? (paged 7).keys 7 = some (.bound 0 4) ∧ (paged 7).tenantOf 0 = 0 ∧
    PMap.get? (paged 8).keys 8 = some (.bound 3 2) ∧ PMap.get? (paged 9).keys 9 = none ∧
    (pageAt (paged 7) (2 ^ 34 + 5)).any (fun x => match x.2 with | .controlRow _ _ _ _ => true | _ => false) = true ∧
    (pageAt (paged 7) (2 ^ 35 + 5)).any (fun x => match x.2 with | .scratchpad _ _ => true | _ => false) = true ∧
    ((paged 7).storageAddr 0x10100000005).isSome = true ∧
    (paged 7).cached 0 (2 ^ 31) = none ∧ (match (paged 7).walk 0 (2 ^ 39) with | .error _ => true | .ok _ => false) = true ∧
    ((tabled { asidEntryOf .live 0 0 with valid := false }).asidEntry 0).valid = false := by decide +kernel

/-- A team below supervisor privilege under a trap vector. -/
def trapping (tvec fq : W64) : State := (tabled (asidEntryOf .live tvec fq)).modTeam 0 fun T => { T with sup := false, ibud := 9, tbud := 5 }

theorem witness_TrapsEnterAndReturn :
    TeamMeets (trapping 0x4440 0) 0 (fun T => (T.groups[0]?).any (fun G => G.sup.isNone && G.blk.isSome && decide (G.exited = 0)) = true ∧
      T.sup = false ∧ ((trapping 0x4440 0).asidEntry T.asid).tvec ≠ 0 ∧ ((trapping 0x4440 0).asidEntry T.asid).state ≠ .dying) ∧
    (63 < 64 ∧ 15 < 16 ∧ FaultCode.memData ≠ .barrierSpill ∧ 4095 < 4096) := ⟨team_of (by decide +kernel), by decide⟩

/-- The same without a trap vector, with a supervisor's queue 0 and another team. -/
def ending : State :=
  let s := page (trapping 0 0x200000) 0x200000 0x10200000000 65536
  { (s.modQueue 0 fun Q => { Q with enable := true }) with
      teams := s.teams ++ s.teams.map fun p => (7, { p.2 with id := 7, lead := 7 }) }

theorem witness_FatalFaultsEndTheTeam :
    TeamMeets ending 0 (fun T => (T.groups[0]?).any (fun G => ending.isFatal T G) = true ∧
      (ending.team? 7).any (fun U => U.lead ≠ T.lead) = true ∧ ending.supervisorQueue (ending.asidEntry T.asid).fq = some 0) ∧
    (ending.queue 0).enable = true ∧ (ending.queue 0).waiting = [] ∧ (ending.queue 0).entries.length < 16 * 2 ^ (ending.queue 0).depthLog ∧
    255 < 256 ∧ 63 < 64 ∧ 15 < 16 :=
  ⟨team_of (by decide +kernel), by decide +kernel, by decide +kernel, by decide +kernel, by decide⟩

theorem witness_ResetState :
    windowOf 0x10100000007 = .scratchpad 0 7 ∧ (State.reset.storageAddr 0x10100000007).isSome = true := by decide +kernel

theorem witness_BlockCodeRoundTrip :
    let n : Node := ⟨.mpairWest, none, none, .unless⟩
    let m : Node := ⟨.atomAdd ⟨.device, .rlx, .spad⟩ false, some ⟨63, .w⟩, some ⟨3, .p⟩, .when⟩
    InBlockCode n.instr ∧ WellFormed n.instr = true ∧ n.wf = true ∧ n.edgesFit = true ∧ firstRow n.instr = .mpairEast ∧
      InBlockCode m.instr ∧ WellFormed m.instr = true ∧ m.edgesFit = true ∧ (m.wf = false) ∧
      ({ m with t1 := some ⟨3, .w⟩ } : Node).wf = true := by unfold InBlockCode; decide +kernel

theorem witness_OperatorWordsRoundTrip : (encodeFabric (.steer true) (opWord 2)).isSome = true ∧ Instr.steer true ≠ .iter 7 := by
  decide +kernel

/-- The demonstration with its group on the agenda. -/
def due (f : Flight → Flight) : State :=
  { (demo [(.a, uni 5), (.b, uni 7)]).modFlight 0 0 f with cur := none, agenda := [.thread 0 0] }

theorem witness_StepRunsDecodedInstruction :
    GroupIsNext (due id) 0 0 { due id with agenda := [], cur := some (0, 0) } ∧
    (∃ c, ({ due id with agenda := [], cur := some (0, 0) } : State).ctx? = some c ∧ c.blk.slot ≤ c.blk.hdr.count ∧
      (decodeSlot (c.blk.words.getD c.blk.slot 0) c.blk.words[c.blk.slot + 1]?).toOption.isSome = true) ∧
    (∃ c, ({ due (fun F => { F with slot := 9 }) with agenda := [], cur := some (0, 0) } : State).ctx? = some c ∧ c.blk.hdr.count < c.blk.slot) ∧
    ({ atBlock 0x00040000 99 with cur := some (0, 0) } : State).ctx? = none ∧
    ∃ t, exec .addB32 ({ due id with agenda := [], cur := some (0, 0) } : State) = .next t := by
  refine ⟨⟨rfl, by decide +kernel, Or.inl ⟨_, rfl, rfl⟩⟩, exists_of_any (by decide +kernel), exists_of_any (by decide +kernel), by decide +kernel,
    next_of (by decide +kernel)⟩

theorem witness_DecodeRefusesByName :
    isBlockOpcode 0x1FF = false ∧ isBlockOpcode ((0xED800000 : W32).toNat / 2 ^ 23) = true ∧
    isSupOpcode ((0xED800000 : W32).toNat / 2 ^ 23) = true ∧ (0xED800000 : W32).toNat / 2 ^ 23 ≠ 0x012 ∧
    (match scanSlot ⟨false, 1, true⟩ 6 1 0x00800046 none {} with | .ok _ => true | .error _ => false) = true ∧
    fetches (atBlock 0x00040000 99) (fun r => match r with | .ok (h, _) => h.charge == 4 | .error _ => false) = true := by decide +kernel

theorem witness_FiringDelivers : OperandsStand ∧
    ∃ c, (demo [(.p, each fun l => some (BitVec.ofNat 64 l))]).ctx? = some c ∧ c.node.guard = .always ∧ (c.port? .p).isSome = true ∧
      ({ c with node := { c.node with guard := .when } } : Ctx).on? = some 0xAAAA :=
  ⟨operands_stand, exists_of_any (by decide +kernel)⟩

/-- A block whose slot 0 has no operands yet while the value of slot 1 stands. -/
def ready1 : State := (demo []).modFlight 0 0 fun F => { F with ports := [⟨1, .w, uni 5⟩] }

/-- Slot 1 fires ahead, and the block goes on past it once slot 0 has fired. -/
theorem test_slot_fires_ahead :
    ready1.ahead = [Move.ahead 0 0 1] ∧
    (match ready1.perform (.ahead 0 0 1) with
      | .next t => (((t.group? 0 0).bind (·.blk)).map fun F => (F.slot, F.effects.length, F.early.map (·.slot))) == some (0, 0, [1]) &&
          (match exec .nop t with
            | .next u => ((u.group? 0 0).bind (·.blk)).map (fun F => (F.slot, F.effects.length, F.early.length)) == some (2, 1, 0)
            | _ => false)
      | _ => false) = true := by decide +kernel

theorem witness_SlotsFireAhead :
    ∃ c, ({ ready1 with cur := some (0, 0) } : State).ctx? = some c ∧
      (decodeSlot (c.blk.words.getD 1 0) c.blk.words[2]?).toOption.isSome = true ∧
      c.blk.readHeld 1 = false ∧
      (match exec (.wr (.lane 0 false)) (ready1.modFlight 0 0 fun F => F.standAt 1) with
        | .next t => ((t.group? 0 0).bind (·.blk)).any fun F => F.wait.isNone
        | _ => false) = true := exists_of_any (by decide +kernel)

/-- A block of a load and, in slot 1, another load or a wait on queue 5. -/
def loadThen (second : W32) (a : W64) : State :=
  (withQueue [] {}).modFlight 0 0 fun F => { F with words := [0xA0000000, second], ports := [⟨1, .a, uni a⟩] }

theorem witness_SlotsFireAhead_held :
    (∃ c, ({ loadThen 0xA0000000 0x40 with cur := some (0, 0) } : State).ctx? = some c ∧ c.blk.readHeld 1 = true ∧
      (match exec (.lds .n8) ((loadThen 0xA0000000 0x40).modFlight 0 0 fun F => F.standAt 1) with
        | .next t => ((t.group? 0 0).bind (·.blk)).isSome
        | _ => false) = true) ∧
    ∃ c, ({ loadThen 0xC5800000 0x105000 with cur := some (0, 0) } : State).ctx? = some c ∧ c.blk.readHeld 1 = false ∧
      (match exec .qwait ((loadThen 0xC5800000 0x105000).modFlight 0 0 fun F => F.standAt 1) with
        | .next t => (t.group? 0 0).any fun G => (G.blk.any fun F => F.wait.isSome) && decide (G.kept ≠ c.group.kept)
        | _ => false) = true := ⟨exists_of_any (by decide +kernel), exists_of_any (by decide +kernel)⟩

theorem witness_FiringLeavesTheMachineAlone :
    InBlockCode .addB32 ∧ ∃ c, (demo [(.a, uni 5), (.b, uni 7)]).ctx? = some c ∧
      (match exec .addB32 (demo [(.a, uni 5), (.b, uni 7)]) with
        | .next t => ((t.group? c.t c.g).bind (·.blk)).isSome
        | _ => false) = true := ⟨by unfold InBlockCode; decide, exists_of_any (by decide +kernel)⟩

theorem witness_NoInstructionStops : InBlockCode .barArrive ∧ OperandsStand := ⟨by unfold InBlockCode; decide, operands_stand⟩

theorem witness_PhaseChangesByBringUpAlone :
    (match exec .fullServiceMove (withHub (inPhase (.early true) true) fun h => { h with ready := true }) with
      | .next t => decide (t.hub.phase = .full)
      | _ => false) = true := by decide +kernel

theorem witness_StepKeepsMemoryCanonical : State.reset.MemoryCanonical ∧ ∃ t, step (due id) = .next t :=
  ⟨rfl, next_of (by decide +kernel)⟩

/-! ### What meets the hypotheses of the statements' further clauses: numbers and memory -/

theorem some_and {α : Type} {o : Option α} {p : α → Bool} (h : o.any p = true) : ∃ x, o = some x ∧ p x = true := by
  cases o with
  | none => cases h
  | some x => exact ⟨x, rfl, h⟩

/-- A format, a number beyond its largest value, and one just within reach of it. -/
theorem witness_RoundingModesChooseTheirValue_overflow :
    fmtE4m3 ∈ formats ∧ (∃ big, real fmtE4m3 fmtE4m3.maxEnc = some big ∧ big < dyadic false 449 0) ∧
      (real fmtE4m3 (fmtE4m3.maxEnc - 1)).isSome = true := ⟨by decide +kernel, exists_of_any (by decide +kernel), by decide +kernel⟩

theorem witness_FloatingInstructionsDeliver_special :
    (∃ p, real fmtF32 (lo 0xC0490FDB).toNat = some p ∧ p < 0 ∧ ¬ p < -149) ∧
    (∃ p, real fmtF32 (lo 0x43000000).toNat = some p ∧ 128 ≤ p) ∧ (∃ p, real fmtF32 (lo 0xC3160000).toNat = some p ∧ p < -149) ∧
    (∃ p, real fmtF32 (lo 0xC2FC0000).toNat = some p ∧ p = ((-126 : Int) : Rat)) ∧
    (∃ p, real fmtF32 (lo 0x00000001).toNat = some p ∧ p = (2 : Rat) ^ (-149 : Int)) ∧
    (∃ p, real fmtF32 (lo 0xC0200000).toNat = some p ∧ 2 * p = 2 * ((-3 : Int) : Rat) + 1) ∧
    dyadic false 1 200 = (2 : Rat) ^ (200 : Int) ∧ (2 : Rat) ^ (128 : Int) ≤ dyadic false 1 200 ∧ dyadic false 1 0 < (2 : Rat) ^ (128 : Int) ∧
    real fmtF32 0x3F800000 = some (dyadic false 1 0) :=
  ⟨exists_of_any (by decide +kernel), exists_of_any (by decide +kernel), exists_of_any (by decide +kernel), exists_of_any (by decide +kernel),
    exists_of_any (by decide +kernel), exists_of_any (by decide +kernel), by decide +kernel, by decide +kernel, by decide +kernel, by decide +kernel⟩

theorem witness_SquareRootsAndReciprocalsTruncate_more :
    (∃ p, real fmtF32 (lo 1).toNat = some p ∧ p * (2 : Rat) ^ (128 : Int) ≤ 1) ∧
    (∃ p, real fmtF32 (lo 0x40400000).toNat = some p ∧ 1 < p * (2 : Rat) ^ (128 : Int)) ∧
    lo (0xC0400000 : W64) = lo (0x40400000 : W64) ^^^ 0x80000000 ∧ fmtF32.isNan (lo 0x40400000).toNat = false ∧
    (∃ p, real fmtF64 (0x4008000000000000 : W64).toNat = some p ∧ 0 < p ∧ 1 < p * (2 : Rat) ^ (1023 : Int)) ∧
    (∃ p, real fmtF64 (0xC008000000000000 : W64).toNat = some p ∧ p < 0) ∧ fmtF64.isNan (0x7FF0000000000001 : W64).toNat = true :=
  ⟨exists_of_any (by decide +kernel), exists_of_any (by decide +kernel), by decide, by decide +kernel, exists_of_any (by decide +kernel),
    exists_of_any (by decide +kernel), by decide +kernel⟩

theorem witness_ConversionsDeliver_more :
    fmtF32.isNan (ux 32 0x7F800001) = true ∧ fmtF32.value (ux 32 0xFF800000) = .inf true ∧ fmtF32.value (ux 32 0x7F800000) = .inf false ∧
    (∃ p, real fmtF32 (ux 32 0x4F000000) = some p) ∧ (∃ p, real fmtF64 (ux 64 0xC3F0000000000000) = some p) ∧
    real fmtF32 (ux 32 0x80000000) = some 0 ∧
    (∃ p, real fmtF32 (ux 32 0x40400000) = some p ∧ (2 : Rat) ^ (1 : Int) ≤ apart 0 p ∧ apart 0 p < (2 : Rat) ^ (2 : Int)) ∧
    ux 8 (0xFF : W64) = 0xFF ∧ ux 8 (0 : W64) ≠ 0xFF ∧ (∃ p, real fmtF32 (ux 32 0xBFC00000) = some p ∧ p ≠ 0) :=
  ⟨by decide +kernel, by decide +kernel, by decide +kernel, exists_of_any (p := fun _ => True) (by decide +kernel) |>.imp fun _ h => h.1,
    exists_of_any (p := fun _ => True) (by decide +kernel) |>.imp fun _ h => h.1, by decide +kernel, exists_of_any (by decide +kernel),
    by decide, by decide, exists_of_any (by decide +kernel)⟩

theorem witness_StochasticRoundingDrawsAndRounds_more :
    fmtF32.isNan (lo 0x7FC00000).toNat = true ∧ fmtF32.value (lo 0xFF800000).toNat = .inf true ∧
    (∃ p, real fmtF32 (lo 0xC3FA0000).toNat = some p ∧ ∃ big, real fmtE4m3 fmtE4m3.maxEnc = some big ∧ big < apart 0 p) ∧
    (∃ p, real fmtF32 (lo 0x3F800000).toNat = some p ∧ real fmtE4m3 0x38 = some p) :=
  ⟨by decide +kernel, by decide +kernel, ⟨_, rfl, exists_of_any (by decide +kernel)⟩, ⟨_, rfl, by decide +kernel⟩⟩

/-- What an operation that fails answers. -/
def errorOf {ε α : Type} : Except ε α → Option ε
  | .error e => some e
  | .ok _ => none
theorem error_of {ε α : Type} {r : Except ε α} {e : ε} (h : errorOf r = some e) : r = .error e := by
  cases r with
  | error x => exact congrArg Except.error (Option.some.inj h)
  | ok x => cases h

/-- Lane 5 of an access is stopped, and the lanes below it reach their addresses. -/
def Stopped (i : Instr) (sp : MemSpace) (need : Perm) (size : Nat) (x y : W64) (code : FaultCode) : Prop :=
  ∃ s c, Stands s c 0xFFFF ∧ c.port? .a = some (step5 x y) ∧ c.port? .b = some data ∧ c.port? .c = some data ∧ lane (step5 x y) 5 = some y ∧
    AllReach s c sp need size (fun k => live 0xFFFF [step5 x y] k && decide (k < 5)) (step5 x y) (fun _ => (if sp = .spad then 0x10100000000 else 0) + x.toNat) ∧
    (∃ named level, Misses s c sp need size y code named level) ∧ i.fields?.isSome = true
def stopping (x y : W64) : State := barred (demo [(.a, step5 x y), (.b, data), (.c, data)]) 0x40000000

theorem witness_LoadsDeliverMemory_faults :
    Stopped (.ldx .b32) .spad .r 4 0x40 0x40000000 .access ∧ Stopped (.ldx .b32) .spad .r 4 0x40 0x42 .align ∧
    Stopped (.ldk .b32) .spill .r 4 0 0xFFFFFFFF .access ∧ Stopped (.sts .b64) .shared .w 8 8 12 .align ∧
    Stopped (.atomAdd ⟨.device, .rlx, .spad⟩ false) .spad .rw 4 0x40 0x40000000 .access ∧
    (∃ s c, Stands s c 0xFFFF ∧ c.port? .a = some (uni 0x40) ∧ s.spoiledIn .spad c.t c.g 0x10100000040 4 = some 1) ∧
    ∃ s c, Stands s c 0xFFFF ∧ c.port? .a = some (uni 0x40) ∧ s.spoiledIn .shared c.t c.g 0x40 4 = some 2 := by
  refine ⟨⟨stopping 0x40 0x40000000, ctxOf _ (by decide +kernel), ⟨ctxOf_spec _, by decide +kernel⟩, by decide +kernel, by decide +kernel,
      by decide +kernel, by decide +kernel, allReach_of (by decide +kernel), ⟨_, 0, rfl, Or.inl (error_of (by decide +kernel))⟩, rfl⟩,
    ⟨stopping 0x40 0x42, ctxOf _ (by decide +kernel), ⟨ctxOf_spec _, by decide +kernel⟩, by decide +kernel, by decide +kernel,
      by decide +kernel, by decide +kernel, allReach_of (by decide +kernel),
      ⟨_, 0, rfl, Or.inr ⟨(some_of_toOption (f := Phys.pa) (y := 0x10100000042) (by decide +kernel)).imp fun _ h => h.1, by decide, rfl, rfl⟩⟩, rfl⟩,
    ⟨stopping 0 0xFFFFFFFF, ctxOf _ (by decide +kernel), ⟨ctxOf_spec _, by decide +kernel⟩, by decide +kernel, by decide +kernel,
      by decide +kernel, by decide +kernel, allReach_of (by decide +kernel), ⟨_, 0, rfl, rfl, Or.inl ⟨by decide +kernel, rfl⟩⟩, rfl⟩,
    ⟨stopping 8 12, ctxOf _ (by decide +kernel), ⟨ctxOf_spec _, by decide +kernel⟩, by decide +kernel, by decide +kernel,
      by decide +kernel, by decide +kernel, allReach_of (by decide +kernel), ⟨_, 0, rfl, rfl, Or.inr ⟨by decide +kernel, by decide, rfl⟩⟩, rfl⟩,
    ⟨stopping 0x40 0x40000000, ctxOf _ (by decide +kernel), ⟨ctxOf_spec _, by decide +kernel⟩, by decide +kernel, by decide +kernel,
      by decide +kernel, by decide +kernel, allReach_of (by decide +kernel), ⟨_, 0, rfl, Or.inl (error_of (by decide +kernel))⟩, rfl⟩,
    ⟨{ demo [(.a, uni 0x40)] with poison := [.memory (((demo []).storageAddr 0x10100000042).getD 0)] }, ctxOf _ (by decide +kernel),
      ⟨ctxOf_spec _, by decide +kernel⟩, by decide +kernel, by decide +kernel⟩,
    ⟨{ demo [(.a, uni 0x40)] with poison := [.shared 0 0x43] }, ctxOf _ (by decide +kernel),
      ⟨ctxOf_spec _, by decide +kernel⟩, by decide +kernel, by decide +kernel⟩⟩

theorem witness_ExitsNameTheirTargets_bri :
    ∃ s c a, Stands s c 0xFFFF ∧ c.port? .a = some a ∧ laneBit 0xFFFF 5 = true ∧ lane a 5 = some 0x1238 ∧ (0x1238 : W64).toNat % 16 ≠ 0 ∧
      ∀ k, k < 5 → lane a k = some 0x1230 :=
  ⟨demo [(.a, step5 0x1230 0x1238)], ctxOf _ (by decide +kernel), step5 0x1230 0x1238, ⟨ctxOf_spec _, by decide +kernel⟩, by decide +kernel,
    by decide, by decide +kernel, by decide, by decide +kernel⟩

/-- The first example of FIPS 180-4 for SHA-384, the digest's first byte lowest. -/
theorem test_sha384 : (sha384 [0x61, 0x62, 0x63]).toNat =
    0xA725C834A1ECBA5823CCE7A12B078680ED5BFF435A608B1A63D1DE0EAB322C270750C69A693DA0B58B5EA3453F7500CB := by decide +kernel

/-! ### What meets the hypotheses of the statements' further clauses: tasks, the matrix engine, operators, the host -/

theorem witness_QueuesAndTasksFire_more :
    (∃ s c low high, At s c 0x100 ∧ NamesJoin s c 0x100 low high ∧ Uniform c .b (uni 5) 5 ∧ (0x100 : W64).toNat % 64 = 0 ∧ (5 : W64) ≠ 0) ∧
    (∃ s c, At s c 0 ∧ Uniform c .b (uni 5) 5 ∧ c.sup = false ∧ c.team.topup = true ∧ (c.budTarget s 0).foreign c.team.asid = false ∧
      c.budTarget s 0 ≠ .none_) ∧
    ∃ s c, Stands s c 0xFFFF ∧ c.team.tape.mode = .closed ∧ c.team.tape.uncounted = true ∧ c.team.tape.stalled = none ∧
      ∃ n, s.tapeCount c.team c.team.tape.base none (c.team.tape.finish + 1) c.team.tape.finish = .ok n ∧ n = 2 :=
  ⟨⟨demo [(.a, uni 0x100), (.b, uni 5)], ctxOf _ (by decide +kernel), ⟨0x10100000100, 0, 0⟩, ⟨0x10100000140, 0, 0⟩,
      at_of (by decide +kernel), namesJoin_of (by decide +kernel), ⟨by decide +kernel, by decide +kernel⟩, by decide, by decide⟩,
    ⟨(user [(.a, uni 0), (.b, uni 5)]).modTeam 0 fun T => { T with topup := true }, ctxOf _ (by decide +kernel), at_of (by decide +kernel),
      ⟨by decide +kernel, by decide +kernel⟩, by decide +kernel, by decide +kernel, by decide +kernel, by decide +kernel⟩,
    ⟨withTape [] { reversing records.length with mode := .closed, uncounted := true } records, ctxOf _ (by decide +kernel),
      ⟨ctxOf_spec _, by decide +kernel⟩, by decide +kernel, by decide +kernel, by decide +kernel, answers (by decide +kernel)⟩⟩

/-- A read of a tile on which a command is under way, at its first fire and at a later one. -/
theorem witness_MatrixInstructionsFire_reads :
    (∃ s c M, At s c 2 ∧ c.team.matrix = some M ∧ PMap.get? c.blk.mrds c.blk.slot = none ∧
      ∃ y, y ∈ M.queue ∧ y.tile? = some 2 ∧ y.seq ≤ c.team.cmdSeq) ∧
    ∃ s c M, At s c 2 ∧ c.team.matrix = some M ∧ PMap.get? c.blk.mrds c.blk.slot = some 3 ∧ M.queue ≠ [] ∧
      ∀ y, y ∈ M.queue → y.tile? = some 2 → 3 < y.seq :=
  ⟨⟨withClaim 2 { claim true with queue := [{ op := 0x192, a := 2 }] }, ctxOf _ (by decide +kernel),
      { claim true with queue := [{ op := 0x192, a := 2 }] }, at_of (by decide +kernel), by decide +kernel, by decide +kernel, by decide +kernel⟩,
    ⟨(withClaim 2 { claim true with queue := [{ op := 0x192, a := 2, seq := 4 }] }).modFlight 0 0 fun F => { F with mrds := [(0, 3)] },
      ctxOf _ (by decide +kernel), { claim true with queue := [{ op := 0x192, a := 2, seq := 4 }] }, at_of (by decide +kernel),
      by decide +kernel, by decide +kernel, by decide +kernel, by decide +kernel⟩⟩

theorem witness_ReducingAndOrderingOperatorsFire_words :
    (withBarrier .mbarvArrive 0).spoiled 0x10100000100 8 = false ∧ (withBarrier (.mbarvWait 6) 6).readNat 0 0x10100000100 8 < 2 ^ 64 ∧
    Fab (fabric (element .sink [tokA])) (fun E => E.op = .sink ∧ E.allData = true) ∧
    Fab (fabric (element (.welt .stack) [tokA])) (fun E => E.op = .welt .stack ∧ srcToken E.x E.w.a = some tokA) :=
  ⟨by decide +kernel, by decide +kernel, fab_of (by decide +kernel) rfl, fab_of (by decide +kernel) rfl⟩

theorem witness_FiringsChangeTheirElement :
    (fabric (element .addB32 [tokA, tokB])).elem? 3 0 0 |>.any (fun E =>
      decide ((fabric (element .addB32 [tokA, tokB])).residency? E.stack E.slot = some E.res) && decide (E.res.fab = some E.fab) &&
        decide (namedPorts E.w).Nodup) := by decide +kernel

/-- A CONFIG of queue 5: enabled, 16 entries in HBM at 4,096, bound to no core. -/
def configWords : List W64 := [1, 4096, 0, 0, 0, 0, 0, 0]
def damagedTwo : Queue := { entries := [{ entry 1 none with tok := { token 1 with damaged := true } }] }

/-- The same with a page of ASID 9 that grants no access. -/
def closed9 : State := { outside 0 with tlb := { asid := 9, va := 0x600000, size := 2 ^ 21, pa := 0, r := false, w := false, x := false, s := false,
                                                 key := 0 } :: (outside 0).tlb }

theorem witness_HostQueuesAndOutsideRequests_more :
    (fieldOf configWords 1 4 ≤ 12 ∧ fieldOf configWords 25 39 = 0 ∧ fieldOf configWords 116 396 = 0 ∧
      destOfCore 0 = fieldOf configWords 7 10 ∧ fieldOf configWords 64 52 % 4096 = 0 ∧
      ((served two).storageAddr 4096).isSome = true ∧ ((served two).storageAddr (4096 + 2047)).isSome = true ∧
      windowOf 4096 = .hbm ∧ windowOf (4096 + 2047) = .hbm) ∧
    ConfigIgnored (served two) [13 * 2] ∧
    ((served damagedTwo).queue 5).entries[0]?.any (fun e => e.tok.damaged) = true ∧
    (freeEntries ((served damagedTwo).queue 5)).head? = some 0 ∧ (0x108, 8, 0) ∈ queueRegisters {} ∧
    PMap.get? (outside 0).hub.functions 3 = some 9 ∧
    ((closed9.outside 9 .r Window.isHbm 0x600000 8).toOption.isNone && (closed9.outside 9 .w Window.isHbm 0x600000 8).toOption.isNone) = true ∧
    ((outside 0).outside 9 .r Window.isHbm 0x200000 8).toOption.any (fun ps => ps.all fun p => !(outside 0).spoiled p.pa 1) = true ∧
    ({ outside 0 with poison := [.memory 3] } : State).spoiled 3 1 = true ∧ (outside 0).hub.phase = .full ∧
    ((outside 0).queue 5).entries.length < 16 * 2 ^ ((outside 0).queue 5).depthLog :=
  ⟨by decide +kernel, Or.inl (by decide), by decide +kernel, by decide +kernel, by decide +kernel, by decide +kernel,
    by decide +kernel, by decide +kernel, by decide +kernel, by decide +kernel, by decide +kernel⟩

/-- The ring of event records after an event. -/
theorem test_event_ring :
    let s := withHub (inPhase (.early false) true) fun h => { h with ring := some { base := 4096, records := 2 }, clk := 9 }
    (match exec .fullServiceReady s with
      | .next t => t.hub.ring == some { base := 4096, records := 2, next := 1, written := [(4096, BitVec.ofNat 512 (3 + 9 * 2 ^ 64))] }
      | _ => false) = true := by decide +kernel

/-- A store under another key leaves nothing of the old unit to a reader with the old key (R412). -/
theorem test_units_of_a_key :
    let s := (demo []).writeByte 5 100 7
    let t := s.writeByte 9 101 1
    s.readByte 5 100 = some 7 ∧ t.memTag ≠ s.memTag ∧ t.readByte 9 101 = some 1 ∧ (t.writeByte 5 100 7).readByte 5 100 = some 7 := by
  decide +kernel

/-! ### What meets the hypotheses of the statements' further clauses: teams, blocks, threads, transfers -/

/-- The first victim of the crowded core can leave, as can a team that has waited long. -/
theorem witness_ContextsAreKept :
    (∃ b, crowded.blockedOf 0 = some b ∧ (crowded.options 0 b.who).toOption.any (fun ps => match ps with
      | place :: _ =>
        let all := crowded.takeUntil place crowded.leaving
          (crowded.victims (place.map (·.1)) b.prio ((crowded.core 0).overdue.contains b.who))
        place.any (fun x => !crowded.fitsOn crowded.leaving x) && place.all (fun x => crowded.fitsOn all x) &&
          decide (0 ∈ all) && decide (0 ∉ crowded.leaving) && (crowded.team? 0).any fun T => T.taken.isNone && T.mayLeave
      | [] => false) = true) ∧
    (∃ T, waiting.team? 0 = some T ∧ T.place = .resident ∧ T.gone = false ∧ T.taken = none ∧ (∀ G, G ∈ T.groups → T.groupCounts G = true) ∧
      0 < T.waitswap ∧ T.waitswap ≤ T.waitCount ∧ T.mayLeave = true ∧ (waiting.teams.all fun p => p.1 == 0 || p.2.lead != T.lead) = true ∧
      PMap.get? waiting.hub.swapAreas T.core = none) ∧
    (∃ x, ((twoOut.settleCore 0).candidates 0)[0]? = some x ∧ x.who = .team 0 ∧
      (twoOut.awayOf 0).all (fun y => (twoOut.settleCore 0).fitsOn [] (y.2.core, y.2.need)) = true) :=
  ⟨exists_of_any (by decide +kernel), exists_of_any (by decide +kernel), exists_of_any (by decide +kernel)⟩

/-- The block of the acting group commits with effects, and a condition holds of its context. -/
def CommitsHere (s : State) (pack : Bool) (es : List Effect) (p : Ctx → Prop) : Prop := ∃ c, CommitsWith s c pack es ∧ p c
theorem commits_of {s : State} {pack : Bool} {es : List Effect} {p : Ctx → Prop} [DecidablePred p]
    (h : (s.ctx?.any fun c => decide (c.blk.hdr.count < c.blk.slot ∧ c.blk.effects = es ∧ c.blk.hdr.pack = pack ∧ c.blk.hdr.tape = false ∧
      s.commitFault c.t c.g c.team c.group c.blk = none ∧ shortfall c.team (commitCost c.team c.g c.group c.blk) = none ∧
      s.commitWait c.t c.g c.team c.group c.blk = none) && decide (p c)) = true) : CommitsHere s pack es p := by
  cases e : s.ctx? with
  | none => rw [e] at h; cases h
  | some c =>
    rw [e] at h
    simp only [Option.any_some, Bool.and_eq_true, decide_eq_true_eq] at h
    exact ⟨c, ⟨e, h.1.1, h.1.2.1, h.1.2.2.1, h.1.2.2.2.1, h.1.2.2.2.2.1, h.1.2.2.2.2.2.1, h.1.2.2.2.2.2.2⟩, h.2⟩

/-- A group at the end of a block whose effects are given. -/
def leaving (es : List Effect) (h : Group → Group := id) (pack : Bool := false) (m : W16 := 0xFFFF) : State :=
  committing (fun F => { F with effects := es, mask := m, hdr := { F.hdr with exits := 1, pack := pack } }) fun G => h { G with mask := m }
def calling : CallEntry := { ret := 0x900, mask := 0xFFFF }
def joining : ReconEntry := { kind := .join, addr := 0x2000, mask := 0xFFFF, arrived := 0x00FF, stamp := 4 }
def standby : ReconEntry := { kind := .waiting, addr := 0x3000, mask := 0xFF00 }
abbrev all16 (k : ExitKind) (a : W64 := 0x2000) : List Effect := [leaves 1 0 k 0xFFFF a]

theorem witness_ExitsAtTheCommit :
    CommitsHere (leaving (all16 .call)) false (all16 .call) (fun c => c.team.packing = none ∧ c.group.calls = [] ∧ c.group.recon = []) ∧
    CommitsHere (leaving (all16 .ret) fun G => { G with calls := [calling] }) false (all16 .ret)
      (fun c => c.group.calls = [calling] ∧ c.group.recon = []) ∧
    CommitsHere (leaving [leaves 1 0 .ret 0x00FF 0] (fun G => { G with calls := [calling], recon := [standby] }) false 0x00FF) false
      [leaves 1 0 .ret 0x00FF 0] (fun c => c.group.calls = [calling] ∧ c.group.recon = [standby]) ∧
    CommitsHere (leaving (all16 .exit)) false (all16 .exit) (fun c => c.group.launched &&& ~~~(c.group.exited ||| 0xFFFF) = 0) ∧
    CommitsHere (leaving (all16 .yield)) false (all16 .yield) (fun c => c.team.taken = none) ∧
    CommitsHere (leaving [.jset 0 0x5000, leaves 1 0 .br 0xFFF0 0x2000, leaves 2 1 .br 0x000F 0x3000]) false
      ([.jset 0 0x5000] ++ [leaves 1 0 .br 0xFFF0 0x2000, leaves 2 1 .br 0x000F 0x3000])
      (fun c => c.group.recon = [] ∧ (lanesOf 0x000F).length < (lanesOf 0xFFF0).length) ∧
    CommitsHere (leaving [leaves 1 0 .br 0xFF00 0x2000] (fun G => { G with recon := [joining] }) false 0xFF00) false [leaves 1 0 .br 0xFF00 0x2000]
      (fun c => c.group.recon = [joining]) ∧
    CommitsHere (leaving [leaves 1 0 .br 0x000F 0x2000] (fun G => { G with recon := [standby, joining] }) false 0x000F) false
      [leaves 1 0 .br 0x000F 0x2000] (fun c => c.group.recon = [standby, joining] ∧ standby.mask &&& ~~~c.group.exited ≠ 0) ∧
    CommitsHere (leaving ([.rejoin 0 0xFFFF] ++ all16 .br)) false ([.rejoin 0 0xFFFF] ++ all16 .br) (fun c => c.group.recon = []) ∧
    CommitsHere (leaving [.spin 1 0, leaves 0 0 .br 0xFFFF 0x2000]) false [.spin 1 0, leaves 0 0 .br 0xFFFF 0x2000] (fun c => c.group.recon = []) ∧
    CommitsHere (leaving (all16 .br) id true) true (all16 .br) (fun c => c.team.packing = none) :=
  ⟨commits_of (by decide +kernel), commits_of (by decide +kernel), commits_of (by decide +kernel), commits_of (by decide +kernel),
    commits_of (by decide +kernel), commits_of (by decide +kernel), commits_of (by decide +kernel), commits_of (by decide +kernel),
    commits_of (by decide +kernel), commits_of (by decide +kernel), commits_of (by decide +kernel)⟩

/-- A user's team under a trap vector at the end of a block with a `trap`, and a group in supervisor mode at one with an `eret`. -/
def trappingAt : State :=
  let s : State := leaving ([.trap 0 7] ++ all16 .br)
  { s with asidCache := [(0, asidEntryOf .live 0x4440 0)] }.modTeam 0 fun T => { T with sup := false }
def returning : State := leaving ([.eret 0] ++ all16 .br) fun G => { G with sup := some ⟨0xFFFF⟩, epc := 0x700 }
/-- A packed team at the end of its `rejoin` block. -/
def rejoiningAt : State :=
  (leaving ([.rejoin 0 0xFFFF] ++ all16 .br)).modTeam 0 fun T => { T with packing := some { addr := 0x500, open_ := true, tape := false } }

theorem witness_ExitsAtTheCommit_traps :
    CommitsHere trappingAt false ([.trap 0 7] ++ all16 .br) (fun c => c.group.recon = [] ∧ c.group.phase = .running ∧ c.group.sup = none ∧
      c.team.sup = false ∧ (trappingAt.asidEntry c.team.asid).tvec ≠ 0 ∧ (trappingAt.asidEntry c.team.asid).state ≠ .dying) ∧
    CommitsHere returning false ([.eret 0] ++ all16 .br) (fun c => c.group.sup = some ⟨0xFFFF⟩) ∧
    CommitsHere rejoiningAt false ([.rejoin 0 0xFFFF] ++ all16 .br) (fun c =>
      c.team.packing = some { addr := 0x500, open_ := true, tape := false } ∧ c.group.calls = [] ∧ c.team.tape.mode ≠ .recording) :=
  ⟨commits_of (by decide +kernel), commits_of (by decide +kernel), commits_of (by decide +kernel)⟩

/-- Two packed groups with the threads of group 0 in the even lanes of both, at two targets, and none of group 1. -/
def packedApart : State := teamsAre fun T =>
  let G (m : W16) (a : W64) : Group :=
    { launched := m, mask := m, seats := 0xFFFF, phase := .rejoining, home := (lanesOf m).map fun l => (l, 0), targets := (lanesOf m).map fun l => (l, a)
      v := (lanesOf m).map fun l => (16 * 3 + l, BitVec.ofNat 32 (l + a.toNat)) }
  [(0, { T with groups := [G 0x00FF 0x100, G 0xFF00 0x200], packing := some { addr := 0x500, open_ := true, tape := false } })]

theorem witness_ThreadsPackAndReturn_homes :
    ∃ T, packedApart.team? 0 = some T ∧ (∀ G, G ∈ T.groups → G.phase ≠ .running ∧ G.phase ≠ .gathered) ∧ T.tape.mode = .idle ∧ T.tape.head = none ∧
      (T.packedThreads.filter fun x => x.home = 1) = [] ∧ ((T.packedThreads.filter fun x => x.home = 0).map (·.lane)).Nodup ∧
      (T.packedThreads.any fun x => decide (x.target = 0x100)) = true ∧ (T.packedThreads.any fun x => decide (x.target = 0x200)) = true ∧
      (∀ G, G ∈ T.groups → G.calls = [] ∧ (G.v.map (·.1)).Nodup) := exists_of_any (by decide +kernel)

/-- A fault drain whose faults are resumed, a drain whose record is resumed, and a stop that stands. -/
def haltedRes (resumed : Bool) : Residency :=
  { runner (if resumed then idle else outward { recordNode (.storer none) true with number := 5 }) with
      drain := some .fault, halts := [{ standing with resumed := resumed }] }

theorem witness_ResidenciesStop_restart :
    RunsHere (withRunner (haltedRes true)) (fun R F => R.drain = some .fault ∧ (withRunner (haltedRes true)).quiet 3 0 R F = true ∧
      ∀ o, o ∈ R.halts → o.resumed = true) ∧
    (withRunner (haltedRes false)).hub.phase = .full ∧
    (match (withRunner (haltedRes false)).outstanding? 3 5 7 with
      | some (k, R, i, o) => decide (k = 0 ∧ R = haltedRes false ∧ i = none ∧ o ∈ R.halts)
      | none => false) = true := ⟨runs_of (by decide +kernel), by decide +kernel, by decide +kernel⟩

/-- A residency that runs its first image, whose elements and nodes are done, with the second one in memory. -/
def secondImage : State :=
  pokeWords (withRunner (runner { idle with rows := 4, cols := 4 })) 0x440 ([0x400, 0, 0, 0, 0, 0, 0, 0] ++ [0x0050000000000000, 0x0050000000000000,
    0x0050000000000000, 0x0050000000000200])

theorem witness_ResidenciesStart_reload :
    RunsHere secondImage fun R F => F.elems = [] ∧ F.nodes = [] ∧ F.flying = [] ∧ R.lastImage = false ∧ R.drain = none ∧ R.next = none ∧
      ((secondImage.loadHead 3 0 (R.image + 1) R).toOption.any fun x => decide (x.2.rows = F.rows ∧ x.2.cols = F.cols ∧
        x.1.residency? 3 0 = some R ∧ x.2.contexts ≤ ((List.range 4).filter fun j =>
          F.slots.contains j || ((x.1.stack 3).freeSlots R.orow R.ocol F.rows F.cols).contains j).length)) = true := runs_of (by decide +kernel)

/-- An incoming link port node before a queue whose oldest entry is damaged. -/
def besideDamaged : State := (withRunner (runner (inward (linkNode (.queue 5))))).modQueue 5 fun _ => { damagedTwo with enable := true }

theorem witness_CircuitsCarryTokens_damaged :
    RunsHere besideDamaged fun R F => (PMap.get? F.nodes 0).any (fun x => decide (x.stopped = false ∧ x.log.length ≤ x.tile ∧ x.done ≤ x.taken.length)) =
        true ∧ R.stopping = false ∧ R.drain = none ∧ F.canFeed 0 = true ∧
      ((besideDamaged.queue 5).entries[0]?.any fun e => e.tok.damaged && e.held.isNone) = true := runs_of (by decide +kernel)

/-- The end of a tile on either side, an overrun, and a tile of 4,096 tokens. -/
theorem witness_CopiesAndStreamsMove_tiles :
    TeamMeets (withStreams (stream true false 3) []) 0 (fun T => ((withStreams (stream true false 3) []).readElements
        ((stream true false 3).agent T 0) (recOf (streamRecord true)) 3 (min (512 / typeWidth 11) ((recOf (streamRecord true)).tileEnd 3 - 3))).toOption.isSome = true ∧
      3 + min (512 / typeWidth 11) ((recOf (streamRecord true)).tileEnd 3 - 3) = (recOf (streamRecord true)).tileEnd 3) ∧
    TeamMeets (withStreams { stream true true 0 with pending := [(0, 7)] } [{ token 1 with kind := .endOfTile }]) 0 (fun T =>
      (withStreams { stream true true 0 with pending := [(0, 7)] } [{ token 1 with kind := .endOfTile }]).unstorable ((stream true true 0).agent T 0)
        (recOf (streamRecord true)) [(0, some 7)] = none ∧ (PMap.getD T.streams 1 {}).eotDue = false) ∧
    TeamMeets (withStreams (stream true true 0) [rising16 1 1 0xFFFF]) 0 (fun T =>
      (withStreams (stream true true 0) [rising16 1 1 0xFFFF]).firstBad ((stream true true 0).agent T 0) (recOf (streamRecord true)) 0
        ((tokenElements 32 (rising16 1 1 0xFFFF)).take 8) = none ∧
      (recOf (streamRecord true)).tileEnd 0 = (recOf (streamRecord true)).elements ∧
      (recOf (streamRecord true)).elements + Nat.max 1 (32 / typeWidth (recOf (streamRecord true)).type) ≤ 0 + (tokenElements 32 (rising16 1 1 0xFFFF)).length) ∧
    TeamMeets (withStreams { stream false true 0 with tileTok := 4095 } [rising16 1 1 0x00FF]) 0 fun T =>
      (withStreams { stream false true 0 with tileTok := 4095 } [rising16 1 1 0x00FF]).unstorable ((stream false true 0).agent T 0)
        (recOf (streamRecord false)) ((heldWith (stream false true 0) ((tokenElements 32 (rising16 1 1 0x00FF)).take 8)).map fun e => (e.1, some e.2)) = none :=
  ⟨team_of (by decide +kernel), team_of (by decide +kernel), team_of (by decide +kernel), team_of (by decide +kernel)⟩

/-- A team whose product has run, alone or with the partner to its west, whose command spans the partner's B buffers. -/
def completing (op : Nat) (west : Option Nat) : State :=
  match (demo []).team? 0 with
  | some T => { demo [] with
      teams := [(0, { T with matrix := some { claim true with queue := [{ running { op := op, a := 0 } with west := west }] } }),
        (1, { T with id := 1, core := 1, matrix := some { claim true with span := [0], eastDone := true } })] }
  | none => demo []

/-- That a product's checksums agree is a free value of Config; the other hypotheses are met. -/
theorem witness_MatrixCommandsComplete_halves :
    TeamMeets (completing 0x199 none) 0 (fun T => T.matrix.any (fun M => M.running.any fun x => decide (x.west = none ∧ x.paired = false ∧
      M.ask = none ∧ M.doneAt ≤ (completing 0x199 none).clk (dieOf T.core) ∧ x.spanA M ≠ [] ∧ x.spanB M ≠ [])) = true) ∧
    TeamMeets (completing 0x191 none) 0 (fun T => T.matrix.any (fun M => M.running.any fun x => decide (x.west = none ∧ x.paired = false)) = true) ∧
    TeamMeets (withClaim 0 { claim false with queue := [running { op := 0x18F, a := 0, record := plainRecord 0x400 7 64 }] }) 0 (fun T =>
      T.matrix.any (fun M => (M.moving 0x18F).any fun x =>
        ((withClaim 0 { claim false with queue := [running { op := 0x18F, a := 0, record := plainRecord 0x400 7 64 }] }).mldElements 0 x (x.agent 0 T)
          (recOf x.record) {} 0 (recOf x.record).elements).toOption.isSome) = true) ∧
    TeamMeets (withClaim 0 { claim true with queue := [running { op := 0x190, a := 0, record := plainRecord 0x400 11 64 }] }) 0 (fun T =>
      T.matrix.any (fun M => (M.moving 0x190).any fun x =>
        decide ((withClaim 0 { claim true with queue := [running { op := 0x190, a := 0, record := plainRecord 0x400 11 64 }] }).firstBad (x.agent 0 T)
          (recOf x.record) 0 ((List.range 64).map fun e =>
            mstValue 11 (PMap.getD M.acc (16384 * (x.a.toNat % 4) + 128 * (e / 64) + e % 64) 0)) = none)) = true) :=
  ⟨team_of (by decide +kernel), team_of (by decide +kernel), team_of (by decide +kernel), team_of (by decide +kernel)⟩

/-- The halves of a product of a pair, of which the east one has completed. -/
theorem witness_MatrixCommandsComplete_pairs :
    TeamMeets (completing 0x191 (some 1)) 0 (fun T => T.matrix.any (fun M => M.running.any fun x => decide (x.west = some 1 ∧ x.ext = 0)) = true) ∧
    (((completing 0x191 (some 1)).team? 1).bind (·.matrix)).any (fun W => W.eastDone && decide (W.span = [0])) = true :=
  ⟨team_of (by decide +kernel), by decide +kernel⟩

/-- The partner's request has not come in time. -/
def late : State :=
  let M (sent partner : Nat) (east : Bool) : Matrix := { claim true with
    queue := [running { op := 0x193, a := 1 }], ask := some { sent := sent, partner := partner, east := east } }
  match (demo []).team? 0 with
  | some T => { demo [] with
      teams := [(0, { T with matrix := some (M 0 1 true) }), (1, { T with id := 1, core := 1, matrix := some (M 65530 0 false) })]
      dies := [(0, { clk := 65550 })] }
  | none => demo []

theorem witness_PairingAndSequencing_late :
    asks late 0 = some { sent := 0, partner := 1, east := true } ∧ asks late 1 = some { sent := 65530, partner := 0, east := false } ∧
    late.clk 0 = 65550 ∧ (0 : Nat) + 65536 < 65530 + 16 ∧
    (((late.team? 0).bind (·.matrix)).bind (·.asking)).isSome = true ∧
    asks (pairing { op := 0x193, a := 1 } true false) 1 = some { sent := 0, partner := 0, east := false, other := some 0 } ∧
    stepsAt (sequencing { words := [], active := true, begun := 2, dones := [(1, 2)] } { words := [] } |>.modTeam 0 fun T => { T with
      matrix := T.matrix.map fun M => { M with done := some 0x10100000208 } }) 0 (fun _ _ M c =>
        c.active && decide (c.iterations ≤ M.completed 0 c) && decide (0 = M.root) && decide (M.done = some 0x10100000208)) = true := by
  decide +kernel

/-- A handler entry whose frame is being filled. -/
def fillingEntry : State := (demo []).modCore 0 fun C => { C with handlers := [(0, { present := 1 })] }

theorem witness_IsolationEvents_busy :
    ∃ c, fillingEntry.ctx? = some c ∧ fillingEntry.hent0Verdict c.team.core (fillingEntry.core c.team.core) (0 : W64) = .busy :=
  exists_of_any (by decide +kernel)

/-- A block whose header charges what its slots do not, and words that name control registers. -/
theorem witness_DecodeRefusesByName_more :
    bitsOf (0x09008400 : W32).toNat 9 12 = 0x042 ∧ (0x09008400 : W32).toNat / 2 ^ 23 = 0x012 ∧
    bitsOf (0x09802000 : W32).toNat 9 12 = 0x010 ∧ (0x09802000 : W32).toNat / 2 ^ 23 = 0x013 ∧
    bitsOf (0x09802400 : W32).toNat 9 12 = 0x012 ∧
    isBlockOpcode 0x197 = true ∧
    ((atBlock 0x00050000 99).team? 0).any (fun T =>
      ((atBlock 0x00050000 99).translate T.asid T.sup .x Window.isScratchpad 0x2000).toOption.isSome &&
      ((atBlock 0x00050000 99).codeWord T.asid T.sup 0x2000).toOption.any (fun v => decide ((headerOf v).charge = 5)) &&
      ((atBlock 0x00050000 99).codeWords T.asid T.sup 0x2004 1).toOption.any (fun ws => (scanSlots ⟨T.sup, T.k, false⟩ 0 0 {} ws).toOption.any fun y =>
        decide (y.charge ≠ 5 ∧ y.gives = []))) = true := by decide +kernel

end Sys2Proof.Tests
end

