-- ==== Sys2Proof/Proofs/NumberFormats.lean ====
section
/-! The fields of a floating-point encoding, the value it has in terms of them, and O3. -/
namespace Sys2Proof.Machine
open Sys2Proof.Claims

/-- The encoding with sign s, exponent E and fraction F (R85). -/
def Fmt.encode (t : Fmt) (s E F : Nat) : Nat := s * 2 ^ (t.w - 1) + E * 2 ^ t.f + F

/-- The sign, exponent and fraction fit in their fields, and the fraction leaves room for an exponent below the sign bit. -/
structure Fmt.Fields (t : Fmt) (s E F : Nat) : Prop where
  width : t.f ≤ t.w - 1
  sign : s < 2
  exponent : E < 2 ^ (t.w - 1 - t.f)
  fraction : F < 2 ^ t.f

/-- There is one magnitude for each pair of an exponent and a fraction. -/
theorem Fmt.magnitudes_eq {t : Fmt} (h : t.f ≤ t.w - 1) : 2 ^ (t.w - 1) = 2 ^ (t.w - 1 - t.f) * 2 ^ t.f :=
  (Nat.pow_sub_mul_pow 2 h).symm

namespace Fmt.Fields
variable {t : Fmt} {s E F : Nat}

/-- The encodings that share an exponent lie below the sign bit. -/
theorem step_le (h : t.Fields s E F) : E * 2 ^ t.f + 2 ^ t.f ≤ 2 ^ (t.w - 1) := by
  rw [magnitudes_eq h.width, ← Nat.succ_mul]
  exact Nat.mul_le_mul_right _ h.exponent

theorem magnitude_lt (h : t.Fields s E F) : E * 2 ^ t.f + F < 2 ^ (t.w - 1) := by
  have := h.step_le
  have := h.fraction
  omega

theorem encode_mod (h : t.Fields s E F) : t.encode s E F % 2 ^ (t.w - 1) = E * 2 ^ t.f + F := by
  rw [Fmt.encode, Nat.add_assoc, Nat.mul_comm, Nat.mul_add_mod, Nat.mod_eq_of_lt h.magnitude_lt]

theorem encode_div (h : t.Fields s E F) : t.encode s E F / 2 ^ (t.w - 1) = s := by
  rw [Fmt.encode, Nat.add_assoc, Nat.mul_comm, Nat.mul_add_div (Nat.two_pow_pos _), Nat.div_eq_of_lt h.magnitude_lt, Nat.add_zero]

theorem magnitude_div (h : t.Fields s E F) : (E * 2 ^ t.f + F) / 2 ^ t.f = E := by
  rw [Nat.mul_comm, Nat.mul_add_div (Nat.two_pow_pos _), Nat.div_eq_of_lt h.fraction, Nat.add_zero]

theorem magnitude_mod (h : t.Fields s E F) : (E * 2 ^ t.f + F) % 2 ^ t.f = F := by
  rw [Nat.mul_comm, Nat.mul_add_mod, Nat.mod_eq_of_lt h.fraction]

/-- Where the exponent is not all ones, the encodings of the next exponent lie below the sign bit as well. -/
theorem step_le_of_not_top (h : t.Fields s E F) (hE : E ≠ 2 ^ (t.w - 1 - t.f) - 1) :
    E * 2 ^ t.f + 2 ^ t.f + 2 ^ t.f ≤ 2 ^ (t.w - 1) := by
  have hlt := h.exponent
  rw [magnitudes_eq h.width, ← Nat.succ_mul, ← Nat.succ_mul]
  exact Nat.mul_le_mul_right _ (by omega)

/-- The encodings with an all-ones exponent reach up to the sign bit. -/
theorem step_eq_of_top (h : t.Fields s E F) (hE : E = 2 ^ (t.w - 1 - t.f) - 1) : E * 2 ^ t.f + 2 ^ t.f = 2 ^ (t.w - 1) := by
  have hlt := h.exponent
  rw [magnitudes_eq h.width, ← Nat.succ_mul, show E.succ = 2 ^ (t.w - 1 - t.f) by omega]

/-- From the infinity on, the exponent is all ones. -/
theorem infEnc_le_iff (h : t.Fields s E F) : t.infEnc ≤ E * 2 ^ t.f + F ↔ E = 2 ^ (t.w - 1 - t.f) - 1 := by
  have hF := h.fraction
  unfold Fmt.infEnc
  constructor
  · intro hle
    refine Decidable.byContradiction fun hE => ?_
    have := h.step_le_of_not_top hE
    omega
  · intro hE
    have := h.step_eq_of_top hE
    omega

/-- The last magnitude has all ones in both of its fields. -/
theorem eq_last_iff (h : t.Fields s E F) :
    E * 2 ^ t.f + F = 2 ^ (t.w - 1) - 1 ↔ E = 2 ^ (t.w - 1 - t.f) - 1 ∧ F = 2 ^ t.f - 1 := by
  have hF := h.fraction
  constructor
  · intro hm
    have hE : E = 2 ^ (t.w - 1 - t.f) - 1 := by
      refine Decidable.byContradiction fun hE => ?_
      have := h.step_le_of_not_top hE
      omega
    have := h.step_eq_of_top hE
    exact ⟨hE, by omega⟩
  · rintro ⟨hE, rfl⟩
    have := h.step_eq_of_top hE
    omega

/-- The value of an encoding in terms of its fields: the top exponent's special values first, then zeros and subnormals, then
normal numbers (R87). -/
theorem value_encode (h : t.Fields s E F) :
    t.value (t.encode s E F) =
      if t.top = .ieee ∧ E = 2 ^ (t.w - 1 - t.f) - 1 then (if F = 0 then .inf (decide (s = 1)) else .nan)
      else if t.top = .e4m3 ∧ E = 2 ^ (t.w - 1 - t.f) - 1 ∧ F = 2 ^ t.f - 1 then .nan
      else if E = 0 then .fin (decide (s = 1)) F (1 - (t.bias : Int) - t.f)
      else .fin (decide (s = 1)) (2 ^ t.f + F) ((E : Int) - t.bias - t.f) := by
  have hnan : t.top = .e4m3 → t.nanEnc = 2 ^ (t.w - 1) - 1 := fun e => by simp [Fmt.nanEnc, e]
  have hlast : (t.top = .e4m3 ∧ E * 2 ^ t.f + F = t.nanEnc) ↔
      t.top = .e4m3 ∧ E = 2 ^ (t.w - 1 - t.f) - 1 ∧ F = 2 ^ t.f - 1 :=
    and_congr_right fun e => by rw [hnan e, h.eq_last_iff]
  simp only [Fmt.value, h.encode_mod, h.encode_div, h.magnitude_div, h.magnitude_mod, Nat.mod_eq_of_lt h.sign,
    Bool.and_eq_true, decide_eq_true_eq, h.infEnc_le_iff, hlast]

end Fmt.Fields

/-! ### The real value of a finite encoding -/

theorem real_of_value_fin {t : Fmt} {x m : Nat} {neg : Bool} {e : Int} (h : t.value x = .fin neg m e) :
    real t x = some ((if neg then -1 else 1) * (m : Rat) * (2 : Rat) ^ e) := by
  simp [real, h]

/-- A number of units of the last fraction place, as a fraction of the power of two itself. -/
theorem scale_last_place (m : Rat) (f : Nat) (e : Int) : m * (2 : Rat) ^ (e - f) = m / 2 ^ f * 2 ^ e := by
  rw [Int.sub_eq_add_neg, Rat.zpow_add (by decide), Rat.zpow_neg, Rat.zpow_natCast, Rat.div_def, Rat.mul_assoc,
    Rat.mul_comm (2 ^ e)]

/-- A significand of 2^f + F units is one and the fraction. -/
theorem significand_eq (f F : Nat) : ((2 ^ f + F : Nat) : Rat) / 2 ^ f = 1 + (F : Rat) / 2 ^ f := by
  have hpos : (2 : Rat) ^ f ≠ 0 := Rat.ne_of_gt (Rat.pow_pos (by decide))
  have htwo : ((2 : Nat) : Rat) = 2 := rfl
  rw [Rat.natCast_add, Rat.natCast_pow, htwo, Rat.div_def, Rat.add_mul, Rat.mul_inv_cancel _ hpos, Rat.div_def]

namespace Fmt.Fields
variable {t : Fmt} {s E F : Nat}

/-- With exponent 0, no special value having it, the encoding is a zero or a subnormal. -/
theorem real_of_zero_exponent (h : t.Fields s E F) (hE : E = 0) (htop : E ≠ 2 ^ (t.w - 1 - t.f) - 1) :
    real t (t.encode s E F) =
      some ((if s = 1 then -1 else 1) * ((F : Rat) / (2 : Rat) ^ t.f) * (2 : Rat) ^ (1 - (t.bias : Int))) := by
  have hv : t.value (t.encode s E F) = .fin (decide (s = 1)) F (1 - (t.bias : Int) - t.f) := by
    rw [h.value_encode, if_neg (fun c => htop c.2), if_neg (fun c => htop c.2.1), if_pos hE]
  rw [real_of_value_fin hv, Rat.mul_assoc, scale_last_place, ← Rat.mul_assoc]
  simp only [decide_eq_true_eq]

/-- With a positive exponent and outside the special values, the encoding is a normal number. -/
theorem real_of_normal (h : t.Fields s E F) (hE : 0 < E) (hieee : ¬ (t.top = .ieee ∧ E = 2 ^ (t.w - 1 - t.f) - 1))
    (hnan : ¬ (t.top = .e4m3 ∧ E = 2 ^ (t.w - 1 - t.f) - 1 ∧ F = 2 ^ t.f - 1)) :
    real t (t.encode s E F) =
      some ((if s = 1 then -1 else 1) * (1 + (F : Rat) / (2 : Rat) ^ t.f) * (2 : Rat) ^ ((E : Int) - t.bias)) := by
  have hv : t.value (t.encode s E F) = .fin (decide (s = 1)) (2 ^ t.f + F) ((E : Int) - t.bias - t.f) := by
    rw [h.value_encode, if_neg hieee, if_neg hnan, if_neg (by omega)]
  rw [real_of_value_fin hv, Rat.mul_assoc, scale_last_place, significand_eq, ← Rat.mul_assoc]
  simp only [decide_eq_true_eq]

end Fmt.Fields

/-! ### The formats of R85 -/

/-- Every format's exponent has at least two bits, so that 0 is not its all-ones value. -/
theorem formats_exponent {t : Fmt} (ht : t ∈ formats) : t.f + 2 ≤ t.w - 1 := by
  revert t
  decide

/-- E4M3 and e2m1 alone use the top exponent in a way of their own (R87). -/
theorem formats_top_eq_ieee {t : Fmt} (ht : t ∈ formats) : t.top = .ieee ↔ t ≠ fmtE4m3 ∧ t ≠ fmtE2m1 := by
  revert t
  decide

theorem zero_ne_top_exponent {t : Fmt} (ht : t ∈ formats) : 0 < 2 ^ (t.w - 1 - t.f) - 1 := by
  have hbits : 2 ≤ t.w - 1 - t.f := by
    have := formats_exponent ht
    omega
  have := Nat.pow_le_pow_right (by decide : 0 < 2) hbits
  omega

/-- Settles O3: the cases of the exponent, each by the value of the fields. -/
theorem encodingsHaveTheirValue : Obligations.EncodingsHaveTheirValue := by
  unfold Obligations.EncodingsHaveTheirValue
  intro t ht s E F hs hE hF
  have h : t.Fields s E F := ⟨by have := formats_exponent ht; omega, hs, hE, hF⟩
  have htop := zero_ne_top_exponent ht
  refine ⟨fun h0 => h.real_of_zero_exponent h0 (by omega), fun hpos hlt => ?_, fun hmax => ⟨fun h4 h2 => ?_, ?_, ?_⟩⟩
  · exact h.real_of_normal hpos (fun c => by omega) (fun c => by omega)
  · exact h.value_encode.trans (if_pos ⟨(formats_top_eq_ieee ht).2 ⟨h4, h2⟩, hmax⟩)
  · rintro rfl
    refine ⟨fun hF7 => h.real_of_normal (by omega) (by simp [fmtE4m3]) (fun c => hF7 c.2.2), fun hF7 => ?_⟩
    exact h.value_encode.trans ((if_neg (by simp [fmtE4m3])).trans (if_pos ⟨rfl, hmax, hF7⟩))
  · rintro rfl
    exact h.real_of_normal (by omega) (by simp [fmtE2m1]) (by simp [fmtE2m1])

end Sys2Proof.Machine
end

