-- ==== Sys2Proof/Proofs/LaneReductions.lean ====
section
/-! Reductions and scans of a group: the levels of the model's tree are the nodes of R149, a scan takes its blocks from them, and the
operators of R150 on 64-bit containers represent those on the values that the containers hold; O11. -/
namespace Sys2Proof.Machine
open Sys2Proof.Claims

/-! ### The tree of R149 -/

section Tree
variable {α : Type} (op : α → α → α) (leaf : Nat → α)

/-- The nodes N(0, k) to N(2^m − 1, k) in a row: level k of a tree with m levels above it. -/
def nodeRow (m k : Nat) : List α := (List.range (2 ^ m)).map (node op leaf k)

theorem pairUp_map_range (f : Nat → α) (n : Nat) :
    pairUp op ((List.range (2 * n)).map f) = (List.range n).map fun j => op (f (2 * j)) (f (2 * j + 1)) := by
  induction n generalizing f with
  | zero => rfl
  | succ n ih =>
    rw [show 2 * (n + 1) = 2 * n + 1 + 1 from rfl]
    simp only [List.range_succ_eq_map, List.map_cons, List.map_map, pairUp]
    exact congrArg _ (ih fun j => f (j + 2))

/-- Combining neighbours leads from one level to the next. -/
theorem pairUp_nodeRow (m k : Nat) : pairUp op (nodeRow op leaf (m + 1) k) = nodeRow op leaf m (k + 1) := by
  rw [nodeRow, Nat.pow_succ, Nat.mul_comm, pairUp_map_range]
  rfl

theorem treeRoot_nodeRow (d : α) (m k : Nat) : treeRoot op d m (nodeRow op leaf m k) = node op leaf (k + m) 0 := by
  induction m generalizing k with
  | zero => rfl
  | succ m ih => rw [treeRoot, pairUp_nodeRow, ih, Nat.add_right_comm, Nat.add_assoc]

theorem treeNode_nodeRow (d : α) {m i j k : Nat} (hk : k ≤ m) (hj : j < 2 ^ (m - k)) :
    treeNode (treeLevels op m (nodeRow op leaf m i)) d j k = node op leaf (i + k) j := by
  induction m generalizing i k with
  | zero =>
    obtain rfl : k = 0 := by omega
    obtain rfl : j = 0 := by simpa using hj
    rfl
  | succ m ih =>
    cases k with
    | zero =>
      rw [Nat.sub_zero] at hj
      simp [treeNode, treeLevels, nodeRow, hj]
    | succ k =>
      have h := ih (i := i + 1) (k := k) (by omega) (by simpa using hj)
      rw [Nat.add_right_comm] at h
      rw [← Nat.add_assoc, ← h, treeLevels, pairUp_nodeRow]
      rfl

/-- The blocks that a scan has yet to take lie within the tree, so that the model's scan over the levels is that of R149. -/
theorem scanFrom_nodeRow (d : α) {m n k base : Nat} (acc : Option α) (hk : k ≤ m) (hn : base + n % 2 ^ (k + 1) ≤ 2 ^ m) :
    scanFrom op (treeLevels op m (nodeRow op leaf m 0)) d n k base acc = (prefixOf op leaf n k base acc).getD d := by
  induction k generalizing base acc with
  | zero =>
    by_cases hbit : n % 2 = 1
    · have hlt : base < 2 ^ m := by rw [Nat.zero_add, Nat.pow_one] at hn; omega
      have hhere := treeNode_nodeRow op leaf d (i := 0) hk hlt
      cases acc <;> simp [scanFrom, prefixOf, hbit, hhere, node]
    · simp [scanFrom, prefixOf, hbit]
  | succ k ih =>
    rw [Nat.mod_pow_succ] at hn
    by_cases hbit : n / 2 ^ (k + 1) % 2 = 1
    · rw [hbit, Nat.mul_one] at hn
      have hpos : 0 < 2 ^ (k + 1) := Nat.two_pow_pos _
      have hlt : base / 2 ^ (k + 1) < 2 ^ (m - (k + 1)) :=
        Nat.div_lt_of_lt_mul (by rw [Nat.mul_comm, Nat.pow_sub_mul_pow 2 hk]; omega)
      have hhere := treeNode_nodeRow op leaf d (i := 0) hk hlt
      rw [Nat.zero_add] at hhere
      simp only [scanFrom, prefixOf, Nat.testBit_eq_decide_div_mod_eq, hbit, decide_true, if_true, hhere]
      refine (ih _ (by omega) (by omega)).trans ?_
      cases acc <;> rfl
    · simp only [scanFrom, prefixOf, Nat.testBit_eq_decide_div_mod_eq, hbit, decide_false, if_false, Bool.false_eq_true]
      exact ih _ (by omega) (by omega)

/-- The scan over all 16 leaves gives the root. -/
theorem prefixOf_all : prefixOf op leaf 16 4 0 none = some (node op leaf 4 0) := rfl

end Tree

/-! ### Operators on containers and on the values that they hold -/

/-- A reduction of the model represents, through g, an operator with its identity, the values of its leaves and what it delivers. -/
structure Reduction.Represents {α β : Type} (r : Reduction β) (g : α → β) (op : α → α → α) (e : α) (f : W64 → α) (out : α → W64) :
    Prop where
  op_eq : ∀ x y, r.op (g x) (g y) = g (op x y)
  unit_eq : r.unit = g e
  leaf_eq : ∀ x, r.leaf x = g (f x)
  out_eq : ∀ x, r.out (g x) = out x

/-- The lanes of an operand that contribute: active and not null (R148). -/
def contribution (on : W16) (a : Val) : Lanes := (List.range 16).map fun l => if laneBit on l then lane a l else none

namespace Reduction.Represents
variable {α β : Type} {r : Reduction β} {g : α → β} {op : α → α → α} {e : α} {f : W64 → α} {out : α → W64}

theorem node_eq (h : r.Represents g op e f out) (leaf : Nat → α) (k j : Nat) :
    node r.op (fun l => g (leaf l)) k j = g (node op leaf k j) := by
  induction k generalizing j with
  | zero => rfl
  | succ k ih => simp only [node, ih, h.op_eq]

theorem prefixOf_eq (h : r.Represents g op e f out) (leaf : Nat → α) (n k base : Nat) (acc : Option α) :
    prefixOf r.op (fun l => g (leaf l)) n k base (acc.map g) = (prefixOf op leaf n k base acc).map g := by
  induction k generalizing base acc with
  | zero =>
    unfold prefixOf
    split
    · cases acc <;> simp [h.op_eq]
    · rfl
  | succ k ih =>
    unfold prefixOf
    split
    · rw [← ih]
      cases acc <;> simp [h.node_eq, h.op_eq]
    · exact ih _ _

/-- A lane that contributes enters as its value, any other as the identity (R149). -/
theorem leaves_contribution (h : r.Represents g op e f out) (on : W16) (a : Val) :
    r.leaves (contribution on a) = nodeRow r.op (fun l => g (leafOf on a f e l)) 4 0 := by
  refine List.map_congr_left fun l hl => ?_
  rw [contribution, laneAt_map, if_pos (List.mem_range.mp hl), node, leafOf]
  cases (if laneBit on l then lane a l else none) with
  | none => exact h.unit_eq
  | some x => exact h.leaf_eq x

theorem total_contribution (h : r.Represents g op e f out) (on : W16) (a : Val) :
    r.total (contribution on a) = out (node op (leafOf on a f e) 4 0) := by
  rw [Reduction.total, h.leaves_contribution, treeRoot_nodeRow, h.node_eq, h.out_eq]

theorem prefixTo_contribution (h : r.Represents g op e f out) (on : W16) (a : Val) {l : Nat} (hl : l < 16) :
    r.prefixTo (contribution on a) l = out ((prefixOf op (leafOf on a f e) (l + 1) 4 0 none).getD e) := by
  have hscan := scanFrom_nodeRow r.op (fun l => g (leafOf on a f e l)) r.unit (m := 4) (n := l + 1) (base := 0) none
    (Nat.le_refl 4) (by omega)
  have hprefix := h.prefixOf_eq (leafOf on a f e) (l + 1) 4 0 none
  rw [Option.map_none] at hprefix
  rw [Reduction.prefixTo, scanAt, h.leaves_contribution, hscan, hprefix, h.unit_eq, Option.getD_map, h.out_eq]

end Reduction.Represents

/-! ### What the instructions deliver -/

/-- A lane instruction over the contributing lanes of operand a delivers in the lanes that are not null, uniform where its shape is. -/
theorem fireLane_contribution {s : State} {c : Ctx} {on : W16} {a : Val} {op : LaneOp} {shape : Shape} {f : Lanes → Nat → W64}
    (hop : op = ⟨true, false, false, shape, fun x l => f x.contributing l⟩) (hshape : shape ≠ .follows) (hs : Stands s c on)
    (ha : c.port? .a = some a) :
    ∃ v, fireLane s op = .next (s.complete c (some v) (some v) []) ∧
      IsVal v (shape == .uniform) (live on [a]) (f (contribution on a)) := by
  subst hop
  obtain ⟨hctx, hon⟩ := hs
  have hin : c.laneIn? ⟨true, false, false, shape, fun x l => f x.contributing l⟩ =
      some (⟨c.viewOf a, on, a.lanes, [], [], c.drawOf⟩, a.uni && true && true) := by
    simp only [Ctx.laneIn?, hon, Ctx.portIf?_true, Ctx.portIf?_false, ha]
    rfl
  obtain ⟨v, hfire, hreg, hlen, huni, hlanes⟩ := fireLane_shape _ hctx hin
  refine ⟨v, hfire, ?_, hreg, hlen, fun l hl => ?_⟩
  · cases shape with
    | follows => exact absurd rfl hshape
    | laneWise => exact huni
    | uniform => exact huni
  · rw [lane, hlanes l hl]
    simp only [live, lane, LaneOp.inputs, inputsPresent, Bool.and_eq_true]
    rfl

section Instructions
variable {α β : Type} {i j : Instr} {r : Reduction β} {g : α → β} {op : α → α → α} {e : α} {f : W64 → α} {out : α → W64}

theorem Reduction.Represents.reduces (h : r.Represents g op e f out) (hi : ∀ s, exec i s = fireLane s (.gred r)) :
    Reduces i op e f out := by
  intro s c on a hs ha
  obtain ⟨v, hfire, hval⟩ := fireLane_contribution (op := .gred r) (f := fun v _ => r.total v) rfl (by decide) hs ha
  rw [h.total_contribution] at hval
  exact ⟨v, (hi s).trans hfire, hval⟩

theorem Reduction.Represents.scans (h : r.Represents g op e f out) (hi : ∀ s, exec i s = fireLane s (.gscan r)) :
    Scans i op e f out := by
  intro s c on a hs ha
  obtain ⟨v, hfire, huni, hreg, hlen, hlanes⟩ := fireLane_contribution (op := .gscan r) rfl (by decide) hs ha
  refine ⟨v, (hi s).trans hfire, huni, hreg, hlen, fun l hl => ?_⟩
  rw [hlanes l hl, h.prefixTo_contribution on a hl]

theorem Reduction.Represents.folds (h : r.Represents g op e f out) (hi : ∀ s, exec i s = fireLane s (.gred r))
    (hj : ∀ s, exec j s = fireLane s (.gscan r)) : Folds i j op e f out :=
  ⟨h.reduces hi, h.scans hj⟩

end Instructions

/-! ### Words of 32 bits in their containers -/

@[simp] theorem lo_up (x : W32) : lo (up x) = x := by simp [lo, up]

theorem ux_eq_lo (x : W64) : ux 32 x = (lo x).toNat := by simp [ux, lo]

theorem wrapTo_ofInt (v : Int) : wrapTo 32 v = up (BitVec.ofInt 32 v) := by
  apply BitVec.eq_of_toNat_eq
  simp [wrapTo, up, BitVec.toNat_ofInt]

theorem wrapTo_ux (x : W64) : wrapTo 32 (ux 32 x : Nat) = up (lo x) := by
  rw [wrapTo_ofInt, ux_eq_lo, BitVec.ofInt_natCast, BitVec.ofNat_toNat, BitVec.setWidth_eq]

theorem readAs_i32 (x : W64) : readAs .i32 x = (lo x).toInt := by
  simp only [readAs, intSigned, intBits, sx, signed, ux_eq_lo, BitVec.toInt_eq_toNat_cond, if_true]
  split <;> split <;> omega

theorem readAs_n32 (x : W64) : readAs .n32 x = (lo x).toNat := by
  simp [readAs, intSigned, intBits, ux_eq_lo]

/-- Read in a type of 32 bits and wrapped again, a word is itself. -/
theorem wrapTo_readAs_up {t : IntType} (ht : intBits t = 32) (x : W32) : wrapTo 32 (readAs t (up x)) = up x := by
  rw [wrapTo_ofInt]
  cases t with
  | i32 => rw [readAs_i32, lo_up, BitVec.ofInt_toInt]
  | n32 => rw [readAs_n32, lo_up, BitVec.ofInt_natCast, BitVec.ofNat_toNat, BitVec.setWidth_eq]
  | i64 => exact absurd ht (by decide)
  | n64 => exact absurd ht (by decide)

theorem clampTo_eq_max_min (t : IntType) (v : Int) : clampTo t v = max (intMin t) (min (intMax t) v) := by
  have hle : intMin t ≤ intMax t := by cases t <;> decide
  unfold clampTo
  split
  · omega
  · split <;> omega

theorem wrapTo_clampTo_i32 (v : Int) : wrapTo 32 (clampTo .i32 v) = up (clampS 32 v) := by
  rw [wrapTo_ofInt, clampTo_eq_max_min]
  rfl

theorem wrapTo_clampTo_n32 (v : Int) : wrapTo 32 (clampTo .n32 v) = up (clampU 32 v) := by
  rw [wrapTo_ofInt, clampTo_eq_max_min]
  rfl

theorem and_low_word (x : W64) : x &&& 0xFFFFFFFF = up (lo x) := by
  apply BitVec.eq_of_toNat_eq
  simp only [up, lo, BitVec.toNat_and, BitVec.toNat_setWidth]
  exact (Nat.and_two_pow_sub_one_eq_mod x.toNat 32).trans (by omega)

/-! ### The rows of R150 -/

/-- The greater of two words in a type of 32 bits. -/
theorem intMaxOf_up {t : IntType} (ht : intBits t = 32) (x y : W32) :
    intMaxOf t (up x) (up y) = up (if readAs t (up y) ≤ readAs t (up x) then x else y) := by
  rw [intMaxOf, ht]
  split <;> exact wrapTo_readAs_up ht _

/-- The less of two words in a type of 32 bits. -/
theorem intMinOf_up {t : IntType} (ht : intBits t = 32) (x y : W32) :
    intMinOf t (up x) (up y) = up (if readAs t (up x) ≤ readAs t (up y) then x else y) := by
  rw [intMinOf, ht]
  split <;> exact wrapTo_readAs_up ht _

theorem redMax_i32_represents :
    (redMax .i32).Represents up (fun x y : W32 => if y.sle x then x else y) 0x80000000 lo up :=
  ⟨fun _ _ => by
    simp only [redMax, intMaxOf_up (t := .i32) rfl, readAs_i32, lo_up, BitVec.sle_iff_toInt_le],
    rfl, wrapTo_ux, fun _ => rfl⟩

theorem redMax_n32_represents : (redMax .n32).Represents up (fun x y : W32 => if y.ule x then x else y) 0 lo up :=
  ⟨fun _ _ => by
    simp only [redMax, intMaxOf_up (t := .n32) rfl, readAs_n32, lo_up, BitVec.ule_iff_toNat_le, Int.ofNat_le],
    rfl, wrapTo_ux, fun _ => rfl⟩

theorem redMin_i32_represents :
    (redMin .i32).Represents up (fun x y : W32 => if x.sle y then x else y) 0x7FFFFFFF lo up :=
  ⟨fun _ _ => by
    simp only [redMin, intMinOf_up (t := .i32) rfl, readAs_i32, lo_up, BitVec.sle_iff_toInt_le],
    rfl, wrapTo_ux, fun _ => rfl⟩

theorem redMin_n32_represents :
    (redMin .n32).Represents up (fun x y : W32 => if x.ule y then x else y) 0xFFFFFFFF lo up :=
  ⟨fun _ _ => by
    simp only [redMin, intMinOf_up (t := .n32) rfl, readAs_n32, lo_up, BitVec.ule_iff_toNat_le, Int.ofNat_le],
    rfl, wrapTo_ux, fun _ => rfl⟩

theorem redMax_f32_represents : (redMax .f32).Represents id (fmaxOf tyF32) 0x7FC00000 (fun x => up (lo x)) id :=
  ⟨fun _ _ => rfl, rfl, wrapTo_ux, fun _ => rfl⟩

theorem redMin_f32_represents : (redMin .f32).Represents id (fminOf tyF32) 0x7FC00000 (fun x => up (lo x)) id :=
  ⟨fun _ _ => rfl, rfl, wrapTo_ux, fun _ => rfl⟩

theorem redAddFloat_tyF32_represents :
    (redAddFloat tyF32).Represents id (faddOf tyF32 .rne) 0x80000000 (fun x => up (lo x)) id where
  op_eq _ _ := rfl
  unit_eq := rfl
  leaf_eq x := by
    apply BitVec.eq_of_toNat_eq
    simp [redAddFloat, FType.map, FType.elem, tyF32, fmtF32, bitsOf, up, lo]
  out_eq _ := rfl

theorem redAddFloat_tyF64_represents : (redAddFloat tyF64).Represents id (faddOf tyF64 .rne) 0x8000000000000000 id id where
  op_eq _ _ := rfl
  unit_eq := rfl
  leaf_eq x := by
    apply BitVec.eq_of_toNat_eq
    simpa [redAddFloat, FType.map, FType.elem, tyF64, fmtF64, bitsOf] using x.isLt
  out_eq _ := rfl

theorem redBitwise_and_represents : (redBitwise .and).Represents up (fun x y : W32 => x &&& y) (BitVec.allOnes 32) lo up :=
  ⟨fun _ _ => (and_low_word _).trans (by simp [lo, up]), rfl, wrapTo_ux, fun _ => rfl⟩

theorem redBitwise_or_represents : (redBitwise .or).Represents up (fun x y : W32 => x ||| y) 0 lo up :=
  ⟨fun _ _ => (and_low_word _).trans (by simp [lo, up]), rfl, wrapTo_ux, fun _ => rfl⟩

theorem redBitwise_xor_represents : (redBitwise .xor).Represents up (fun x y : W32 => x ^^^ y) 0 lo up :=
  ⟨fun _ _ => (and_low_word _).trans (by simp [lo, up]), rfl, wrapTo_ux, fun _ => rfl⟩

theorem redSexp_represents : redSexp.Represents id sexpOf 0x00000000FF800000 id id :=
  ⟨fun _ _ => rfl, rfl, fun _ => rfl, fun _ => rfl⟩

/-- An integer sum is exact over the tree, whatever its root delivers. -/
theorem redAddInt_represents {sat n : Bool} {f : W64 → Int} {out : Int → W64} (hleaf : ∀ x, readAs (addType n) x = f x)
    (hout : ∀ v, wrapTo 32 (if sat then clampTo (addType n) v else v) = out v) :
    (redAddInt sat n).Represents id (fun x y : Int => x + y) 0 f out :=
  ⟨fun _ _ => rfl, rfl, hleaf, hout⟩

/-- Settles O11: each instruction fires the model's reduction of its row, which represents the operator that the statement names. -/
theorem reductionsAndScansUseOneTree : Obligations.ReductionsAndScansUseOneTree := by
  unfold Obligations.ReductionsAndScansUseOneTree
  refine ⟨prefixOf_all, ?_, ?_, ?_, ?_, ?_, ?_, ?_, ?_, ?_, ?_, ?_, ?_, ?_, ?_, ?_, ?_⟩
  · exact (redAddInt_represents (sat := false) (n := false) readAs_i32 wrapTo_ofInt).folds (fun _ => rfl) fun _ => rfl
  · exact (redAddInt_represents (sat := false) (n := true) readAs_n32 wrapTo_ofInt).folds (fun _ => rfl) fun _ => rfl
  · exact (redAddInt_represents (sat := true) (n := false) readAs_i32 wrapTo_clampTo_i32).folds (fun _ => rfl) fun _ => rfl
  · exact (redAddInt_represents (sat := true) (n := true) readAs_n32 wrapTo_clampTo_n32).folds (fun _ => rfl) fun _ => rfl
  · exact redAddFloat_tyF32_represents.folds (fun _ => rfl) fun _ => rfl
  · exact redAddFloat_tyF64_represents.folds (fun _ => rfl) fun _ => rfl
  · exact redMax_i32_represents.folds (fun _ => rfl) fun _ => rfl
  · exact redMax_n32_represents.folds (fun _ => rfl) fun _ => rfl
  · exact redMax_f32_represents.folds (fun _ => rfl) fun _ => rfl
  · exact redMin_i32_represents.folds (fun _ => rfl) fun _ => rfl
  · exact redMin_n32_represents.folds (fun _ => rfl) fun _ => rfl
  · exact redMin_f32_represents.folds (fun _ => rfl) fun _ => rfl
  · exact redBitwise_and_represents.reduces fun _ => rfl
  · exact redBitwise_or_represents.reduces fun _ => rfl
  · exact redBitwise_xor_represents.reduces fun _ => rfl
  · exact redSexp_represents.reduces fun _ => rfl

end Sys2Proof.Machine
end
